-- ==== Sys2Proof/Word.lean ====
section
/-! DEFINITION. The machine's words (00_scope R6, R8): a 32-bit general word, a halfword, a byte and the
5-bit general register number. -/

namespace Sys2Proof

/-- A 32-bit value: a general register, an address, an instruction word (00_scope R6). -/
abbrev Word := BitVec 32

/-- A 16-bit value: a halfword, an immediate field. -/
abbrev Half := BitVec 16

/-- An 8-bit value: the smallest addressable unit (10_state R46). -/
abbrev Byte := BitVec 8

/-- A general register number, 0 to 31 (10_state R22); also a COP0 register number (10_state R31). -/
abbrev Reg := BitVec 5

end Sys2Proof
end

