-- ==== Sys2Proof/Syntax.lean ====
section
/-! DEFINITION. The instructions: one constructor for each of the 72 rows of spec/opcode_table.json, with the
operand fields the row lists, destination first as in the assembler forms of the rules (30_encoding R151).
The fields an instruction does not use are not part of it (30_encoding R142). -/

namespace Sys2Proof

inductive Instr where
  -- 40_alu, R171 to R180
  | add (rd rs rt : Reg)
  | addu (rd rs rt : Reg)
  | sub (rd rs rt : Reg)
  | subu (rd rs rt : Reg)
  | and (rd rs rt : Reg)
  | or (rd rs rt : Reg)
  | xor (rd rs rt : Reg)
  | nor (rd rs rt : Reg)
  | slt (rd rs rt : Reg)
  | sltu (rd rs rt : Reg)
  -- 40_alu, R181 to R188
  | addi (rt rs : Reg) (imm : Half)
  | addiu (rt rs : Reg) (imm : Half)
  | slti (rt rs : Reg) (imm : Half)
  | sltiu (rt rs : Reg) (imm : Half)
  | andi (rt rs : Reg) (imm : Half)
  | ori (rt rs : Reg) (imm : Half)
  | xori (rt rs : Reg) (imm : Half)
  | lui (rt : Reg) (imm : Half)
  -- 41_shift, R191 to R196; a shift amount is a count
  | sll (rd rt : Reg) (shamt : Nat)
  | srl (rd rt : Reg) (shamt : Nat)
  | sra (rd rt : Reg) (shamt : Nat)
  | sllv (rd rt rs : Reg)
  | srlv (rd rt rs : Reg)
  | srav (rd rt rs : Reg)
  -- 42_muldiv, R201 to R208
  | mult (rs rt : Reg)
  | multu (rs rt : Reg)
  | div (rs rt : Reg)
  | divu (rs rt : Reg)
  | mfhi (rd : Reg)
  | mthi (rs : Reg)
  | mflo (rd : Reg)
  | mtlo (rs : Reg)
  -- 43_branch_jump, R214 to R225
  | j (index : BitVec 26)
  | jal (index : BitVec 26)
  | jr (rs : Reg)
  | jalr (rd rs : Reg)
  | beq (rs rt : Reg) (imm : Half)
  | bne (rs rt : Reg) (imm : Half)
  | blez (rs : Reg) (imm : Half)
  | bgtz (rs : Reg) (imm : Half)
  | bltz (rs : Reg) (imm : Half)
  | bgez (rs : Reg) (imm : Half)
  | bltzal (rs : Reg) (imm : Half)
  | bgezal (rs : Reg) (imm : Half)
  -- 44_load_store, R231 to R242: `op rt, imm(rs)`
  | lb (rt rs : Reg) (imm : Half)
  | lbu (rt rs : Reg) (imm : Half)
  | lh (rt rs : Reg) (imm : Half)
  | lhu (rt rs : Reg) (imm : Half)
  | lw (rt rs : Reg) (imm : Half)
  | lwl (rt rs : Reg) (imm : Half)
  | lwr (rt rs : Reg) (imm : Half)
  | sb (rt rs : Reg) (imm : Half)
  | sh (rt rs : Reg) (imm : Half)
  | sw (rt rs : Reg) (imm : Half)
  | swl (rt rs : Reg) (imm : Half)
  | swr (rt rs : Reg) (imm : Half)
  -- 45_system_coproc, R251 to R259; `code` is a number the hardware does not look at
  | syscall (code : Nat)
  | brk (code : Nat)
  | mfc0 (rt rd : Reg)
  | mtc0 (rt rd : Reg)
  | rfe
  | cop1
  | cop2
  | cop3
  | lwc0 (rt rs : Reg) (imm : Half)
  | lwc1 (rt rs : Reg) (imm : Half)
  | lwc2 (rt rs : Reg) (imm : Half)
  | lwc3 (rt rs : Reg) (imm : Half)
  | swc0 (rt rs : Reg) (imm : Half)
  | swc1 (rt rs : Reg) (imm : Half)
  | swc2 (rt rs : Reg) (imm : Half)
  | swc3 (rt rs : Reg) (imm : Half)
deriving DecidableEq, Repr

end Sys2Proof
end

