-- ==== Sys2Proof/WellFormed.lean ====
section
/-! DEFINITION. Which instruction terms name an instruction. Register numbers, immediates and jump indexes
have the width of their fields by their types; the two operands that are plain numbers, a shift amount
(41_shift R190: 5 bits, 0..31) and the code of SYSCALL and BREAK (45_system_coproc R251, R252: 20 bits), are
checked here. -/

namespace Sys2Proof

/-- The instruction's operands fit their fields. -/
def WellFormed : Instr → Bool
  | .add _ _ _ => true
  | .addu _ _ _ => true
  | .sub _ _ _ => true
  | .subu _ _ _ => true
  | .and _ _ _ => true
  | .or _ _ _ => true
  | .xor _ _ _ => true
  | .nor _ _ _ => true
  | .slt _ _ _ => true
  | .sltu _ _ _ => true
  | .addi _ _ _ => true
  | .addiu _ _ _ => true
  | .slti _ _ _ => true
  | .sltiu _ _ _ => true
  | .andi _ _ _ => true
  | .ori _ _ _ => true
  | .xori _ _ _ => true
  | .lui _ _ => true
  | .sll _ _ shamt => decide (shamt < 32)
  | .srl _ _ shamt => decide (shamt < 32)
  | .sra _ _ shamt => decide (shamt < 32)
  | .sllv _ _ _ => true
  | .srlv _ _ _ => true
  | .srav _ _ _ => true
  | .mult _ _ => true
  | .multu _ _ => true
  | .div _ _ => true
  | .divu _ _ => true
  | .mfhi _ => true
  | .mthi _ => true
  | .mflo _ => true
  | .mtlo _ => true
  | .j _ => true
  | .jal _ => true
  | .jr _ => true
  | .jalr _ _ => true
  | .beq _ _ _ => true
  | .bne _ _ _ => true
  | .blez _ _ => true
  | .bgtz _ _ => true
  | .bltz _ _ => true
  | .bgez _ _ => true
  | .bltzal _ _ => true
  | .bgezal _ _ => true
  | .lb _ _ _ => true
  | .lbu _ _ _ => true
  | .lh _ _ _ => true
  | .lhu _ _ _ => true
  | .lw _ _ _ => true
  | .lwl _ _ _ => true
  | .lwr _ _ _ => true
  | .sb _ _ _ => true
  | .sh _ _ _ => true
  | .sw _ _ _ => true
  | .swl _ _ _ => true
  | .swr _ _ _ => true
  | .syscall code => decide (code < 2 ^ 20)
  | .brk code => decide (code < 2 ^ 20)
  | .mfc0 _ _ => true
  | .mtc0 _ _ => true
  | .rfe => true
  | .cop1 => true
  | .cop2 => true
  | .cop3 => true
  | .lwc0 _ _ _ => true
  | .lwc1 _ _ _ => true
  | .lwc2 _ _ _ => true
  | .lwc3 _ _ _ => true
  | .swc0 _ _ _ => true
  | .swc1 _ _ _ => true
  | .swc2 _ _ _ => true
  | .swc3 _ _ _ => true

end Sys2Proof
end

