-- ==== Sys2Proof/Decode.lean ====
section
/-! DEFINITION. Decoding (30_encoding R140 to R148, R150) and, after it, the encoder and the opcode table of
spec/opcode_table.json as data (R153). Decoding is total: a word no row matches is rejected by name. -/

namespace Sys2Proof

/-- Why a word or a byte sequence is no instruction. Safe: the machine raises the exception the spec gives. -/
inductive DecodeReject where
  /-- an unassigned primary opcode (R148) -/
  | reservedOpcode
  /-- an unassigned funct of the SPECIAL map (R148) -/
  | reservedSpecial
  /-- an unassigned rt of the BCOND map (R146, R148) -/
  | reservedBcond
  /-- a COP0 word that is none of MFC0, MTC0, RFE (R147, R148) -/
  | reservedCop0
  /-- fewer than four bytes -/
  | truncated
deriving DecidableEq, Repr

/-- `ir[31:26]` (R140). -/
def opOf (w : Word) : BitVec 6 := w.extractLsb' 26 6
/-- `ir[25:21]` (R141). -/
def rsOf (w : Word) : Reg := w.extractLsb' 21 5
/-- `ir[20:16]` (R141). -/
def rtOf (w : Word) : Reg := w.extractLsb' 16 5
/-- `ir[15:11]` (R141). -/
def rdOf (w : Word) : Reg := w.extractLsb' 11 5
/-- `ir[10:6]` (R141). -/
def shamtOf (w : Word) : BitVec 5 := w.extractLsb' 6 5
/-- `ir[5:0]` (R140). -/
def functOf (w : Word) : BitVec 6 := w.extractLsb' 0 6
/-- `ir[15:0]` (R141). -/
def imm16Of (w : Word) : Half := w.extractLsb' 0 16
/-- `ir[25:0]` (R141). -/
def index26Of (w : Word) : BitVec 26 := w.extractLsb' 0 26
/-- `ir[25:6]`, the code of SYSCALL and BREAK (R141). -/
def codeOf (w : Word) : BitVec 20 := w.extractLsb' 6 20

/-- The SPECIAL map, `op = 0x00` (R145). -/
def decodeSpecial (w : Word) : Except DecodeReject Instr :=
  match functOf w with
  | 0x00#6 => .ok (.sll (rdOf w) (rtOf w) ((shamtOf w).toNat))
  | 0x02#6 => .ok (.srl (rdOf w) (rtOf w) ((shamtOf w).toNat))
  | 0x03#6 => .ok (.sra (rdOf w) (rtOf w) ((shamtOf w).toNat))
  | 0x04#6 => .ok (.sllv (rdOf w) (rtOf w) (rsOf w))
  | 0x06#6 => .ok (.srlv (rdOf w) (rtOf w) (rsOf w))
  | 0x07#6 => .ok (.srav (rdOf w) (rtOf w) (rsOf w))
  | 0x08#6 => .ok (.jr (rsOf w))
  | 0x09#6 => .ok (.jalr (rdOf w) (rsOf w))
  | 0x0C#6 => .ok (.syscall ((codeOf w).toNat))
  | 0x0D#6 => .ok (.brk ((codeOf w).toNat))
  | 0x10#6 => .ok (.mfhi (rdOf w))
  | 0x11#6 => .ok (.mthi (rsOf w))
  | 0x12#6 => .ok (.mflo (rdOf w))
  | 0x13#6 => .ok (.mtlo (rsOf w))
  | 0x18#6 => .ok (.mult (rsOf w) (rtOf w))
  | 0x19#6 => .ok (.multu (rsOf w) (rtOf w))
  | 0x1A#6 => .ok (.div (rsOf w) (rtOf w))
  | 0x1B#6 => .ok (.divu (rsOf w) (rtOf w))
  | 0x20#6 => .ok (.add (rdOf w) (rsOf w) (rtOf w))
  | 0x21#6 => .ok (.addu (rdOf w) (rsOf w) (rtOf w))
  | 0x22#6 => .ok (.sub (rdOf w) (rsOf w) (rtOf w))
  | 0x23#6 => .ok (.subu (rdOf w) (rsOf w) (rtOf w))
  | 0x24#6 => .ok (.and (rdOf w) (rsOf w) (rtOf w))
  | 0x25#6 => .ok (.or (rdOf w) (rsOf w) (rtOf w))
  | 0x26#6 => .ok (.xor (rdOf w) (rsOf w) (rtOf w))
  | 0x27#6 => .ok (.nor (rdOf w) (rsOf w) (rtOf w))
  | 0x2A#6 => .ok (.slt (rdOf w) (rsOf w) (rtOf w))
  | 0x2B#6 => .ok (.sltu (rdOf w) (rsOf w) (rtOf w))
  | _ => .error .reservedSpecial

/-- The BCOND map, `op = 0x01` (R146). -/
def decodeBcond (w : Word) : Except DecodeReject Instr :=
  match rtOf w with
  | 0x00#5 => .ok (.bltz (rsOf w) (imm16Of w))
  | 0x01#5 => .ok (.bgez (rsOf w) (imm16Of w))
  | 0x10#5 => .ok (.bltzal (rsOf w) (imm16Of w))
  | 0x11#5 => .ok (.bgezal (rsOf w) (imm16Of w))
  | _ => .error .reservedBcond

/-- The coprocessor-0 map, `op = 0x10` (R147). Bits 10:0 of MFC0 and MTC0 and bits 24:6 of RFE are not looked
at (R142). -/
def decodeCop0 (w : Word) : Except DecodeReject Instr :=
  if rsOf w = 0x00 then .ok (.mfc0 (rtOf w) (rdOf w))
  else if rsOf w = 0x04 then .ok (.mtc0 (rtOf w) (rdOf w))
  else if w.getLsbD 25 ∧ functOf w = 0x10 then .ok .rfe
  else .error .reservedCop0

/-- The primary map (R144). -/
def decodeWord (w : Word) : Except DecodeReject Instr :=
  match opOf w with
  | 0x00#6 => decodeSpecial w
  | 0x01#6 => decodeBcond w
  | 0x02#6 => .ok (.j (index26Of w))
  | 0x03#6 => .ok (.jal (index26Of w))
  | 0x04#6 => .ok (.beq (rsOf w) (rtOf w) (imm16Of w))
  | 0x05#6 => .ok (.bne (rsOf w) (rtOf w) (imm16Of w))
  | 0x06#6 => .ok (.blez (rsOf w) (imm16Of w))
  | 0x07#6 => .ok (.bgtz (rsOf w) (imm16Of w))
  | 0x08#6 => .ok (.addi (rtOf w) (rsOf w) (imm16Of w))
  | 0x09#6 => .ok (.addiu (rtOf w) (rsOf w) (imm16Of w))
  | 0x0A#6 => .ok (.slti (rtOf w) (rsOf w) (imm16Of w))
  | 0x0B#6 => .ok (.sltiu (rtOf w) (rsOf w) (imm16Of w))
  | 0x0C#6 => .ok (.andi (rtOf w) (rsOf w) (imm16Of w))
  | 0x0D#6 => .ok (.ori (rtOf w) (rsOf w) (imm16Of w))
  | 0x0E#6 => .ok (.xori (rtOf w) (rsOf w) (imm16Of w))
  | 0x0F#6 => .ok (.lui (rtOf w) (imm16Of w))
  | 0x10#6 => decodeCop0 w
  | 0x11#6 => .ok (.cop1)
  | 0x12#6 => .ok (.cop2)
  | 0x13#6 => .ok (.cop3)
  | 0x20#6 => .ok (.lb (rtOf w) (rsOf w) (imm16Of w))
  | 0x21#6 => .ok (.lh (rtOf w) (rsOf w) (imm16Of w))
  | 0x22#6 => .ok (.lwl (rtOf w) (rsOf w) (imm16Of w))
  | 0x23#6 => .ok (.lw (rtOf w) (rsOf w) (imm16Of w))
  | 0x24#6 => .ok (.lbu (rtOf w) (rsOf w) (imm16Of w))
  | 0x25#6 => .ok (.lhu (rtOf w) (rsOf w) (imm16Of w))
  | 0x26#6 => .ok (.lwr (rtOf w) (rsOf w) (imm16Of w))
  | 0x28#6 => .ok (.sb (rtOf w) (rsOf w) (imm16Of w))
  | 0x29#6 => .ok (.sh (rtOf w) (rsOf w) (imm16Of w))
  | 0x2A#6 => .ok (.swl (rtOf w) (rsOf w) (imm16Of w))
  | 0x2B#6 => .ok (.sw (rtOf w) (rsOf w) (imm16Of w))
  | 0x2E#6 => .ok (.swr (rtOf w) (rsOf w) (imm16Of w))
  | 0x30#6 => .ok (.lwc0 (rtOf w) (rsOf w) (imm16Of w))
  | 0x31#6 => .ok (.lwc1 (rtOf w) (rsOf w) (imm16Of w))
  | 0x32#6 => .ok (.lwc2 (rtOf w) (rsOf w) (imm16Of w))
  | 0x33#6 => .ok (.lwc3 (rtOf w) (rsOf w) (imm16Of w))
  | 0x38#6 => .ok (.swc0 (rtOf w) (rsOf w) (imm16Of w))
  | 0x39#6 => .ok (.swc1 (rtOf w) (rsOf w) (imm16Of w))
  | 0x3A#6 => .ok (.swc2 (rtOf w) (rsOf w) (imm16Of w))
  | 0x3B#6 => .ok (.swc3 (rtOf w) (rsOf w) (imm16Of w))
  | _ => .error .reservedOpcode

/-- A word from its four bytes, the lowest address first (20_memory R100: little-endian). -/
def wordOfBytes (b0 b1 b2 b3 : Byte) : Word := b3 ++ b2 ++ b1 ++ b0

/-- Decode the first instruction of a byte sequence, and give the bytes after it. -/
def decode : List Byte → Except DecodeReject (Instr × List Byte)
  | b0 :: b1 :: b2 :: b3 :: rest =>
    match decodeWord (wordOfBytes b0 b1 b2 b3) with
    | .ok i => .ok (i, rest)
    | .error e => .error e
  | _ => .error .truncated

/-- The bytes of a number, the least significant first. -/
def bytesOfNat : Nat → Nat → List Byte
  | 0, _ => []
  | n + 1, v => BitVec.ofNat 8 v :: bytesOfNat n (v / 256)

/-- The instruction the decoder reads from a word whose low `nbits` bits are those of `w` and whose other bits
are 0, laid out as the hardware stores it. -/
def decodeTableWord (nbits w : Nat) : Option Instr :=
  match decode (bytesOfNat 4 (w % 2 ^ nbits)) with
  | .ok (i, _) => some i
  | .error _ => none

/-! The encoder, from the same tables. Fields an instruction does not use are written 0 (R142). -/

/-- The R format (R141). -/
def rWord (op : BitVec 6) (rs rt rd : Reg) (shamt : BitVec 5) (funct : BitVec 6) : Word :=
  op ++ rs ++ rt ++ rd ++ shamt ++ funct
/-- The I format (R141). -/
def iWord (op : BitVec 6) (rs rt : Reg) (imm : Half) : Word := op ++ rs ++ rt ++ imm
/-- The J format (R141). -/
def jWord (op : BitVec 6) (index : BitVec 26) : Word := op ++ index
/-- The form of SYSCALL and BREAK (R141). -/
def codeWord (code : BitVec 20) (funct : BitVec 6) : Word := 0#6 ++ code ++ funct

/-- The word of a well-formed instruction. -/
def encode : Instr → Word
  | .add rd rs rt => rWord 0x00 rs rt rd 0 0x20
  | .addu rd rs rt => rWord 0x00 rs rt rd 0 0x21
  | .sub rd rs rt => rWord 0x00 rs rt rd 0 0x22
  | .subu rd rs rt => rWord 0x00 rs rt rd 0 0x23
  | .and rd rs rt => rWord 0x00 rs rt rd 0 0x24
  | .or rd rs rt => rWord 0x00 rs rt rd 0 0x25
  | .xor rd rs rt => rWord 0x00 rs rt rd 0 0x26
  | .nor rd rs rt => rWord 0x00 rs rt rd 0 0x27
  | .slt rd rs rt => rWord 0x00 rs rt rd 0 0x2A
  | .sltu rd rs rt => rWord 0x00 rs rt rd 0 0x2B
  | .addi rt rs imm => iWord 0x08 rs rt imm
  | .addiu rt rs imm => iWord 0x09 rs rt imm
  | .slti rt rs imm => iWord 0x0A rs rt imm
  | .sltiu rt rs imm => iWord 0x0B rs rt imm
  | .andi rt rs imm => iWord 0x0C rs rt imm
  | .ori rt rs imm => iWord 0x0D rs rt imm
  | .xori rt rs imm => iWord 0x0E rs rt imm
  | .lui rt imm => iWord 0x0F 0 rt imm
  | .sll rd rt shamt => rWord 0x00 0 rt rd (BitVec.ofNat 5 shamt) 0x00
  | .srl rd rt shamt => rWord 0x00 0 rt rd (BitVec.ofNat 5 shamt) 0x02
  | .sra rd rt shamt => rWord 0x00 0 rt rd (BitVec.ofNat 5 shamt) 0x03
  | .sllv rd rt rs => rWord 0x00 rs rt rd 0 0x04
  | .srlv rd rt rs => rWord 0x00 rs rt rd 0 0x06
  | .srav rd rt rs => rWord 0x00 rs rt rd 0 0x07
  | .mult rs rt => rWord 0x00 rs rt 0 0 0x18
  | .multu rs rt => rWord 0x00 rs rt 0 0 0x19
  | .div rs rt => rWord 0x00 rs rt 0 0 0x1A
  | .divu rs rt => rWord 0x00 rs rt 0 0 0x1B
  | .mfhi rd => rWord 0x00 0 0 rd 0 0x10
  | .mthi rs => rWord 0x00 rs 0 0 0 0x11
  | .mflo rd => rWord 0x00 0 0 rd 0 0x12
  | .mtlo rs => rWord 0x00 rs 0 0 0 0x13
  | .j index => jWord 0x02 index
  | .jal index => jWord 0x03 index
  | .jr rs => rWord 0x00 rs 0 0 0 0x08
  | .jalr rd rs => rWord 0x00 rs 0 rd 0 0x09
  | .beq rs rt imm => iWord 0x04 rs rt imm
  | .bne rs rt imm => iWord 0x05 rs rt imm
  | .blez rs imm => iWord 0x06 rs 0 imm
  | .bgtz rs imm => iWord 0x07 rs 0 imm
  | .bltz rs imm => iWord 0x01 rs 0x00 imm
  | .bgez rs imm => iWord 0x01 rs 0x01 imm
  | .bltzal rs imm => iWord 0x01 rs 0x10 imm
  | .bgezal rs imm => iWord 0x01 rs 0x11 imm
  | .lb rt rs imm => iWord 0x20 rs rt imm
  | .lbu rt rs imm => iWord 0x24 rs rt imm
  | .lh rt rs imm => iWord 0x21 rs rt imm
  | .lhu rt rs imm => iWord 0x25 rs rt imm
  | .lw rt rs imm => iWord 0x23 rs rt imm
  | .lwl rt rs imm => iWord 0x22 rs rt imm
  | .lwr rt rs imm => iWord 0x26 rs rt imm
  | .sb rt rs imm => iWord 0x28 rs rt imm
  | .sh rt rs imm => iWord 0x29 rs rt imm
  | .sw rt rs imm => iWord 0x2B rs rt imm
  | .swl rt rs imm => iWord 0x2A rs rt imm
  | .swr rt rs imm => iWord 0x2E rs rt imm
  | .syscall code => codeWord (BitVec.ofNat 20 code) 0x0C
  | .brk code => codeWord (BitVec.ofNat 20 code) 0x0D
  | .mfc0 rt rd => rWord 0x10 0x00 rt rd 0 0
  | .mtc0 rt rd => rWord 0x10 0x04 rt rd 0 0
  | .rfe => rWord 0x10 0x10 0 0 0 0x10
  | .cop1 => iWord 0x11 0 0 0
  | .cop2 => iWord 0x12 0 0 0
  | .cop3 => iWord 0x13 0 0 0
  | .lwc0 rt rs imm => iWord 0x30 rs rt imm
  | .lwc1 rt rs imm => iWord 0x31 rs rt imm
  | .lwc2 rt rs imm => iWord 0x32 rs rt imm
  | .lwc3 rt rs imm => iWord 0x33 rs rt imm
  | .swc0 rt rs imm => iWord 0x38 rs rt imm
  | .swc1 rt rs imm => iWord 0x39 rs rt imm
  | .swc2 rt rs imm => iWord 0x3A rs rt imm
  | .swc3 rt rs imm => iWord 0x3B rs rt imm

/-! The opcode table (R153): a word `w` is the row's instruction when `w &&& mask = value`. -/

/-- One row of spec/opcode_table.json: its mnemonic, and its match and mask columns. -/
structure TableRow where
  mnemonic : String
  value : Word
  mask : Word
deriving DecidableEq, Repr

/-- The row of an instruction. -/
def rowOf : Instr → TableRow
  | .add _ _ _ => ⟨"ADD", 0x00000020, 0xFC00003F⟩
  | .addu _ _ _ => ⟨"ADDU", 0x00000021, 0xFC00003F⟩
  | .sub _ _ _ => ⟨"SUB", 0x00000022, 0xFC00003F⟩
  | .subu _ _ _ => ⟨"SUBU", 0x00000023, 0xFC00003F⟩
  | .and _ _ _ => ⟨"AND", 0x00000024, 0xFC00003F⟩
  | .or _ _ _ => ⟨"OR", 0x00000025, 0xFC00003F⟩
  | .xor _ _ _ => ⟨"XOR", 0x00000026, 0xFC00003F⟩
  | .nor _ _ _ => ⟨"NOR", 0x00000027, 0xFC00003F⟩
  | .slt _ _ _ => ⟨"SLT", 0x0000002A, 0xFC00003F⟩
  | .sltu _ _ _ => ⟨"SLTU", 0x0000002B, 0xFC00003F⟩
  | .addi _ _ _ => ⟨"ADDI", 0x20000000, 0xFC000000⟩
  | .addiu _ _ _ => ⟨"ADDIU", 0x24000000, 0xFC000000⟩
  | .slti _ _ _ => ⟨"SLTI", 0x28000000, 0xFC000000⟩
  | .sltiu _ _ _ => ⟨"SLTIU", 0x2C000000, 0xFC000000⟩
  | .andi _ _ _ => ⟨"ANDI", 0x30000000, 0xFC000000⟩
  | .ori _ _ _ => ⟨"ORI", 0x34000000, 0xFC000000⟩
  | .xori _ _ _ => ⟨"XORI", 0x38000000, 0xFC000000⟩
  | .lui _ _ => ⟨"LUI", 0x3C000000, 0xFC000000⟩
  | .sll _ _ _ => ⟨"SLL", 0x00000000, 0xFC00003F⟩
  | .srl _ _ _ => ⟨"SRL", 0x00000002, 0xFC00003F⟩
  | .sra _ _ _ => ⟨"SRA", 0x00000003, 0xFC00003F⟩
  | .sllv _ _ _ => ⟨"SLLV", 0x00000004, 0xFC00003F⟩
  | .srlv _ _ _ => ⟨"SRLV", 0x00000006, 0xFC00003F⟩
  | .srav _ _ _ => ⟨"SRAV", 0x00000007, 0xFC00003F⟩
  | .mult _ _ => ⟨"MULT", 0x00000018, 0xFC00003F⟩
  | .multu _ _ => ⟨"MULTU", 0x00000019, 0xFC00003F⟩
  | .div _ _ => ⟨"DIV", 0x0000001A, 0xFC00003F⟩
  | .divu _ _ => ⟨"DIVU", 0x0000001B, 0xFC00003F⟩
  | .mfhi _ => ⟨"MFHI", 0x00000010, 0xFC00003F⟩
  | .mthi _ => ⟨"MTHI", 0x00000011, 0xFC00003F⟩
  | .mflo _ => ⟨"MFLO", 0x00000012, 0xFC00003F⟩
  | .mtlo _ => ⟨"MTLO", 0x00000013, 0xFC00003F⟩
  | .j _ => ⟨"J", 0x08000000, 0xFC000000⟩
  | .jal _ => ⟨"JAL", 0x0C000000, 0xFC000000⟩
  | .jr _ => ⟨"JR", 0x00000008, 0xFC00003F⟩
  | .jalr _ _ => ⟨"JALR", 0x00000009, 0xFC00003F⟩
  | .beq _ _ _ => ⟨"BEQ", 0x10000000, 0xFC000000⟩
  | .bne _ _ _ => ⟨"BNE", 0x14000000, 0xFC000000⟩
  | .blez _ _ => ⟨"BLEZ", 0x18000000, 0xFC000000⟩
  | .bgtz _ _ => ⟨"BGTZ", 0x1C000000, 0xFC000000⟩
  | .bltz _ _ => ⟨"BLTZ", 0x04000000, 0xFC1F0000⟩
  | .bgez _ _ => ⟨"BGEZ", 0x04010000, 0xFC1F0000⟩
  | .bltzal _ _ => ⟨"BLTZAL", 0x04100000, 0xFC1F0000⟩
  | .bgezal _ _ => ⟨"BGEZAL", 0x04110000, 0xFC1F0000⟩
  | .lb _ _ _ => ⟨"LB", 0x80000000, 0xFC000000⟩
  | .lbu _ _ _ => ⟨"LBU", 0x90000000, 0xFC000000⟩
  | .lh _ _ _ => ⟨"LH", 0x84000000, 0xFC000000⟩
  | .lhu _ _ _ => ⟨"LHU", 0x94000000, 0xFC000000⟩
  | .lw _ _ _ => ⟨"LW", 0x8C000000, 0xFC000000⟩
  | .lwl _ _ _ => ⟨"LWL", 0x88000000, 0xFC000000⟩
  | .lwr _ _ _ => ⟨"LWR", 0x98000000, 0xFC000000⟩
  | .sb _ _ _ => ⟨"SB", 0xA0000000, 0xFC000000⟩
  | .sh _ _ _ => ⟨"SH", 0xA4000000, 0xFC000000⟩
  | .sw _ _ _ => ⟨"SW", 0xAC000000, 0xFC000000⟩
  | .swl _ _ _ => ⟨"SWL", 0xA8000000, 0xFC000000⟩
  | .swr _ _ _ => ⟨"SWR", 0xB8000000, 0xFC000000⟩
  | .syscall _ => ⟨"SYSCALL", 0x0000000C, 0xFC00003F⟩
  | .brk _ => ⟨"BREAK", 0x0000000D, 0xFC00003F⟩
  | .mfc0 _ _ => ⟨"MFC0", 0x40000000, 0xFFE00000⟩
  | .mtc0 _ _ => ⟨"MTC0", 0x40800000, 0xFFE00000⟩
  | .rfe => ⟨"RFE", 0x42000010, 0xFE00003F⟩
  | .cop1 => ⟨"COP1", 0x44000000, 0xFC000000⟩
  | .cop2 => ⟨"COP2", 0x48000000, 0xFC000000⟩
  | .cop3 => ⟨"COP3", 0x4C000000, 0xFC000000⟩
  | .lwc0 _ _ _ => ⟨"LWC0", 0xC0000000, 0xFC000000⟩
  | .lwc1 _ _ _ => ⟨"LWC1", 0xC4000000, 0xFC000000⟩
  | .lwc2 _ _ _ => ⟨"LWC2", 0xC8000000, 0xFC000000⟩
  | .lwc3 _ _ _ => ⟨"LWC3", 0xCC000000, 0xFC000000⟩
  | .swc0 _ _ _ => ⟨"SWC0", 0xE0000000, 0xFC000000⟩
  | .swc1 _ _ _ => ⟨"SWC1", 0xE4000000, 0xFC000000⟩
  | .swc2 _ _ _ => ⟨"SWC2", 0xE8000000, 0xFC000000⟩
  | .swc3 _ _ _ => ⟨"SWC3", 0xEC000000, 0xFC000000⟩

/-- One instruction for each row of the table, with every operand 0. -/
def tableSamples : List Instr :=
  [.add 0 0 0, .addu 0 0 0, .sub 0 0 0, .subu 0 0 0, .and 0 0 0, .or 0 0 0, .xor 0 0 0, .nor 0 0 0, .slt 0 0 0, .sltu 0 0 0, .addi 0 0 0, .addiu 0 0 0] ++
  [.slti 0 0 0, .sltiu 0 0 0, .andi 0 0 0, .ori 0 0 0, .xori 0 0 0, .lui 0 0, .sll 0 0 0, .srl 0 0 0, .sra 0 0 0, .sllv 0 0 0, .srlv 0 0 0, .srav 0 0 0] ++
  [.mult 0 0, .multu 0 0, .div 0 0, .divu 0 0, .mfhi 0, .mthi 0, .mflo 0, .mtlo 0, .j 0, .jal 0, .jr 0, .jalr 0 0] ++
  [.beq 0 0 0, .bne 0 0 0, .blez 0 0, .bgtz 0 0, .bltz 0 0, .bgez 0 0, .bltzal 0 0, .bgezal 0 0, .lb 0 0 0, .lbu 0 0 0, .lh 0 0 0, .lhu 0 0 0] ++
  [.lw 0 0 0, .lwl 0 0 0, .lwr 0 0 0, .sb 0 0 0, .sh 0 0 0, .sw 0 0 0, .swl 0 0 0, .swr 0 0 0, .syscall 0, .brk 0, .mfc0 0 0, .mtc0 0 0] ++
  [.rfe, .cop1, .cop2, .cop3, .lwc0 0 0 0, .lwc1 0 0 0, .lwc2 0 0 0, .lwc3 0 0 0, .swc0 0 0 0, .swc1 0 0 0, .swc2 0 0 0, .swc3 0 0 0]

/-- The opcode table: its 72 rows. -/
def opcodeTable : List TableRow := tableSamples.map rowOf

/-- The word is the row's instruction (R153). -/
def TableRow.matches (r : TableRow) (w : Word) : Bool := w &&& r.mask == r.value

/-- No word is matched by both rows: their fixed bits differ at a place both fix. -/
def TableRow.disjoint (a b : TableRow) : Bool := (a.value ^^^ b.value) &&& a.mask &&& b.mask != 0

end Sys2Proof
end

