-- ==== Sys2Proof/Machine/Flags.lean ====
section
/-! DEFINITION. The core has no status flags and no condition codes (10_state R30). What an instruction computes
in their place: the two signed-overflow conditions that raise Ov (40_alu R170), and the comparisons whose value is
a register result 0 or 1 or a branch condition. -/

namespace Sys2Proof.Machine

/-- Signed overflow of `a + b` (40_alu R170 (b)). -/
def addOverflows (a b : Word) : Bool := a.msb == b.msb && (a + b).msb != a.msb

/-- Signed overflow of `a - b` (40_alu R170 (b)). -/
def subOverflows (a b : Word) : Bool := a.msb != b.msb && (a - b).msb != a.msb

/-- `signed(a) < signed(b)` (40_alu R179). -/
def lessSigned (a b : Word) : Bool := decide (a.toInt < b.toInt)

/-- `a < b` as unsigned numbers (40_alu R180). -/
def lessUnsigned (a b : Word) : Bool := decide (a.toNat < b.toNat)

/-- A condition as a register value: 1 or 0 (40_alu R179). -/
def boolWord (b : Bool) : Word := if b then 1 else 0

/-- `signed(a) <= 0`, the condition of BLEZ (43_branch_jump R220). -/
def isLeZero (a : Word) : Bool := decide (a.toInt ≤ 0)

/-- `signed(a) > 0`, the condition of BGTZ (43_branch_jump R221). -/
def isGtZero (a : Word) : Bool := decide (0 < a.toInt)

end Sys2Proof.Machine
end

