-- ==== Sys2Proof/Config.lean ====
section
/-! DEFINITION. What an implementation fixes: the parameters of 00_scope R7 as one record, and the free
values, which have no body and which no proof can evaluate. -/

namespace Sys2Proof

/-- The segments of the address space (20_memory R70). -/
inductive Segment where
  | user
  | kernel0
  | kernel1
  | kernel2
  | invalid
deriving DecidableEq, Repr

/-- The devices registered on the Bus (20_memory R95). -/
inductive Device where
  | ram
  | expansion1
  | scratchpad
  | memoryControl1
  | peripherals
  | memoryControl2
  | interruptControl
  | dma
  | timers
  | cdrom
  | gpu
  | mdec
  | spu
  | expansion2
  | bios
  | cacheControl
deriving DecidableEq, Repr

/-- The access latency `cpuCycles` each device declares (20_memory R80); open parameters. -/
structure Latencies where
  ram : Nat := 1
  expansion1 : Nat := 1
  scratchpad : Nat := 1
  memoryControl1 : Nat := 1
  peripherals : Nat := 1
  memoryControl2 : Nat := 1
  interruptControl : Nat := 1
  dma : Nat := 1
  timers : Nat := 1
  cdrom : Nat := 1
  gpu : Nat := 1
  mdec : Nat := 1
  spu : Nat := 1
  expansion2 : Nat := 1
  bios : Nat := 1
  cacheControl : Nat := 1
deriving DecidableEq, Repr

/-- What a stub's three read accessors return (20_memory R96: "each read returns a per-device constant").
One constant a width, so that no relation between the widths is assumed. -/
structure StubConstants where
  read8 : Byte := 0
  read16 : Half := 0
  read32 : Word := 0
deriving DecidableEq, Repr

/-- The constants of every stub device but Expansion1, which reads all-ones (20_memory R96). -/
structure Stubs where
  memoryControl1 : StubConstants := {}
  peripherals : StubConstants := {}
  memoryControl2 : StubConstants := {}
  interruptControl : StubConstants := {}
  timers : StubConstants := {}
  cdrom : StubConstants := {}
  mdec : StubConstants := {}
  spu : StubConstants := {}
  expansion2 : StubConstants := {}
deriving DecidableEq, Repr

/-- The parameters of 00_scope R7. The spec's model "takes them as an argument"; `step` takes one argument, so
the machine's state carries them and no step changes them. The defaults here are those of `State.reset`:
the spec's where it gives one, the others DESIGN CHOICE (log entry 5). No statement rests on a default. -/
structure Params where
  /-- `MASTER_NANOS_PER_CYCLE` (61 R320). -/
  masterNanosPerCycle : Nat := 30
  /-- `PRID_VALUE` (10_state R36). -/
  prid : Word := 0x00000002
  /-- `DMA_MADR_WMASK` (62 R357). -/
  dmaMadrMask : Word := 0x00FFFFFF
  /-- `DMA_CHCR_WMASK` (62 R359). -/
  dmaChcrMask : Word := 0x71770703
  /-- `DMA_CHCR_WMASK_OTC` (62 R359). -/
  dmaChcrMaskOtc : Word := 0x51000000
  /-- `BUS_MAX_DEVICES` (20_memory R82); read at configuration time only. -/
  busMaxDevices : Nat := 16
  /-- `CLOCK_MAX_DEVICES` (61 R322); read at configuration time only. -/
  clockMaxDevices : Nat := 8
  latencies : Latencies := {}
  stubs : Stubs := {}
  /-- For each DMA channel 0..6, `none` when no device has installed a port on it, else the port's
  `clocksPerWord` (62 R352). Channel 6's port is built in and does not use its entry (62 R380). -/
  dmaPorts : Vector (Option Nat) 7 := #v[none, none, some 1, none, none, none, none]
  /-- The quantum `q` of the reference host loop (70 R420). -/
  quantum : BitVec 64 := 65536
deriving DecidableEq, Repr

/-- FREE VALUE (log entries 6, 7). The word the environment returns at its k-th free draw: a GPU register
read (20_memory R96) or a DMA port's `read32` (62 R352). -/
opaque Config.freeWord : Nat → Word

/-- FREE VALUE (log entry 7). At the k-th free draw, how many `isReady` polls a DMA port answers "not ready"
before it answers "ready" (62 R352); `none`: it never becomes ready. -/
opaque Config.freeWait : Nat → Option Nat

/-- FREE VALUE (log entry 9). At the k-th free draw, which of several clock entries with the same earliest
timestamp fires first (61 R333). -/
opaque Config.freeTie : Nat → Nat

end Sys2Proof
end

