-- ==== Sys2Proof/Machine/State.lean ====
section
/-! DEFINITION. The machine's state as plain data, the reasons a step can stop, and the state after reset
(70_reset_and_hazards R401). INVENTORY.md, '## State', lists each field with the rule that names it. -/

namespace Sys2Proof.Machine

/-- The pending delayed-load slot (10_state R29); `reg = 0` means it is empty. -/
structure LoadSlot where
  reg : Reg
  value : Word
deriving DecidableEq, Repr

/-- One instruction-cache line (10_state R38): the physical bits 28:12 it holds, and four words each with its
valid bit. -/
structure CacheLine where
  tag : BitVec 17
  valid : Vector Bool 4
  word : Vector Word 4
deriving DecidableEq, Repr

/-- The four fault codes the Bus records (20_memory R84, R85). -/
inductive BusFaultCode where
  | busErrorFetch
  | busErrorStore
  | addressErrorFetch
  | addressErrorStore
deriving DecidableEq, Repr

/-- The Bus's fault record, "code+address" (10_state R39). -/
structure BusFault where
  code : BusFaultCode
  address : Word
deriving DecidableEq, Repr

/-- The reasons of `FATAL` (10_state R56). -/
inductive FatalReason where
  /-- 20_memory R82, at configuration time -/
  | duplicateRange
  /-- 20_memory R82, at configuration time -/
  | busCapacity
  /-- 61 R322, at configuration time -/
  | clockCapacity
  /-- 62 R356: an 8- or 16-bit access to the DMA window -/
  | dmaAccessWidth
  /-- 62 R365: a started channel's syncMode is 3 -/
  | dmaSyncMode
  /-- 62 R375, R381: a write to the OTC port -/
  | dmaOtcWrite
  /-- 62 R367: a started channel has no port -/
  | dmaNoPort
  /-- 62 R367, R375: a linked list with direction 0 -/
  | dmaListDirection
  /-- 45_system_coproc R255: MTC0 of a nonzero value to a breakpoint register -/
  | cop0BreakpointWrite
  /-- 45_system_coproc R255: MFC0 or MTC0 of a register number with no register -/
  | cop0Register
  /-- 20_memory R112: a store narrower than a word while SR.IsC = 1 -/
  | isolatedNarrowStore
  /-- 20_memory R97: an 8- or 16-bit access to the cache-control register -/
  | cacheCtlWidth
deriving DecidableEq, Repr

/-- Why the machine stops with no successor state. -/
inductive Fault where
  /-- `FATAL(reason)` (10_state R56): raised where the rule of the reason says, and by `step` on a state whose
  `fatal` is set. Safe: the spec gives no state after it. -/
  | fatal (reason : FatalReason)
  /-- A linked-list transfer waits for a port that never becomes ready (70 R413 (a)). Raised by the list walker.
  Safe: the spec says the step never completes. -/
  | dmaPortNeverReady
  /-- A linked list that never reaches the sentinel (70 R413 (b)). Raised by the list walker. Safe: the spec says
  the step never completes. -/
  | dmaEndlessList
  /-- A `ClockTick` that never ends (70 R413 (f)). Raised by the clock. Safe: the spec says the step never
  completes. -/
  | clockEndless
  /-- A BIOS image whose size is not 512 KB (70 R402: "loading fails fatally"). Raised by the construction. Safe: a
  configuration that fails has no first step. -/
  | biosImageSize
deriving DecidableEq, Repr

/-- What the model gives no meaning, by name. -/
inductive Refusal where
  /-- An instruction without a meaning, in exec's arm only. Safe. -/
  | notModelled (mnemonic : String)
  /-- A load while the cache is isolated (20_memory R114: "a model must refuse it"). Raised by the CPU data read.
  Safe. -/
  | isolatedLoad
  /-- COP2, LWC2 or SWC2 with SR.CU2 = 1 (45_system_coproc R258, R259). Raised by those three instructions.
  Safe. -/
  | geometryEngine
  /-- A 32-bit access to DMA offsets 0x78, 0x7C (62 R361). Raised by the DMA window. Safe. -/
  | dmaUnassignedWord
  /-- A Request-mode start with numWords = 0 or numBlocks = 0 (62 R365). Raised by the DMA start. Safe. -/
  | dmaRequestZeroCount
  /-- A platform outside the spec: other ranges than those of 20_memory R95 (R83; log entry 25), or a clock device of 0 ns
  a cycle (61 R321; log entry 27). Raised by the construction. Safe. -/
  | platformOutsideSpec
deriving DecidableEq, Repr

/-- A registered clock device (10_state R42): its `nanosPerCycle`, which is configuration, and its three times in
nanoseconds; `none` is NEVER (61 R322, R339; log entry 10). -/
structure ClockEntry where
  nanosPerCycle : Nat
  nextUpdate : Option Nat
  updateFrequency : Option Nat
  lastUpdateTime : Nat
deriving DecidableEq, Repr

/-- The clock (10_state R42); a handle is an index into `entries` (61 R323). -/
structure Clock where
  systemTime : Nat
  entries : List ClockEntry
deriving DecidableEq, Repr

/-- The two requests a device makes of the Clock, from a callback or from an access of its port (61 R321; 70 R420). -/
inductive ClockRequest where
  | setDefaultUpdateFrequency (handle cycles : Nat)
  | requestUpdate (handle cycles : Nat)
deriving DecidableEq, Repr

/-- What a clock callback may do to the core (61 R321; 93_implementation_defined 1.5; log entry 26). -/
inductive CallbackAction where
  | request (r : ClockRequest)
  | driveIrq (lines : BitVec 6)
deriving DecidableEq, Repr

/-- The four registers of a DMA channel (10_state R43). -/
structure DmaChannel where
  madr : Word
  bcr : Word
  chcr : Word
  unused : Word
deriving DecidableEq, Repr

/-- The DMA engine: its registers, its transfer state and the OTC generator (10_state R43 to R45). -/
structure Dma where
  channels : Vector DmaChannel 7
  dpcr : Word
  dicr : Word
  active : Option (Fin 7)
  ramAddress : Word
  blockSize : BitVec 17
  blocksLeft : BitVec 17
  otcAddr : Word
  otcLeft : BitVec 17
deriving DecidableEq, Repr

/-- The host's moves (70 R420). -/
inductive HostMove where
  | run (quantum : BitVec 64)
  | dmaRun
  | syncToRealtime
deriving DecidableEq, Repr

/-- A `Run(q)` in progress: `cycles` at its start, and `q` (70 R421). -/
structure HostRun where
  start : BitVec 64
  quantum : BitVec 64
deriving DecidableEq, Repr

/-- The host (70 R420): the `Run` in progress, if any, and the moves it makes after it; with no move listed it goes
on with its reference loop (log entry 12). -/
structure HostLoop where
  running : Option HostRun
  moves : List HostMove
  /-- what the host drives `irq_in` to before each coming step; `none`, or no entry: the lines stay -/
  lines : List (Option (BitVec 6))
deriving DecidableEq, Repr

/-- The environment's coming answers, and the counter its free draws are made with (log entries 6 to 9). -/
structure Env where
  /-- the words device and port reads return, first to last -/
  words : List Word
  /-- for each wait for a port: how many polls answer "not ready" first; `none`: every one -/
  waits : List (Option Nat)
  /-- which of several equally early clock entries fires first -/
  ties : List Nat
  /-- what each clock callback does to the core -/
  callbacks : List (List CallbackAction)
  /-- what each access of the GPU or of a DMA port requests of the Clock -/
  requests : List (List ClockRequest)
  /-- how many free draws have been made -/
  drawn : Nat
deriving DecidableEq, Repr

/-- What the core does to its environment (70 R422). -/
inductive Output where
  /-- a read transaction on a Device port: device, segment, width in bits and offset (20_memory R80) -/
  | deviceRead (device : Device) (segment : Segment) (width offset : Nat)
  /-- a write transaction on a Device port -/
  | deviceWrite (device : Device) (segment : Segment) (width offset : Nat) (value : Word)
  /-- a DMA port's `write32` (62 R352) -/
  | portWrite (channel : Fin 7) (value : Word)
  /-- a DMA port's `read32` and the word it returned -/
  | portRead (channel : Fin 7) (value : Word)
  /-- a DMA port's `isReady` and its answer -/
  | portPoll (channel : Fin 7) (ready : Bool)
  /-- a clock callback: handle, `systemTime`, elapsed cycles (61 R330) -/
  | clockUpdate (handle systemTime elapsedCycles : Nat)
deriving DecidableEq, Repr

@[ext]
structure State where
  /-- general registers; slot 0 is r0 and is never written (10_state R22) -/
  regs : Vector Word 32
  hi : Word
  lo : Word
  currentPc : Word
  pc : Word
  nextPc : Word
  /-- the instruction now executing is a branch or jump (10_state R25) -/
  branch : Bool
  /-- the instruction now executing sits in a delay slot (10_state R25) -/
  delaySlot : Bool
  load : LoadSlot
  /-- COP0 12 (10_state R32) -/
  sr : Word
  /-- COP0 13, the stored bits (10_state R33) -/
  cause : Word
  /-- the six interrupt input lines (60_exceptions R290) -/
  irqIn : BitVec 6
  /-- COP0 14 (10_state R34) -/
  epc : Word
  /-- COP0 8 (10_state R35) -/
  badVAddr : Word
  /-- the cache-control register (10_state R37) -/
  cacheCtl : Word
  icache : Vector CacheLine 256
  busFault : Option BusFault
  /-- CPU cycles charged (10_state R40) -/
  cycles : BitVec 64
  /-- bus latency accumulated by the step in progress (10_state R26; log entry 13) -/
  cost : Nat
  clock : Clock
  dma : Dma
  /-- main RAM, scratchpad and BIOS ROM by physical address (log entry 2) -/
  mem : List Host.Cell
  fatal : Option FatalReason
  host : HostLoop
  env : Env
  /-- the outputs made so far, newest first (log entry 18) -/
  outputs : List Output
  params : Params
deriving DecidableEq, Repr

/-- The outcome of a step or of a part of one. -/
abbrev Result := Host.Outcome State Fault Refusal

/-- Every cache line at reset: valid bits 0 (10_state R38); tag and words are DESIGN CHOICE (log entry 3). -/
def CacheLine.reset : CacheLine :=
  { tag := 0, valid := Vector.replicate 4 false, word := Vector.replicate 4 0 }

/-- A DMA channel at reset with the given CHCR (10_state R43). -/
def DmaChannel.reset (chcr : Word) : DmaChannel := { madr := 0, bcr := 0, chcr := chcr, unused := 0 }

/-- The DMA engine at reset (70 R401). -/
def Dma.reset : Dma :=
  { channels := #v[.reset 0, .reset 0, .reset 0, .reset 0, .reset 0, .reset 0, .reset 0x00000002]
    dpcr := 0x07654321
    dicr := 0
    active := none
    ramAddress := 0
    blockSize := 0
    blocksLeft := 0
    otcAddr := 0
    otcLeft := 0 }

/-- The machine right after reset (70 R401). The values the spec leaves unspecified are DESIGN CHOICE: log entries
1 (registers), 2 (memory), 3 (cache), 5 (parameters), 6 to 9 and 12 (environment and host), 20 (clock entries). -/
def State.reset : State :=
  { regs := Vector.replicate 32 0
    hi := 0
    lo := 0
    currentPc := 0xBFC00000
    pc := 0xBFC00000
    nextPc := 0xBFC00004
    branch := false
    delaySlot := false
    load := ⟨0, 0⟩
    sr := 0x00400000
    cause := 0
    irqIn := 0
    epc := 0
    badVAddr := 0
    cacheCtl := 0
    icache := Vector.replicate 256 CacheLine.reset
    busFault := none
    cycles := 0
    cost := 0
    clock := { systemTime := 0, entries := [] }
    dma := Dma.reset
    mem := []
    fatal := none
    host := { running := none, moves := [], lines := [] }
    env := { words := [], waits := [], ties := [], callbacks := [], requests := [], drawn := 0 }
    outputs := []
    params := {} }

end Sys2Proof.Machine
end

