-- ==== Sys2Proof/Machine/Environment.lean ====
section
/-! DEFINITION. How the core takes an answer from its environment: the next one listed in State.env, and, when
none is listed, a free value of Config (log entries 6 to 9); and how it records an output (log entry 18). -/

namespace Sys2Proof.Machine

/-- Record an output (70 R422). -/
def emit (o : Output) (s : State) : State := { s with outputs := o :: s.outputs }

/-- The counter of the free draws goes on by one. -/
def countDraw (s : State) : State := { s with env := { s.env with drawn := s.env.drawn + 1 } }

/-- The word a device or a port returns (20_memory R96, 62 R352). -/
def drawWord (s : State) : Word × State :=
  match s.env.words with
  | w :: rest => (w, { s with env := { s.env with words := rest } })
  | [] => (Config.freeWord s.env.drawn, countDraw s)

/-- How many polls of a port answer "not ready" before one answers "ready"; `none`: all (62 R352). -/
def drawWait (s : State) : Option Nat × State :=
  match s.env.waits with
  | w :: rest => (w, { s with env := { s.env with waits := rest } })
  | [] => (Config.freeWait s.env.drawn, countDraw s)

/-- Which of several equally early clock entries fires (61 R333). -/
def drawTie (s : State) : Nat × State :=
  match s.env.ties with
  | t :: rest => (t, { s with env := { s.env with ties := rest } })
  | [] => (Config.freeTie s.env.drawn, countDraw s)

/-- What a clock callback does (61 R321). A callback that has no entry does nothing (log entry 8). -/
def drawCallback (s : State) : List CallbackAction × State :=
  match s.env.callbacks with
  | c :: rest => (c, { s with env := { s.env with callbacks := rest } })
  | [] => ([], s)

/-- What an access of a device or a port requests of the Clock (70 R420). An access that has no entry requests nothing
(log entry 8). -/
def drawRequests (s : State) : List ClockRequest × State :=
  match s.env.requests with
  | r :: rest => (r, { s with env := { s.env with requests := rest } })
  | [] => ([], s)

end Sys2Proof.Machine
end

