-- ==== Sys2Proof/Machine/Outcome.lean ====
section
/-! DEFINITION. The results of the parts of a step: going on to a state, stopping, and, inside the CPU, raising an
exception (00_scope R9). -/

namespace Sys2Proof.Machine

/-- Go on from the next state of `r`; a stop stays a stop. -/
def andThen (r : Result) (f : State → Result) : Result :=
  match r with
  | .next s => f s
  | .fault e => .fault e
  | .refused e => .refused e

/-- The result of a device or Bus operation that returns a value. -/
inductive Reply (α : Type) where
  | ok (value : α) (s : State)
  | fault (reason : Fault)
  | refused (reason : Refusal)
deriving DecidableEq, Repr

/-- The exceptions of 60_exceptions R280, with the address of an address error and the coprocessor number of a
coprocessor-unusable exception. -/
inductive Exc where
  | int
  | adEL (address : Word)
  | adES (address : Word)
  | ibe
  | dbe
  | sys
  | bp
  | ri
  | cpU (coprocessor : BitVec 2)
  | ov
deriving DecidableEq, Repr

/-- The result of a part of an instruction's execute phase that returns a value or raises (00_scope R9). -/
inductive Access (α : Type) where
  | ok (value : α) (s : State)
  | raise (e : Exc) (s : State)
  | fault (reason : Fault)
  | refused (reason : Refusal)
deriving DecidableEq, Repr

end Sys2Proof.Machine
end

