-- ==== Sys2Proof/Machine/Clock.lean ====
section
/-! DEFINITION. The clock scheduler (61_clock_scheduler). Times are natural numbers of nanoseconds and `none` is
NEVER (R339; log entry 10). -/

namespace Sys2Proof.Machine

/-- `AddDevice` (R322), at configuration time: the handle and the clock with a fresh entry, which has no update due, or
`FATAL(ClockCapacity)`. -/
def clockAddDevice (capacity nanosPerCycle : Nat) (c : Clock) : Except FatalReason (Nat × Clock) :=
  if capacity ≤ c.entries.length then .error .clockCapacity
  else .ok (c.entries.length, { c with entries := c.entries ++
    [{ nanosPerCycle := nanosPerCycle, nextUpdate := none, updateFrequency := none,
       lastUpdateTime := c.systemTime }] })

/-- The earlier of a deadline and a candidate time; NEVER is later than any time. -/
def earlier (deadline : Option Nat) (candidate : Nat) : Option Nat :=
  match deadline with
  | none => some candidate
  | some t => if candidate < t then some candidate else some t

/-- `RequestUpdate` on an entry (R325). -/
def requestUpdateOn (now cycles : Nat) (e : ClockEntry) : ClockEntry :=
  { e with nextUpdate := earlier e.nextUpdate (now + e.nanosPerCycle * cycles) }

/-- `SetDefaultUpdateFrequency` on an entry (R324). -/
def setFrequencyOn (now cycles : Nat) (e : ClockEntry) : ClockEntry :=
  { requestUpdateOn now cycles e with updateFrequency := some (e.nanosPerCycle * cycles) }

/-- `RequestUpdate(i, cycles)` (R325). -/
def requestUpdate (i cycles : Nat) (c : Clock) : Clock :=
  { c with entries := c.entries.modify i (requestUpdateOn c.systemTime cycles) }

/-- `SetDefaultUpdateFrequency(i, cycles)` (R324). -/
def setDefaultUpdateFrequency (i cycles : Nat) (c : Clock) : Clock :=
  { c with entries := c.entries.modify i (setFrequencyOn c.systemTime cycles) }

/-- One request of a device (R321). -/
def applyRequest (c : Clock) (r : ClockRequest) : Clock :=
  match r with
  | .setDefaultUpdateFrequency i cycles => setDefaultUpdateFrequency i cycles c
  | .requestUpdate i cycles => requestUpdate i cycles c

/-- One act of a callback (R321). -/
def applyAction (s : State) (a : CallbackAction) : State :=
  match a with
  | .request r => { s with clock := applyRequest s.clock r }
  | .driveIrq lines => { s with irqIn := lines }

/-- The requests that a device makes while one of its ports is accessed (R321; 70 R420). -/
def portRequests (s : State) : State :=
  let (rs, s1) := drawRequests s
  { s1 with clock := rs.foldl applyRequest s1.clock }

/-- The earliest deadline of the entries. -/
def earliest : List ClockEntry → Option Nat
  | [] => none
  | e :: rest =>
    match earliest rest with
    | none => e.nextUpdate
    | some t => earlier e.nextUpdate t

/-- The handles, from `i` up, of the entries whose deadline is `t`. -/
def handlesAt (t : Nat) : Nat → List ClockEntry → List Nat
  | _, [] => []
  | i, e :: rest => if e.nextUpdate = some t then i :: handlesAt t (i + 1) rest else handlesAt t (i + 1) rest

/-- The handles that may fire next: those with the least deadline, when it has been reached (R330). -/
def dueHandles (c : Clock) : List Nat :=
  match earliest c.entries with
  | none => []
  | some t => if t ≤ c.systemTime then handlesAt t 0 c.entries else []

/-- The handle that fires among the candidates; with more than one the order is open (R333). -/
def chooseDue (i : Nat) (others : List Nat) (s : State) : Nat × State :=
  match others with
  | [] => (i, s)
  | _ :: _ =>
    let (t, s') := drawTie s
    ((i :: others).getD (t % (others.length + 1)) i, s')

/-- The entry after it has fired at `now`: rescheduled from `now` (R330). -/
def rescheduled (now : Nat) (e : ClockEntry) : ClockEntry :=
  { e with lastUpdateTime := now, nextUpdate := e.updateFrequency.map (now + ·) }

/-- The elapsed cycles of an entry, in its own cycles, rounded down (R331). -/
def elapsedCycles (now : Nat) (e : ClockEntry) : Nat := (now - e.lastUpdateTime) / e.nanosPerCycle

/-- The elapsed cycles handle `i` reports. -/
def elapsedOf (i : Nat) (c : Clock) : Nat :=
  match c.entries[i]? with
  | none => 0
  | some e => elapsedCycles c.systemTime e

/-- Fires handle `i`: reschedule, then the callback and what it does (R330). -/
def fire (i : Nat) (s : State) : State :=
  let elapsed := elapsedOf i s.clock
  let s1 := { s with clock :=
    { s.clock with entries := s.clock.entries.modify i (rescheduled s.clock.systemTime) } }
  let s2 := emit (.clockUpdate i s.clock.systemTime elapsed) s1
  let (actions, s3) := drawCallback s2
  actions.foldl applyAction s3

/-- The loop of R330. The bound is exact: each firing uses up a listed callback, or, with none left, an entry that
is due again at once only if its period is 0, and then the loop never ends (R413 (f); log entry 15). -/
def fireDue : Nat → State → Result
  | 0, s =>
    match dueHandles s.clock with
    | [] => .next s
    | _ :: _ => .fault .clockEndless
  | n + 1, s =>
    match dueHandles s.clock with
    | [] => .next s
    | i :: others =>
      let (h, s1) := chooseDue i others s
      fireDue n (fire h s1)

/-- `ClockTick(cycles)` (R330). -/
def clockTick (cycles : Nat) (s : State) : Result :=
  let s1 := { s with clock :=
    { s.clock with systemTime := s.clock.systemTime + cycles * s.params.masterNanosPerCycle } }
  fireDue (s1.env.callbacks.length + s1.clock.entries.length) s1

end Sys2Proof.Machine
end

