-- ==== Sys2Proof/Machine/Memory.lean ====
section
/-! DEFINITION. The byte arrays behind main RAM, scratchpad and BIOS ROM (20_memory R96) as one list of
(physical address, byte) pairs in canonical form, and the little-endian words over it (20_memory R100). -/

namespace Sys2Proof.Machine

/-- What a byte that nothing has written reads as. DESIGN CHOICE, unsafe (log entry 2): the spec leaves the
content of RAM, scratchpad and BIOS ROM at reset open. -/
def Memory.unlisted (_address : Nat) : Byte := 0

/-- One byte. -/
def Memory.read : List Host.Cell → Nat → Byte
  | [], a => Memory.unlisted a
  | (k, v) :: rest, a =>
    if a < k then Memory.unlisted a else if a = k then v else Memory.read rest a

/-- Writes one byte and keeps the canonical form. -/
def Memory.write : List Host.Cell → Nat → Byte → List Host.Cell
  | [], a, b => if b = Memory.unlisted a then [] else [(a, b)]
  | (k, v) :: rest, a, b =>
    if a < k then
      if b = Memory.unlisted a then (k, v) :: rest else (a, b) :: (k, v) :: rest
    else if a = k then
      if b = Memory.unlisted a then rest else (a, b) :: rest
    else (k, v) :: Memory.write rest a b

/-- Every listed address is at least `lo`, they rise strictly, and no entry is what an unlisted one reads as. -/
def Memory.wfFrom : Nat → List Host.Cell → Bool
  | _, [] => true
  | lo, (a, b) :: rest => decide (lo ≤ a) && b != Memory.unlisted a && Memory.wfFrom (a + 1) rest

/-- The canonical form. -/
def Memory.wf (m : List Host.Cell) : Bool := Memory.wfFrom 0 m

/-- The halfword at `a`, the low byte first (20_memory R100). -/
def Memory.readHalf (m : List Host.Cell) (a : Nat) : Half := Memory.read m (a + 1) ++ Memory.read m a

/-- The word at `a`, the low byte first (20_memory R100). -/
def Memory.readWord (m : List Host.Cell) (a : Nat) : Word :=
  Memory.read m (a + 3) ++ Memory.read m (a + 2) ++ Memory.read m (a + 1) ++ Memory.read m a

/-- Writes the halfword `v` at `a` (20_memory R100). -/
def Memory.writeHalf (m : List Host.Cell) (a : Nat) (v : Half) : List Host.Cell :=
  Memory.write (Memory.write m a (v.extractLsb' 0 8)) (a + 1) (v.extractLsb' 8 8)

/-- Writes the word `v` at `a` (20_memory R100). -/
def Memory.writeWord (m : List Host.Cell) (a : Nat) (v : Word) : List Host.Cell :=
  Memory.write (Memory.write (Memory.write (Memory.write m a (v.extractLsb' 0 8))
    (a + 1) (v.extractLsb' 8 8)) (a + 2) (v.extractLsb' 16 8)) (a + 3) (v.extractLsb' 24 8)

end Sys2Proof.Machine
end

