-- ==== Sys2Proof/Machine/Dma.lean ====
section
/-! DEFINITION. The DMA controller (62_dma): its registers, the start of a channel, block transfers, linked lists,
the OTC generator, and the host-polled activation. -/

namespace Sys2Proof.Machine

/-! Fields of CHCR and BCR (R358, R359). -/

/-- `direction`: true is RAM to device. -/
def chcrToDevice (w : Word) : Bool := w.getLsbD 0
/-- `step`: true is -4 a word. -/
def chcrDescending (w : Word) : Bool := w.getLsbD 1
def chcrSyncMode (w : Word) : BitVec 2 := w.extractLsb' 9 2
def chcrStartBusy (w : Word) : Bool := w.getLsbD 24
def chcrStartTrigger (w : Word) : Bool := w.getLsbD 28
def bcrNumWords (w : Word) : Nat := (w.extractLsb' 0 16).toNat
def bcrNumBlocks (w : Word) : Nat := (w.extractLsb' 16 16).toNat

/-- The 2 MB, word-aligned RAM mask (R363). -/
def dmaRamMask : Word := 0x001FFFFC

def State.chan (s : State) (n : Fin 7) : DmaChannel := s.dma.channels[n]

def setChan (n : Fin 7) (c : DmaChannel) (s : State) : State :=
  { s with dma := { s.dma with channels := s.dma.channels.set n c } }

def setChcr (n : Fin 7) (v : Word) (s : State) : State := setChan n { s.chan n with chcr := v } s

/-! Memory side (R363). -/

def dmaRead (a : Word) (s : State) : Word := Memory.readWord s.mem (a &&& dmaRamMask).toNat

def dmaWrite (a v : Word) (s : State) : State :=
  { s with mem := Memory.writeWord s.mem (a &&& dmaRamMask).toNat v }

/-! Ports (R352, R380, R381). -/

/-- The OTC channel. -/
def otc : Fin 7 := 6

/-- A port is installed on the channel, or built into it (R365). -/
def hasPort (n : Fin 7) (s : State) : Bool := n == otc || s.params.dmaPorts[n].isSome

/-- The port's `clocksPerWord`; 1 for the OTC port (R372). -/
def portClocks (n : Fin 7) (s : State) : Nat := if n = otc then 1 else s.params.dmaPorts[n].getD 0

/-- `otc.read32()` (R381). -/
def otcRead (s : State) : Word × State :=
  let left := s.dma.otcLeft - 1
  let v := if left = 0 then 0x00FFFFFF else (s.dma.otcAddr - 4) &&& 0x001FFFFF
  (v, { s with dma := { s.dma with otcLeft := left, otcAddr := (s.dma.otcAddr - 4) &&& dmaRamMask } })

/-- `port[n].read32()`. -/
def portRead (n : Fin 7) (s : State) : Word × State :=
  if n = otc then otcRead s
  else
    let (v, s1) := drawWord s
    (v, portRequests (emit (.portRead n v) s1))

/-- `port[n].write32(v)`; `FATAL(DmaOtcWrite)` on channel 6 (R381). -/
def portWrite (n : Fin 7) (v : Word) (s : State) : Result :=
  if n = otc then .fault (.fatal .dmaOtcWrite) else .next (portRequests (emit (.portWrite n v) s))

/-- One call of `port[n].isReady()`, with its answer (R352). -/
def portPoll (n : Fin 7) (ready : Bool) (s : State) : State := portRequests (emit (.portPoll n ready) s)

/-- `port[n].isReady()`, one sample; the OTC port is always ready (R381). -/
def portReady (n : Fin 7) (s : State) : Bool × State :=
  if n = otc then (true, s)
  else
    let (w, s1) := drawWait s
    (w == some 0, portPoll n (w == some 0) s1)

/-! Completion and block transfers (R371 to R374). -/

/-- `Complete()` (R373): `startBusy` clears, and so does the transfer state that 10_state R44 lists (log entry 29). -/
def dmaComplete (n : Fin 7) (s : State) : State :=
  let s1 := setChcr n ((s.chan n).chcr &&& 0xFEFFFFFF) s
  { s1 with dma := { s1.dma with active := none, ramAddress := 0, blocksLeft := 0 } }

/-- The RAM pointer after one word (R372). -/
def dmaNextAddress (n : Fin 7) (s : State) : Word :=
  (if chcrDescending (s.chan n).chcr then s.dma.ramAddress - 4 else s.dma.ramAddress + 4) &&& dmaRamMask

def dmaAdvance (n : Fin 7) (s : State) : State :=
  { s with dma := { s.dma with ramAddress := dmaNextAddress n s } }

/-- One word of a block (R372). -/
def dmaWord (n : Fin 7) (s : State) : Result :=
  if chcrToDevice (s.chan n).chcr then
    andThen (portWrite n (dmaRead s.dma.ramAddress s) s) (fun s1 => .next (dmaAdvance n s1))
  else
    let (v, s1) := portRead n s
    .next (dmaAdvance n (dmaWrite s1.dma.ramAddress v s1))

/-- The words of a block. -/
def dmaWords (n : Fin 7) : Nat → State → Result
  | 0, s => .next s
  | k + 1, s => andThen (dmaWord n s) (dmaWords n k)

/-- One block: its words, the count, the charge (R371). -/
def dmaBlock (n : Fin 7) (s : State) : Result :=
  andThen (dmaWords n s.dma.blockSize.toNat s) fun s1 =>
    clockTick (portClocks n s1 * s1.dma.blockSize.toNat)
      { s1 with dma := { s1.dma with blocksLeft := s1.dma.blocksLeft - 1 } }

/-- The loop of R371 over the blocks left. `request` is Request mode: readiness is sampled before each block, and
not ready suspends the transfer (R374). -/
def dmaBlocks (request : Bool) (n : Fin 7) : Nat → State → Result
  | 0, s => .next (dmaComplete n s)
  | k + 1, s =>
    if request then
      match portReady n s with
      | (true, s1) => andThen (dmaBlock n s1) (dmaBlocks request n k)
      | (false, s1) => .next s1
    else andThen (dmaBlock n s) (dmaBlocks request n k)

/-! Linked lists (R375). -/

/-- Polls of a port that answers "not ready" `k` times and then "ready": each not-ready poll is followed by its tick of 32
cycles (R375). -/
def portPolls (n : Fin 7) : Nat → State → Result
  | 0, s => .next (portPoll n true s)
  | k + 1, s => andThen (clockTick 32 (portPoll n false s)) (portPolls n k)

/-- The busy-wait before a word (R375). A port that never becomes ready ends in a step without successor (R413 (a)). -/
def portWait (n : Fin 7) (s : State) : Result :=
  match drawWait s with
  | (none, _) => .fault .dmaPortNeverReady
  | (some k, s1) => portPolls n k s1

/-- Words `i, i + 1, ...` of the node at `node`, `count` of them. -/
def nodeWords (n : Fin 7) (node : Word) : Nat → Nat → State → Result
  | _, 0, s => .next s
  | i, count + 1, s =>
    andThen (portWait n s) fun s1 =>
      andThen (portWrite n (dmaRead (node + BitVec.ofNat 32 (4 * i)) s1) s1) (nodeWords n node (i + 1) count)

/-- The low 24 bits of a header: the next-node pointer. -/
def headerNext (h : Word) : Word := h &&& 0x00FFFFFF
/-- The top byte of a header: the word count. -/
def headerCount (h : Word) : Nat := (h.extractLsb' 24 8).toNat

/-- The walk. RAM holds 0x80000 words and the walk writes none of them, so a walk of more nodes than that repeats
itself for ever (R413 (b); log entry 15). -/
def dmaList (n : Fin 7) : Nat → State → Result
  | 0, _ => .fault .dmaEndlessList
  | fuel + 1, s =>
    let h := dmaRead s.dma.ramAddress s
    andThen (nodeWords n s.dma.ramAddress 1 (headerCount h) s) fun s1 =>
      andThen (clockTick (portClocks n s1 * headerCount h) s1) fun s2 =>
        if headerNext h = 0x00FFFFFF then .next (dmaComplete n s2)
        else dmaList n fuel { s2 with dma := { s2.dma with ramAddress := headerNext h &&& dmaRamMask } }

/-- The number of words of main RAM. -/
def ramWords : Nat := 0x80000

/-! Starting and continuing (R364 to R371). -/

/-- `Qualifies(n)` (R364). -/
def qualifies (n : Fin 7) (s : State) : Bool :=
  chcrStartBusy (s.chan n).chcr && (chcrSyncMode (s.chan n).chcr != 0 || chcrStartTrigger (s.chan n).chcr)

/-- The transfer state `DmaStart` loads (R365), with the trigger consumed (R365) and the OTC generator loaded for
channel 6 (R380). -/
def dmaLoad (n : Fin 7) (size blocks : Nat) (s : State) : State :=
  let start := (s.chan n).madr &&& dmaRamMask
  let s1 := setChcr n ((s.chan n).chcr &&& 0xEFFFFFFF) s
  let d := { s1.dma with
    active := some n, ramAddress := start, blockSize := BitVec.ofNat 17 size,
    blocksLeft := BitVec.ofNat 17 blocks }
  if n = otc then { s1 with dma := { d with otcAddr := start, otcLeft := BitVec.ofNat 17 (size * blocks) } }
  else { s1 with dma := d }

/-- `DmaContinue()` of a block transfer (R371). -/
def dmaContinueBlocks (request : Bool) (n : Fin 7) (s : State) : Result :=
  dmaBlocks request n s.dma.blocksLeft.toNat s

/-- `DmaContinue()` of a linked list (R375). -/
def dmaContinueList (n : Fin 7) (s : State) : Result :=
  if !chcrToDevice (s.chan n).chcr then .fault (.fatal .dmaListDirection)
  else if n = otc then .fault (.fatal .dmaOtcWrite)
  else dmaList n ramWords s

/-- `DmaStart(n)` and the `DmaContinue()` that follows it (R365, R366). -/
def dmaStart (n : Fin 7) (s : State) : Result :=
  let c := s.chan n
  let words := bcrNumWords c.bcr
  let blocks := bcrNumBlocks c.bcr
  if chcrSyncMode c.chcr = 3 then .fault (.fatal .dmaSyncMode)
  else if !hasPort n s then .fault (.fatal .dmaNoPort)
  else if chcrSyncMode c.chcr = 0 then
    dmaContinueBlocks false n (dmaLoad n (if words = 0 then 0x10000 else words) 1 s)
  else if chcrSyncMode c.chcr = 1 then
    if words = 0 ∨ blocks = 0 then .refused .dmaRequestZeroCount
    else dmaContinueBlocks true n (dmaLoad n words blocks s)
  else dmaContinueList n (dmaLoad n 0 0 s)

/-- The channels in the scan order of R370. -/
def dmaChannels : List (Fin 7) := [0, 1, 2, 3, 4, 5, 6]

/-- `DmaRun()` (R370). Only a Request-mode block transfer can be found active: it is the one kind that suspends
(R374), and it goes on as one whatever CHCR now says (R362; log entry 16). -/
def dmaRun (s : State) : Result :=
  match s.dma.active with
  | some n => dmaContinueBlocks true n s
  | none =>
    match dmaChannels.find? (fun n => qualifies n s) with
    | some n => dmaStart n s
    | none => .next s

/-! The register window (R355 to R361, R366). -/

/-- The registers of the window. -/
inductive DmaReg where
  | madr (n : Fin 7)
  | bcr (n : Fin 7)
  | chcr (n : Fin 7)
  | unused (n : Fin 7)
  | dpcr
  | dicr
  | unassigned
deriving DecidableEq, Repr

/-- The register at a word-aligned offset of the window (R355). -/
def dmaRegAt (offset : Nat) : DmaReg :=
  if h : offset / 16 < 7 then
    match offset % 16 / 4 with
    | 0 => .madr ⟨offset / 16, h⟩
    | 1 => .bcr ⟨offset / 16, h⟩
    | 2 => .chcr ⟨offset / 16, h⟩
    | _ => .unused ⟨offset / 16, h⟩
  else if offset / 4 = 0x70 / 4 then .dpcr
  else if offset / 4 = 0x74 / 4 then .dicr
  else .unassigned

/-- A 32-bit read of the window (R357 to R362). -/
def dmaRegRead (offset : Nat) (s : State) : Reply Word :=
  match dmaRegAt offset with
  | .madr n => .ok (s.chan n).madr s
  | .bcr n => .ok (s.chan n).bcr s
  | .chcr n => .ok (s.chan n).chcr s
  | .unused n => .ok (s.chan n).unused s
  | .dpcr => .ok s.dma.dpcr s
  | .dicr => .ok s.dma.dicr s
  | .unassigned => .refused .dmaUnassignedWord

/-- The value a write to `CHCR[n]` stores (R359). -/
def chcrStored (n : Fin 7) (v : Word) (s : State) : Word :=
  if n = otc then (v &&& s.params.dmaChcrMaskOtc) ||| 0x00000002 else v &&& s.params.dmaChcrMask

/-- The synchronous start after a write to `CHCR[n]` (R366). -/
def dmaSyncStart (n : Fin 7) (s : State) : Result :=
  if qualifies n s ∧ s.dma.active = none then dmaStart n s else .next s

/-- A 32-bit write of the window (R357 to R361, R366). -/
def dmaRegWrite (offset : Nat) (v : Word) (s : State) : Result :=
  match dmaRegAt offset with
  | .madr n => .next (setChan n { s.chan n with madr := v &&& s.params.dmaMadrMask } s)
  | .bcr n => .next (setChan n { s.chan n with bcr := v } s)
  | .chcr n => dmaSyncStart n (setChcr n (chcrStored n v s) s)
  | .unused n => .next (setChan n { s.chan n with unused := v } s)
  | .dpcr => .next { s with dma := { s.dma with dpcr := v } }
  | .dicr => .next { s with dma := { s.dma with dicr := v } }
  | .unassigned => .refused .dmaUnassignedWord

end Sys2Proof.Machine
end

