-- ==== Sys2Proof/Machine/Operands.lean ====
section
/-! DEFINITION. The operand forms: immediates (30_encoding R143), shift amounts (41_shift R190), branch and jump
targets (43_branch_jump R211) and the byte lanes of the unaligned accesses (44_load_store R236, R237, R241,
R242). -/

namespace Sys2Proof.Machine

/-- `sext_16` (00_scope R8; 30_encoding R143 (a), (d)). -/
def sext16 (h : Half) : Word := h.signExtend 32

/-- `zext_16` (30_encoding R143 (b)). -/
def zext16 (h : Half) : Word := h.zeroExtend 32

/-- `sext_8` (44_load_store R231). -/
def sext8 (b : Byte) : Word := b.signExtend 32

/-- `zext_8` (44_load_store R232). -/
def zext8 (b : Byte) : Word := b.zeroExtend 32

/-- The low byte of a word. -/
def lowByte (w : Word) : Byte := w.extractLsb' 0 8

/-- The low halfword of a word. -/
def lowHalf (w : Word) : Half := w.extractLsb' 0 16

/-- `imm16 << 16`, low half zero (30_encoding R143 (c)). -/
def upperImmediate (h : Half) : Word := zext16 h <<< 16

/-- The shift amount held in a register: its low five bits (41_shift R190). -/
def shiftAmount (w : Word) : Nat := (w.extractLsb' 0 5).toNat

/-- `x << n` (41_shift R197). -/
def shiftLeft (x : Word) (n : Nat) : Word := x <<< n

/-- `x >> n`, zeros enter (41_shift R197). -/
def shiftRight (x : Word) (n : Nat) : Word := x >>> n

/-- `x >>a n`, copies of bit 31 enter (41_shift R197). -/
def shiftRightArith (x : Word) (n : Nat) : Word := x.sshiftRight n

/-- The effective address `x[rs] + sext_16(imm16)` (44_load_store R230 (a)). -/
def effectiveAddress (base : Word) (imm : Half) : Word := base + sext16 imm

/-- `a & ~3`, the address of the aligned word that holds `a`. -/
def alignedWord (a : Word) : Word := a &&& 0xFFFFFFFC

/-- `a[1:0]` (44_load_store R236). -/
def byteLane (a : Word) : BitVec 2 := a.extractLsb' 0 2

/-- The target of a conditional branch at `pc` (43_branch_jump R211). -/
def branchTarget (pc : Word) (imm : Half) : Word := pc + 4 + (sext16 imm <<< 2)

/-- The target of J and JAL at `pc` (43_branch_jump R211). -/
def jumpTarget (pc : Word) (index : BitVec 26) : Word :=
  ((pc + 4) &&& 0xF0000000) ||| (index.zeroExtend 32 <<< 2)

/-- The link value at `pc`: the address after the delay slot (43_branch_jump R211). -/
def linkAddress (pc : Word) : Word := pc + 8

/-- LWL's merge of the aligned word `w` into `cur` (44_load_store R236). -/
def mergeLwl (k : BitVec 2) (cur w : Word) : Word :=
  match k with
  | 0#2 => (cur &&& 0x00FFFFFF) ||| (w <<< 24)
  | 1#2 => (cur &&& 0x0000FFFF) ||| (w <<< 16)
  | 2#2 => (cur &&& 0x000000FF) ||| (w <<< 8)
  | _ => w

/-- LWR's merge of the aligned word `w` into `cur` (44_load_store R237). -/
def mergeLwr (k : BitVec 2) (cur w : Word) : Word :=
  match k with
  | 0#2 => w
  | 1#2 => (cur &&& 0xFF000000) ||| (w >>> 8)
  | 2#2 => (cur &&& 0xFFFF0000) ||| (w >>> 16)
  | _ => (cur &&& 0xFFFFFF00) ||| (w >>> 24)

/-- SWL's merge of the register value `v` into the aligned word `w` (44_load_store R241). -/
def mergeSwl (k : BitVec 2) (w v : Word) : Word :=
  match k with
  | 0#2 => (w &&& 0xFFFFFF00) ||| (v >>> 24)
  | 1#2 => (w &&& 0xFFFF0000) ||| (v >>> 16)
  | 2#2 => (w &&& 0xFF000000) ||| (v >>> 8)
  | _ => v

/-- SWR's merge of the register value `v` into the aligned word `w` (44_load_store R242). -/
def mergeSwr (k : BitVec 2) (w v : Word) : Word :=
  match k with
  | 0#2 => v
  | 1#2 => (w &&& 0x000000FF) ||| (v <<< 8)
  | 2#2 => (w &&& 0x0000FFFF) ||| (v <<< 16)
  | _ => (w &&& 0x00FFFFFF) ||| (v <<< 24)

end Sys2Proof.Machine
end

