-- ==== Sys2Proof/Machine/Bus.lean ====
section
/-! DEFINITION. The address segments, the bus crossbar, the address map and the devices behind it (20_memory R70
to R98). -/

namespace Sys2Proof.Machine

/-! Segments (R70, R71). -/

/-- `SegmentOf(a)`, by address bits 31:29. -/
def segmentOf (a : Word) : Segment :=
  match a.extractLsb' 29 3 with
  | 0#3 => .user
  | 1#3 => .invalid
  | 2#3 => .invalid
  | 3#3 => .invalid
  | 4#3 => .kernel0
  | 5#3 => .kernel1
  | _ => .kernel2

/-- `PhysicalOf(a)`. -/
def physicalOf (a : Word) : Word := a &&& 0x1FFFFFFF

/-! Access widths (R80, R86). -/

/-- The width of a Bus transaction: 8, 16 or 32 bits. -/
inductive Width where
  | byte
  | half
  | word
deriving DecidableEq, Repr

/-- The number of bits of an access. -/
def widthBits : Width → Nat
  | .byte => 8
  | .half => 16
  | .word => 32

/-- The low bits of `v` that an access of the width carries, zero-extended (R80). -/
def zextTo (w : Width) (v : Word) : Word :=
  match w with
  | .byte => zext8 (lowByte v)
  | .half => zext16 (lowHalf v)
  | .word => v

/-- `Aligned(width, a)` (R86). -/
def aligned (w : Width) (a : Word) : Bool :=
  match w with
  | .byte => true
  | .half => !a.getLsbD 0
  | .word => !a.getLsbD 0 && !a.getLsbD 1

/-! Ranges, registration and lookup (R81 to R83, R95). -/

/-- A registered range: physical offsets, `stop` exclusive, and the segments it is reachable from. -/
structure BusEntry where
  start : Nat
  stop : Nat
  segments : List Segment
  device : Device
deriving DecidableEq, Repr

/-- User, Kernel0 and Kernel1: the segments of a mirrored range (R72). -/
def mirrored : List Segment := [.user, .kernel0, .kernel1]

/-- The registered ranges of this platform (R95). -/
def busTable : List BusEntry :=
  [⟨0x00000000, 0x00800000, mirrored, .ram⟩,
   ⟨0x1F000000, 0x1F080000, mirrored, .expansion1⟩,
   ⟨0x1F800000, 0x1F800400, [.user, .kernel0], .scratchpad⟩,
   ⟨0x1F801000, 0x1F801024, mirrored, .memoryControl1⟩,
   ⟨0x1F801040, 0x1F801060, mirrored, .peripherals⟩,
   ⟨0x1F801060, 0x1F801064, mirrored, .memoryControl2⟩,
   ⟨0x1F801070, 0x1F801078, mirrored, .interruptControl⟩,
   ⟨0x1F801080, 0x1F801100, mirrored, .dma⟩] ++
  [⟨0x1F801100, 0x1F801130, mirrored, .timers⟩,
   ⟨0x1F801800, 0x1F801804, mirrored, .cdrom⟩,
   ⟨0x1F801810, 0x1F801818, mirrored, .gpu⟩,
   ⟨0x1F801820, 0x1F801828, mirrored, .mdec⟩,
   ⟨0x1F801C00, 0x1F802000, mirrored, .spu⟩,
   ⟨0x1F802000, 0x1F802080, mirrored, .expansion2⟩,
   ⟨0x1FC00000, 0x1FC80000, mirrored, .bios⟩,
   ⟨0x1FFE0130, 0x1FFE0134, [.kernel2], .cacheControl⟩]

/-- The entry holds the physical offset and is reachable from the segment (R81, R83). -/
def entryContains (seg : Segment) (p : Nat) (e : BusEntry) : Bool :=
  decide (e.start ≤ p) && decide (p < e.stop) && e.segments.contains seg

/-- `Lookup(seg, p)`, the functional definition (R83; log entry 25). -/
def busLookup (seg : Segment) (p : Nat) : Option BusEntry := busTable.find? (entryContains seg p)

/-- `RegisterDevice`, at configuration time (R82). Which reason is reported when the start is a duplicate and the table is
also full is the model's choice: the duplicate (DESIGN CHOICE, log entry 30). -/
def busRegister (capacity : Nat) (e : BusEntry) (es : List BusEntry) : Except FatalReason (List BusEntry) :=
  if es.any (fun x => x.start == e.start && x.segments.any e.segments.contains) then .error .duplicateRange
  else if capacity ≤ es.length then .error .busCapacity
  else .ok (es ++ [e])

/-- Registration of several ranges, first to last (70 R402). -/
def busRegisterAll (capacity : Nat) : List BusEntry → List BusEntry → Except FatalReason (List BusEntry)
  | [], es => .ok es
  | e :: rest, es =>
    match busRegister capacity e es with
    | .ok es' => busRegisterAll capacity rest es'
    | .error r => .error r

/-- The search structure of R83. -/
inductive BusTree where
  | leaf
  | node (e : BusEntry) (left right : BusTree)
deriving DecidableEq, Repr

/-- Insertion by start; a start that is not smaller goes right; no rebalancing (R83). -/
def busInsert (e : BusEntry) : BusTree → BusTree
  | .leaf => .node e .leaf .leaf
  | .node x l r => if e.start < x.start then .node x (busInsert e l) r else .node x l (busInsert e r)

/-- The tree after registering the ranges in order. -/
def busTreeOf (es : List BusEntry) : BusTree := es.foldl (fun t e => busInsert e t) .leaf

/-- The walk of R83. -/
def busWalk (seg : Segment) (p : Nat) : BusTree → Option BusEntry
  | .leaf => none
  | .node e l r =>
    if entryContains seg p e then some e
    else if p < e.start then busWalk seg p l else busWalk seg p r

/-! The devices (R80, R96, R97). -/

/-- `cpuCycles` of a device (R80). -/
def cpuCycles (l : Latencies) : Device → Nat
  | .ram => l.ram
  | .expansion1 => l.expansion1
  | .scratchpad => l.scratchpad
  | .memoryControl1 => l.memoryControl1
  | .peripherals => l.peripherals
  | .memoryControl2 => l.memoryControl2
  | .interruptControl => l.interruptControl
  | .dma => l.dma
  | .timers => l.timers
  | .cdrom => l.cdrom
  | .gpu => l.gpu
  | .mdec => l.mdec
  | .spu => l.spu
  | .expansion2 => l.expansion2
  | .bios => l.bios
  | .cacheControl => l.cacheControl

/-- The constant a stub returns (R96; log entry 21). -/
def stubRead (w : Width) (c : StubConstants) : Word :=
  match w with
  | .byte => zext8 c.read8
  | .half => zext16 c.read16
  | .word => c.read32

/-- A read of the byte arrays, zero-extended (R96, R100). -/
def arrayRead (w : Width) (key : Nat) (m : List Host.Cell) : Word :=
  match w with
  | .byte => zext8 (Memory.read m key)
  | .half => zext16 (Memory.readHalf m key)
  | .word => Memory.readWord m key

/-- A write of the byte arrays (R96, R100). -/
def arrayWrite (w : Width) (key : Nat) (v : Word) (m : List Host.Cell) : List Host.Cell :=
  match w with
  | .byte => Memory.write m key (lowByte v)
  | .half => Memory.writeHalf m key (lowHalf v)
  | .word => Memory.writeWord m key v

/-- Where a byte array keeps the byte at a range offset: RAM is folded to its 2 MB (R96). `none` for a device that
is no byte array. -/
def arrayKey (d : Device) (offset : Nat) : Option Nat :=
  match d with
  | .ram => some (offset % 0x200000)
  | .scratchpad => some (0x1F800000 + offset)
  | .bios => some (0x1FC00000 + offset)
  | _ => none

/-- What the GPU answers to a read: the environment's word (R96; log entry 6). -/
def gpuAnswer (w : Width) (s : State) : Reply Word :=
  let (v, s1) := drawWord s
  .ok (zextTo w v) (portRequests s1)

/-- What a device answers to a read, and what the read does to it (R96, R97; 62 R356). -/
def deviceAnswer (d : Device) (w : Width) (offset : Nat) (s : State) : Reply Word :=
  match d with
  | .ram => .ok (arrayRead w (offset % 0x200000) s.mem) s
  | .scratchpad => .ok (arrayRead w (0x1F800000 + offset) s.mem) s
  | .bios => .ok (arrayRead w (0x1FC00000 + offset) s.mem) s
  | .expansion1 => .ok (zextTo w 0xFFFFFFFF) s
  | .memoryControl1 => .ok (stubRead w s.params.stubs.memoryControl1) s
  | .peripherals => .ok (stubRead w s.params.stubs.peripherals) s
  | .memoryControl2 => .ok (stubRead w s.params.stubs.memoryControl2) s
  | .interruptControl => .ok (stubRead w s.params.stubs.interruptControl) s
  | .timers => .ok (stubRead w s.params.stubs.timers) s
  | .cdrom => .ok (stubRead w s.params.stubs.cdrom) s
  | .mdec => .ok (stubRead w s.params.stubs.mdec) s
  | .spu => .ok (stubRead w s.params.stubs.spu) s
  | .expansion2 => .ok (stubRead w s.params.stubs.expansion2) s
  | .gpu => gpuAnswer w s
  | .dma => if w = .word then dmaRegRead offset s else .fault (.fatal .dmaAccessWidth)
  | .cacheControl => if w = .word then .ok s.cacheCtl s else .fault (.fatal .cacheCtlWidth)

/-- What a write does to a device (R96, R97; 62 R356). -/
def deviceAccept (d : Device) (w : Width) (offset : Nat) (v : Word) (s : State) : Result :=
  match d with
  | .ram => .next { s with mem := arrayWrite w (offset % 0x200000) v s.mem }
  | .scratchpad => .next { s with mem := arrayWrite w (0x1F800000 + offset) v s.mem }
  | .bios => .next s
  | .expansion1 => .next s
  | .memoryControl1 => .next s
  | .peripherals => .next s
  | .memoryControl2 => .next s
  | .interruptControl => .next s
  | .timers => .next s
  | .cdrom => .next s
  | .mdec => .next s
  | .spu => .next s
  | .expansion2 => .next s
  | .gpu => .next (portRequests s)
  | .dma => if w = .word then dmaRegWrite offset v s else .fault (.fatal .dmaAccessWidth)
  | .cacheControl => if w = .word then .next { s with cacheCtl := v } else .fault (.fatal .cacheCtlWidth)

/-- The Device port, a read transaction: device, segment, width and offset go out, the answer comes back (R80). -/
def deviceRead (d : Device) (seg : Segment) (w : Width) (offset : Nat) (s : State) : Reply Word :=
  deviceAnswer d w offset (emit (.deviceRead d seg (widthBits w) offset) s)

/-- The Device port, a write transaction: device, segment, width, offset and the width's bits of the data go out (R80). -/
def deviceWrite (d : Device) (seg : Segment) (w : Width) (offset : Nat) (v : Word) (s : State) : Result :=
  deviceAccept d w offset v (emit (.deviceWrite d seg (widthBits w) offset (zextTo w v)) s)

/-! The Bus (R84, R85, R87). -/

/-- The entry that claims an address. -/
def claim (a : Word) : Option BusEntry := busLookup (segmentOf a) (physicalOf a).toNat

/-- The range offset of an address in an entry (R80). -/
def rangeOffset (e : BusEntry) (a : Word) : Nat := (physicalOf a).toNat - e.start

/-- The Bus records a fault (R87). -/
def recordFault (code : BusFaultCode) (a : Word) (s : State) : State := { s with busFault := some ⟨code, a⟩ }

/-- `BusRead(width, a)` (R84): the value and the latency, or a recorded fault (`none`). -/
def busRead (w : Width) (a : Word) (s : State) : Reply (Option (Word × Nat)) :=
  match claim a with
  | none => .ok none (recordFault .busErrorFetch a s)
  | some e =>
    if !aligned w a then .ok none (recordFault .addressErrorFetch a s)
    else
      match deviceRead e.device (segmentOf a) w (rangeOffset e a) s with
      | .ok v s1 => .ok (some (v, cpuCycles s.params.latencies e.device)) s1
      | .fault r => .fault r
      | .refused r => .refused r

/-- `BusWrite(width, a, v)` (R85): the latency, or a recorded fault (`none`). -/
def busWrite (w : Width) (a v : Word) (s : State) : Reply (Option Nat) :=
  match claim a with
  | none => .ok none (recordFault .busErrorStore a s)
  | some e =>
    if !aligned w a then .ok none (recordFault .addressErrorStore a s)
    else
      match deviceWrite e.device (segmentOf a) w (rangeOffset e a) v s with
      | .next s1 => .ok (some (cpuCycles s.params.latencies e.device)) s1
      | .fault r => .fault r
      | .refused r => .refused r

end Sys2Proof.Machine
end

