-- ==== Sys2Proof/Machine/Ops.lean ====
section
/-! DEFINITION. The operations the instructions share: general registers, the retire phase (10_state R28), taking
an exception and returning from one (60_exceptions R300; 45_system_coproc R256), the CPU's data accesses
(20_memory R110 to R114), coprocessor 0 (45_system_coproc R255) and the delayed branch (43_branch_jump R210). -/

namespace Sys2Proof.Machine

/-! General registers (10_state R22, R27). -/

/-- `x[i]`: r0 reads 0; a pending load is not seen. -/
def State.gpr (s : State) (i : Reg) : Word := if i = 0 then 0 else s.regs[i.toNat]'(i.isLt)

/-- Writes a general register; r0 discards the write. -/
def setGpr (i : Reg) (v : Word) (s : State) : State :=
  if i = 0 then s else { s with regs := s.regs.set i.toNat v i.isLt }

/-! Retire (10_state R28). -/

/-- The pending load reaches its register. -/
def commitLoad (s : State) : State := setGpr s.load.reg s.load.value s

/-- Retire of an instruction that neither writes a general register nor loads. -/
def retireNone (s : State) : State := { commitLoad s with load := ⟨0, 0⟩ }

/-- Retire of an instruction with its own register write, which wins over the pending load. -/
def retireWrite (i : Reg) (v : Word) (s : State) : State := { setGpr i v (commitLoad s) with load := ⟨0, 0⟩ }

/-- Retire of a load into `i`: a pending load of the same register is dropped, and the new one is queued. -/
def retireLoad (i : Reg) (v : Word) (s : State) : State :=
  if s.load.reg = i then { s with load := ⟨i, v⟩ } else { commitLoad s with load := ⟨i, v⟩ }

/-! Exceptions (60_exceptions R280, R300, R301). -/

/-- CAUSE.ExcCode of an exception (R280). -/
def excCode : Exc → BitVec 5
  | .int => 0
  | .adEL _ => 4
  | .adES _ => 5
  | .ibe => 6
  | .dbe => 7
  | .sys => 8
  | .bp => 9
  | .ri => 10
  | .cpU _ => 11
  | .ov => 12

/-- CAUSE.CE: the coprocessor number of CpU, else 0 (R300). -/
def excCe : Exc → BitVec 2
  | .cpU z => z
  | _ => 0

/-- BADVADDR after the exception: written for an address error only (R300). -/
def excBadVAddr (e : Exc) (old : Word) : Word :=
  match e with
  | .adEL a => a
  | .adES a => a
  | _ => old

/-- The push of the (KU, IE) stack: `SR[5:0] <- SR[3:0] << 2` (R300). -/
def srPush (sr : Word) : Word := (sr &&& 0xFFFFFFC0) ||| ((sr &&& 0x0000000F) <<< 2)

/-- The pop of the (KU, IE) stack: `SR[3:0] <- SR[5:2]` (45 R256). -/
def srPop (sr : Word) : Word := (sr &&& 0xFFFFFFF0) ||| ((sr >>> 2) &&& 0x0000000F)

/-- `Vector()` (R301). -/
def excVector (sr : Word) : Word := if sr.getLsbD 22 then 0xBFC00180 else 0x80000080

/-- CAUSE after the exception: ExcCode, CE and BD are written, the other bits stay (R300). -/
def causeAfter (e : Exc) (inDelaySlot : Bool) (cause : Word) : Word :=
  (cause &&& 0x4FFFFF83) ||| ((excCode e).zeroExtend 32 <<< 2) ||| ((excCe e).zeroExtend 32 <<< 28) |||
    (if inDelaySlot then 0x80000000 else 0)

/-- EPC: the instruction, or the branch before it when it sits in a delay slot (R300). -/
def epcOf (inDelaySlot : Bool) (currentPc : Word) : Word := if inDelaySlot then currentPc - 4 else currentPc

/-- `ExceptionEntry(exc)` (R300). -/
def exceptionEntry (e : Exc) (s : State) : State :=
  { s with
    sr := srPush s.sr
    cause := causeAfter e s.delaySlot s.cause
    epc := epcOf s.delaySlot s.currentPc
    badVAddr := excBadVAddr e s.badVAddr
    pc := excVector s.sr
    nextPc := excVector s.sr + 4
    branch := false
    busFault := none }

/-- Taking an exception: the retire phase of a step that raised (10_state R28). The pending load commits, the
instruction's own write and load are dropped, and the exception is entered. -/
def takeException (e : Exc) (s : State) : State := exceptionEntry e { commitLoad s with load := ⟨0, 0⟩ }

/-- `raise`: a next state, with the exception taken (00_scope R9). -/
def raise (e : Exc) (s : State) : Result := .next (takeException e s)

/-- What RFE does to the machine: it pops the (KU, IE) stack and leaves the program counter alone (45 R256). -/
def returnFromException (s : State) : State := { s with sr := srPop s.sr }

/-- Go on with the value of an access; an exception it raised is taken. -/
def withAccess {α : Type} (r : Access α) (f : α → State → Result) : Result :=
  match r with
  | .ok v s => f v s
  | .raise e s => raise e s
  | .fault e => .fault e
  | .refused e => .refused e

/-! Modes and interrupts (10_state R32; 60_exceptions R290, R291, R310, R311). -/

/-- SR.KUc = 1. -/
def userMode (s : State) : Bool := s.sr.getLsbD 1

/-- SR.IsC = 1. -/
def isolated (s : State) : Bool := s.sr.getLsbD 16

/-- User mode and an address outside the User segment (20_memory R113). -/
def userBlocked (a : Word) (s : State) : Bool := userMode s && segmentOf a != .user

/-- CAUSE as it reads: bits 15:10 are the interrupt lines now, the bits without a function read 0 (10_state
R33). -/
def causeView (s : State) : Word := (s.cause &&& 0xB000037C) ||| (s.irqIn.zeroExtend 32 <<< 10)

/-- `IntPending()` (R291). -/
def intPending (s : State) : Bool := s.sr.getLsbD 0 && (s.sr &&& causeView s &&& 0x0000FF00) != 0

/-- `CopUsable(0)` passes (R311). -/
def cop0Usable (s : State) : Bool := !userMode s || s.sr.getLsbD 28

/-- SR.CU2 = 1 (R311). -/
def cop2Usable (s : State) : Bool := s.sr.getLsbD 30

/-! The CPU's data accesses (20_memory R110 to R114). -/

/-- Bus latency is added to the step's cost. -/
def addCost (cycles : Nat) (s : State) : State := { s with cost := s.cost + cycles }

/-- The exception of a faulted Bus read of `a` (R110, R115). -/
def readFault (a : Word) (s : State) : Exc :=
  match s.busFault with
  | some f => if f.code = .addressErrorFetch then .adEL a else .ibe
  | none => .ibe

/-- The exception of a faulted Bus write of `a` (R111). -/
def writeFault (a : Word) (s : State) : Exc :=
  match s.busFault with
  | some f => if f.code = .addressErrorStore then .adES a else .dbe
  | none => .dbe

/-- A Bus read by the CPU, with its faults and its latency (R110, R115). -/
def cpuBusRead (w : Width) (a : Word) (s : State) : Access Word :=
  match busRead w a s with
  | .ok (some (v, c)) s1 => .ok v (addCost c s1)
  | .ok none s1 => .raise (readFault a s1) s1
  | .fault r => .fault r
  | .refused r => .refused r

/-- `MemRead(a, n)` (R110). -/
def memRead (w : Width) (a : Word) (s : State) : Access Word :=
  if userBlocked a s then .raise (.adEL a) s
  else if isolated s then .refused .isolatedLoad
  else cpuBusRead w a s

/-- Cache line `(a >> 4) & 0xFF` (R112, R115). -/
def cacheIndex (a : Word) : BitVec 8 := a.extractLsb' 4 8

/-- Slot `(a >> 2) & 3` (R112, R115). -/
def cacheSlot (a : Word) : BitVec 2 := a.extractLsb' 2 2

/-- The tag of an address: `PhysicalOf(a)[28:12]` (R115). -/
def cacheTag (a : Word) : BitVec 17 := (physicalOf a).extractLsb' 12 17

def State.line (s : State) (i : BitVec 8) : CacheLine := s.icache[i.toNat]'(i.isLt)

def setLine (i : BitVec 8) (l : CacheLine) (s : State) : State :=
  { s with icache := s.icache.set i.toNat l i.isLt }

/-- The line with its valid bits cleared. -/
def lineInvalidated (l : CacheLine) : CacheLine := { l with valid := Vector.replicate 4 false }

/-- The line with one instruction slot patched. -/
def linePatched (k : BitVec 2) (v : Word) (l : CacheLine) : CacheLine :=
  { l with word := l.word.set k.toNat v k.isLt }

/-- CACHECTL.TAG, tag-test mode (10_state R37). -/
def tagTest (s : State) : Bool := s.cacheCtl.getLsbD 2

/-- `IsolatedStore(a, 4, v)` (R112). -/
def isolatedStore (a v : Word) (s : State) : State :=
  if tagTest s then setLine (cacheIndex a) (lineInvalidated (s.line (cacheIndex a))) s
  else setLine (cacheIndex a) (linePatched (cacheSlot a) v (s.line (cacheIndex a))) s

/-- A Bus write by the CPU, with its faults and its latency (R111). -/
def cpuBusWrite (w : Width) (a v : Word) (s : State) : Access Unit :=
  match busWrite w a v s with
  | .ok (some c) s1 => .ok () (addCost c s1)
  | .ok none s1 => .raise (writeFault a s1) s1
  | .fault r => .fault r
  | .refused r => .refused r

/-- `MemWrite(a, n, v)` (R111, R112). -/
def memWrite (w : Width) (a v : Word) (s : State) : Access Unit :=
  if userBlocked a s then .raise (.adES a) s
  else if isolated s then
    if w = .word then .ok () (isolatedStore a v s) else .fault (.fatal .isolatedNarrowStore)
  else cpuBusWrite w a v s

/-! Coprocessor 0 (45_system_coproc R255). -/

/-- What a COP0 register number names. -/
inductive Cop0Reg where
  | sr
  | cause
  | epc
  | prid
  | badVAddr
  | breakpoint
  | absent
deriving DecidableEq, Repr

/-- The register numbers of R255. -/
def cop0RegOf (rd : Reg) : Cop0Reg :=
  match rd with
  | 12#5 => .sr
  | 13#5 => .cause
  | 14#5 => .epc
  | 15#5 => .prid
  | 8#5 => .badVAddr
  | 3#5 => .breakpoint
  | 5#5 => .breakpoint
  | 6#5 => .breakpoint
  | 7#5 => .breakpoint
  | 9#5 => .breakpoint
  | 11#5 => .breakpoint
  | _ => .absent

/-- `Cop0Read(rd)`. -/
def cop0Read (rd : Reg) (s : State) : Access Word :=
  match cop0RegOf rd with
  | .sr => .ok s.sr s
  | .cause => .ok (causeView s) s
  | .epc => .ok s.epc s
  | .prid => .ok s.params.prid s
  | .badVAddr => .ok s.badVAddr s
  | .breakpoint => .ok 0 s
  | .absent => .fault (.fatal .cop0Register)

/-- CAUSE after MTC0: bits 9:8 only (10_state R33). -/
def causeWritten (v cause : Word) : Word := (cause &&& 0xFFFFFCFF) ||| (v &&& 0x00000300)

/-- `Cop0Write(rd, v)`. -/
def cop0Write (rd : Reg) (v : Word) (s : State) : Access Unit :=
  match cop0RegOf rd with
  | .sr => .ok () { s with sr := v }
  | .cause => .ok () { s with cause := causeWritten v s.cause }
  | .epc => .ok () s
  | .prid => .ok () s
  | .badVAddr => .ok () s
  | .breakpoint => if v = 0 then .ok () s else .fault (.fatal .cop0BreakpointWrite)
  | .absent => .fault (.fatal .cop0Register)

/-! The delayed branch (43_branch_jump R210). -/

/-- A branch or jump: the next instruction sits in a delay slot, and a taken one sets the fetch after it. -/
def branchTo (taken : Bool) (target : Word) (s : State) : State :=
  { s with branch := true, nextPc := if taken then target else s.nextPc }

end Sys2Proof.Machine
end

