-- ==== Sys2Proof/Machine/Alu.lean ====
section
/-! DEFINITION. The arithmetic, logical, comparison and constant-forming instructions (40_alu R170 to R188). -/

namespace Sys2Proof.Machine

/-- The end of an instruction whose only effect is to write a general register. -/
def writeResult (i : Reg) (v : Word) (s : State) : Result := .next (retireWrite i v s)

/-- ADD (R171). -/
def execAdd (rd rs rt : Reg) (s : State) : Result :=
  if addOverflows (s.gpr rs) (s.gpr rt) then raise .ov s else writeResult rd (s.gpr rs + s.gpr rt) s

/-- ADDU (R172). -/
def execAddu (rd rs rt : Reg) (s : State) : Result := writeResult rd (s.gpr rs + s.gpr rt) s

/-- SUB (R173). -/
def execSub (rd rs rt : Reg) (s : State) : Result :=
  if subOverflows (s.gpr rs) (s.gpr rt) then raise .ov s else writeResult rd (s.gpr rs - s.gpr rt) s

/-- SUBU (R174). -/
def execSubu (rd rs rt : Reg) (s : State) : Result := writeResult rd (s.gpr rs - s.gpr rt) s

/-- AND (R175). -/
def execAnd (rd rs rt : Reg) (s : State) : Result := writeResult rd (s.gpr rs &&& s.gpr rt) s

/-- OR (R176). -/
def execOr (rd rs rt : Reg) (s : State) : Result := writeResult rd (s.gpr rs ||| s.gpr rt) s

/-- XOR (R177). -/
def execXor (rd rs rt : Reg) (s : State) : Result := writeResult rd (s.gpr rs ^^^ s.gpr rt) s

/-- NOR (R178). -/
def execNor (rd rs rt : Reg) (s : State) : Result := writeResult rd (~~~(s.gpr rs ||| s.gpr rt)) s

/-- SLT (R179). -/
def execSlt (rd rs rt : Reg) (s : State) : Result :=
  writeResult rd (boolWord (lessSigned (s.gpr rs) (s.gpr rt))) s

/-- SLTU (R180). -/
def execSltu (rd rs rt : Reg) (s : State) : Result :=
  writeResult rd (boolWord (lessUnsigned (s.gpr rs) (s.gpr rt))) s

/-- ADDI (R181). -/
def execAddi (rt rs : Reg) (imm : Half) (s : State) : Result :=
  if addOverflows (s.gpr rs) (sext16 imm) then raise .ov s else writeResult rt (s.gpr rs + sext16 imm) s

/-- ADDIU (R182). -/
def execAddiu (rt rs : Reg) (imm : Half) (s : State) : Result := writeResult rt (s.gpr rs + sext16 imm) s

/-- SLTI (R183). -/
def execSlti (rt rs : Reg) (imm : Half) (s : State) : Result :=
  writeResult rt (boolWord (lessSigned (s.gpr rs) (sext16 imm))) s

/-- SLTIU (R184). -/
def execSltiu (rt rs : Reg) (imm : Half) (s : State) : Result :=
  writeResult rt (boolWord (lessUnsigned (s.gpr rs) (sext16 imm))) s

/-- ANDI (R185). -/
def execAndi (rt rs : Reg) (imm : Half) (s : State) : Result := writeResult rt (s.gpr rs &&& zext16 imm) s

/-- ORI (R186). -/
def execOri (rt rs : Reg) (imm : Half) (s : State) : Result := writeResult rt (s.gpr rs ||| zext16 imm) s

/-- XORI (R187). -/
def execXori (rt rs : Reg) (imm : Half) (s : State) : Result := writeResult rt (s.gpr rs ^^^ zext16 imm) s

/-- LUI (R188). -/
def execLui (rt : Reg) (imm : Half) (s : State) : Result := writeResult rt (upperImmediate imm) s

end Sys2Proof.Machine
end

