-- ==== Sys2Proof/Machine/Branch.lean ====
section
/-! DEFINITION. The branch and jump instructions (43_branch_jump R210 to R225). -/

namespace Sys2Proof.Machine

/-- The link register of JAL, BLTZAL and BGEZAL (10_state R22). -/
def linkReg : Reg := 31

/-- A branch or jump that writes no register. -/
def branch (taken : Bool) (target : Word) (s : State) : Result := .next (retireNone (branchTo taken target s))

/-- A branch or jump that writes the address after its delay slot to `i`, taken or not. -/
def branchLink (i : Reg) (taken : Bool) (target : Word) (s : State) : Result :=
  .next (retireWrite i (linkAddress s.currentPc) (branchTo taken target s))

/-- J (R214). -/
def execJ (index : BitVec 26) (s : State) : Result := branch true (jumpTarget s.currentPc index) s

/-- JAL (R215). -/
def execJal (index : BitVec 26) (s : State) : Result := branchLink linkReg true (jumpTarget s.currentPc index) s

/-- JR (R216). -/
def execJr (rs : Reg) (s : State) : Result := branch true (s.gpr rs) s

/-- JALR (R217). -/
def execJalr (rd rs : Reg) (s : State) : Result := branchLink rd true (s.gpr rs) s

/-- BEQ (R218). -/
def execBeq (rs rt : Reg) (imm : Half) (s : State) : Result :=
  branch (s.gpr rs == s.gpr rt) (branchTarget s.currentPc imm) s

/-- BNE (R219). -/
def execBne (rs rt : Reg) (imm : Half) (s : State) : Result :=
  branch (s.gpr rs != s.gpr rt) (branchTarget s.currentPc imm) s

/-- BLEZ (R220). -/
def execBlez (rs : Reg) (imm : Half) (s : State) : Result :=
  branch (isLeZero (s.gpr rs)) (branchTarget s.currentPc imm) s

/-- BGTZ (R221). -/
def execBgtz (rs : Reg) (imm : Half) (s : State) : Result :=
  branch (isGtZero (s.gpr rs)) (branchTarget s.currentPc imm) s

/-- BLTZ (R222). -/
def execBltz (rs : Reg) (imm : Half) (s : State) : Result :=
  branch (s.gpr rs).msb (branchTarget s.currentPc imm) s

/-- BGEZ (R223). -/
def execBgez (rs : Reg) (imm : Half) (s : State) : Result :=
  branch (!(s.gpr rs).msb) (branchTarget s.currentPc imm) s

/-- BLTZAL (R224). -/
def execBltzal (rs : Reg) (imm : Half) (s : State) : Result :=
  branchLink linkReg (s.gpr rs).msb (branchTarget s.currentPc imm) s

/-- BGEZAL (R225). -/
def execBgezal (rs : Reg) (imm : Half) (s : State) : Result :=
  branchLink linkReg (!(s.gpr rs).msb) (branchTarget s.currentPc imm) s

end Sys2Proof.Machine
end

