-- ==== Sys2Proof/Machine/LoadStore.lean ====
section
/-! DEFINITION. The load and store instructions (44_load_store R230 to R242). -/

namespace Sys2Proof.Machine

/-- A load of the given width: the value goes through `ext` into the load slot (R230). -/
def loadWith (w : Width) (ext : Word → Word) (rt rs : Reg) (imm : Half) (s : State) : Result :=
  withAccess (memRead w (effectiveAddress (s.gpr rs) imm) s) fun v s1 => .next (retireLoad rt (ext v) s1)

/-- LB (R231). -/
def execLb (rt rs : Reg) (imm : Half) (s : State) : Result := loadWith .byte (fun v => sext8 (lowByte v)) rt rs imm s

/-- LBU (R232). -/
def execLbu (rt rs : Reg) (imm : Half) (s : State) : Result := loadWith .byte (fun v => zext8 (lowByte v)) rt rs imm s

/-- LH (R233). -/
def execLh (rt rs : Reg) (imm : Half) (s : State) : Result := loadWith .half (fun v => sext16 (lowHalf v)) rt rs imm s

/-- LHU (R234). -/
def execLhu (rt rs : Reg) (imm : Half) (s : State) : Result := loadWith .half (fun v => zext16 (lowHalf v)) rt rs imm s

/-- LW (R235). -/
def execLw (rt rs : Reg) (imm : Half) (s : State) : Result := loadWith .word (fun v => v) rt rs imm s

/-- The value LWL and LWR merge into: the pending load of the same register, else the register (R236). -/
def pendingOr (i : Reg) (s : State) : Word := if s.load.reg = i ∧ i ≠ 0 then s.load.value else s.gpr i

/-- The read of LWL and LWR: the aligned word, after the user-mode check on `a` itself (R236; log entry 23). -/
def unalignedRead (a : Word) (s : State) : Access Word :=
  if userBlocked a s then .raise (.adEL a) s else memRead .word (alignedWord a) s

/-- LWL and LWR: merge the aligned word, through the load slot. -/
def loadMerge (merge : BitVec 2 → Word → Word → Word) (rt rs : Reg) (imm : Half) (s : State) : Result :=
  withAccess (unalignedRead (effectiveAddress (s.gpr rs) imm) s) fun w s1 =>
    .next (retireLoad rt (merge (byteLane (effectiveAddress (s.gpr rs) imm)) (pendingOr rt s) w) s1)

/-- LWL (R236). -/
def execLwl (rt rs : Reg) (imm : Half) (s : State) : Result := loadMerge mergeLwl rt rs imm s

/-- LWR (R237). -/
def execLwr (rt rs : Reg) (imm : Half) (s : State) : Result := loadMerge mergeLwr rt rs imm s

/-- A store of the given width (R230). -/
def storeWith (w : Width) (rt rs : Reg) (imm : Half) (s : State) : Result :=
  withAccess (memWrite w (effectiveAddress (s.gpr rs) imm) (s.gpr rt) s) fun _ s1 => .next (retireNone s1)

/-- SB (R238). -/
def execSb (rt rs : Reg) (imm : Half) (s : State) : Result := storeWith .byte rt rs imm s

/-- SH (R239). -/
def execSh (rt rs : Reg) (imm : Half) (s : State) : Result := storeWith .half rt rs imm s

/-- SW (R240). -/
def execSw (rt rs : Reg) (imm : Half) (s : State) : Result := storeWith .word rt rs imm s

/-- The read half of SWL and SWR (R241). -/
def mergeRead (a : Word) (s : State) : Access Word :=
  if userBlocked a s then .raise (.adES a) s
  else if isolated s then .fault (.fatal .isolatedNarrowStore)
  else cpuBusRead .word (alignedWord a) s

/-- SWL and SWR: read the aligned word, merge the register into it, write it back (R241, R242). -/
def storeMerge (merge : BitVec 2 → Word → Word → Word) (rt rs : Reg) (imm : Half) (s : State) : Result :=
  withAccess (mergeRead (effectiveAddress (s.gpr rs) imm) s) fun w s1 =>
    withAccess (memWrite .word (alignedWord (effectiveAddress (s.gpr rs) imm))
      (merge (byteLane (effectiveAddress (s.gpr rs) imm)) w (s.gpr rt)) s1) fun _ s2 => .next (retireNone s2)

/-- SWL (R241). -/
def execSwl (rt rs : Reg) (imm : Half) (s : State) : Result := storeMerge mergeSwl rt rs imm s

/-- SWR (R242). -/
def execSwr (rt rs : Reg) (imm : Half) (s : State) : Result := storeMerge mergeSwr rt rs imm s

end Sys2Proof.Machine
end

