-- ==== Sys2Proof/Machine/MulDiv.lean ====
section
/-! DEFINITION. The multiply, divide and HI/LO move instructions (42_muldiv R200 to R208). -/

namespace Sys2Proof.Machine

/-- The exact signed 64-bit product (R201). -/
def productSigned (a b : Word) : BitVec 64 := BitVec.ofInt 64 (a.toInt * b.toInt)

/-- The exact unsigned 64-bit product (R202). -/
def productUnsigned (a b : Word) : BitVec 64 := BitVec.ofNat 64 (a.toNat * b.toNat)

/-- Bits 63:32 of a product. -/
def highWord (p : BitVec 64) : Word := p.extractLsb' 32 32

/-- Bits 31:0 of a product. -/
def lowWord (p : BitVec 64) : Word := p.extractLsb' 0 32

/-- DIV's quotient (R203). -/
def quotientSigned (n d : Word) : Word :=
  if d = 0 then (if 0 ≤ n.toInt then 0xFFFFFFFF else 0x00000001)
  else if n = 0x80000000 ∧ d = 0xFFFFFFFF then 0x80000000
  else BitVec.ofInt 32 (n.toInt.tdiv d.toInt)

/-- DIV's remainder (R203). -/
def remainderSigned (n d : Word) : Word :=
  if d = 0 then n
  else if n = 0x80000000 ∧ d = 0xFFFFFFFF then 0
  else BitVec.ofInt 32 (n.toInt - n.toInt.tdiv d.toInt * d.toInt)

/-- DIVU's quotient (R204). -/
def quotientUnsigned (n d : Word) : Word :=
  if d = 0 then 0xFFFFFFFF else BitVec.ofNat 32 (n.toNat / d.toNat)

/-- DIVU's remainder (R204). -/
def remainderUnsigned (n d : Word) : Word := if d = 0 then n else BitVec.ofNat 32 (n.toNat % d.toNat)

/-- The end of an instruction whose only effect is to write HI and LO. -/
def writeHiLo (hi lo : Word) (s : State) : Result := .next (retireNone { s with hi := hi, lo := lo })

/-- MULT (R201). -/
def execMult (rs rt : Reg) (s : State) : Result :=
  writeHiLo (highWord (productSigned (s.gpr rs) (s.gpr rt))) (lowWord (productSigned (s.gpr rs) (s.gpr rt))) s

/-- MULTU (R202). -/
def execMultu (rs rt : Reg) (s : State) : Result :=
  writeHiLo (highWord (productUnsigned (s.gpr rs) (s.gpr rt))) (lowWord (productUnsigned (s.gpr rs) (s.gpr rt))) s

/-- DIV (R203). -/
def execDiv (rs rt : Reg) (s : State) : Result :=
  writeHiLo (remainderSigned (s.gpr rs) (s.gpr rt)) (quotientSigned (s.gpr rs) (s.gpr rt)) s

/-- DIVU (R204). -/
def execDivu (rs rt : Reg) (s : State) : Result :=
  writeHiLo (remainderUnsigned (s.gpr rs) (s.gpr rt)) (quotientUnsigned (s.gpr rs) (s.gpr rt)) s

/-- MFHI (R205). -/
def execMfhi (rd : Reg) (s : State) : Result := writeResult rd s.hi s

/-- MTHI (R206). -/
def execMthi (rs : Reg) (s : State) : Result := writeHiLo (s.gpr rs) s.lo s

/-- MFLO (R207). -/
def execMflo (rd : Reg) (s : State) : Result := writeResult rd s.lo s

/-- MTLO (R208). -/
def execMtlo (rs : Reg) (s : State) : Result := writeHiLo s.hi (s.gpr rs) s

end Sys2Proof.Machine
end

