-- ==== Sys2Proof/Machine/Shift.lean ====
section
/-! DEFINITION. The shift instructions (41_shift R190 to R196). -/

namespace Sys2Proof.Machine

/-- SLL (R191). -/
def execSll (rd rt : Reg) (shamt : Nat) (s : State) : Result := writeResult rd (shiftLeft (s.gpr rt) shamt) s

/-- SRL (R192). -/
def execSrl (rd rt : Reg) (shamt : Nat) (s : State) : Result := writeResult rd (shiftRight (s.gpr rt) shamt) s

/-- SRA (R193). -/
def execSra (rd rt : Reg) (shamt : Nat) (s : State) : Result :=
  writeResult rd (shiftRightArith (s.gpr rt) shamt) s

/-- SLLV (R194). -/
def execSllv (rd rt rs : Reg) (s : State) : Result :=
  writeResult rd (shiftLeft (s.gpr rt) (shiftAmount (s.gpr rs))) s

/-- SRLV (R195). -/
def execSrlv (rd rt rs : Reg) (s : State) : Result :=
  writeResult rd (shiftRight (s.gpr rt) (shiftAmount (s.gpr rs))) s

/-- SRAV (R196). -/
def execSrav (rd rt rs : Reg) (s : State) : Result :=
  writeResult rd (shiftRightArith (s.gpr rt) (shiftAmount (s.gpr rs))) s

end Sys2Proof.Machine
end

