-- ==== Sys2Proof/Machine/System.lean ====
section
/-! DEFINITION. The trap, coprocessor-0 and absent-coprocessor instructions (45_system_coproc R250 to R259). -/

namespace Sys2Proof.Machine

/-- SYSCALL (R251); the code is not looked at. -/
def execSyscall (_code : Nat) (s : State) : Result := raise .sys s

/-- BREAK (R252); the code is not looked at. -/
def execBrk (_code : Nat) (s : State) : Result := raise .bp s

/-- `CopUsable(0)`, then the rest of the instruction (R250). -/
def ifCop0Usable (s : State) (r : Result) : Result := if cop0Usable s then r else raise (.cpU 0) s

/-- MFC0 (R253). -/
def execMfc0 (rt rd : Reg) (s : State) : Result :=
  ifCop0Usable s (withAccess (cop0Read rd s) fun v s1 => .next (retireLoad rt v s1))

/-- MTC0 (R254). -/
def execMtc0 (rt rd : Reg) (s : State) : Result :=
  ifCop0Usable s (withAccess (cop0Write rd (s.gpr rt) s) fun _ s1 => .next (retireNone s1))

/-- RFE (R256). -/
def execRfe (s : State) : Result := ifCop0Usable s (.next (retireNone (returnFromException s)))

/-- An instruction of an absent coprocessor (R257, R259). -/
def absentCoprocessor (z : BitVec 2) (s : State) : Result := raise (.cpU z) s

/-- An instruction of the geometry engine: CpU(2) when SR.CU2 = 0, else refused, because the spec gives the unit's
behaviour nowhere (R258, R259). -/
def geometryEngine (s : State) : Result := if cop2Usable s then .refused .geometryEngine else raise (.cpU 2) s

/-- COP1 (R257). -/
def execCop1 (s : State) : Result := absentCoprocessor 1 s

/-- COP2 (R258). -/
def execCop2 (s : State) : Result := geometryEngine s

/-- COP3 (R257). -/
def execCop3 (s : State) : Result := absentCoprocessor 3 s

/-- LWC0 (R259). -/
def execLwc0 (_rt _rs : Reg) (_imm : Half) (s : State) : Result := absentCoprocessor 0 s

/-- LWC1 (R259). -/
def execLwc1 (_rt _rs : Reg) (_imm : Half) (s : State) : Result := absentCoprocessor 1 s

/-- LWC2 (R259). -/
def execLwc2 (_rt _rs : Reg) (_imm : Half) (s : State) : Result := geometryEngine s

/-- LWC3 (R259). -/
def execLwc3 (_rt _rs : Reg) (_imm : Half) (s : State) : Result := absentCoprocessor 3 s

/-- SWC0 (R259). -/
def execSwc0 (_rt _rs : Reg) (_imm : Half) (s : State) : Result := absentCoprocessor 0 s

/-- SWC1 (R259). -/
def execSwc1 (_rt _rs : Reg) (_imm : Half) (s : State) : Result := absentCoprocessor 1 s

/-- SWC2 (R259). -/
def execSwc2 (_rt _rs : Reg) (_imm : Half) (s : State) : Result := geometryEngine s

/-- SWC3 (R259). -/
def execSwc3 (_rt _rs : Reg) (_imm : Half) (s : State) : Result := absentCoprocessor 3 s

end Sys2Proof.Machine
end

