-- ==== Sys2Proof/Machine/Cycle.lean ====
section
/-! DEFINITION. The instruction step around exec (10_state R26), the instruction fetch (20_memory R115, R116), and the
host's moves (70_reset_and_hazards R420, R421; log entries 12, 13). -/

namespace Sys2Proof.Machine

/-! P1, P3: advance and fetch. -/

/-- P1 (10_state R26). -/
def advance (s : State) : State :=
  { s with
    currentPc := s.pc
    pc := s.nextPc
    nextPc := s.nextPc + 4
    delaySlot := s.branch
    branch := false
    cost := 0 }

/-- CACHECTL.IS1, instruction cache enable (10_state R37). -/
def cacheEnabled (s : State) : Bool := s.cacheCtl.getLsbD 11

/-- The cache is looked up for a fetch from `a` (R115). -/
def cacheable (a : Word) (s : State) : Bool :=
  cacheEnabled s && (segmentOf a == .user || segmentOf a == .kernel0) && aligned .word a

/-- The line and slot of `a` hold its instruction (R115). -/
def cacheHit (a : Word) (s : State) : Bool :=
  (s.line (cacheIndex a)).tag == cacheTag a &&
    (s.line (cacheIndex a)).valid[(cacheSlot a).toNat]'((cacheSlot a).isLt)

/-- The cached word. -/
def cachedWord (a : Word) (s : State) : Word :=
  (s.line (cacheIndex a)).word[(cacheSlot a).toNat]'((cacheSlot a).isLt)

/-- `CacheFill` on a line (R116). -/
def lineFilled (k : BitVec 2) (tag : BitVec 17) (w : Word) (l : CacheLine) : CacheLine :=
  let l1 := if l.tag = tag then l else { lineInvalidated l with tag := tag }
  { l1 with word := l1.word.set k.toNat w k.isLt, valid := l1.valid.set k.toNat true k.isLt }

/-- `CacheFill` (R116). -/
def cacheFill (a w : Word) (s : State) : State :=
  setLine (cacheIndex a) (lineFilled (cacheSlot a) (cacheTag a) w (s.line (cacheIndex a))) s

/-- `Fetch(a)` (R115). -/
def fetch (a : Word) (s : State) : Access Word :=
  if userBlocked a s then .raise (.adEL a) s
  else if cacheable a s then
    if cacheHit a s then .ok (cachedWord a s) s
    else
      match cpuBusRead .word a s with
      | .ok w s1 => .ok w (cacheFill a w s1)
      | .raise e s1 => .raise e s1
      | .fault r => .fault r
      | .refused r => .refused r
  else cpuBusRead .word a s

/-! P4 to P6: decode, execute, retire. -/

/-- A word that is no instruction raises RI (30_encoding R148); a reserved COP0 word makes the coprocessor check first
(45_system_coproc R250; log entry 19). -/
def reservedWord (r : DecodeReject) (s : State) : Result :=
  if r = .reservedCop0 ∧ cop0Usable s = false then raise (.cpU 0) s else raise .ri s

/-- P4 to P6 on the fetched word. -/
def decodeExecute (w : Word) (s : State) : Result :=
  match decodeWord w with
  | .ok i => exec i s
  | .error r => reservedWord r s

/-- P2 to P6. -/
def instruction (s : State) : Result :=
  if intPending s then raise .int s else withAccess (fetch s.currentPc s) decodeExecute

/-! P7: charge. -/

/-- The cost of the step: its bus latency, at least 1 (R26; 70 R415). -/
def stepCost (s : State) : Nat := if s.cost = 0 then 1 else s.cost

/-- P7 (10_state R26). The accumulator is cleared with the charge. -/
def charge (s : State) : Result :=
  clockTick (stepCost s) { s with cycles := s.cycles + BitVec.ofNat 64 (stepCost s), cost := 0 }

/-- One CPU step (10_state R26). -/
def cpuStep (s : State) : Result := andThen (instruction (advance s)) charge

/-! The host (70 R420, R421). -/

/-- Before a step the host may drive the interrupt lines (R420; 60_exceptions R290; log entry 12). -/
def driveLines (s : State) : State :=
  match s.host.lines with
  | [] => s
  | l :: rest => { s with host := { s.host with lines := rest }, irqIn := l.getD s.irqIn }

/-- The host after one of its moves has begun or been made. -/
def setMoves (running : Option HostRun) (moves : List HostMove) (s : State) : State :=
  { s with host := { s.host with running := running, moves := moves } }

/-- The `Run` in progress has not met its quantum. -/
def runGoesOn (r : HostRun) (s : State) : Bool := decide (s.cycles - r.start < r.quantum)

/-- `Run(q)` begins, with `rest` the moves after it; `q >= 1` makes its first instruction step at once. -/
def beginRun (q : BitVec 64) (rest : List HostMove) (s : State) : Result :=
  if q = 0 then .next (setMoves none rest s) else cpuStep (setMoves (some ⟨s.cycles, q⟩) rest s)

/-- The moves of one turn of the reference loop after its `Run` (R420). -/
def loopMoves : List HostMove := [.dmaRun, .syncToRealtime]

/-- The host's next move; with none listed, the next turn of its reference loop (R420). -/
def hostMove (s : State) : Result :=
  match s.host.moves with
  | [] => beginRun s.params.quantum loopMoves s
  | .run q :: rest => beginRun q rest s
  | .dmaRun :: rest => dmaRun (setMoves none rest s)
  | .syncToRealtime :: rest => .next (setMoves none rest s)

/-- An instruction of the `Run` in progress, else the host's next move. -/
def hostTurn (s : State) : Result :=
  match s.host.running with
  | some r => if runGoesOn r s then cpuStep s else hostMove s
  | none => hostMove s

/-- One step of the machine, after the host has driven the lines. -/
def machineStep (s : State) : Result :=
  match s.fatal with
  | some r => .fault (.fatal r)
  | none => hostTurn (driveLines s)

/-! Placing an instruction where the next step fetches. -/

/-- The host's next move is an instruction step. -/
def movesToCpu (s : State) : Bool :=
  match s.host.moves with
  | [] => s.params.quantum != 0
  | .run q :: _ => q != 0
  | .dmaRun :: _ => false
  | .syncToRealtime :: _ => false

/-- The next step is an instruction step. -/
def cpuNext (s : State) : Bool :=
  match s.host.running with
  | some r => runGoesOn r s || movesToCpu s
  | none => movesToCpu s

/-- A `Run` of one cycle is in progress when the next step would not be an instruction step. -/
def giveTurn (s : State) : State :=
  if cpuNext s then s else { s with host := { s.host with running := some ⟨s.cycles, 1⟩ } }

/-- The word `w` as the memory content that a fetch from `a` reads. -/
def placeInMemory (a w : Word) (s : State) : State :=
  match claim a with
  | none => s
  | some e =>
    match arrayKey e.device (rangeOffset e a) with
    | none => s
    | some key => { s with mem := Memory.writeWord s.mem key w }

/-- The word `w` where a fetch from `a` finds it: in the cache when that hits, else in memory. -/
def placeWord (a w : Word) (s : State) : State :=
  if cacheable a s && cacheHit a s then
    setLine (cacheIndex a) (linePatched (cacheSlot a) w (s.line (cacheIndex a))) s
  else placeInMemory a w s

/-- The instruction whose low `nbits` bits are those of `w`, placed where the next step fetches (log entry 17). -/
def placeFetch (s : State) (nbits w : Nat) : State := giveTurn (placeWord s.pc (BitVec.ofNat 32 (w % 2 ^ nbits)) s)

end Sys2Proof.Machine
end

