-- ==== Sys2Proof/Machine/Construct.lean ====
section
/-! DEFINITION. The construction of the machine (70_reset_and_hazards R400, R402, R420): a platform's configuration, then
the state of R401. `State.reset` is the construction of the default platform. -/

namespace Sys2Proof.Machine

/-- What is configured before the first step (70 R402), with the parameters of 00_scope R7. The DMA ports are
`params.dmaPorts`. -/
structure Platform where
  params : Params := {}
  /-- the ranges the platform registers, in order (20_memory R95) -/
  ranges : List BusEntry := busTable
  /-- the `nanosPerCycle` of each clock device it adds, in order -/
  clocks : List Nat := []
  /-- the requests the devices make at configuration time, when time is 0: a request made before a later device is added
  does the same -/
  requests : List ClockRequest := []
  /-- the BIOS image; with none loaded, the ROM reads as memory that nothing has written (log entry 17) -/
  bios : Option (List Byte) := none
  /-- `RESET_GPR`; entry 0 is not used -/
  resetGpr : Vector Word 32 := Vector.replicate 32 0
  resetHi : Word := 0
  resetLo : Word := 0
  resetEpc : Word := 0
  resetBadVAddr : Word := 0
deriving DecidableEq, Repr

/-- The clock devices are added, first to last (70 R402). -/
def addClocks (capacity : Nat) : List Nat → Clock → Except FatalReason Clock
  | [], c => .ok c
  | nanosPerCycle :: rest, c =>
    match clockAddDevice capacity nanosPerCycle c with
    | .ok (_, c1) => addClocks capacity rest c1
    | .error r => .error r

/-- The size of the BIOS ROM (70 R402). -/
def biosBytes : Nat := 0x80000

/-- The bytes of an image from address `a` up, as memory holds them. -/
def imageCells : Nat → List Byte → List Host.Cell
  | _, [] => []
  | a, b :: rest => if b = Memory.unlisted a then imageCells (a + 1) rest else (a, b) :: imageCells (a + 1) rest

/-- The memory with the BIOS image loaded verbatim (70 R402). -/
def biosMemory (image : List Byte) : List Host.Cell := imageCells 0x1FC00000 image

/-- The platform is one the spec describes: the ranges of 20_memory R95, in any order, and clock devices of at least 1 ns a
cycle (61 R321). -/
def insideSpec (p : Platform) : Bool :=
  p.ranges.isPerm busTable && p.clocks.all (· != 0)

/-- The image has the ROM's size, or none is loaded. -/
def imageFits (p : Platform) : Bool :=
  match p.bios with
  | none => true
  | some image => image.length == biosBytes

/-- The state of R401 on a configured platform. -/
def constructed (p : Platform) (clock : Clock) : State :=
  { State.reset with
    regs := p.resetGpr.set 0 0
    hi := p.resetHi
    lo := p.resetLo
    epc := p.resetEpc
    badVAddr := p.resetBadVAddr
    clock := clock
    mem := (p.bios.map biosMemory).getD []
    params := p.params }

/-- Construction: configuration, then the state of R401 (70 R400). A configuration that fails has no first step; of several
errors, the Bus's is reported first, then the Clock's, then the image's (DESIGN CHOICE, log entry 30). -/
def construct (p : Platform) : Result :=
  match busRegisterAll p.params.busMaxDevices p.ranges [] with
  | .error r => .fault (.fatal r)
  | .ok _ =>
    match addClocks p.params.clockMaxDevices p.clocks { systemTime := 0, entries := [] } with
    | .error r => .fault (.fatal r)
    | .ok clock =>
      if !imageFits p then .fault .biosImageSize
      else if !insideSpec p then .refused .platformOutsideSpec
      else .next (constructed p (p.requests.foldl applyRequest clock))

end Sys2Proof.Machine
end

