-- ==== Sys2Proof/Safety.lean ====
section
/-! DEFINITION. What the claims say about a step: how an instruction ends, the invariants of the machine, the groups of
instructions of one shape, and the end of a program (70_reset_and_hazards R423). -/

namespace Sys2Proof.Safety

open Sys2Proof.Machine

/-! How an instruction ends. In each of these `u` is the state with the instruction's own effects outside the general
registers and the load slot already in it, and `t` the state after the instruction. -/

/-- What register `r` holds once the pending load of `u` has reached its register (10_state R28). -/
def committed (u : State) (r : Reg) : Word := if r = u.load.reg then u.load.value else u.gpr r

/-- What register `r` reads after an instruction that retires with the register write `own`: r0 reads 0, the
instruction's own write wins over the pending load, and every other register is kept (10_state R22, R28). -/
def registerAfter (own : Option (Reg × Word)) (u : State) (r : Reg) : Word :=
  if r = 0 then 0
  else
    match own with
    | some (i, v) => if r = i then v else committed u r
    | none => committed u r

/-- The instruction retires with the register write `own`; the slot is empty, and nothing else than general registers
and the slot differs from `u` (10_state R28). -/
def Retires (own : Option (Reg × Word)) (u t : State) : Prop :=
  t = { u with regs := t.regs, load := ⟨0, 0⟩ } ∧ t.regs[0] = u.regs[0] ∧ ∀ r, t.gpr r = registerAfter own u r

/-- The instruction retires with a load of `v` into `i`: the slot holds it, a pending load of another register has
committed, a pending load of the same one is dropped, and nothing else differs from `u` (10_state R28). -/
def Queues (i : Reg) (v : Word) (u t : State) : Prop :=
  t = { u with regs := t.regs, load := ⟨i, v⟩ } ∧ t.regs[0] = u.regs[0] ∧
    ∀ r, t.gpr r = if r = 0 then 0 else if r = i then u.gpr r else committed u r

/-- The vector (60_exceptions R301). -/
def vectorOf (sr : Word) : Word := if sr.getLsbD 22 then 0xBFC00180 else 0x80000080

/-- The exception with this code, coprocessor number and (for an address error) address is taken in `u`: every field
that 60_exceptions R300 writes, bit by bit, and nothing else; the pending load commits (10_state R28). -/
def Enters (code : BitVec 5) (ce : BitVec 2) (bad : Option Word) (u t : State) : Prop :=
  t = { u with
        regs := t.regs, load := ⟨0, 0⟩, sr := t.sr, cause := t.cause
        epc := if u.delaySlot then u.currentPc - 4 else u.currentPc
        badVAddr := bad.getD u.badVAddr
        pc := vectorOf u.sr, nextPc := vectorOf u.sr + 4, branch := false, busFault := none } ∧
    t.regs[0] = u.regs[0] ∧ (∀ r, t.gpr r = registerAfter none u r) ∧
    t.sr.extractLsb' 0 2 = 0 ∧ t.sr.extractLsb' 2 4 = u.sr.extractLsb' 0 4 ∧
    t.sr.extractLsb' 6 26 = u.sr.extractLsb' 6 26 ∧
    t.cause.extractLsb' 2 5 = code ∧ t.cause.extractLsb' 28 2 = ce ∧ t.cause.getLsbD 31 = u.delaySlot ∧
    t.cause &&& 0x4FFFFF83 = u.cause &&& 0x4FFFFF83

/-! Accesses. -/

/-- The address a load or store names (44_load_store R230 (a)). -/
def addressOf (rs : Reg) (imm : Half) (s : State) : Word := s.gpr rs + BitVec.ofInt 32 imm.toInt

/-- The entry of the byte array that claims an address, and where the array keeps that byte (20_memory R95, R96). -/
def arrayAt (a : Word) : Option (BusEntry × Nat) :=
  match claim a with
  | none => none
  | some e => (arrayKey e.device (rangeOffset e a)).map fun k => (e, k)

/-- The byte array that claims an address, and where it keeps that byte. -/
def arrayPlace (a : Word) : Option (Device × Nat) := (arrayAt a).map fun p => (p.1.device, p.2)

/-- The mode allows the address (20_memory R113). -/
def ModeAllows (a : Word) (s : State) : Prop := s.sr.getLsbD 1 = true → segmentOf a = .user

/-- `s` with the latency of one access of the device added to the step's cost (20_memory R110, R111). -/
def costing (d : Device) (s : State) : State := { s with cost := s.cost + cpuCycles s.params.latencies d }

/-- `s` with a read transaction of width `w` at `a` made on the port of the device of entry `e` (20_memory R80; 70 R422;
log entry 18). -/
def asked (e : BusEntry) (w : Width) (a : Word) (s : State) : State :=
  { s with outputs := .deviceRead e.device (segmentOf a) (widthBits w) (rangeOffset e a) :: s.outputs }

/-- `s` with a write transaction made: the low bits of `v` that the width carries go out. -/
def told (e : BusEntry) (w : Width) (a v : Word) (s : State) : State :=
  let data : Word := BitVec.ofNat 32 (v.toNat % 2 ^ widthBits w)
  { s with outputs := .deviceWrite e.device (segmentOf a) (widthBits w) (rangeOffset e a) data :: s.outputs }

/-- `s` after a read of a byte array: the transaction, and its latency. -/
def afterRead (e : BusEntry) (w : Width) (a : Word) (s : State) : State := costing e.device (asked e w a s)

/-- `s` after a write of a byte array, but for the bytes: the transaction, and its latency. -/
def afterWrite (e : BusEntry) (w : Width) (a v : Word) (s : State) : State := costing e.device (told e w a v s)

/-- The word at `k`, the byte at the lowest address in the low bits (20_memory R100). -/
def wordAt (m : List Host.Cell) (k : Nat) : Word :=
  Memory.read m (k + 3) ++ Memory.read m (k + 2) ++ Memory.read m (k + 1) ++ Memory.read m k

/-- `m'` is `m` with the `n` low bytes of `v` at `k` and the bytes after it; every other byte reads as before. -/
def BytesStored (m m' : List Host.Cell) (k n : Nat) (v : Word) : Prop :=
  ∀ x, Memory.read m' x = if k ≤ x ∧ x < k + n then v.extractLsb' (8 * (x - k)) 8 else Memory.read m x

/-! Instructions of one shape. -/

/-- The loads from memory. -/
def loads (rt rs : Reg) (imm : Half) : List Instr :=
  [.lb rt rs imm, .lbu rt rs imm, .lh rt rs imm, .lhu rt rs imm, .lw rt rs imm, .lwl rt rs imm, .lwr rt rs imm]

/-- The stores to memory. -/
def stores (rt rs : Reg) (imm : Half) : List Instr :=
  [.sb rt rs imm, .sh rt rs imm, .sw rt rs imm, .swl rt rs imm, .swr rt rs imm]

/-- The bits of its word that an instruction looks at: its dispatch bits and its operand fields (30_encoding R141,
R142). -/
def usedBits : Instr → Word
  | .add _ _ _ | .addu _ _ _ | .sub _ _ _ | .subu _ _ _ | .and _ _ _ | .or _ _ _ | .xor _ _ _ | .nor _ _ _
  | .slt _ _ _ | .sltu _ _ _ | .sllv _ _ _ | .srlv _ _ _ | .srav _ _ _ => 0xFFFFF83F
  | .addi _ _ _ | .addiu _ _ _ | .slti _ _ _ | .sltiu _ _ _ | .andi _ _ _ | .ori _ _ _ | .xori _ _ _
  | .beq _ _ _ | .bne _ _ _ | .bltz _ _ | .bgez _ _ | .bltzal _ _ | .bgezal _ _ | .j _ | .jal _ => 0xFFFFFFFF
  | .lb _ _ _ | .lbu _ _ _ | .lh _ _ _ | .lhu _ _ _ | .lw _ _ _ | .lwl _ _ _ | .lwr _ _ _
  | .sb _ _ _ | .sh _ _ _ | .sw _ _ _ | .swl _ _ _ | .swr _ _ _ => 0xFFFFFFFF
  | .lwc0 _ _ _ | .lwc1 _ _ _ | .lwc2 _ _ _ | .lwc3 _ _ _
  | .swc0 _ _ _ | .swc1 _ _ _ | .swc2 _ _ _ | .swc3 _ _ _ => 0xFFFFFFFF
  | .lui _ _ => 0xFC1FFFFF
  | .sll _ _ _ | .srl _ _ _ | .sra _ _ _ => 0xFC1FFFFF
  | .mult _ _ | .multu _ _ | .div _ _ | .divu _ _ => 0xFFFF003F
  | .mfhi _ | .mflo _ => 0xFC00F83F
  | .mthi _ | .mtlo _ | .jr _ => 0xFFE0003F
  | .jalr _ _ => 0xFFE0F83F
  | .blez _ _ | .bgtz _ _ => 0xFFE0FFFF
  | .syscall _ | .brk _ => 0xFFFFFFFF
  | .mfc0 _ _ | .mtc0 _ _ => 0xFFFFF800
  | .rfe => 0xFE00003F
  | .cop1 | .cop2 | .cop3 => 0xFC000000

/-- The branches and jumps, as the opcode table names them (43_branch_jump). -/
def branchMnemonics : List String :=
  ["J", "JAL", "JR", "JALR", "BEQ", "BNE", "BLEZ", "BGTZ", "BLTZ", "BGEZ", "BLTZAL", "BGEZAL"]

/-! DMA transfers. -/

/-- The RAM address of word `j` of a transfer from `start`: 4 bytes up or down a word by the step bit of CHCR, inside the
2 MB of RAM (62 R372). -/
def ramPointer (chcr start : Word) (j : Nat) : Word :=
  (if chcr.getLsbD 1 then start - BitVec.ofNat 32 (4 * j) else start + BitVec.ofNat 32 (4 * j)) &&& 0x001FFFFC

/-- `m'` is `m` with the words stored at their addresses, each little-endian; every other byte reads as before. -/
def WordsStored (m m' : List Host.Cell) (address : Nat → Word) (words : List Word) : Prop :=
  (∀ j, j < words.length → wordAt m' (address j).toNat = words.getD j 0) ∧
    ∀ x, (∀ j, j < words.length → ¬ ((address j).toNat ≤ x ∧ x < (address j).toNat + 4)) →
      Memory.read m' x = Memory.read m x

/-- The transfer of channel `n` completes in `v`: its startBusy and the transfer state are cleared, and nothing else changes
(62 R373; 10_state R44; log entry 29). -/
def Completes (n : Fin 7) (v t : State) : Prop :=
  t = { v with dma := { v.dma with channels := t.dma.channels, active := none, ramAddress := 0, blocksLeft := 0 } } ∧
    ∀ m, t.chan m = if m = n then { v.chan n with chcr := (v.chan n).chcr &&& 0xFEFFFFFF } else v.chan m

/-- The words of the list node at `a`: as many as its header's top byte says, after the header (62 R375). -/
def nodeOf (m : List Host.Cell) (a : Word) : List Word :=
  (List.range ((wordAt m a.toNat).extractLsb' 24 8).toNat).map fun j =>
    wordAt m ((a + BitVec.ofNat 32 (4 * (j + 1))) &&& 0x001FFFFC).toNat

/-- `nodes` are the nodes of the linked list that starts at `a`: each header's low 24 bits lead to the next node, and those
of the last, and of no other, are the sentinel (62 R375). -/
def LinkedFrom (m : List Host.Cell) (a : Word) : List Word → Prop
  | [] => False
  | [last] => last = a ∧ (wordAt m a.toNat).extractLsb' 0 24 = 0x00FFFFFF
  | node :: rest => node = a ∧ (wordAt m a.toNat).extractLsb' 0 24 ≠ 0x00FFFFFF ∧
      LinkedFrom m (0#8 ++ (wordAt m a.toNat).extractLsb' 0 24 &&& 0x001FFFFC) rest

/-! Invariants. -/

/-- The memory is in its canonical form. -/
def MemoryOk (s : State) : Prop := Memory.wf s.mem = true

/-- What holds between steps of the CPU's own fields: r0's slot is 0 (10_state R22), the bits of CAUSE without a
function are 0 (R33), the bus-fault latch is consumed (R39), the step's cost is spent (R26), `fatal` is none (R56). -/
def CpuOk (s : State) : Prop :=
  s.regs[0] = 0 ∧ s.cause &&& 0x4FFFFC83 = 0 ∧ s.busFault = none ∧ s.cost = 0 ∧ s.fatal = none

/-- What holds of a DMA channel's registers: only writable bits of MADR and CHCR are ever set, and channel 6 has its
step bit (62 R357, R359). -/
def ChannelOk (p : Params) (n : Fin 7) (c : DmaChannel) : Prop :=
  c.madr &&& ~~~p.dmaMadrMask = 0 ∧
    if n = 6 then c.chcr.getLsbD 1 = true ∧ c.chcr &&& ~~~(p.dmaChcrMaskOtc ||| 0x00000002) = 0
    else c.chcr &&& ~~~p.dmaChcrMask = 0

/-- What holds of the DMA engine between steps: its channels' registers, its pointers inside the 2 MB of RAM and word
aligned (10_state R44), and a transfer in progress exactly when blocks are left, never on channel 6, whose port is
always ready (62 R373, R374, R381); with none in progress the RAM pointer is cleared (R373; log entry 29). -/
def DmaOk (s : State) : Prop :=
  (∀ n, ChannelOk s.params n (s.chan n)) ∧
    s.dma.ramAddress &&& 0x001FFFFC = s.dma.ramAddress ∧ s.dma.otcAddr &&& 0x001FFFFC = s.dma.otcAddr ∧
    (s.dma.active = none ↔ s.dma.blocksLeft = 0) ∧ s.dma.active ≠ some 6 ∧
    s.dma.blocksLeft.toNat ≤ 0xFFFF ∧ s.dma.blockSize.toNat ≤ 0x10000 ∧
    (s.dma.active = none → s.dma.ramAddress = 0)

/-- Every clock entry is in the future. -/
def NothingDue (c : Clock) : Prop := ∀ e ∈ c.entries, ∀ t, e.nextUpdate = some t → c.systemTime < t

/-! The end of a program (R423). -/

/-- The word in the memory behind `a`, whatever the cache holds and whether or not a fetch from `a` would be allowed: what
R423's "the word at" means here is the model's choice (DESIGN CHOICE, log entry 31). -/
def wordBehind (a : Word) (s : State) : Option Word := (arrayAt a).map fun dk => wordAt s.mem dk.2

/-- A program has ended at `e` when a step begins in this state (70 R423; its words are those of memory, log entry 31).
Whether lines that the host drives for that step (`host.lines`) count in "no interrupt is pending and enabled" is the
model's choice: they do not, `irqIn` is taken as it stands before them (DESIGN CHOICE, log entry 32). -/
def endedAt (e : Word) (s : State) : Bool :=
  s.pc == e && s.nextPc == e + 4 && wordBehind e s == some 0x1000FFFF && wordBehind (e + 4) s == some 0 &&
    s.fatal == none && s.load.reg == 0 && s.dma.active == none && !(dmaChannels.any fun n => qualifies n s) &&
    !intPending s

end Sys2Proof.Safety
end

