-- ==== Sys2Proof/Certificates/Slice0/Obligations.lean ====
section
/-! DEFINITION. The statements about the machine. Each docstring names the rules of spec/ it formalises, or the log
entry of the model's own choice. `Retires`, `Queues` and `Enters` (Safety.lean) give the whole next state: every field
they do not name is unchanged, memory, special registers and outputs included. -/

open Sys2Proof Sys2Proof.Machine Sys2Proof.Safety

/-! Encoding. -/

/-- Encode, then decode: 30_encoding R141, R144 to R147. -/
def Obligations.EncodeThenDecodeIsIdentity : Prop :=
  ∀ i : Instr, WellFormed i = true → decodeWord (encode i) = .ok i

/-- Decode, then encode: only bits an instruction does not look at can be lost (30_encoding R142). -/
def Obligations.DecodeThenEncodeKeepsUsedBits : Prop :=
  ∀ (w : Word) (i : Instr), decodeWord w = .ok i → WellFormed i = true ∧ encode i &&& usedBits i = w &&& usedBits i

/-- The decoder and the opcode table say the same (30_encoding R153). -/
def Obligations.DecoderAgreesWithOpcodeTable : Prop :=
  ∀ (w : Word), ∀ r ∈ opcodeTable, (r.matches w = true ↔ ∃ i, decodeWord w = .ok i ∧ rowOf i = r)

/-- A word is reserved exactly when no row matches it, and no word matches two rows (30_encoding R148, R153). -/
def Obligations.ReservedWordsMatchNoRow : Prop :=
  (∀ w : Word, (∃ e, decodeWord w = .error e) ↔ ∀ r ∈ opcodeTable, r.matches w = false) ∧
    ∀ w : Word, ∀ a ∈ opcodeTable, ∀ b ∈ opcodeTable, a.matches w = true → b.matches w = true → a = b

/-- Words of the spec's own examples, one or more of each family (40_alu R171, R181; 41_shift R191, R194; 42_muldiv
R201; 43_branch_jump R214, R217, R224; 44_load_store R231, R242; 45_system_coproc R251, R254, R256, R259). -/
def Obligations.SpecWordsDecode : Prop :=
  decodeWord 0x00221820 = .ok (.add 3 1 2) ∧ decodeWord 0x2022FFFF = .ok (.addi 2 1 0xFFFF) ∧
    decodeWord 0x00021900 = .ok (.sll 3 2 4) ∧ decodeWord 0x00221804 = .ok (.sllv 3 2 1) ∧
    decodeWord 0x00220018 = .ok (.mult 1 2) ∧ decodeWord 0x08000800 = .ok (.j 0x800) ∧
    decodeWord 0x00201009 = .ok (.jalr 2 1) ∧ decodeWord 0x04300002 = .ok (.bltzal 1 2) ∧
    decodeWord 0x80410003 = .ok (.lb 1 2 3) ∧ decodeWord 0xB8410001 = .ok (.swr 1 2 1) ∧
    decodeWord 0x0048D14C = .ok (.syscall 0x12345) ∧ decodeWord 0x40816000 = .ok (.mtc0 1 12) ∧
    decodeWord 0x42000010 = .ok .rfe ∧ decodeWord 0xEC410000 = .ok (.swc3 1 2 0)

/-! The step. -/

/-- A step of a `Run` in progress, after the host has driven the lines (log entry 12), makes phase P1, fetches at the pc,
cached or not, and runs the instruction of the fetched word in the state the fetch leaves; then it charges the step. Where
the cache does not serve the pc, that is the instruction whose bytes lie there, in a state that differs from the one after
P1 in the fetch's transaction and latency only (10_state R26; 20_memory R115; what a fetch gives is
FetchReadsCacheOrMemory). -/
def Obligations.StepRunsDecodedInstruction : Prop :=
  ∀ (s : State) (q : HostRun) (i : Instr),
    let u := driveLines s
    let moved : State := { u with
      currentPc := s.pc, pc := s.nextPc, nextPc := s.nextPc + 4, delaySlot := s.branch, branch := false, cost := 0 }
    s.fatal = none → s.host.running = some q → s.cycles - q.start < q.quantum → intPending u = false →
    (∀ w v, fetch s.pc moved = .ok w v → decodeWord w = .ok i → step s = andThen (exec i v) charge) ∧
    ∀ e k rest, ModeAllows s.pc s → cacheable s.pc s = false → s.pc.extractLsb' 0 2 = 0 → arrayAt s.pc = some (e, k) →
      decode [Memory.read s.mem k, Memory.read s.mem (k + 1), Memory.read s.mem (k + 2), Memory.read s.mem (k + 3)]
        = .ok (i, rest) → WellFormed i = true →
      step s = andThen (exec i (afterRead e .word s.pc moved)) charge

/-- When the cache serves a fetch: CACHECTL bit 11 and an aligned address of User or Kernel0; its line is selected by bits
11:4, its word by bits 3:2, and it hits where the line's tag is the physical bits 28:12 and the word is valid. And the
fetch: a hit, which makes no transaction; uncached, from any device that answers the read, RAM, scratchpad and BIOS ROM with
their word; and a miss, which reads the device too and fills one word (20_memory R80, R96, R110, R115, R116). -/
def Obligations.FetchReadsCacheOrMemory : Prop :=
  ∀ (s : State) (a : Word),
    (cacheable a s = true ↔
      s.cacheCtl.getLsbD 11 = true ∧ (segmentOf a = .user ∨ segmentOf a = .kernel0) ∧ a.extractLsb' 0 2 = 0) ∧
    (cacheIndex a = a.extractLsb' 4 8 ∧ cacheSlot a = a.extractLsb' 2 2 ∧ cacheTag a = a.extractLsb' 12 17) ∧
    (∀ j : Fin 4, j.val = (a.extractLsb' 2 2).toNat →
      let line := s.line (a.extractLsb' 4 8)
      (cacheHit a s = true ↔ line.tag = a.extractLsb' 12 17 ∧ line.valid[j] = true) ∧ cachedWord a s = line.word[j]) ∧
    (∀ e k, a.extractLsb' 0 2 = 0 → arrayAt a = some (e, k) → claim a = some e ∧
      deviceRead e.device (segmentOf a) .word (rangeOffset e a) s = .ok (wordAt s.mem k) (asked e .word a s)) ∧
    (ModeAllows a s → a.extractLsb' 0 2 = 0 →
      (cacheable a s = true → cacheHit a s = true → fetch a s = .ok (cachedWord a s) s) ∧
      ∀ e w s1, claim a = some e → deviceRead e.device (segmentOf a) .word (rangeOffset e a) s = .ok w s1 →
        (cacheable a s = false → fetch a s = .ok w (costing e.device s1)) ∧
        (cacheable a s = true → cacheHit a s = false → ∃ u, fetch a s = .ok w u ∧
          u = { costing e.device s1 with icache := u.icache } ∧ cacheHit a u = true ∧ cachedWord a u = w ∧
          (∀ l, l ≠ cacheIndex a → u.line l = s.line l) ∧
          (∀ j : Fin 4, j.val ≠ (cacheSlot a).toNat →
            (u.line (cacheIndex a)).word[j] = (s.line (cacheIndex a)).word[j] ∧
            (u.line (cacheIndex a)).valid[j] =
              ((s.line (cacheIndex a)).tag == cacheTag a && (s.line (cacheIndex a)).valid[j]))))

/-- Fetch exceptions: the user-mode check first, then, where the cache does not hit, an unmapped address, then a misaligned
one, which is never looked up in the cache (20_memory R115; 60_exceptions R293 (2)). -/
def Obligations.FetchFaultsEnterTheHandler : Prop :=
  ∀ (s : State), intPending s = false →
    (¬ ModeAllows s.pc s → ∃ t, cpuStep s = charge t ∧ Enters 4 0 (some s.pc) (advance s) t) ∧
    (ModeAllows s.pc s → claim s.pc = none → ¬ (cacheable s.pc s = true ∧ cacheHit s.pc s = true) →
      ∃ t, cpuStep s = charge t ∧ Enters 6 0 none (advance s) t) ∧
    (ModeAllows s.pc s → claim s.pc ≠ none → s.pc.extractLsb' 0 2 ≠ 0 →
      ∃ t, cpuStep s = charge t ∧ Enters 4 0 (some s.pc) (advance s) t)

/-- A word that is no instruction raises RI, and a reserved COP0 word raises CpU where COP0 is not usable
(30_encoding R148; 45_system_coproc R250; 60_exceptions R293 (3)). -/
def Obligations.ReservedWordsRaise : Prop :=
  ∀ (s : State) (w : Word) (e : DecodeReject), decodeWord w = .error e →
    (w.extractLsb' 26 6 = 0x10 ∧ s.sr.getLsbD 1 = true ∧ s.sr.getLsbD 28 = false →
      ∃ t, decodeExecute w s = .next t ∧ Enters 11 0 none s t) ∧
    (¬ (w.extractLsb' 26 6 = 0x10 ∧ s.sr.getLsbD 1 = true ∧ s.sr.getLsbD 28 = false) →
      ∃ t, decodeExecute w s = .next t ∧ Enters 10 0 none s t)

/-- When an interrupt is pending; it is then taken in place of the instruction: no fetch, one cycle (60_exceptions R290,
R291). -/
def Obligations.PendingInterruptIsTaken : Prop :=
  ∀ (s : State),
    (intPending s = true ↔
      s.sr.getLsbD 0 = true ∧ ∃ k : Fin 8, s.sr.getLsbD (8 + k) = true ∧
        (if k.val < 2 then s.cause.getLsbD (8 + k) else s.irqIn.getLsbD (k - 2)) = true) ∧
    (intPending s = true →
      ∃ t, Enters 0 0 none (advance s) t ∧ t.currentPc = s.pc ∧ t.icache = s.icache ∧
        cpuStep s = clockTick 1 { t with cycles := s.cycles + 1, cost := 0 })

/-- The charge of a step is its latency, at least one cycle, added to `cycles` and ticked once; so every instruction step
takes at least one cycle of system time, no step takes time back (10_state R26 P7; 61 R330; 70 R415), and the outputs made
so far stay in the model's own record of them (70 R422; log entry 18, the model's choice). -/
def Obligations.TimeOnlyAdvances : Prop :=
  (∀ s : State, charge s = clockTick (max s.cost 1)
    { s with cycles := s.cycles + BitVec.ofNat 64 (max s.cost 1), cost := 0 }) ∧
  (∀ s t : State, cpuStep s = .next t →
    s.clock.systemTime + s.params.masterNanosPerCycle ≤ t.clock.systemTime) ∧
  ∀ s t : State, step s = .next t →
    s.clock.systemTime ≤ t.clock.systemTime ∧ ∃ made, t.outputs = made ++ s.outputs

/-! Arithmetic, logic, shifts. -/

/-- ADDU, SUBU, AND, OR, XOR, NOR, SLT, SLTU (40_alu R172, R174 to R180; R170). -/
def Obligations.RegisterOperationsGiveResults : Prop :=
  ∀ (s : State) (rd rs rt : Reg),
    (∃ t, exec (.addu rd rs rt) s = .next t ∧ Retires (some (rd, s.gpr rs + s.gpr rt)) s t) ∧
    (∃ t, exec (.subu rd rs rt) s = .next t ∧ Retires (some (rd, s.gpr rs - s.gpr rt)) s t) ∧
    (∃ t, exec (.and rd rs rt) s = .next t ∧ Retires (some (rd, s.gpr rs &&& s.gpr rt)) s t) ∧
    (∃ t, exec (.or rd rs rt) s = .next t ∧ Retires (some (rd, s.gpr rs ||| s.gpr rt)) s t) ∧
    (∃ t, exec (.xor rd rs rt) s = .next t ∧ Retires (some (rd, s.gpr rs ^^^ s.gpr rt)) s t) ∧
    (∃ t, exec (.nor rd rs rt) s = .next t ∧ Retires (some (rd, ~~~(s.gpr rs ||| s.gpr rt))) s t) ∧
    (∃ t, exec (.slt rd rs rt) s = .next t ∧
      Retires (some (rd, if (s.gpr rs).toInt < (s.gpr rt).toInt then 1 else 0)) s t) ∧
    (∃ t, exec (.sltu rd rs rt) s = .next t ∧
      Retires (some (rd, if (s.gpr rs).toNat < (s.gpr rt).toNat then 1 else 0)) s t)

/-- ADDIU, SLTI, SLTIU, ANDI, ORI, XORI, LUI (40_alu R182 to R188; 30_encoding R143 (a) to (c)). -/
def Obligations.ImmediateOperationsGiveResults : Prop :=
  ∀ (s : State) (rt rs : Reg) (imm : Half),
    (∃ t, exec (.addiu rt rs imm) s = .next t ∧ Retires (some (rt, s.gpr rs + BitVec.ofInt 32 imm.toInt)) s t) ∧
    (∃ t, exec (.slti rt rs imm) s = .next t ∧
      Retires (some (rt, if (s.gpr rs).toInt < imm.toInt then 1 else 0)) s t) ∧
    (∃ t, exec (.sltiu rt rs imm) s = .next t ∧
      Retires (some (rt, if (s.gpr rs).toNat < (BitVec.ofInt 32 imm.toInt).toNat then 1 else 0)) s t) ∧
    (∃ t, exec (.andi rt rs imm) s = .next t ∧ Retires (some (rt, s.gpr rs &&& BitVec.ofNat 32 imm.toNat)) s t) ∧
    (∃ t, exec (.ori rt rs imm) s = .next t ∧ Retires (some (rt, s.gpr rs ||| BitVec.ofNat 32 imm.toNat)) s t) ∧
    (∃ t, exec (.xori rt rs imm) s = .next t ∧ Retires (some (rt, s.gpr rs ^^^ BitVec.ofNat 32 imm.toNat)) s t) ∧
    (∃ t, exec (.lui rt imm) s = .next t ∧ Retires (some (rt, imm ++ 0#16)) s t)

/-- ADD, SUB, ADDI: the result when it fits a signed word, else Ov with the destination kept (40_alu R171, R173,
R181, R170 (b), (c), (e)). -/
def Obligations.OverflowTrapsAndKeepsDestination : Prop :=
  ∀ (s : State) (rd rs rt : Reg) (imm : Half),
    let fits (z : Int) := -0x80000000 ≤ z ∧ z < 0x80000000
    let x := (s.gpr rs).toInt
    let y := (s.gpr rt).toInt
    (fits (x + y) → ∃ t, exec (.add rd rs rt) s = .next t ∧ Retires (some (rd, s.gpr rs + s.gpr rt)) s t) ∧
    (¬ fits (x + y) → ∃ t, exec (.add rd rs rt) s = .next t ∧ Enters 12 0 none s t) ∧
    (fits (x - y) → ∃ t, exec (.sub rd rs rt) s = .next t ∧ Retires (some (rd, s.gpr rs - s.gpr rt)) s t) ∧
    (¬ fits (x - y) → ∃ t, exec (.sub rd rs rt) s = .next t ∧ Enters 12 0 none s t) ∧
    (fits (x + imm.toInt) → ∃ t, exec (.addi rt rs imm) s = .next t ∧
      Retires (some (rt, BitVec.ofInt 32 (x + imm.toInt))) s t) ∧
    (¬ fits (x + imm.toInt) → ∃ t, exec (.addi rt rs imm) s = .next t ∧ Enters 12 0 none s t)

/-- The six shifts as arithmetic (41_shift R190 to R197). -/
def Obligations.ShiftsMultiplyAndDivideByPowers : Prop :=
  ∀ (s : State) (rd rt rs : Reg) (n : Nat), n < 32 →
    (∃ t, exec (.sll rd rt n) s = .next t ∧
      Retires (some (rd, BitVec.ofNat 32 ((s.gpr rt).toNat * 2 ^ n))) s t) ∧
    (∃ t, exec (.srl rd rt n) s = .next t ∧
      Retires (some (rd, BitVec.ofNat 32 ((s.gpr rt).toNat / 2 ^ n))) s t) ∧
    (∃ t, exec (.sra rd rt n) s = .next t ∧
      Retires (some (rd, BitVec.ofInt 32 ((s.gpr rt).toInt / 2 ^ n))) s t) ∧
    (∃ t, exec (.sllv rd rt rs) s = .next t ∧
      Retires (some (rd, BitVec.ofNat 32 ((s.gpr rt).toNat * 2 ^ ((s.gpr rs).toNat % 32)))) s t) ∧
    (∃ t, exec (.srlv rd rt rs) s = .next t ∧
      Retires (some (rd, BitVec.ofNat 32 ((s.gpr rt).toNat / 2 ^ ((s.gpr rs).toNat % 32)))) s t) ∧
    (∃ t, exec (.srav rd rt rs) s = .next t ∧
      Retires (some (rd, BitVec.ofInt 32 ((s.gpr rt).toInt / 2 ^ ((s.gpr rs).toNat % 32)))) s t)

/-! Multiply and divide. -/

/-- MULT and MULTU: the exact 64-bit product (42_muldiv R200 to R202). -/
def Obligations.MultiplyGivesExactProduct : Prop :=
  ∀ (s : State) (rs rt : Reg),
    (∃ t hi lo, exec (.mult rs rt) s = .next t ∧ Retires none { s with hi := hi, lo := lo } t ∧
      (hi ++ lo).toInt = (s.gpr rs).toInt * (s.gpr rt).toInt) ∧
    (∃ t hi lo, exec (.multu rs rt) s = .next t ∧ Retires none { s with hi := hi, lo := lo } t ∧
      (hi ++ lo).toNat = (s.gpr rs).toNat * (s.gpr rt).toNat)

/-- DIV and DIVU, with their corners (42_muldiv R203, R204). -/
def Obligations.DivideGivesQuotientAndRemainder : Prop :=
  ∀ (s : State) (rs rt : Reg),
    let x := s.gpr rs
    let y := s.gpr rt
    (y = 0 → ∃ t, exec (.div rs rt) s = .next t ∧
      Retires none { s with hi := x, lo := if x.toInt < 0 then 1 else 0xFFFFFFFF } t) ∧
    (x = 0x80000000 → y.toInt = -1 → ∃ t, exec (.div rs rt) s = .next t ∧
      Retires none { s with hi := 0, lo := 0x80000000 } t) ∧
    (y ≠ 0 → ¬ (x = 0x80000000 ∧ y.toInt = -1) → ∃ t hi lo, exec (.div rs rt) s = .next t ∧
      Retires none { s with hi := hi, lo := lo } t ∧ x.toInt = lo.toInt * y.toInt + hi.toInt ∧
      hi.toInt.natAbs < y.toInt.natAbs ∧ (hi = 0 ∨ (hi.toInt < 0 ↔ x.toInt < 0))) ∧
    (y = 0 → ∃ t, exec (.divu rs rt) s = .next t ∧ Retires none { s with hi := x, lo := 0xFFFFFFFF } t) ∧
    (y ≠ 0 → ∃ t hi lo, exec (.divu rs rt) s = .next t ∧ Retires none { s with hi := hi, lo := lo } t ∧
      x.toNat = lo.toNat * y.toNat + hi.toNat ∧ hi.toNat < y.toNat)

/-- MFHI, MFLO, MTHI, MTLO (42_muldiv R205 to R208). -/
def Obligations.HiLoMovesCopyOneRegister : Prop :=
  ∀ (s : State) (r : Reg),
    (∃ t, exec (.mfhi r) s = .next t ∧ Retires (some (r, s.hi)) s t) ∧
    (∃ t, exec (.mflo r) s = .next t ∧ Retires (some (r, s.lo)) s t) ∧
    (∃ t, exec (.mthi r) s = .next t ∧ Retires none { s with hi := s.gpr r } t) ∧
    (∃ t, exec (.mtlo r) s = .next t ∧ Retires none { s with lo := s.gpr r } t)

/-! Branches and jumps. -/

/-- J, JAL, JR, JALR (43_branch_jump R210, R211, R214 to R217). -/
def Obligations.JumpsSetTheNextFetch : Prop :=
  ∀ (s : State) (index : BitVec 26) (rd rs : Reg),
    let region := (s.currentPc + 4).extractLsb' 28 4 ++ index ++ 0#2
    (∃ t, exec (.j index) s = .next t ∧ Retires none { s with branch := true, nextPc := region } t) ∧
    (∃ t, exec (.jal index) s = .next t ∧
      Retires (some (31, s.currentPc + 8)) { s with branch := true, nextPc := region } t) ∧
    (∃ t, exec (.jr rs) s = .next t ∧ Retires none { s with branch := true, nextPc := s.gpr rs } t) ∧
    (∃ t, exec (.jalr rd rs) s = .next t ∧
      Retires (some (rd, s.currentPc + 8)) { s with branch := true, nextPc := s.gpr rs } t)

/-- The eight conditional branches: `branch` is set taken or not; BLTZAL and BGEZAL link, taken or not, and test the old
register (43_branch_jump R210, R211, R218 to R225). -/
def Obligations.ConditionalBranchesDecide : Prop :=
  ∀ (s : State) (rs rt : Reg) (imm : Half),
    let x := s.gpr rs
    let target := s.currentPc + 4 + BitVec.ofInt 32 (imm.toInt * 4)
    let after (c : Prop) [Decidable c] : State := { s with branch := true, nextPc := if c then target else s.nextPc }
    let link := some ((31 : Reg), s.currentPc + 8)
    (∃ t, exec (.beq rs rt imm) s = .next t ∧ Retires none (after (x = s.gpr rt)) t) ∧
    (∃ t, exec (.bne rs rt imm) s = .next t ∧ Retires none (after (x ≠ s.gpr rt)) t) ∧
    (∃ t, exec (.blez rs imm) s = .next t ∧ Retires none (after (x.toInt ≤ 0)) t) ∧
    (∃ t, exec (.bgtz rs imm) s = .next t ∧ Retires none (after (0 < x.toInt)) t) ∧
    (∃ t, exec (.bltz rs imm) s = .next t ∧ Retires none (after (x.toInt < 0)) t) ∧
    (∃ t, exec (.bgez rs imm) s = .next t ∧ Retires none (after (0 ≤ x.toInt)) t) ∧
    (∃ t, exec (.bltzal rs imm) s = .next t ∧ Retires link (after (x.toInt < 0)) t) ∧
    (∃ t, exec (.bgezal rs imm) s = .next t ∧ Retires link (after (0 ≤ x.toInt)) t)

/-- A branch in a delay slot: the fetches are at B, B + 4, T1, T2, and the instructions at B + 4 and T1 sit in delay
slots (43_branch_jump R210, R212). The instruction `i` at T1 is executed before the fetch at T2; it is no branch, and where
it raises, the handler is fetched, and EPC is its own address less 4, because it sits in a delay slot
(60_exceptions R300). -/
def Obligations.BranchInDelaySlotFetchOrder : Prop :=
  ∀ (s t1 t2 t3 : State) (first second : Half) (i : Instr),
    let target1 := s.currentPc + 4 + BitVec.ofInt 32 (first.toInt * 4)
    let target2 := s.pc + 4 + BitVec.ofInt 32 (second.toInt * 4)
    exec (.beq 0 0 first) s = .next t1 → exec (.beq 0 0 second) (advance t1) = .next t2 →
    (rowOf i).mnemonic ∉ branchMnemonics → exec i (advance t2) = .next t3 →
    (advance t1).currentPc = s.pc ∧ (advance t1).delaySlot = true ∧
    (advance t2).currentPc = target1 ∧ (advance t2).delaySlot = true ∧
    (advance t3).delaySlot = false ∧
    ((advance t3).currentPc = target2 ∨ ((advance t3).currentPc = vectorOf t2.sr ∧ t3.epc = target1 - 4))

/-! Loads and stores. -/

/-- The loads from RAM, scratchpad and BIOS ROM, into any register (44_load_store R230 to R237; 20_memory R100). -/
def Obligations.LoadsFromMemoryQueueTheValue : Prop :=
  ∀ (s : State) (rt rs : Reg) (imm : Half) (e : BusEntry) (k : Nat),
    let a := addressOf rs imm s
    let pending := if s.load.reg = rt ∧ rt ≠ 0 then s.load.value else s.gpr rt
    s.sr.getLsbD 16 = false → ModeAllows a s → arrayAt a = some (e, k) →
    (∃ t, exec (.lb rt rs imm) s = .next t ∧
      Queues rt ((Memory.read s.mem k).signExtend 32) (afterRead e .byte a s) t) ∧
    (∃ t, exec (.lbu rt rs imm) s = .next t ∧ Queues rt (0#24 ++ Memory.read s.mem k) (afterRead e .byte a s) t) ∧
    (a.getLsbD 0 = false → ∃ t, exec (.lh rt rs imm) s = .next t ∧
      Queues rt ((Memory.read s.mem (k + 1) ++ Memory.read s.mem k).signExtend 32) (afterRead e .half a s) t) ∧
    (a.getLsbD 0 = false → ∃ t, exec (.lhu rt rs imm) s = .next t ∧
      Queues rt (0#16 ++ Memory.read s.mem (k + 1) ++ Memory.read s.mem k) (afterRead e .half a s) t) ∧
    (a.extractLsb' 0 2 = 0 → ∃ t, exec (.lw rt rs imm) s = .next t ∧
      Queues rt (wordAt s.mem k) (afterRead e .word a s) t) ∧
    (∃ t, exec (.lwl rt rs imm) s = .next t ∧
      Queues rt (mergeLwl (byteLane a) pending (wordAt s.mem (k - (byteLane a).toNat)))
        (afterRead e .word (alignedWord a) s) t) ∧
    (∃ t, exec (.lwr rt rs imm) s = .next t ∧
      Queues rt (mergeLwr (byteLane a) pending (wordAt s.mem (k - (byteLane a).toNat)))
        (afterRead e .word (alignedWord a) s) t)

/-- The byte lanes of the four unaligned accesses (44_load_store R236, R237, R241, R242). -/
def Obligations.UnalignedLanesMoveTheBytes : Prop :=
  ∀ (old w : Word),
    let byte (v : Word) (j : Nat) : Byte := v.extractLsb' (8 * j) 8
    ∀ (k : BitVec 2) (j : Fin 4),
      byte (mergeLwl k old w) j = (if 3 - j.val ≤ k.toNat then byte w (j.val + k.toNat - 3) else byte old j) ∧
      byte (mergeLwr k old w) j = (if j.val + k.toNat ≤ 3 then byte w (j.val + k.toNat) else byte old j) ∧
      byte (mergeSwl k old w) j = (if j.val ≤ k.toNat then byte w (j.val + 3 - k.toNat) else byte old j) ∧
      byte (mergeSwr k old w) j = (if k.toNat ≤ j.val then byte w (j.val - k.toNat) else byte old j)

/-- The loads from any device that answers its read (20_memory R80, R84, R110; 44_load_store R231 to R237). -/
def Obligations.LoadsFromDevicesQueueTheAnswer : Prop :=
  ∀ (s s1 : State) (rt rs : Reg) (imm : Half) (e : BusEntry) (v : Word),
    let a := addressOf rs imm s
    let pending := if s.load.reg = rt ∧ rt ≠ 0 then s.load.value else s.gpr rt
    let read (w : Width) (b : Word) : Prop :=
      claim b = some e ∧ deviceRead e.device (segmentOf b) w (rangeOffset e b) s = .ok v s1
    s.sr.getLsbD 16 = false → ModeAllows a s →
    (read .byte a → ∃ t, exec (.lb rt rs imm) s = .next t ∧
      Queues rt ((v.extractLsb' 0 8).signExtend 32) (costing e.device s1) t) ∧
    (read .byte a → ∃ t, exec (.lbu rt rs imm) s = .next t ∧
      Queues rt (0#24 ++ v.extractLsb' 0 8) (costing e.device s1) t) ∧
    (a.getLsbD 0 = false → read .half a → ∃ t, exec (.lh rt rs imm) s = .next t ∧
      Queues rt ((v.extractLsb' 0 16).signExtend 32) (costing e.device s1) t) ∧
    (a.getLsbD 0 = false → read .half a → ∃ t, exec (.lhu rt rs imm) s = .next t ∧
      Queues rt (0#16 ++ v.extractLsb' 0 16) (costing e.device s1) t) ∧
    (a.extractLsb' 0 2 = 0 → read .word a → ∃ t, exec (.lw rt rs imm) s = .next t ∧
      Queues rt v (costing e.device s1) t) ∧
    (read .word (alignedWord a) → ∃ t, exec (.lwl rt rs imm) s = .next t ∧
      Queues rt (mergeLwl (byteLane a) pending v) (costing e.device s1) t) ∧
    (read .word (alignedWord a) → ∃ t, exec (.lwr rt rs imm) s = .next t ∧
      Queues rt (mergeLwr (byteLane a) pending v) (costing e.device s1) t)

/-- What the devices without a byte array answer and store, from every segment and with the transaction as the only other
trace (20_memory R80; log entry 18): Expansion1 reads all ones of the width; the stubs read their constant of the width (log
entry 21) and they and the ROM ignore writes; the GPU answers the environment's word and takes every write, and may make
requests of the Clock (log entries 6, 8); the cache-control register and the DMA registers that start nothing hold what
their masks let through, by word accesses only (20_memory R96, R97; 62 R356 to R361). -/
def Obligations.DeviceRegistersReadAndWrite : Prop :=
  ∀ (s : State) (seg : Segment) (w0 : Width) (offset : Nat) (v0 : Word) (n : Fin 7),
    let ask (d : Device) (w : Width) (o : Nat) : State :=
      { s with outputs := .deviceRead d seg (widthBits w) o :: s.outputs }
    let tell (d : Device) (w : Width) (o : Nat) : State :=
      { s with outputs := .deviceWrite d seg (widthBits w) o (BitVec.ofNat 32 (v0.toNat % 2 ^ widthBits w)) :: s.outputs }
    let reads (d : Device) (w : Width) (o : Nat) (v : Word) : Prop := deviceRead d seg w o s = .ok v (ask d w o)
    let stores (d : Device) (w : Width) (o : Nat) (u : State → State) : Prop :=
      deviceWrite d seg w o v0 s = .next (u (tell d w o))
    let constant (c : StubConstants) : Word :=
      match w0 with
      | .byte => 0#24 ++ c.read8
      | .half => 0#16 ++ c.read16
      | .word => c.read32
    let word := s.env.words.headD (Config.freeWord s.env.drawn)
    let made := (s.env.requests.headD []).foldl applyRequest s.clock
    reads .expansion1 .byte offset 0x000000FF ∧ reads .expansion1 .half offset 0x0000FFFF ∧
    reads .expansion1 .word offset 0xFFFFFFFF ∧
    (∀ p ∈ [(Device.memoryControl1, s.params.stubs.memoryControl1), (.peripherals, s.params.stubs.peripherals),
        (.memoryControl2, s.params.stubs.memoryControl2), (.interruptControl, s.params.stubs.interruptControl),
        (.timers, s.params.stubs.timers), (.cdrom, s.params.stubs.cdrom), (.mdec, s.params.stubs.mdec),
        (.spu, s.params.stubs.spu), (.expansion2, s.params.stubs.expansion2)],
      reads p.1 w0 offset (constant p.2)) ∧
    (∀ d ∈ [Device.bios, .expansion1, .memoryControl1, .peripherals, .memoryControl2, .interruptControl, .timers,
        .cdrom, .mdec, .spu, .expansion2], stores d w0 offset id) ∧
    deviceRead .gpu seg w0 offset s = .ok (BitVec.ofNat 32 (word.toNat % 2 ^ widthBits w0))
      { ask .gpu w0 offset with
        clock := made
        env := { s.env with
          words := s.env.words.tail, requests := s.env.requests.tail
          drawn := if s.env.words = [] then s.env.drawn + 1 else s.env.drawn } } ∧
    stores .gpu w0 offset (fun u => { u with clock := made, env := { s.env with requests := s.env.requests.tail } }) ∧
    reads .cacheControl .word offset s.cacheCtl ∧ stores .cacheControl .word offset ({ · with cacheCtl := v0 }) ∧
    reads .dma .word (16 * n.val) (s.chan n).madr ∧ reads .dma .word (16 * n.val + 4) (s.chan n).bcr ∧
    reads .dma .word (16 * n.val + 8) (s.chan n).chcr ∧ reads .dma .word (16 * n.val + 12) (s.chan n).unused ∧
    reads .dma .word 0x70 s.dma.dpcr ∧ reads .dma .word 0x74 s.dma.dicr ∧
    stores .dma .word 0x70 ({ · with dma := { s.dma with dpcr := v0 } }) ∧
    stores .dma .word 0x74 ({ · with dma := { s.dma with dicr := v0 } }) ∧
    stores .dma .word (16 * n.val) (setChan n { s.chan n with madr := v0 &&& s.params.dmaMadrMask }) ∧
    stores .dma .word (16 * n.val + 4) (setChan n { s.chan n with bcr := v0 }) ∧
    stores .dma .word (16 * n.val + 12) (setChan n { s.chan n with unused := v0 }) ∧
    (∀ o ∈ [0x78, 0x7C], deviceRead .dma seg .word o s = .refused .dmaUnassignedWord ∧
      deviceWrite .dma seg .word o v0 s = .refused .dmaUnassignedWord) ∧
    (w0 ≠ .word →
      deviceRead .dma seg w0 offset s = .fault (.fatal .dmaAccessWidth) ∧
      deviceWrite .dma seg w0 offset v0 s = .fault (.fatal .dmaAccessWidth) ∧
      deviceRead .cacheControl seg w0 offset s = .fault (.fatal .cacheCtlWidth) ∧
      deviceWrite .cacheControl seg w0 offset v0 s = .fault (.fatal .cacheCtlWidth))

/-- The stores to RAM and scratchpad: the form's own bytes at the address, every other byte as before (44_load_store
R230, R238 to R242; 20_memory R100, R111). -/
def Obligations.StoresToMemoryWriteTheirBytes : Prop :=
  ∀ (s : State) (rt rs : Reg) (imm : Half) (e : BusEntry) (k : Nat),
    let a := addressOf rs imm s
    let lane := (byteLane a).toNat
    let v := s.gpr rt
    let read := afterRead e .word (alignedWord a) s
    let merged (merge : BitVec 2 → Word → Word → Word) : State :=
      afterWrite e .word (alignedWord a) (merge (byteLane a) (wordAt s.mem (k - lane)) v) read
    let stored (i : Instr) (c : State) (at_ n : Nat) (x : Word) : Prop :=
      ∃ t, exec i s = .next t ∧ Retires none { c with mem := t.mem } t ∧ BytesStored s.mem t.mem at_ n x
    MemoryOk s → s.sr.getLsbD 16 = false → ModeAllows a s → arrayAt a = some (e, k) → e.device ≠ .bios →
    stored (.sb rt rs imm) (afterWrite e .byte a v s) k 1 v ∧
    (a.getLsbD 0 = false → stored (.sh rt rs imm) (afterWrite e .half a v s) k 2 v) ∧
    (a.extractLsb' 0 2 = 0 → stored (.sw rt rs imm) (afterWrite e .word a v s) k 4 v) ∧
    stored (.swl rt rs imm) (merged mergeSwl) (k - lane) (lane + 1) (v >>> (8 * (3 - lane))) ∧
    stored (.swr rt rs imm) (merged mergeSwr) k (4 - lane) v

/-- The stores to any device that takes its write; SWL and SWR read the aligned word first (20_memory R80, R84, R85,
R111; 44_load_store R238 to R242). -/
def Obligations.StoresToDevicesRetire : Prop :=
  ∀ (s s1 : State) (rt rs : Reg) (imm : Half) (e : BusEntry),
    let a := addressOf rs imm s
    let wrote (w : Width) : Prop :=
      claim a = some e ∧ deviceWrite e.device (segmentOf a) w (rangeOffset e a) (s.gpr rt) s = .next s1
    let merged (i : Instr) (merge : BitVec 2 → Word → Word → Word) : Prop :=
      ∀ v s2, claim (alignedWord a) = some e →
        deviceRead e.device (segmentOf a) .word (rangeOffset e (alignedWord a)) s = .ok v s1 →
        deviceWrite e.device (segmentOf a) .word (rangeOffset e (alignedWord a)) (merge (byteLane a) v (s.gpr rt))
          (costing e.device s1) = .next s2 →
        ∃ t, exec i s = .next t ∧ Retires none (costing e.device s2) t
    s.sr.getLsbD 16 = false → ModeAllows a s →
    merged (.swl rt rs imm) mergeSwl ∧ merged (.swr rt rs imm) mergeSwr ∧
    (wrote .byte → ∃ t, exec (.sb rt rs imm) s = .next t ∧ Retires none (costing e.device s1) t) ∧
    (a.getLsbD 0 = false → wrote .half →
      ∃ t, exec (.sh rt rs imm) s = .next t ∧ Retires none (costing e.device s1) t) ∧
    (a.extractLsb' 0 2 = 0 → wrote .word →
      ∃ t, exec (.sw rt rs imm) s = .next t ∧ Retires none (costing e.device s1) t)

/-- While the cache is isolated: SW maintains the line of address bits 11:4, in it the word of bits 3:2, and touches nothing
else; narrow and partial stores are fatal, loads are refused (20_memory R112, R114). -/
def Obligations.IsolatedCacheAccesses : Prop :=
  ∀ (s : State) (rt rs : Reg) (imm : Half),
    let a := addressOf rs imm s
    let index := a.extractLsb' 4 8
    s.sr.getLsbD 16 = true → ModeAllows a s →
    (∃ t, exec (.sw rt rs imm) s = .next t ∧ Retires none { s with icache := t.icache } t ∧
      (∀ l, l ≠ index → t.line l = s.line l) ∧ (t.line index).tag = (s.line index).tag ∧
      (s.cacheCtl.getLsbD 2 = true →
        (t.line index).word = (s.line index).word ∧
        ∀ j : Fin 4, (t.line index).valid[j] = false) ∧
      (s.cacheCtl.getLsbD 2 = false →
        (t.line index).valid = (s.line index).valid ∧
        ∀ j : Fin 4, (t.line index).word[j] =
          if j.val = (a.extractLsb' 2 2).toNat then s.gpr rt else (s.line index).word[j])) ∧
    (∀ i ∈ [Instr.sb rt rs imm, .sh rt rs imm, .swl rt rs imm, .swr rt rs imm],
      exec i s = .fault (.fatal .isolatedNarrowStore)) ∧
    ∀ i ∈ loads rt rs imm, exec i s = .refused .isolatedLoad

/-- The user-mode address check comes before the cache and the Bus, for loads, stores and fetches; in kernel mode only
the Bus decides (20_memory R113). For LWL, LWR, SWL and SWR (44_load_store R236, R237, R241, R242) the address in BADVADDR
is the effective address before it is aligned: the model's reading of R113 (log entry 23). -/
def Obligations.UserModeAddressCheck : Prop :=
  ∀ (s : State) (rt rs : Reg) (imm : Half),
    let a := addressOf rs imm s
    (s.sr.getLsbD 1 = true → segmentOf a ≠ .user →
      (∀ i ∈ loads rt rs imm, ∃ t, exec i s = .next t ∧ Enters 4 0 (some a) s t) ∧
      (∀ i ∈ stores rt rs imm, ∃ t, exec i s = .next t ∧ Enters 5 0 (some a) s t) ∧
      fetch a s = .raise (.adEL a) s) ∧
    (s.sr.getLsbD 1 = false → s.sr.getLsbD 16 = false → ∀ w b v,
      memRead w b s = cpuBusRead w b s ∧ memWrite w b v s = cpuBusWrite w b v s ∧
      (cacheable b s = false → fetch b s = cpuBusRead .word b s))

/-- Bus errors and misaligned accesses (44_load_store R230 (c), (d); 20_memory R110, R111; 60_exceptions R280). -/
def Obligations.DataAccessFaultsEnterTheHandler : Prop :=
  ∀ (s : State) (rt rs : Reg) (imm : Half),
    let a := addressOf rs imm s
    s.sr.getLsbD 16 = false → ModeAllows a s →
    (claim a = none →
      (∀ i ∈ loads rt rs imm, ∃ t, exec i s = .next t ∧ Enters 6 0 none s t) ∧
      (∀ i ∈ [Instr.sb rt rs imm, .sh rt rs imm, .sw rt rs imm],
        ∃ t, exec i s = .next t ∧ Enters 7 0 none s t) ∧
      (∀ i ∈ [Instr.swl rt rs imm, .swr rt rs imm], ∃ t, exec i s = .next t ∧ Enters 6 0 none s t)) ∧
    (claim a ≠ none → a.getLsbD 0 = true →
      (∀ i ∈ [Instr.lh rt rs imm, .lhu rt rs imm], ∃ t, exec i s = .next t ∧ Enters 4 0 (some a) s t) ∧
      ∃ t, exec (.sh rt rs imm) s = .next t ∧ Enters 5 0 (some a) s t) ∧
    (claim a ≠ none → a.extractLsb' 0 2 ≠ 0 →
      (∃ t, exec (.lw rt rs imm) s = .next t ∧ Enters 4 0 (some a) s t) ∧
      ∃ t, exec (.sw rt rs imm) s = .next t ∧ Enters 5 0 (some a) s t)

/-! Traps and coprocessors. -/

/-- SYSCALL and BREAK take their exceptions, whatever their code (45_system_coproc R251, R252; 60_exceptions R300). -/
def Obligations.SyscallAndBreakTrap : Prop :=
  ∀ (s : State) (code : Nat),
    (∃ t, exec (.syscall code) s = .next t ∧ Enters 8 0 none s t) ∧
    (∃ t, exec (.brk code) s = .next t ∧ Enters 9 0 none s t)

/-- MFC0 of each register, through the load slot (45_system_coproc R253, R255; 10_state R33 to R36). -/
def Obligations.MoveFromCop0QueuesTheRegister : Prop :=
  ∀ (s : State) (rt : Reg), (s.sr.getLsbD 1 = true → s.sr.getLsbD 28 = true) →
    let moves (rd : Reg) (v : Word) : Prop := ∃ t, exec (.mfc0 rt rd) s = .next t ∧ Queues rt v s t
    moves 12 s.sr ∧ moves 14 s.epc ∧ moves 15 s.params.prid ∧ moves 8 s.badVAddr ∧
    (∀ rd ∈ [(3 : Reg), 5, 6, 7, 9, 11], moves rd 0) ∧
    ∃ v, moves 13 v ∧ v.extractLsb' 10 6 = s.irqIn ∧ v.extractLsb' 8 2 = s.cause.extractLsb' 8 2 ∧
      v.extractLsb' 2 5 = s.cause.extractLsb' 2 5 ∧ v.extractLsb' 28 2 = s.cause.extractLsb' 28 2 ∧
      v.getLsbD 31 = s.cause.getLsbD 31 ∧ v &&& 0x4FFF0083 = 0

/-- MTC0 of each register takes effect at once; the read-only ones keep their values (45_system_coproc R254, R255;
10_state R32 to R36). -/
def Obligations.MoveToCop0Writes : Prop :=
  ∀ (s : State) (rt : Reg), (s.sr.getLsbD 1 = true → s.sr.getLsbD 28 = true) →
    let writes (rd : Reg) (u : State) : Prop := ∃ t, exec (.mtc0 rt rd) s = .next t ∧ Retires none u t
    writes 12 { s with sr := s.gpr rt } ∧
    (∃ c, writes 13 { s with cause := c } ∧ c.extractLsb' 8 2 = (s.gpr rt).extractLsb' 8 2 ∧
      c &&& 0xFFFFFCFF = s.cause &&& 0xFFFFFCFF) ∧
    writes 14 s ∧ writes 15 s ∧ writes 8 s ∧
    (s.gpr rt = 0 → ∀ rd ∈ [(3 : Reg), 5, 6, 7, 9, 11], writes rd s)

/-- The COP0 instructions trap in user mode with CU0 = 0, and where COP0 is usable the moves of the absent and the
breakpoint registers stop the machine (45_system_coproc R250, R255; 60_exceptions R311; 10_state R56). -/
def Obligations.Cop0TrapsAndStops : Prop :=
  ∀ (s : State) (rt rd : Reg),
    (s.sr.getLsbD 1 = true → s.sr.getLsbD 28 = false →
      ∀ i ∈ [Instr.mfc0 rt rd, .mtc0 rt rd, .rfe], ∃ t, exec i s = .next t ∧ Enters 11 0 none s t) ∧
    ((s.sr.getLsbD 1 = true → s.sr.getLsbD 28 = true) →
      (rd ∉ [(3 : Reg), 5, 6, 7, 8, 9, 11, 12, 13, 14, 15] →
        exec (.mfc0 rt rd) s = .fault (.fatal .cop0Register) ∧
        exec (.mtc0 rt rd) s = .fault (.fatal .cop0Register)) ∧
      (s.gpr rt ≠ 0 → rd ∈ [(3 : Reg), 5, 6, 7, 9, 11] →
        exec (.mtc0 rt rd) s = .fault (.fatal .cop0BreakpointWrite)))

/-- RFE pops the (KU, IE) stack and changes nothing else (45_system_coproc R256). -/
def Obligations.ReturnFromExceptionPopsModes : Prop :=
  ∀ (s : State), (s.sr.getLsbD 1 = true → s.sr.getLsbD 28 = true) →
    ∃ t, exec .rfe s = .next t ∧ Retires none { s with sr := t.sr } t ∧
      t.sr.extractLsb' 0 4 = s.sr.extractLsb' 2 4 ∧ t.sr.extractLsb' 4 28 = s.sr.extractLsb' 4 28

/-- The absent coprocessors 1 and 3 and the loads and stores of coprocessor 0 always raise CpU; the geometry engine's
instructions raise CpU with CU2 = 0 and are refused with CU2 = 1 (45_system_coproc R257 to R259). -/
def Obligations.OtherCoprocessorsAreUnusable : Prop :=
  ∀ (s : State) (rt rs : Reg) (imm : Half),
    (∀ i ∈ [Instr.cop1, .lwc1 rt rs imm, .swc1 rt rs imm], ∃ t, exec i s = .next t ∧ Enters 11 1 none s t) ∧
    (∀ i ∈ [Instr.cop3, .lwc3 rt rs imm, .swc3 rt rs imm], ∃ t, exec i s = .next t ∧ Enters 11 3 none s t) ∧
    (∀ i ∈ [Instr.lwc0 rt rs imm, .swc0 rt rs imm], ∃ t, exec i s = .next t ∧ Enters 11 0 none s t) ∧
    ∀ i ∈ [Instr.cop2, .lwc2 rt rs imm, .swc2 rt rs imm],
      (s.sr.getLsbD 30 = false → ∃ t, exec i s = .next t ∧ Enters 11 2 none s t) ∧
      (s.sr.getLsbD 30 = true → exec i s = .refused .geometryEngine)

/-- RFE after a trap brings back the mode and the interrupt enable from before it (60_exceptions R300, R305). -/
def Obligations.TrapThenReturnRestoresModes : Prop :=
  ∀ (s : State) (e : Exc), ∃ t, exec .rfe (takeException e s) = .next t ∧
    t.sr.extractLsb' 0 4 = s.sr.extractLsb' 0 4 ∧ t.sr.extractLsb' 6 26 = s.sr.extractLsb' 6 26

/-! The Bus. -/

/-- The segments, the physical offset, and the mirrors (20_memory R70 to R72). -/
def Obligations.SegmentsMirrorThePhysicalSpace : Prop :=
  ∀ (a : Word),
    physicalOf a = 0#3 ++ a.extractLsb' 0 29 ∧
    (segmentOf a = .user ↔ a.toNat < 0x20000000) ∧
    (segmentOf a = .invalid ↔ 0x20000000 ≤ a.toNat ∧ a.toNat < 0x80000000) ∧
    (segmentOf a = .kernel0 ↔ 0x80000000 ≤ a.toNat ∧ a.toNat < 0xA0000000) ∧
    (segmentOf a = .kernel1 ↔ 0xA0000000 ≤ a.toNat ∧ a.toNat < 0xC0000000) ∧
    (segmentOf a = .kernel2 ↔ 0xC0000000 ≤ a.toNat) ∧
    (a.toNat < 0x20000000 →
      arrayAt (a + 0x80000000) = arrayAt a ∧
      (arrayAt (a + 0xA0000000) = arrayAt a ∨
        ∃ k, arrayPlace a = some (.scratchpad, k) ∧ claim (a + 0xA0000000) = none))

/-- A claimed address lies in exactly the ranges of the map; the byte arrays lie where the map puts them, RAM folded to
its 2 MB; the cache-control register answers in Kernel2 only; no Invalid address is claimed (20_memory R83, R95 to
R98). -/
def Obligations.AddressMapIsTheTable : Prop :=
  (∀ (seg : Segment) (p : Nat) (e : BusEntry), busLookup seg p = some e ↔
    e ∈ busTable ∧ e.start ≤ p ∧ p < e.stop ∧ seg ∈ e.segments) ∧
  (∀ a : Word, (∃ e, claim a = some e ∧ e.device = .cacheControl) ↔
    (0xFFFE0130 ≤ a.toNat ∧ a.toNat < 0xFFFE0134) ∨ (0xDFFE0130 ≤ a.toNat ∧ a.toNat < 0xDFFE0134)) ∧
  (∀ a : Word, segmentOf a = .invalid → claim a = none) ∧
  ∀ a : Word, a.toNat < 0x20000000 →
    (a.toNat < 0x00800000 → arrayPlace a = some (.ram, a.toNat % 0x200000)) ∧
    (0x1F800000 ≤ a.toNat ∧ a.toNat < 0x1F800400 → arrayPlace a = some (.scratchpad, a.toNat)) ∧
    (0x1FC00000 ≤ a.toNat ∧ a.toNat < 0x1FC80000 → arrayPlace a = some (.bios, a.toNat)) ∧
    (arrayAt a ≠ none → a.toNat < 0x00800000 ∨ (0x1F800000 ≤ a.toNat ∧ a.toNat < 0x1F800400) ∨
      (0x1FC00000 ≤ a.toNat ∧ a.toNat < 0x1FC80000))

/-- Registration and construction. The ranges of 20_memory R95, in any order, fit any capacity of 16 or more, and a smaller
one is exceeded; a duplicate start on a shared segment fails; the walk of the tree built from the ranges in any order finds
what the lookup finds (20_memory R82, R83). A platform with those ranges fails where its Bus or its Clock is too small or
its image is not 512 KB, and is refused where a clock device has 0 ns a cycle (log entry 27); else it is constructed, with
its clock devices, the requests they make at configuration time and its BIOS image in place (61 R321, R322; 70 R400, R402).
The model's own choices: a platform without an image is constructed too (log entry 17); a duplicate is reported before a
full table, and the Bus's error before the Clock's, and that before the image's (log entry 30). -/
def Obligations.RegistrationAndTreeWalk : Prop :=
  (∀ (es : List BusEntry), es.Perm busTable →
    (∀ c, 16 ≤ c → busRegisterAll c es [] = .ok es) ∧
    (∀ c, c < 16 → busRegisterAll c es [] = .error .busCapacity) ∧
    ∀ (seg : Segment) (p : Nat), busWalk seg p (busTreeOf es) = busLookup seg p) ∧
  (∀ (c : Nat) (e x : BusEntry) (es : List BusEntry), x ∈ es → x.start = e.start →
    (∃ seg, seg ∈ x.segments ∧ seg ∈ e.segments) → busRegister c e es = .error .duplicateRange) ∧
  ∀ p : Platform, p.ranges.Perm busTable →
    let imageFits : Prop := ∀ image, p.bios = some image → image.length = 0x80000
    (p.params.busMaxDevices < 16 → construct p = .fault (.fatal .busCapacity)) ∧
    (16 ≤ p.params.busMaxDevices → p.params.clockMaxDevices < p.clocks.length →
      construct p = .fault (.fatal .clockCapacity)) ∧
    (16 ≤ p.params.busMaxDevices → p.clocks.length ≤ p.params.clockMaxDevices →
      (¬ imageFits → construct p = .fault .biosImageSize) ∧
      (imageFits → 0 ∈ p.clocks → construct p = .refused .platformOutsideSpec) ∧
      (imageFits → 0 ∉ p.clocks →
        ∃ t, construct p = .next t ∧ t.params = p.params ∧ t.pc = 0xBFC00000 ∧
          t.clock = p.requests.foldl applyRequest { systemTime := 0, entries := p.clocks.map fun nanos =>
            { nanosPerCycle := nanos, nextUpdate := none, updateFrequency := none, lastUpdateTime := 0 } } ∧
          ∀ image, p.bios = some image → ∀ j : Nat, Memory.read t.mem (0x1FC00000 + j) = image.getD j 0))

/-- The Bus access: the lookup, then the alignment, then one accessor call with the segment and the offset in the range,
whose value of the access's width and whose device's latency are the answer; each fault's record holds the whole address,
and no device is accessed (20_memory R80, R84 to R86). -/
def Obligations.BusFaultsLookupFirst : Prop :=
  ∀ (s : State) (w : Width) (a v : Word),
    (aligned .byte a = true ∧ (aligned .half a = true ↔ a.extractLsb' 0 1 = 0) ∧
      (aligned .word a = true ↔ a.extractLsb' 0 2 = 0)) ∧
    (claim a = none →
      busRead w a s = .ok none { s with busFault := some ⟨.busErrorFetch, a⟩ } ∧
      busWrite w a v s = .ok none { s with busFault := some ⟨.busErrorStore, a⟩ }) ∧
    (claim a ≠ none → aligned w a = false →
      busRead w a s = .ok none { s with busFault := some ⟨.addressErrorFetch, a⟩ } ∧
      busWrite w a v s = .ok none { s with busFault := some ⟨.addressErrorStore, a⟩ }) ∧
    ∀ e x s1, claim a = some e → aligned w a = true →
      (deviceRead e.device (segmentOf a) w (rangeOffset e a) s = .ok x s1 →
        busRead w a s = .ok (some (x, cpuCycles s.params.latencies e.device)) s1 ∧ x.toNat < 2 ^ widthBits w) ∧
      (deviceWrite e.device (segmentOf a) w (rangeOffset e a) v s = .next s1 →
        busWrite w a v s = .ok (some (cpuCycles s.params.latencies e.device)) s1)

/-! The clock. -/

/-- `RequestUpdate` and `SetDefaultUpdateFrequency` on entry `i`: the deadline moves only to an earlier time, the
cadence is stored by the second one only, every other entry is kept (61 R324, R325). -/
def Obligations.RequestsOnlyBringTheDeadlineForward : Prop :=
  ∀ (c : Clock) (i j cycles : Nat) (e : ClockEntry), c.entries[i]? = some e →
    let candidate := c.systemTime + e.nanosPerCycle * cycles
    let sooner := if ∀ t, e.nextUpdate = some t → candidate < t then some candidate else e.nextUpdate
    (requestUpdate i cycles c).entries[i]? = some { e with nextUpdate := sooner } ∧
    (setDefaultUpdateFrequency i cycles c).entries[i]? =
      some { e with nextUpdate := sooner, updateFrequency := some (e.nanosPerCycle * cycles) } ∧
    (j ≠ i → (requestUpdate i cycles c).entries[j]? = c.entries[j]? ∧
      (setDefaultUpdateFrequency i cycles c).entries[j]? = c.entries[j]?)

/-- A tick that reaches no deadline only moves the time; after any tick that ends, nothing is due (61 R330, R332 (a),
(c)). -/
def Obligations.ClockTickLeavesNothingDue : Prop :=
  (∀ (s : State) (n : Nat),
    NothingDue { s.clock with systemTime := s.clock.systemTime + n * s.params.masterNanosPerCycle } →
    clockTick n s = .next { s with
      clock := { s.clock with systemTime := s.clock.systemTime + n * s.params.masterNanosPerCycle } }) ∧
  ∀ (s t : State) (n : Nat), clockTick n s = .next t →
    NothingDue t.clock ∧ t.clock.systemTime = s.clock.systemTime + n * s.params.masterNanosPerCycle

/-- Where no callback does anything (log entry 8) and no period is 0, a tick fires each due entry once, in the order of the
deadlines they had (61 R332 (b); the order of equal ones is open, R333), each with the whole elapsed span in its own cycles,
and reschedules it from the present; every other entry and all else but the environment's choice among ties is kept (61
R330, R331). -/
def Obligations.DueEntryFiresOnceAndIsRescheduled : Prop :=
  ∀ (s : State) (n : Nat),
    let now := s.clock.systemTime + n * s.params.masterNanosPerCycle
    let due (i : Nat) : Prop := ∃ e next, s.clock.entries[i]? = some e ∧ e.nextUpdate = some next ∧ next ≤ now
    let deadline (i : Nat) : Nat := (s.clock.entries[i]?.bind ClockEntry.nextUpdate).getD 0
    let span (i : Nat) : Nat := (s.clock.entries[i]?.map fun e => (now - e.lastUpdateTime) / e.nanosPerCycle).getD 0
    s.env.callbacks = [] → (∀ e ∈ s.clock.entries, e.updateFrequency ≠ some 0) →
    ∃ (fired : List Nat) (t : State), clockTick n s = .next t ∧
      t = { s with clock := t.clock, outputs := t.outputs, env := { s.env with ties := t.env.ties, drawn := t.env.drawn } } ∧
      fired.Nodup ∧ (∀ i, i ∈ fired ↔ due i) ∧ fired.Pairwise (fun i j => deadline i ≤ deadline j) ∧
      t.outputs = (fired.reverse.map fun i => Output.clockUpdate i now (span i)) ++ s.outputs ∧
      t.clock.systemTime = now ∧ t.clock.entries.length = s.clock.entries.length ∧
      ∀ i e, s.clock.entries[i]? = some e → t.clock.entries[i]? = some
        (if i ∈ fired then { e with lastUpdateTime := now, nextUpdate := e.updateFrequency.map (now + ·) } else e)

/-! DMA. -/

/-- The activation condition; DPCR plays no part in it (62 R364). -/
def Obligations.ChannelQualifiesByItsControlRegister : Prop :=
  ∀ (s : State) (n : Fin 7) (v : Word),
    (qualifies n s = true ↔ (s.chan n).chcr.getLsbD 24 = true ∧
      ((s.chan n).chcr.extractLsb' 9 2 ≠ 0 ∨ (s.chan n).chcr.getLsbD 28 = true)) ∧
    qualifies n { s with dma := { s.dma with dpcr := v } } = qualifies n s

/-- A write to CHCR stores the writable bits (62 R359) and starts the channel at once exactly when it then qualifies and
no channel is active (62 R366); the transaction goes out first (20_memory R80; log entry 18). -/
def Obligations.ControlWriteStoresAndStarts : Prop :=
  ∀ (s : State) (seg : Segment) (n : Fin 7) (v : Word),
    let offset := 16 * n.val + 8
    let stored := if n = 6 then (v &&& s.params.dmaChcrMaskOtc) ||| 2 else v &&& s.params.dmaChcrMask
    let u := setChan n { s.chan n with chcr := stored } { s with outputs := .deviceWrite .dma seg 32 offset v :: s.outputs }
    deviceWrite .dma seg .word offset v s =
      if stored.getLsbD 24 = true ∧ (stored.extractLsb' 9 2 ≠ 0 ∨ stored.getLsbD 28 = true) ∧ s.dma.active = none
      then dmaStart n u else .next u

/-- The starts that stop the machine (62 R365, R367, R375). -/
def Obligations.StartsThatAreFatalOrRefused : Prop :=
  ∀ (s : State) (n : Fin 7),
    ((s.chan n).chcr.extractLsb' 9 2 = 3 → dmaStart n s = .fault (.fatal .dmaSyncMode)) ∧
    ((s.chan n).chcr.extractLsb' 9 2 ≠ 3 → n ≠ 6 → s.params.dmaPorts[n] = none →
      dmaStart n s = .fault (.fatal .dmaNoPort)) ∧
    (s.params.dmaPorts[n] ≠ none → (s.chan n).chcr.extractLsb' 9 2 = 2 → (s.chan n).chcr.getLsbD 0 = false →
      dmaStart n s = .fault (.fatal .dmaListDirection)) ∧
    (s.params.dmaPorts[n] ≠ none → (s.chan n).chcr.extractLsb' 9 2 = 1 →
      (s.chan n).bcr.extractLsb' 0 16 = 0 ∨ (s.chan n).bcr.extractLsb' 16 16 = 0 →
      dmaStart n s = .refused .dmaRequestZeroCount)

/-- A Manual transfer moves exactly the words from MADR on, up or down, in order, whether or not its port is ready: to the
device, which receives the words of RAM, with RAM unchanged; or from the device, whose words are stored, with every other
byte of memory kept. The port may make requests of the Clock with each word (70 R420; log entry 8), and its words are
env.words (log entry 7). Every other channel is unchanged; one tick of `clocksPerWord * numWords`; then the transfer
completes: startBusy and the transfer state are cleared and nothing else changes (62 R365, R371 to R373, R387 (a); log
entry 29). -/
def Obligations.ManualTransferSendsTheWords : Prop :=
  ∀ (s : State) (n : Fin 7) (clocks count : Nat),
    let c := s.chan n
    let address (j : Nat) : Word := ramPointer c.chcr (c.madr &&& 0x001FFFFC) j
    let ends (u : State) : Prop :=
      dmaStart n s = andThen (clockTick (clocks * count) u) (fun v => .next (dmaComplete n v)) ∧
        (∀ v, Completes n v (dmaComplete n v)) ∧
        ∀ m, u.chan m = if m = n then { c with chcr := c.chcr &&& 0xEFFFFFFF } else s.chan m
    let moved (channels : Vector DmaChannel 7) : Dma := { s.dma with
      channels := channels, active := some n, ramAddress := address count
      blockSize := BitVec.ofNat 17 count, blocksLeft := 0 }
    let requests : Clock := (s.env.requests.take count).flatten.foldl applyRequest s.clock
    let env : Env := { s.env with requests := s.env.requests.drop count }
    n ≠ 6 → s.params.dmaPorts[n] = some clocks → c.chcr.extractLsb' 9 2 = 0 →
    count = (if c.bcr.extractLsb' 0 16 = 0 then 0x10000 else (c.bcr.extractLsb' 0 16).toNat) →
    (c.chcr.getLsbD 0 = true → ∃ u, ends u ∧
      u = { s with
        clock := requests, env := env, dma := moved u.dma.channels
        outputs := (List.range count).reverse.map
          (fun j => Output.portWrite n (wordAt s.mem (address j).toNat)) ++ s.outputs }) ∧
    ∀ (words more : List Word), c.chcr.getLsbD 0 = false → MemoryOk s → s.env.words = words ++ more →
      words.length = count → ∃ u, ends u ∧ WordsStored s.mem u.mem address words ∧
        u = { s with
          clock := requests, env := { env with words := more }, dma := moved u.dma.channels, mem := u.mem
          outputs := words.reverse.map (Output.portRead n) ++ s.outputs }

/-- The ordering-table clear: word j at A - 4j points at the word below it, the last one is the sentinel, every other
byte of memory and every other channel is kept (62 R380, R381); one tick of the count; then the transfer completes (62
R373; log entry 29). -/
def Obligations.OrderingTableClearWritesTheList : Prop :=
  ∀ (s : State) (count : Nat),
    let c := s.chan 6
    let start := c.madr &&& 0x001FFFFC
    let address (j : Nat) : Word := (start - BitVec.ofNat 32 (4 * j)) &&& 0x001FFFFC
    let key (j : Nat) : Nat := (address j).toNat
    MemoryOk s → c.chcr.extractLsb' 9 2 = 0 → c.chcr.getLsbD 0 = false → c.chcr.getLsbD 1 = true →
    count = (if c.bcr.extractLsb' 0 16 = 0 then 0x10000 else (c.bcr.extractLsb' 0 16).toNat) →
    ∃ u, dmaStart 6 s = andThen (clockTick count u) (fun v => .next (dmaComplete 6 v)) ∧
      (∀ v, Completes 6 v (dmaComplete 6 v)) ∧
      u = { s with
        mem := u.mem
        dma := { s.dma with
          channels := u.dma.channels, active := some 6, ramAddress := address count
          blockSize := BitVec.ofNat 17 count, blocksLeft := 0, otcAddr := address count, otcLeft := 0 } } ∧
      (∀ m, u.chan m = if m = 6 then { c with chcr := c.chcr &&& 0xEFFFFFFF } else s.chan m) ∧
      (∀ j, j < count → wordAt u.mem (key j) =
        if j + 1 = count then 0x00FFFFFF else (start - BitVec.ofNat 32 (4 * j + 4)) &&& 0x001FFFFF) ∧
      ∀ x, (∀ j, j < count → ¬ (key j ≤ x ∧ x < key j + 4)) → Memory.read u.mem x = Memory.read s.mem x

/-- `DmaRun`: with no channel active the lowest qualifying channel starts, and with none nothing happens. A Request start
loads the transfer state and goes on as a resumption does. A suspended Request transfer polls its port before each block:
not ready, it keeps its state and stays active; ready, the next block of words is sent from the saved pointer or stored
there, the other bytes of memory and everything else kept; one tick of the block; then the next block, or the
completion (62 R365, R370, R371 to R374, R387; the port's answers are env.waits and env.words, log entry 7, its requests
env.requests, log entry 8; the transfer goes on as a Request transfer whatever CHCR holds, log entry 16). -/
def Obligations.DmaRunStartsOrResumesOneChannel : Prop :=
  ∀ (s : State),
    (s.dma.active = none → (∀ n, qualifies n s = false) → dmaRun s = .next s) ∧
    (∀ n, s.dma.active = none → qualifies n s = true → (∀ m, m < n → qualifies m s = false) →
      dmaRun s = dmaStart n s) ∧
    (∀ n, n ≠ 6 → s.params.dmaPorts[n] ≠ none → (s.chan n).chcr.extractLsb' 9 2 = 1 →
      (s.chan n).bcr.extractLsb' 0 16 ≠ 0 → (s.chan n).bcr.extractLsb' 16 16 ≠ 0 →
      ∃ u, dmaStart n s = dmaRun u ∧
        u = { s with dma := { s.dma with
          channels := u.dma.channels, active := some n, ramAddress := (s.chan n).madr &&& 0x001FFFFC
          blockSize := 0#1 ++ (s.chan n).bcr.extractLsb' 0 16, blocksLeft := 0#1 ++ (s.chan n).bcr.extractLsb' 16 16 } } ∧
        ∀ m, u.chan m = if m = n then { s.chan n with chcr := (s.chan n).chcr &&& 0xEFFFFFFF } else s.chan m) ∧
    ∀ n clocks answer rest, DmaOk s → s.dma.active = some n → s.params.dmaPorts[n] = some clocks →
      s.env.waits = answer :: rest →
      let chcr := (s.chan n).chcr
      let size := s.dma.blockSize.toNat
      let address (j : Nat) : Word := ramPointer chcr s.dma.ramAddress j
      let next (v : State) : Result := if s.dma.blocksLeft = 1 then .next (dmaComplete n v) else dmaRun v
      let block : Dma := { s.dma with ramAddress := address size, blocksLeft := s.dma.blocksLeft - 1 }
      let requests (k : Nat) : Clock := (s.env.requests.take k).flatten.foldl applyRequest s.clock
      let env : Env := { s.env with waits := rest, requests := s.env.requests.drop (size + 1) }
      (answer ≠ some 0 → dmaRun s = .next { s with
        clock := requests 1, env := { s.env with waits := rest, requests := s.env.requests.drop 1 }
        outputs := .portPoll n false :: s.outputs }) ∧
      (answer = some 0 → chcr.getLsbD 0 = true → dmaRun s = andThen (clockTick (clocks * size) { s with
        clock := requests (size + 1), env := env, dma := block
        outputs := (List.range size).reverse.map (fun j => Output.portWrite n (wordAt s.mem (address j).toNat)) ++
          .portPoll n true :: s.outputs }) next) ∧
      ∀ (words more : List Word), answer = some 0 → chcr.getLsbD 0 = false → MemoryOk s →
        s.env.words = words ++ more → words.length = size →
        ∃ u, dmaRun s = andThen (clockTick (clocks * size) u) next ∧ WordsStored s.mem u.mem address words ∧
          u = { s with
            clock := requests (size + 1), env := { env with words := more }, dma := block, mem := u.mem
            outputs := words.reverse.map (Output.portRead n) ++ .portPoll n true :: s.outputs }

/-- Linked lists (62 R375). A list of one node: its words go to the port in order, at increasing addresses whatever the
step bit says, then the sentinel ends the list, where every poll of the port answers ready. And a list of any length, where
no device is registered with the Clock: every link is followed, each word waits for its port by ticks of 32 cycles, one after
each not-ready poll, each node charges its words, and the transfer completes after the node whose link is the sentinel. The
port's answers are env.waits (log entry 7), its requests env.requests (log entry 8); completion is R373 (log entry 29). A
list that ends has at most as many nodes as RAM has words. -/
def Obligations.ListNodeSendsItsWords : Prop :=
  ∀ (s : State) (n : Fin 7) (clocks : Nat) (rest : List (Option Nat)),
    let c := s.chan n
    n ≠ 6 → s.params.dmaPorts[n] = some clocks → c.chcr.extractLsb' 9 2 = 2 → c.chcr.getLsbD 0 = true →
    (∀ count, LinkedFrom s.mem (c.madr &&& 0x001FFFFC) [c.madr &&& 0x001FFFFC] →
      count = (nodeOf s.mem (c.madr &&& 0x001FFFFC)).length →
      s.env.waits = List.replicate count (some 0) ++ rest →
      ∃ u, dmaStart n s = andThen (clockTick (clocks * count) u) (fun v => .next (dmaComplete n v)) ∧
        (∀ v, Completes n v (dmaComplete n v)) ∧
        u = { s with
          clock := (s.env.requests.take (2 * count)).flatten.foldl applyRequest s.clock
          env := { s.env with waits := rest, requests := s.env.requests.drop (2 * count) }
          outputs := (nodeOf s.mem (c.madr &&& 0x001FFFFC)).reverse.flatMap
            (fun w => [Output.portWrite n w, .portPoll n true]) ++ s.outputs
          dma := { s.dma with
            channels := u.dma.channels, active := some n, ramAddress := c.madr &&& 0x001FFFFC
            blockSize := 0, blocksLeft := 0 } } ∧
        ∀ m, u.chan m = if m = n then { c with chcr := c.chcr &&& 0xEFFFFFFF } else s.chan m) ∧
    ∀ (nodes : List Word) (polls : List Nat), s.clock.entries = [] → LinkedFrom s.mem (c.madr &&& 0x001FFFFC) nodes →
      nodes.length ≤ 0x80000 → polls.length = (nodes.flatMap (nodeOf s.mem)).length →
      s.env.waits = polls.map some ++ rest →
      ∃ t, dmaStart n s = .next t ∧
        t = { s with
          clock := { s.clock with systemTime :=
            s.clock.systemTime + (32 * polls.sum + clocks * polls.length) * s.params.masterNanosPerCycle }
          env := { s.env with waits := rest, requests := s.env.requests.drop (polls.sum + 2 * polls.length) }
          outputs := (((nodes.flatMap (nodeOf s.mem)).zip polls).flatMap fun p =>
            List.replicate p.2 (Output.portPoll n false) ++ [.portPoll n true, .portWrite n p.1]).reverse ++ s.outputs
          dma := { s.dma with
            channels := t.dma.channels, active := none, ramAddress := 0, blockSize := 0, blocksLeft := 0 } } ∧
        ∀ m, t.chan m = if m = n then { c with chcr := c.chcr &&& 0xEEFFFFFF } else s.chan m

/-! The whole machine. -/

/-- A state in which `fatal` is set has no step but that fault (10_state R56; 70 R424; log entry 14). Else the host's moves:
before a step the host may drive the interrupt lines, during a `Run` too; `Run` goes on while its quantum is not met, and
then the next move is made (60_exceptions R290; 70 R420, R421), in the model's order of moves (log entry 12). -/
def Obligations.HostMovesFollowTheRun : Prop :=
  (∀ (s : State) (r : FatalReason), s.fatal = some r → step s = .fault (.fatal r)) ∧
  ∀ (s : State), s.fatal = none →
    let u := driveLines s
    let after (r : Option HostRun) (moves : List HostMove) : State :=
      { u with host := { u.host with running := r, moves := moves } }
    (s.host.lines = [] → u = s) ∧
    (∀ l rest, s.host.lines = l :: rest →
      u = { s with irqIn := l.getD s.irqIn, host := { s.host with lines := rest } }) ∧
    (∀ r, s.host.running = some r → s.cycles - r.start < r.quantum → step s = cpuStep u) ∧
    ((∀ r, s.host.running = some r → r.quantum ≤ s.cycles - r.start) →
      (∀ q rest, s.host.moves = .run q :: rest → q ≠ 0 → step s = cpuStep (after (some ⟨s.cycles, q⟩) rest)) ∧
      (∀ rest, s.host.moves = .dmaRun :: rest → step s = dmaRun (after none rest)) ∧
      (∀ rest, s.host.moves = .syncToRealtime :: rest → step s = .next (after none rest)) ∧
      (s.host.moves = [] → s.params.quantum ≠ 0 →
        step s = cpuStep (after (some ⟨s.cycles, s.params.quantum⟩) [.dmaRun, .syncToRealtime])))

/-- The reset values the spec states (70 R401). The values it leaves unspecified are not part of it. -/
def Obligations.ResetLeavesTheStatedValues : Prop :=
  let s := State.reset
  s.gpr 0 = 0 ∧ s.pc = 0xBFC00000 ∧ s.nextPc = 0xBFC00004 ∧ s.currentPc = 0xBFC00000 ∧ s.branch = false ∧
    s.delaySlot = false ∧ s.load = ⟨0, 0⟩ ∧ s.sr = 0x00400000 ∧ s.cause = 0 ∧ s.cacheCtl = 0 ∧
    (∀ (l : BitVec 8) (j : Fin 4), (s.line l).valid[j] = false) ∧ s.busFault = none ∧ s.cycles = 0 ∧
    s.clock.systemTime = 0 ∧ (∀ n, (s.chan n).madr = 0 ∧ (s.chan n).bcr = 0 ∧ (s.chan n).unused = 0) ∧
    (∀ n, (s.chan n).chcr = if n = 6 then 0x00000002 else 0) ∧ s.dma.dpcr = 0x07654321 ∧ s.dma.dicr = 0 ∧
    s.dma.active = none ∧ s.dma.ramAddress = 0 ∧ s.dma.blockSize = 0 ∧ s.dma.blocksLeft = 0 ∧
    s.dma.otcAddr = 0 ∧ s.dma.otcLeft = 0 ∧ s.fatal = none

/-- The invariants hold at reset, which is the construction of the default platform, and at the construction of every
platform (70 R400, R401; the canonical form of memory is the model's own, log entry 2). -/
def Obligations.ResetMeetsTheInvariants : Prop :=
  construct {} = .next State.reset ∧ (MemoryOk State.reset ∧ CpuOk State.reset ∧ DmaOk State.reset) ∧
    ∀ p t, construct p = .next t → MemoryOk t ∧ CpuOk t ∧ DmaOk t

/-- Every step keeps the canonical form of memory (20_memory R96; the form is the model's own, log entry 2). -/
def Obligations.StepKeepsMemoryCanonical : Prop := ∀ s t : State, MemoryOk s → step s = .next t → MemoryOk t

/-- Every step keeps the CPU's invariant (10_state R22, R26, R33, R39, R56). -/
def Obligations.StepKeepsCpuFields : Prop := ∀ s t : State, CpuOk s → step s = .next t → CpuOk t

/-- Every step keeps the DMA engine's invariant (10_state R44; 62 R350, R357, R359, R363, R373, R374; that the RAM pointer is 0
while no transfer is in progress is log entry 29). -/
def Obligations.StepKeepsDmaEngine : Prop := ∀ s t : State, DmaOk s → step s = .next t → DmaOk t

/-- No step changes a byte of the BIOS ROM (20_memory R96: writes are ignored; 62 R363: DMA cannot reach it). -/
def Obligations.NoStepWritesTheRom : Prop :=
  ∀ (s t : State), MemoryOk s → step s = .next t →
    ∀ x, 0x1FC00000 ≤ x → x < 0x1FC80000 → Memory.read t.mem x = Memory.read s.mem x

/-- Configuration never changes: the parameters, and which clock devices there are with their cycle lengths (10_state
R21). -/
def Obligations.ConfigurationNeverChanges : Prop :=
  ∀ (s t : State), step s = .next t →
    t.params = s.params ∧ t.clock.entries.map ClockEntry.nanosPerCycle = s.clock.entries.map ClockEntry.nanosPerCycle

/-- In user mode with CU0 = 0 an instruction either leaves SR, CAUSE, EPC, BADVADDR and the cache alone, or it has
entered the exception handler, in kernel mode with interrupts off (60_exceptions R310, R311; 20_memory R113). -/
def Obligations.UserModeKeepsSystemState : Prop :=
  ∀ (s t : State) (i : Instr), s.sr.getLsbD 1 = true → s.sr.getLsbD 28 = false → s.sr.getLsbD 16 = false →
    exec i s = .next t →
    t.icache = s.icache ∧ t.cacheCtl = s.cacheCtl ∧
    ((t.sr = s.sr ∧ t.cause = s.cause ∧ t.epc = s.epc ∧ t.badVAddr = s.badVAddr) ∨
      (t.pc = vectorOf s.sr ∧ t.sr.extractLsb' 0 2 = 0 ∧ t.sr.extractLsb' 2 4 = s.sr.extractLsb' 0 4))
end

