-- ==== Sys2Proof/Laws/State.lean ====
section
/-! SUPPORT. One lemma for each field that an update leaves alone. -/

namespace Sys2Proof.Machine

/-! `setGpr` changes regs only. -/

@[simp] theorem setGpr_hi (i : Reg) (v : Word) (s : State) : (setGpr i v s).hi = s.hi := by unfold setGpr; split <;> rfl
@[simp] theorem setGpr_lo (i : Reg) (v : Word) (s : State) : (setGpr i v s).lo = s.lo := by unfold setGpr; split <;> rfl
@[simp] theorem setGpr_currentPc (i : Reg) (v : Word) (s : State) : (setGpr i v s).currentPc = s.currentPc := by unfold setGpr; split <;> rfl
@[simp] theorem setGpr_pc (i : Reg) (v : Word) (s : State) : (setGpr i v s).pc = s.pc := by unfold setGpr; split <;> rfl
@[simp] theorem setGpr_nextPc (i : Reg) (v : Word) (s : State) : (setGpr i v s).nextPc = s.nextPc := by unfold setGpr; split <;> rfl
@[simp] theorem setGpr_branch (i : Reg) (v : Word) (s : State) : (setGpr i v s).branch = s.branch := by unfold setGpr; split <;> rfl
@[simp] theorem setGpr_delaySlot (i : Reg) (v : Word) (s : State) : (setGpr i v s).delaySlot = s.delaySlot := by unfold setGpr; split <;> rfl
@[simp] theorem setGpr_load (i : Reg) (v : Word) (s : State) : (setGpr i v s).load = s.load := by unfold setGpr; split <;> rfl
@[simp] theorem setGpr_sr (i : Reg) (v : Word) (s : State) : (setGpr i v s).sr = s.sr := by unfold setGpr; split <;> rfl
@[simp] theorem setGpr_cause (i : Reg) (v : Word) (s : State) : (setGpr i v s).cause = s.cause := by unfold setGpr; split <;> rfl
@[simp] theorem setGpr_irqIn (i : Reg) (v : Word) (s : State) : (setGpr i v s).irqIn = s.irqIn := by unfold setGpr; split <;> rfl
@[simp] theorem setGpr_epc (i : Reg) (v : Word) (s : State) : (setGpr i v s).epc = s.epc := by unfold setGpr; split <;> rfl
@[simp] theorem setGpr_badVAddr (i : Reg) (v : Word) (s : State) : (setGpr i v s).badVAddr = s.badVAddr := by unfold setGpr; split <;> rfl
@[simp] theorem setGpr_cacheCtl (i : Reg) (v : Word) (s : State) : (setGpr i v s).cacheCtl = s.cacheCtl := by unfold setGpr; split <;> rfl
@[simp] theorem setGpr_icache (i : Reg) (v : Word) (s : State) : (setGpr i v s).icache = s.icache := by unfold setGpr; split <;> rfl
@[simp] theorem setGpr_busFault (i : Reg) (v : Word) (s : State) : (setGpr i v s).busFault = s.busFault := by unfold setGpr; split <;> rfl
@[simp] theorem setGpr_cycles (i : Reg) (v : Word) (s : State) : (setGpr i v s).cycles = s.cycles := by unfold setGpr; split <;> rfl
@[simp] theorem setGpr_cost (i : Reg) (v : Word) (s : State) : (setGpr i v s).cost = s.cost := by unfold setGpr; split <;> rfl
@[simp] theorem setGpr_clock (i : Reg) (v : Word) (s : State) : (setGpr i v s).clock = s.clock := by unfold setGpr; split <;> rfl
@[simp] theorem setGpr_dma (i : Reg) (v : Word) (s : State) : (setGpr i v s).dma = s.dma := by unfold setGpr; split <;> rfl
@[simp] theorem setGpr_mem (i : Reg) (v : Word) (s : State) : (setGpr i v s).mem = s.mem := by unfold setGpr; split <;> rfl
@[simp] theorem setGpr_fatal (i : Reg) (v : Word) (s : State) : (setGpr i v s).fatal = s.fatal := by unfold setGpr; split <;> rfl
@[simp] theorem setGpr_host (i : Reg) (v : Word) (s : State) : (setGpr i v s).host = s.host := by unfold setGpr; split <;> rfl
@[simp] theorem setGpr_env (i : Reg) (v : Word) (s : State) : (setGpr i v s).env = s.env := by unfold setGpr; split <;> rfl
@[simp] theorem setGpr_outputs (i : Reg) (v : Word) (s : State) : (setGpr i v s).outputs = s.outputs := by unfold setGpr; split <;> rfl
@[simp] theorem setGpr_params (i : Reg) (v : Word) (s : State) : (setGpr i v s).params = s.params := by unfold setGpr; split <;> rfl

/-! `commitLoad` changes regs only. -/

@[simp] theorem commitLoad_hi (s : State) : (commitLoad s).hi = s.hi := by simp [commitLoad]
@[simp] theorem commitLoad_lo (s : State) : (commitLoad s).lo = s.lo := by simp [commitLoad]
@[simp] theorem commitLoad_currentPc (s : State) : (commitLoad s).currentPc = s.currentPc := by simp [commitLoad]
@[simp] theorem commitLoad_pc (s : State) : (commitLoad s).pc = s.pc := by simp [commitLoad]
@[simp] theorem commitLoad_nextPc (s : State) : (commitLoad s).nextPc = s.nextPc := by simp [commitLoad]
@[simp] theorem commitLoad_branch (s : State) : (commitLoad s).branch = s.branch := by simp [commitLoad]
@[simp] theorem commitLoad_delaySlot (s : State) : (commitLoad s).delaySlot = s.delaySlot := by simp [commitLoad]
@[simp] theorem commitLoad_load (s : State) : (commitLoad s).load = s.load := by simp [commitLoad]
@[simp] theorem commitLoad_sr (s : State) : (commitLoad s).sr = s.sr := by simp [commitLoad]
@[simp] theorem commitLoad_cause (s : State) : (commitLoad s).cause = s.cause := by simp [commitLoad]
@[simp] theorem commitLoad_irqIn (s : State) : (commitLoad s).irqIn = s.irqIn := by simp [commitLoad]
@[simp] theorem commitLoad_epc (s : State) : (commitLoad s).epc = s.epc := by simp [commitLoad]
@[simp] theorem commitLoad_badVAddr (s : State) : (commitLoad s).badVAddr = s.badVAddr := by simp [commitLoad]
@[simp] theorem commitLoad_cacheCtl (s : State) : (commitLoad s).cacheCtl = s.cacheCtl := by simp [commitLoad]
@[simp] theorem commitLoad_icache (s : State) : (commitLoad s).icache = s.icache := by simp [commitLoad]
@[simp] theorem commitLoad_busFault (s : State) : (commitLoad s).busFault = s.busFault := by simp [commitLoad]
@[simp] theorem commitLoad_cycles (s : State) : (commitLoad s).cycles = s.cycles := by simp [commitLoad]
@[simp] theorem commitLoad_cost (s : State) : (commitLoad s).cost = s.cost := by simp [commitLoad]
@[simp] theorem commitLoad_clock (s : State) : (commitLoad s).clock = s.clock := by simp [commitLoad]
@[simp] theorem commitLoad_dma (s : State) : (commitLoad s).dma = s.dma := by simp [commitLoad]
@[simp] theorem commitLoad_mem (s : State) : (commitLoad s).mem = s.mem := by simp [commitLoad]
@[simp] theorem commitLoad_fatal (s : State) : (commitLoad s).fatal = s.fatal := by simp [commitLoad]
@[simp] theorem commitLoad_host (s : State) : (commitLoad s).host = s.host := by simp [commitLoad]
@[simp] theorem commitLoad_env (s : State) : (commitLoad s).env = s.env := by simp [commitLoad]
@[simp] theorem commitLoad_outputs (s : State) : (commitLoad s).outputs = s.outputs := by simp [commitLoad]
@[simp] theorem commitLoad_params (s : State) : (commitLoad s).params = s.params := by simp [commitLoad]

/-! `retireNone` changes regs, load only. -/

@[simp] theorem retireNone_hi (s : State) : (retireNone s).hi = s.hi := by simp [retireNone]
@[simp] theorem retireNone_lo (s : State) : (retireNone s).lo = s.lo := by simp [retireNone]
@[simp] theorem retireNone_currentPc (s : State) : (retireNone s).currentPc = s.currentPc := by simp [retireNone]
@[simp] theorem retireNone_pc (s : State) : (retireNone s).pc = s.pc := by simp [retireNone]
@[simp] theorem retireNone_nextPc (s : State) : (retireNone s).nextPc = s.nextPc := by simp [retireNone]
@[simp] theorem retireNone_branch (s : State) : (retireNone s).branch = s.branch := by simp [retireNone]
@[simp] theorem retireNone_delaySlot (s : State) : (retireNone s).delaySlot = s.delaySlot := by simp [retireNone]
@[simp] theorem retireNone_sr (s : State) : (retireNone s).sr = s.sr := by simp [retireNone]
@[simp] theorem retireNone_cause (s : State) : (retireNone s).cause = s.cause := by simp [retireNone]
@[simp] theorem retireNone_irqIn (s : State) : (retireNone s).irqIn = s.irqIn := by simp [retireNone]
@[simp] theorem retireNone_epc (s : State) : (retireNone s).epc = s.epc := by simp [retireNone]
@[simp] theorem retireNone_badVAddr (s : State) : (retireNone s).badVAddr = s.badVAddr := by simp [retireNone]
@[simp] theorem retireNone_cacheCtl (s : State) : (retireNone s).cacheCtl = s.cacheCtl := by simp [retireNone]
@[simp] theorem retireNone_icache (s : State) : (retireNone s).icache = s.icache := by simp [retireNone]
@[simp] theorem retireNone_busFault (s : State) : (retireNone s).busFault = s.busFault := by simp [retireNone]
@[simp] theorem retireNone_cycles (s : State) : (retireNone s).cycles = s.cycles := by simp [retireNone]
@[simp] theorem retireNone_cost (s : State) : (retireNone s).cost = s.cost := by simp [retireNone]
@[simp] theorem retireNone_clock (s : State) : (retireNone s).clock = s.clock := by simp [retireNone]
@[simp] theorem retireNone_dma (s : State) : (retireNone s).dma = s.dma := by simp [retireNone]
@[simp] theorem retireNone_mem (s : State) : (retireNone s).mem = s.mem := by simp [retireNone]
@[simp] theorem retireNone_fatal (s : State) : (retireNone s).fatal = s.fatal := by simp [retireNone]
@[simp] theorem retireNone_host (s : State) : (retireNone s).host = s.host := by simp [retireNone]
@[simp] theorem retireNone_env (s : State) : (retireNone s).env = s.env := by simp [retireNone]
@[simp] theorem retireNone_outputs (s : State) : (retireNone s).outputs = s.outputs := by simp [retireNone]
@[simp] theorem retireNone_params (s : State) : (retireNone s).params = s.params := by simp [retireNone]

/-! `retireWrite` changes regs, load only. -/

@[simp] theorem retireWrite_hi (i : Reg) (v : Word) (s : State) : (retireWrite i v s).hi = s.hi := by simp [retireWrite]
@[simp] theorem retireWrite_lo (i : Reg) (v : Word) (s : State) : (retireWrite i v s).lo = s.lo := by simp [retireWrite]
@[simp] theorem retireWrite_currentPc (i : Reg) (v : Word) (s : State) : (retireWrite i v s).currentPc = s.currentPc := by simp [retireWrite]
@[simp] theorem retireWrite_pc (i : Reg) (v : Word) (s : State) : (retireWrite i v s).pc = s.pc := by simp [retireWrite]
@[simp] theorem retireWrite_nextPc (i : Reg) (v : Word) (s : State) : (retireWrite i v s).nextPc = s.nextPc := by simp [retireWrite]
@[simp] theorem retireWrite_branch (i : Reg) (v : Word) (s : State) : (retireWrite i v s).branch = s.branch := by simp [retireWrite]
@[simp] theorem retireWrite_delaySlot (i : Reg) (v : Word) (s : State) : (retireWrite i v s).delaySlot = s.delaySlot := by simp [retireWrite]
@[simp] theorem retireWrite_sr (i : Reg) (v : Word) (s : State) : (retireWrite i v s).sr = s.sr := by simp [retireWrite]
@[simp] theorem retireWrite_cause (i : Reg) (v : Word) (s : State) : (retireWrite i v s).cause = s.cause := by simp [retireWrite]
@[simp] theorem retireWrite_irqIn (i : Reg) (v : Word) (s : State) : (retireWrite i v s).irqIn = s.irqIn := by simp [retireWrite]
@[simp] theorem retireWrite_epc (i : Reg) (v : Word) (s : State) : (retireWrite i v s).epc = s.epc := by simp [retireWrite]
@[simp] theorem retireWrite_badVAddr (i : Reg) (v : Word) (s : State) : (retireWrite i v s).badVAddr = s.badVAddr := by simp [retireWrite]
@[simp] theorem retireWrite_cacheCtl (i : Reg) (v : Word) (s : State) : (retireWrite i v s).cacheCtl = s.cacheCtl := by simp [retireWrite]
@[simp] theorem retireWrite_icache (i : Reg) (v : Word) (s : State) : (retireWrite i v s).icache = s.icache := by simp [retireWrite]
@[simp] theorem retireWrite_busFault (i : Reg) (v : Word) (s : State) : (retireWrite i v s).busFault = s.busFault := by simp [retireWrite]
@[simp] theorem retireWrite_cycles (i : Reg) (v : Word) (s : State) : (retireWrite i v s).cycles = s.cycles := by simp [retireWrite]
@[simp] theorem retireWrite_cost (i : Reg) (v : Word) (s : State) : (retireWrite i v s).cost = s.cost := by simp [retireWrite]
@[simp] theorem retireWrite_clock (i : Reg) (v : Word) (s : State) : (retireWrite i v s).clock = s.clock := by simp [retireWrite]
@[simp] theorem retireWrite_dma (i : Reg) (v : Word) (s : State) : (retireWrite i v s).dma = s.dma := by simp [retireWrite]
@[simp] theorem retireWrite_mem (i : Reg) (v : Word) (s : State) : (retireWrite i v s).mem = s.mem := by simp [retireWrite]
@[simp] theorem retireWrite_fatal (i : Reg) (v : Word) (s : State) : (retireWrite i v s).fatal = s.fatal := by simp [retireWrite]
@[simp] theorem retireWrite_host (i : Reg) (v : Word) (s : State) : (retireWrite i v s).host = s.host := by simp [retireWrite]
@[simp] theorem retireWrite_env (i : Reg) (v : Word) (s : State) : (retireWrite i v s).env = s.env := by simp [retireWrite]
@[simp] theorem retireWrite_outputs (i : Reg) (v : Word) (s : State) : (retireWrite i v s).outputs = s.outputs := by simp [retireWrite]
@[simp] theorem retireWrite_params (i : Reg) (v : Word) (s : State) : (retireWrite i v s).params = s.params := by simp [retireWrite]

/-! `retireLoad` changes regs, load only. -/

@[simp] theorem retireLoad_hi (i : Reg) (v : Word) (s : State) : (retireLoad i v s).hi = s.hi := by unfold retireLoad; split <;> simp
@[simp] theorem retireLoad_lo (i : Reg) (v : Word) (s : State) : (retireLoad i v s).lo = s.lo := by unfold retireLoad; split <;> simp
@[simp] theorem retireLoad_currentPc (i : Reg) (v : Word) (s : State) : (retireLoad i v s).currentPc = s.currentPc := by unfold retireLoad; split <;> simp
@[simp] theorem retireLoad_pc (i : Reg) (v : Word) (s : State) : (retireLoad i v s).pc = s.pc := by unfold retireLoad; split <;> simp
@[simp] theorem retireLoad_nextPc (i : Reg) (v : Word) (s : State) : (retireLoad i v s).nextPc = s.nextPc := by unfold retireLoad; split <;> simp
@[simp] theorem retireLoad_branch (i : Reg) (v : Word) (s : State) : (retireLoad i v s).branch = s.branch := by unfold retireLoad; split <;> simp
@[simp] theorem retireLoad_delaySlot (i : Reg) (v : Word) (s : State) : (retireLoad i v s).delaySlot = s.delaySlot := by unfold retireLoad; split <;> simp
@[simp] theorem retireLoad_sr (i : Reg) (v : Word) (s : State) : (retireLoad i v s).sr = s.sr := by unfold retireLoad; split <;> simp
@[simp] theorem retireLoad_cause (i : Reg) (v : Word) (s : State) : (retireLoad i v s).cause = s.cause := by unfold retireLoad; split <;> simp
@[simp] theorem retireLoad_irqIn (i : Reg) (v : Word) (s : State) : (retireLoad i v s).irqIn = s.irqIn := by unfold retireLoad; split <;> simp
@[simp] theorem retireLoad_epc (i : Reg) (v : Word) (s : State) : (retireLoad i v s).epc = s.epc := by unfold retireLoad; split <;> simp
@[simp] theorem retireLoad_badVAddr (i : Reg) (v : Word) (s : State) : (retireLoad i v s).badVAddr = s.badVAddr := by unfold retireLoad; split <;> simp
@[simp] theorem retireLoad_cacheCtl (i : Reg) (v : Word) (s : State) : (retireLoad i v s).cacheCtl = s.cacheCtl := by unfold retireLoad; split <;> simp
@[simp] theorem retireLoad_icache (i : Reg) (v : Word) (s : State) : (retireLoad i v s).icache = s.icache := by unfold retireLoad; split <;> simp
@[simp] theorem retireLoad_busFault (i : Reg) (v : Word) (s : State) : (retireLoad i v s).busFault = s.busFault := by unfold retireLoad; split <;> simp
@[simp] theorem retireLoad_cycles (i : Reg) (v : Word) (s : State) : (retireLoad i v s).cycles = s.cycles := by unfold retireLoad; split <;> simp
@[simp] theorem retireLoad_cost (i : Reg) (v : Word) (s : State) : (retireLoad i v s).cost = s.cost := by unfold retireLoad; split <;> simp
@[simp] theorem retireLoad_clock (i : Reg) (v : Word) (s : State) : (retireLoad i v s).clock = s.clock := by unfold retireLoad; split <;> simp
@[simp] theorem retireLoad_dma (i : Reg) (v : Word) (s : State) : (retireLoad i v s).dma = s.dma := by unfold retireLoad; split <;> simp
@[simp] theorem retireLoad_mem (i : Reg) (v : Word) (s : State) : (retireLoad i v s).mem = s.mem := by unfold retireLoad; split <;> simp
@[simp] theorem retireLoad_fatal (i : Reg) (v : Word) (s : State) : (retireLoad i v s).fatal = s.fatal := by unfold retireLoad; split <;> simp
@[simp] theorem retireLoad_host (i : Reg) (v : Word) (s : State) : (retireLoad i v s).host = s.host := by unfold retireLoad; split <;> simp
@[simp] theorem retireLoad_env (i : Reg) (v : Word) (s : State) : (retireLoad i v s).env = s.env := by unfold retireLoad; split <;> simp
@[simp] theorem retireLoad_outputs (i : Reg) (v : Word) (s : State) : (retireLoad i v s).outputs = s.outputs := by unfold retireLoad; split <;> simp
@[simp] theorem retireLoad_params (i : Reg) (v : Word) (s : State) : (retireLoad i v s).params = s.params := by unfold retireLoad; split <;> simp

/-! `takeException` changes regs, load, sr, cause, epc, badVAddr, pc, nextPc, branch, busFault only. -/

@[simp] theorem takeException_hi (e : Exc) (s : State) : (takeException e s).hi = s.hi := by simp [takeException, exceptionEntry]
@[simp] theorem takeException_lo (e : Exc) (s : State) : (takeException e s).lo = s.lo := by simp [takeException, exceptionEntry]
@[simp] theorem takeException_currentPc (e : Exc) (s : State) : (takeException e s).currentPc = s.currentPc := by simp [takeException, exceptionEntry]
@[simp] theorem takeException_delaySlot (e : Exc) (s : State) : (takeException e s).delaySlot = s.delaySlot := by simp [takeException, exceptionEntry]
@[simp] theorem takeException_irqIn (e : Exc) (s : State) : (takeException e s).irqIn = s.irqIn := by simp [takeException, exceptionEntry]
@[simp] theorem takeException_cacheCtl (e : Exc) (s : State) : (takeException e s).cacheCtl = s.cacheCtl := by simp [takeException, exceptionEntry]
@[simp] theorem takeException_icache (e : Exc) (s : State) : (takeException e s).icache = s.icache := by simp [takeException, exceptionEntry]
@[simp] theorem takeException_cycles (e : Exc) (s : State) : (takeException e s).cycles = s.cycles := by simp [takeException, exceptionEntry]
@[simp] theorem takeException_cost (e : Exc) (s : State) : (takeException e s).cost = s.cost := by simp [takeException, exceptionEntry]
@[simp] theorem takeException_clock (e : Exc) (s : State) : (takeException e s).clock = s.clock := by simp [takeException, exceptionEntry]
@[simp] theorem takeException_dma (e : Exc) (s : State) : (takeException e s).dma = s.dma := by simp [takeException, exceptionEntry]
@[simp] theorem takeException_mem (e : Exc) (s : State) : (takeException e s).mem = s.mem := by simp [takeException, exceptionEntry]
@[simp] theorem takeException_fatal (e : Exc) (s : State) : (takeException e s).fatal = s.fatal := by simp [takeException, exceptionEntry]
@[simp] theorem takeException_host (e : Exc) (s : State) : (takeException e s).host = s.host := by simp [takeException, exceptionEntry]
@[simp] theorem takeException_env (e : Exc) (s : State) : (takeException e s).env = s.env := by simp [takeException, exceptionEntry]
@[simp] theorem takeException_outputs (e : Exc) (s : State) : (takeException e s).outputs = s.outputs := by simp [takeException, exceptionEntry]
@[simp] theorem takeException_params (e : Exc) (s : State) : (takeException e s).params = s.params := by simp [takeException, exceptionEntry]

/-! `addCost` changes cost only. -/

@[simp] theorem addCost_regs (c : Nat) (s : State) : (addCost c s).regs = s.regs := rfl
@[simp] theorem addCost_hi (c : Nat) (s : State) : (addCost c s).hi = s.hi := rfl
@[simp] theorem addCost_lo (c : Nat) (s : State) : (addCost c s).lo = s.lo := rfl
@[simp] theorem addCost_currentPc (c : Nat) (s : State) : (addCost c s).currentPc = s.currentPc := rfl
@[simp] theorem addCost_pc (c : Nat) (s : State) : (addCost c s).pc = s.pc := rfl
@[simp] theorem addCost_nextPc (c : Nat) (s : State) : (addCost c s).nextPc = s.nextPc := rfl
@[simp] theorem addCost_branch (c : Nat) (s : State) : (addCost c s).branch = s.branch := rfl
@[simp] theorem addCost_delaySlot (c : Nat) (s : State) : (addCost c s).delaySlot = s.delaySlot := rfl
@[simp] theorem addCost_load (c : Nat) (s : State) : (addCost c s).load = s.load := rfl
@[simp] theorem addCost_sr (c : Nat) (s : State) : (addCost c s).sr = s.sr := rfl
@[simp] theorem addCost_cause (c : Nat) (s : State) : (addCost c s).cause = s.cause := rfl
@[simp] theorem addCost_irqIn (c : Nat) (s : State) : (addCost c s).irqIn = s.irqIn := rfl
@[simp] theorem addCost_epc (c : Nat) (s : State) : (addCost c s).epc = s.epc := rfl
@[simp] theorem addCost_badVAddr (c : Nat) (s : State) : (addCost c s).badVAddr = s.badVAddr := rfl
@[simp] theorem addCost_cacheCtl (c : Nat) (s : State) : (addCost c s).cacheCtl = s.cacheCtl := rfl
@[simp] theorem addCost_icache (c : Nat) (s : State) : (addCost c s).icache = s.icache := rfl
@[simp] theorem addCost_busFault (c : Nat) (s : State) : (addCost c s).busFault = s.busFault := rfl
@[simp] theorem addCost_cycles (c : Nat) (s : State) : (addCost c s).cycles = s.cycles := rfl
@[simp] theorem addCost_clock (c : Nat) (s : State) : (addCost c s).clock = s.clock := rfl
@[simp] theorem addCost_dma (c : Nat) (s : State) : (addCost c s).dma = s.dma := rfl
@[simp] theorem addCost_mem (c : Nat) (s : State) : (addCost c s).mem = s.mem := rfl
@[simp] theorem addCost_fatal (c : Nat) (s : State) : (addCost c s).fatal = s.fatal := rfl
@[simp] theorem addCost_host (c : Nat) (s : State) : (addCost c s).host = s.host := rfl
@[simp] theorem addCost_env (c : Nat) (s : State) : (addCost c s).env = s.env := rfl
@[simp] theorem addCost_outputs (c : Nat) (s : State) : (addCost c s).outputs = s.outputs := rfl
@[simp] theorem addCost_params (c : Nat) (s : State) : (addCost c s).params = s.params := rfl

/-! `recordFault` changes busFault only. -/

@[simp] theorem recordFault_regs (c : BusFaultCode) (a : Word) (s : State) : (recordFault c a s).regs = s.regs := rfl
@[simp] theorem recordFault_hi (c : BusFaultCode) (a : Word) (s : State) : (recordFault c a s).hi = s.hi := rfl
@[simp] theorem recordFault_lo (c : BusFaultCode) (a : Word) (s : State) : (recordFault c a s).lo = s.lo := rfl
@[simp] theorem recordFault_currentPc (c : BusFaultCode) (a : Word) (s : State) : (recordFault c a s).currentPc = s.currentPc := rfl
@[simp] theorem recordFault_pc (c : BusFaultCode) (a : Word) (s : State) : (recordFault c a s).pc = s.pc := rfl
@[simp] theorem recordFault_nextPc (c : BusFaultCode) (a : Word) (s : State) : (recordFault c a s).nextPc = s.nextPc := rfl
@[simp] theorem recordFault_branch (c : BusFaultCode) (a : Word) (s : State) : (recordFault c a s).branch = s.branch := rfl
@[simp] theorem recordFault_delaySlot (c : BusFaultCode) (a : Word) (s : State) : (recordFault c a s).delaySlot = s.delaySlot := rfl
@[simp] theorem recordFault_load (c : BusFaultCode) (a : Word) (s : State) : (recordFault c a s).load = s.load := rfl
@[simp] theorem recordFault_sr (c : BusFaultCode) (a : Word) (s : State) : (recordFault c a s).sr = s.sr := rfl
@[simp] theorem recordFault_cause (c : BusFaultCode) (a : Word) (s : State) : (recordFault c a s).cause = s.cause := rfl
@[simp] theorem recordFault_irqIn (c : BusFaultCode) (a : Word) (s : State) : (recordFault c a s).irqIn = s.irqIn := rfl
@[simp] theorem recordFault_epc (c : BusFaultCode) (a : Word) (s : State) : (recordFault c a s).epc = s.epc := rfl
@[simp] theorem recordFault_badVAddr (c : BusFaultCode) (a : Word) (s : State) : (recordFault c a s).badVAddr = s.badVAddr := rfl
@[simp] theorem recordFault_cacheCtl (c : BusFaultCode) (a : Word) (s : State) : (recordFault c a s).cacheCtl = s.cacheCtl := rfl
@[simp] theorem recordFault_icache (c : BusFaultCode) (a : Word) (s : State) : (recordFault c a s).icache = s.icache := rfl
@[simp] theorem recordFault_cycles (c : BusFaultCode) (a : Word) (s : State) : (recordFault c a s).cycles = s.cycles := rfl
@[simp] theorem recordFault_cost (c : BusFaultCode) (a : Word) (s : State) : (recordFault c a s).cost = s.cost := rfl
@[simp] theorem recordFault_clock (c : BusFaultCode) (a : Word) (s : State) : (recordFault c a s).clock = s.clock := rfl
@[simp] theorem recordFault_dma (c : BusFaultCode) (a : Word) (s : State) : (recordFault c a s).dma = s.dma := rfl
@[simp] theorem recordFault_mem (c : BusFaultCode) (a : Word) (s : State) : (recordFault c a s).mem = s.mem := rfl
@[simp] theorem recordFault_fatal (c : BusFaultCode) (a : Word) (s : State) : (recordFault c a s).fatal = s.fatal := rfl
@[simp] theorem recordFault_host (c : BusFaultCode) (a : Word) (s : State) : (recordFault c a s).host = s.host := rfl
@[simp] theorem recordFault_env (c : BusFaultCode) (a : Word) (s : State) : (recordFault c a s).env = s.env := rfl
@[simp] theorem recordFault_outputs (c : BusFaultCode) (a : Word) (s : State) : (recordFault c a s).outputs = s.outputs := rfl
@[simp] theorem recordFault_params (c : BusFaultCode) (a : Word) (s : State) : (recordFault c a s).params = s.params := rfl

/-! `emit` changes outputs only. -/

@[simp] theorem emit_regs (o : Output) (s : State) : (emit o s).regs = s.regs := rfl
@[simp] theorem emit_hi (o : Output) (s : State) : (emit o s).hi = s.hi := rfl
@[simp] theorem emit_lo (o : Output) (s : State) : (emit o s).lo = s.lo := rfl
@[simp] theorem emit_currentPc (o : Output) (s : State) : (emit o s).currentPc = s.currentPc := rfl
@[simp] theorem emit_pc (o : Output) (s : State) : (emit o s).pc = s.pc := rfl
@[simp] theorem emit_nextPc (o : Output) (s : State) : (emit o s).nextPc = s.nextPc := rfl
@[simp] theorem emit_branch (o : Output) (s : State) : (emit o s).branch = s.branch := rfl
@[simp] theorem emit_delaySlot (o : Output) (s : State) : (emit o s).delaySlot = s.delaySlot := rfl
@[simp] theorem emit_load (o : Output) (s : State) : (emit o s).load = s.load := rfl
@[simp] theorem emit_sr (o : Output) (s : State) : (emit o s).sr = s.sr := rfl
@[simp] theorem emit_cause (o : Output) (s : State) : (emit o s).cause = s.cause := rfl
@[simp] theorem emit_irqIn (o : Output) (s : State) : (emit o s).irqIn = s.irqIn := rfl
@[simp] theorem emit_epc (o : Output) (s : State) : (emit o s).epc = s.epc := rfl
@[simp] theorem emit_badVAddr (o : Output) (s : State) : (emit o s).badVAddr = s.badVAddr := rfl
@[simp] theorem emit_cacheCtl (o : Output) (s : State) : (emit o s).cacheCtl = s.cacheCtl := rfl
@[simp] theorem emit_icache (o : Output) (s : State) : (emit o s).icache = s.icache := rfl
@[simp] theorem emit_busFault (o : Output) (s : State) : (emit o s).busFault = s.busFault := rfl
@[simp] theorem emit_cycles (o : Output) (s : State) : (emit o s).cycles = s.cycles := rfl
@[simp] theorem emit_cost (o : Output) (s : State) : (emit o s).cost = s.cost := rfl
@[simp] theorem emit_clock (o : Output) (s : State) : (emit o s).clock = s.clock := rfl
@[simp] theorem emit_dma (o : Output) (s : State) : (emit o s).dma = s.dma := rfl
@[simp] theorem emit_mem (o : Output) (s : State) : (emit o s).mem = s.mem := rfl
@[simp] theorem emit_fatal (o : Output) (s : State) : (emit o s).fatal = s.fatal := rfl
@[simp] theorem emit_host (o : Output) (s : State) : (emit o s).host = s.host := rfl
@[simp] theorem emit_env (o : Output) (s : State) : (emit o s).env = s.env := rfl
@[simp] theorem emit_params (o : Output) (s : State) : (emit o s).params = s.params := rfl

/-! `countDraw` changes env only. -/

@[simp] theorem countDraw_regs (s : State) : (countDraw s).regs = s.regs := rfl
@[simp] theorem countDraw_hi (s : State) : (countDraw s).hi = s.hi := rfl
@[simp] theorem countDraw_lo (s : State) : (countDraw s).lo = s.lo := rfl
@[simp] theorem countDraw_currentPc (s : State) : (countDraw s).currentPc = s.currentPc := rfl
@[simp] theorem countDraw_pc (s : State) : (countDraw s).pc = s.pc := rfl
@[simp] theorem countDraw_nextPc (s : State) : (countDraw s).nextPc = s.nextPc := rfl
@[simp] theorem countDraw_branch (s : State) : (countDraw s).branch = s.branch := rfl
@[simp] theorem countDraw_delaySlot (s : State) : (countDraw s).delaySlot = s.delaySlot := rfl
@[simp] theorem countDraw_load (s : State) : (countDraw s).load = s.load := rfl
@[simp] theorem countDraw_sr (s : State) : (countDraw s).sr = s.sr := rfl
@[simp] theorem countDraw_cause (s : State) : (countDraw s).cause = s.cause := rfl
@[simp] theorem countDraw_irqIn (s : State) : (countDraw s).irqIn = s.irqIn := rfl
@[simp] theorem countDraw_epc (s : State) : (countDraw s).epc = s.epc := rfl
@[simp] theorem countDraw_badVAddr (s : State) : (countDraw s).badVAddr = s.badVAddr := rfl
@[simp] theorem countDraw_cacheCtl (s : State) : (countDraw s).cacheCtl = s.cacheCtl := rfl
@[simp] theorem countDraw_icache (s : State) : (countDraw s).icache = s.icache := rfl
@[simp] theorem countDraw_busFault (s : State) : (countDraw s).busFault = s.busFault := rfl
@[simp] theorem countDraw_cycles (s : State) : (countDraw s).cycles = s.cycles := rfl
@[simp] theorem countDraw_cost (s : State) : (countDraw s).cost = s.cost := rfl
@[simp] theorem countDraw_clock (s : State) : (countDraw s).clock = s.clock := rfl
@[simp] theorem countDraw_dma (s : State) : (countDraw s).dma = s.dma := rfl
@[simp] theorem countDraw_mem (s : State) : (countDraw s).mem = s.mem := rfl
@[simp] theorem countDraw_fatal (s : State) : (countDraw s).fatal = s.fatal := rfl
@[simp] theorem countDraw_host (s : State) : (countDraw s).host = s.host := rfl
@[simp] theorem countDraw_outputs (s : State) : (countDraw s).outputs = s.outputs := rfl
@[simp] theorem countDraw_params (s : State) : (countDraw s).params = s.params := rfl

/-! `setLine` changes icache only. -/

@[simp] theorem setLine_regs (i : BitVec 8) (l : CacheLine) (s : State) : (setLine i l s).regs = s.regs := rfl
@[simp] theorem setLine_hi (i : BitVec 8) (l : CacheLine) (s : State) : (setLine i l s).hi = s.hi := rfl
@[simp] theorem setLine_lo (i : BitVec 8) (l : CacheLine) (s : State) : (setLine i l s).lo = s.lo := rfl
@[simp] theorem setLine_currentPc (i : BitVec 8) (l : CacheLine) (s : State) : (setLine i l s).currentPc = s.currentPc := rfl
@[simp] theorem setLine_pc (i : BitVec 8) (l : CacheLine) (s : State) : (setLine i l s).pc = s.pc := rfl
@[simp] theorem setLine_nextPc (i : BitVec 8) (l : CacheLine) (s : State) : (setLine i l s).nextPc = s.nextPc := rfl
@[simp] theorem setLine_branch (i : BitVec 8) (l : CacheLine) (s : State) : (setLine i l s).branch = s.branch := rfl
@[simp] theorem setLine_delaySlot (i : BitVec 8) (l : CacheLine) (s : State) : (setLine i l s).delaySlot = s.delaySlot := rfl
@[simp] theorem setLine_load (i : BitVec 8) (l : CacheLine) (s : State) : (setLine i l s).load = s.load := rfl
@[simp] theorem setLine_sr (i : BitVec 8) (l : CacheLine) (s : State) : (setLine i l s).sr = s.sr := rfl
@[simp] theorem setLine_cause (i : BitVec 8) (l : CacheLine) (s : State) : (setLine i l s).cause = s.cause := rfl
@[simp] theorem setLine_irqIn (i : BitVec 8) (l : CacheLine) (s : State) : (setLine i l s).irqIn = s.irqIn := rfl
@[simp] theorem setLine_epc (i : BitVec 8) (l : CacheLine) (s : State) : (setLine i l s).epc = s.epc := rfl
@[simp] theorem setLine_badVAddr (i : BitVec 8) (l : CacheLine) (s : State) : (setLine i l s).badVAddr = s.badVAddr := rfl
@[simp] theorem setLine_cacheCtl (i : BitVec 8) (l : CacheLine) (s : State) : (setLine i l s).cacheCtl = s.cacheCtl := rfl
@[simp] theorem setLine_busFault (i : BitVec 8) (l : CacheLine) (s : State) : (setLine i l s).busFault = s.busFault := rfl
@[simp] theorem setLine_cycles (i : BitVec 8) (l : CacheLine) (s : State) : (setLine i l s).cycles = s.cycles := rfl
@[simp] theorem setLine_cost (i : BitVec 8) (l : CacheLine) (s : State) : (setLine i l s).cost = s.cost := rfl
@[simp] theorem setLine_clock (i : BitVec 8) (l : CacheLine) (s : State) : (setLine i l s).clock = s.clock := rfl
@[simp] theorem setLine_dma (i : BitVec 8) (l : CacheLine) (s : State) : (setLine i l s).dma = s.dma := rfl
@[simp] theorem setLine_mem (i : BitVec 8) (l : CacheLine) (s : State) : (setLine i l s).mem = s.mem := rfl
@[simp] theorem setLine_fatal (i : BitVec 8) (l : CacheLine) (s : State) : (setLine i l s).fatal = s.fatal := rfl
@[simp] theorem setLine_host (i : BitVec 8) (l : CacheLine) (s : State) : (setLine i l s).host = s.host := rfl
@[simp] theorem setLine_env (i : BitVec 8) (l : CacheLine) (s : State) : (setLine i l s).env = s.env := rfl
@[simp] theorem setLine_outputs (i : BitVec 8) (l : CacheLine) (s : State) : (setLine i l s).outputs = s.outputs := rfl
@[simp] theorem setLine_params (i : BitVec 8) (l : CacheLine) (s : State) : (setLine i l s).params = s.params := rfl

/-! `setChan` changes dma only. -/

@[simp] theorem setChan_regs (n : Fin 7) (c : DmaChannel) (s : State) : (setChan n c s).regs = s.regs := rfl
@[simp] theorem setChan_hi (n : Fin 7) (c : DmaChannel) (s : State) : (setChan n c s).hi = s.hi := rfl
@[simp] theorem setChan_lo (n : Fin 7) (c : DmaChannel) (s : State) : (setChan n c s).lo = s.lo := rfl
@[simp] theorem setChan_currentPc (n : Fin 7) (c : DmaChannel) (s : State) : (setChan n c s).currentPc = s.currentPc := rfl
@[simp] theorem setChan_pc (n : Fin 7) (c : DmaChannel) (s : State) : (setChan n c s).pc = s.pc := rfl
@[simp] theorem setChan_nextPc (n : Fin 7) (c : DmaChannel) (s : State) : (setChan n c s).nextPc = s.nextPc := rfl
@[simp] theorem setChan_branch (n : Fin 7) (c : DmaChannel) (s : State) : (setChan n c s).branch = s.branch := rfl
@[simp] theorem setChan_delaySlot (n : Fin 7) (c : DmaChannel) (s : State) : (setChan n c s).delaySlot = s.delaySlot := rfl
@[simp] theorem setChan_load (n : Fin 7) (c : DmaChannel) (s : State) : (setChan n c s).load = s.load := rfl
@[simp] theorem setChan_sr (n : Fin 7) (c : DmaChannel) (s : State) : (setChan n c s).sr = s.sr := rfl
@[simp] theorem setChan_cause (n : Fin 7) (c : DmaChannel) (s : State) : (setChan n c s).cause = s.cause := rfl
@[simp] theorem setChan_irqIn (n : Fin 7) (c : DmaChannel) (s : State) : (setChan n c s).irqIn = s.irqIn := rfl
@[simp] theorem setChan_epc (n : Fin 7) (c : DmaChannel) (s : State) : (setChan n c s).epc = s.epc := rfl
@[simp] theorem setChan_badVAddr (n : Fin 7) (c : DmaChannel) (s : State) : (setChan n c s).badVAddr = s.badVAddr := rfl
@[simp] theorem setChan_cacheCtl (n : Fin 7) (c : DmaChannel) (s : State) : (setChan n c s).cacheCtl = s.cacheCtl := rfl
@[simp] theorem setChan_icache (n : Fin 7) (c : DmaChannel) (s : State) : (setChan n c s).icache = s.icache := rfl
@[simp] theorem setChan_busFault (n : Fin 7) (c : DmaChannel) (s : State) : (setChan n c s).busFault = s.busFault := rfl
@[simp] theorem setChan_cycles (n : Fin 7) (c : DmaChannel) (s : State) : (setChan n c s).cycles = s.cycles := rfl
@[simp] theorem setChan_cost (n : Fin 7) (c : DmaChannel) (s : State) : (setChan n c s).cost = s.cost := rfl
@[simp] theorem setChan_clock (n : Fin 7) (c : DmaChannel) (s : State) : (setChan n c s).clock = s.clock := rfl
@[simp] theorem setChan_mem (n : Fin 7) (c : DmaChannel) (s : State) : (setChan n c s).mem = s.mem := rfl
@[simp] theorem setChan_fatal (n : Fin 7) (c : DmaChannel) (s : State) : (setChan n c s).fatal = s.fatal := rfl
@[simp] theorem setChan_host (n : Fin 7) (c : DmaChannel) (s : State) : (setChan n c s).host = s.host := rfl
@[simp] theorem setChan_env (n : Fin 7) (c : DmaChannel) (s : State) : (setChan n c s).env = s.env := rfl
@[simp] theorem setChan_outputs (n : Fin 7) (c : DmaChannel) (s : State) : (setChan n c s).outputs = s.outputs := rfl
@[simp] theorem setChan_params (n : Fin 7) (c : DmaChannel) (s : State) : (setChan n c s).params = s.params := rfl

/-! `branchTo` changes branch, nextPc only. -/

@[simp] theorem branchTo_regs (b : Bool) (a : Word) (s : State) : (branchTo b a s).regs = s.regs := rfl
@[simp] theorem branchTo_hi (b : Bool) (a : Word) (s : State) : (branchTo b a s).hi = s.hi := rfl
@[simp] theorem branchTo_lo (b : Bool) (a : Word) (s : State) : (branchTo b a s).lo = s.lo := rfl
@[simp] theorem branchTo_currentPc (b : Bool) (a : Word) (s : State) : (branchTo b a s).currentPc = s.currentPc := rfl
@[simp] theorem branchTo_pc (b : Bool) (a : Word) (s : State) : (branchTo b a s).pc = s.pc := rfl
@[simp] theorem branchTo_delaySlot (b : Bool) (a : Word) (s : State) : (branchTo b a s).delaySlot = s.delaySlot := rfl
@[simp] theorem branchTo_load (b : Bool) (a : Word) (s : State) : (branchTo b a s).load = s.load := rfl
@[simp] theorem branchTo_sr (b : Bool) (a : Word) (s : State) : (branchTo b a s).sr = s.sr := rfl
@[simp] theorem branchTo_cause (b : Bool) (a : Word) (s : State) : (branchTo b a s).cause = s.cause := rfl
@[simp] theorem branchTo_irqIn (b : Bool) (a : Word) (s : State) : (branchTo b a s).irqIn = s.irqIn := rfl
@[simp] theorem branchTo_epc (b : Bool) (a : Word) (s : State) : (branchTo b a s).epc = s.epc := rfl
@[simp] theorem branchTo_badVAddr (b : Bool) (a : Word) (s : State) : (branchTo b a s).badVAddr = s.badVAddr := rfl
@[simp] theorem branchTo_cacheCtl (b : Bool) (a : Word) (s : State) : (branchTo b a s).cacheCtl = s.cacheCtl := rfl
@[simp] theorem branchTo_icache (b : Bool) (a : Word) (s : State) : (branchTo b a s).icache = s.icache := rfl
@[simp] theorem branchTo_busFault (b : Bool) (a : Word) (s : State) : (branchTo b a s).busFault = s.busFault := rfl
@[simp] theorem branchTo_cycles (b : Bool) (a : Word) (s : State) : (branchTo b a s).cycles = s.cycles := rfl
@[simp] theorem branchTo_cost (b : Bool) (a : Word) (s : State) : (branchTo b a s).cost = s.cost := rfl
@[simp] theorem branchTo_clock (b : Bool) (a : Word) (s : State) : (branchTo b a s).clock = s.clock := rfl
@[simp] theorem branchTo_dma (b : Bool) (a : Word) (s : State) : (branchTo b a s).dma = s.dma := rfl
@[simp] theorem branchTo_mem (b : Bool) (a : Word) (s : State) : (branchTo b a s).mem = s.mem := rfl
@[simp] theorem branchTo_fatal (b : Bool) (a : Word) (s : State) : (branchTo b a s).fatal = s.fatal := rfl
@[simp] theorem branchTo_host (b : Bool) (a : Word) (s : State) : (branchTo b a s).host = s.host := rfl
@[simp] theorem branchTo_env (b : Bool) (a : Word) (s : State) : (branchTo b a s).env = s.env := rfl
@[simp] theorem branchTo_outputs (b : Bool) (a : Word) (s : State) : (branchTo b a s).outputs = s.outputs := rfl
@[simp] theorem branchTo_params (b : Bool) (a : Word) (s : State) : (branchTo b a s).params = s.params := rfl

/-! `returnFromException` changes sr only. -/

@[simp] theorem returnFromException_regs (s : State) : (returnFromException s).regs = s.regs := rfl
@[simp] theorem returnFromException_hi (s : State) : (returnFromException s).hi = s.hi := rfl
@[simp] theorem returnFromException_lo (s : State) : (returnFromException s).lo = s.lo := rfl
@[simp] theorem returnFromException_currentPc (s : State) : (returnFromException s).currentPc = s.currentPc := rfl
@[simp] theorem returnFromException_pc (s : State) : (returnFromException s).pc = s.pc := rfl
@[simp] theorem returnFromException_nextPc (s : State) : (returnFromException s).nextPc = s.nextPc := rfl
@[simp] theorem returnFromException_branch (s : State) : (returnFromException s).branch = s.branch := rfl
@[simp] theorem returnFromException_delaySlot (s : State) : (returnFromException s).delaySlot = s.delaySlot := rfl
@[simp] theorem returnFromException_load (s : State) : (returnFromException s).load = s.load := rfl
@[simp] theorem returnFromException_cause (s : State) : (returnFromException s).cause = s.cause := rfl
@[simp] theorem returnFromException_irqIn (s : State) : (returnFromException s).irqIn = s.irqIn := rfl
@[simp] theorem returnFromException_epc (s : State) : (returnFromException s).epc = s.epc := rfl
@[simp] theorem returnFromException_badVAddr (s : State) : (returnFromException s).badVAddr = s.badVAddr := rfl
@[simp] theorem returnFromException_cacheCtl (s : State) : (returnFromException s).cacheCtl = s.cacheCtl := rfl
@[simp] theorem returnFromException_icache (s : State) : (returnFromException s).icache = s.icache := rfl
@[simp] theorem returnFromException_busFault (s : State) : (returnFromException s).busFault = s.busFault := rfl
@[simp] theorem returnFromException_cycles (s : State) : (returnFromException s).cycles = s.cycles := rfl
@[simp] theorem returnFromException_cost (s : State) : (returnFromException s).cost = s.cost := rfl
@[simp] theorem returnFromException_clock (s : State) : (returnFromException s).clock = s.clock := rfl
@[simp] theorem returnFromException_dma (s : State) : (returnFromException s).dma = s.dma := rfl
@[simp] theorem returnFromException_mem (s : State) : (returnFromException s).mem = s.mem := rfl
@[simp] theorem returnFromException_fatal (s : State) : (returnFromException s).fatal = s.fatal := rfl
@[simp] theorem returnFromException_host (s : State) : (returnFromException s).host = s.host := rfl
@[simp] theorem returnFromException_env (s : State) : (returnFromException s).env = s.env := rfl
@[simp] theorem returnFromException_outputs (s : State) : (returnFromException s).outputs = s.outputs := rfl
@[simp] theorem returnFromException_params (s : State) : (returnFromException s).params = s.params := rfl

/-! `advance` changes currentPc, pc, nextPc, delaySlot, branch, cost only. -/

@[simp] theorem advance_regs (s : State) : (advance s).regs = s.regs := rfl
@[simp] theorem advance_hi (s : State) : (advance s).hi = s.hi := rfl
@[simp] theorem advance_lo (s : State) : (advance s).lo = s.lo := rfl
@[simp] theorem advance_load (s : State) : (advance s).load = s.load := rfl
@[simp] theorem advance_sr (s : State) : (advance s).sr = s.sr := rfl
@[simp] theorem advance_cause (s : State) : (advance s).cause = s.cause := rfl
@[simp] theorem advance_irqIn (s : State) : (advance s).irqIn = s.irqIn := rfl
@[simp] theorem advance_epc (s : State) : (advance s).epc = s.epc := rfl
@[simp] theorem advance_badVAddr (s : State) : (advance s).badVAddr = s.badVAddr := rfl
@[simp] theorem advance_cacheCtl (s : State) : (advance s).cacheCtl = s.cacheCtl := rfl
@[simp] theorem advance_icache (s : State) : (advance s).icache = s.icache := rfl
@[simp] theorem advance_busFault (s : State) : (advance s).busFault = s.busFault := rfl
@[simp] theorem advance_cycles (s : State) : (advance s).cycles = s.cycles := rfl
@[simp] theorem advance_clock (s : State) : (advance s).clock = s.clock := rfl
@[simp] theorem advance_dma (s : State) : (advance s).dma = s.dma := rfl
@[simp] theorem advance_mem (s : State) : (advance s).mem = s.mem := rfl
@[simp] theorem advance_fatal (s : State) : (advance s).fatal = s.fatal := rfl
@[simp] theorem advance_host (s : State) : (advance s).host = s.host := rfl
@[simp] theorem advance_env (s : State) : (advance s).env = s.env := rfl
@[simp] theorem advance_outputs (s : State) : (advance s).outputs = s.outputs := rfl
@[simp] theorem advance_params (s : State) : (advance s).params = s.params := rfl

/-- What the requests made during an access of a port change: the clock's entries, and the queue they stand in. -/
theorem portRequests_eq (s : State) : portRequests s = { s with
    clock := (s.env.requests.headD []).foldl applyRequest s.clock
    env := { s.env with requests := s.env.requests.tail } } := by
  unfold portRequests drawRequests
  cases hr : s.env.requests with
  | nil =>
    have he : ∀ e : Env, e.requests = [] → { e with requests := [].tail } = e := by rintro ⟨⟩ h; cases h; rfl
    rw [he s.env hr]
    rfl
  | cons r rest => rfl

/-! `portRequests` changes clock, env only. -/

@[simp] theorem portRequests_regs (s : State) : (portRequests s).regs = s.regs := by rw [portRequests_eq]
@[simp] theorem portRequests_hi (s : State) : (portRequests s).hi = s.hi := by rw [portRequests_eq]
@[simp] theorem portRequests_lo (s : State) : (portRequests s).lo = s.lo := by rw [portRequests_eq]
@[simp] theorem portRequests_currentPc (s : State) : (portRequests s).currentPc = s.currentPc := by rw [portRequests_eq]
@[simp] theorem portRequests_pc (s : State) : (portRequests s).pc = s.pc := by rw [portRequests_eq]
@[simp] theorem portRequests_nextPc (s : State) : (portRequests s).nextPc = s.nextPc := by rw [portRequests_eq]
@[simp] theorem portRequests_branch (s : State) : (portRequests s).branch = s.branch := by rw [portRequests_eq]
@[simp] theorem portRequests_delaySlot (s : State) : (portRequests s).delaySlot = s.delaySlot := by rw [portRequests_eq]
@[simp] theorem portRequests_load (s : State) : (portRequests s).load = s.load := by rw [portRequests_eq]
@[simp] theorem portRequests_sr (s : State) : (portRequests s).sr = s.sr := by rw [portRequests_eq]
@[simp] theorem portRequests_cause (s : State) : (portRequests s).cause = s.cause := by rw [portRequests_eq]
@[simp] theorem portRequests_irqIn (s : State) : (portRequests s).irqIn = s.irqIn := by rw [portRequests_eq]
@[simp] theorem portRequests_epc (s : State) : (portRequests s).epc = s.epc := by rw [portRequests_eq]
@[simp] theorem portRequests_badVAddr (s : State) : (portRequests s).badVAddr = s.badVAddr := by rw [portRequests_eq]
@[simp] theorem portRequests_cacheCtl (s : State) : (portRequests s).cacheCtl = s.cacheCtl := by rw [portRequests_eq]
@[simp] theorem portRequests_icache (s : State) : (portRequests s).icache = s.icache := by rw [portRequests_eq]
@[simp] theorem portRequests_busFault (s : State) : (portRequests s).busFault = s.busFault := by rw [portRequests_eq]
@[simp] theorem portRequests_cycles (s : State) : (portRequests s).cycles = s.cycles := by rw [portRequests_eq]
@[simp] theorem portRequests_cost (s : State) : (portRequests s).cost = s.cost := by rw [portRequests_eq]
@[simp] theorem portRequests_dma (s : State) : (portRequests s).dma = s.dma := by rw [portRequests_eq]
@[simp] theorem portRequests_mem (s : State) : (portRequests s).mem = s.mem := by rw [portRequests_eq]
@[simp] theorem portRequests_fatal (s : State) : (portRequests s).fatal = s.fatal := by rw [portRequests_eq]
@[simp] theorem portRequests_host (s : State) : (portRequests s).host = s.host := by rw [portRequests_eq]
@[simp] theorem portRequests_outputs (s : State) : (portRequests s).outputs = s.outputs := by rw [portRequests_eq]
@[simp] theorem portRequests_params (s : State) : (portRequests s).params = s.params := by rw [portRequests_eq]

/-! `driveLines` changes irqIn, host only. -/

@[simp] theorem driveLines_regs (s : State) : (driveLines s).regs = s.regs := by unfold driveLines; split <;> rfl
@[simp] theorem driveLines_hi (s : State) : (driveLines s).hi = s.hi := by unfold driveLines; split <;> rfl
@[simp] theorem driveLines_lo (s : State) : (driveLines s).lo = s.lo := by unfold driveLines; split <;> rfl
@[simp] theorem driveLines_currentPc (s : State) : (driveLines s).currentPc = s.currentPc := by unfold driveLines; split <;> rfl
@[simp] theorem driveLines_pc (s : State) : (driveLines s).pc = s.pc := by unfold driveLines; split <;> rfl
@[simp] theorem driveLines_nextPc (s : State) : (driveLines s).nextPc = s.nextPc := by unfold driveLines; split <;> rfl
@[simp] theorem driveLines_branch (s : State) : (driveLines s).branch = s.branch := by unfold driveLines; split <;> rfl
@[simp] theorem driveLines_delaySlot (s : State) : (driveLines s).delaySlot = s.delaySlot := by unfold driveLines; split <;> rfl
@[simp] theorem driveLines_load (s : State) : (driveLines s).load = s.load := by unfold driveLines; split <;> rfl
@[simp] theorem driveLines_sr (s : State) : (driveLines s).sr = s.sr := by unfold driveLines; split <;> rfl
@[simp] theorem driveLines_cause (s : State) : (driveLines s).cause = s.cause := by unfold driveLines; split <;> rfl
@[simp] theorem driveLines_epc (s : State) : (driveLines s).epc = s.epc := by unfold driveLines; split <;> rfl
@[simp] theorem driveLines_badVAddr (s : State) : (driveLines s).badVAddr = s.badVAddr := by unfold driveLines; split <;> rfl
@[simp] theorem driveLines_cacheCtl (s : State) : (driveLines s).cacheCtl = s.cacheCtl := by unfold driveLines; split <;> rfl
@[simp] theorem driveLines_icache (s : State) : (driveLines s).icache = s.icache := by unfold driveLines; split <;> rfl
@[simp] theorem driveLines_busFault (s : State) : (driveLines s).busFault = s.busFault := by unfold driveLines; split <;> rfl
@[simp] theorem driveLines_cycles (s : State) : (driveLines s).cycles = s.cycles := by unfold driveLines; split <;> rfl
@[simp] theorem driveLines_cost (s : State) : (driveLines s).cost = s.cost := by unfold driveLines; split <;> rfl
@[simp] theorem driveLines_clock (s : State) : (driveLines s).clock = s.clock := by unfold driveLines; split <;> rfl
@[simp] theorem driveLines_dma (s : State) : (driveLines s).dma = s.dma := by unfold driveLines; split <;> rfl
@[simp] theorem driveLines_mem (s : State) : (driveLines s).mem = s.mem := by unfold driveLines; split <;> rfl
@[simp] theorem driveLines_fatal (s : State) : (driveLines s).fatal = s.fatal := by unfold driveLines; split <;> rfl
@[simp] theorem driveLines_env (s : State) : (driveLines s).env = s.env := by unfold driveLines; split <;> rfl
@[simp] theorem driveLines_outputs (s : State) : (driveLines s).outputs = s.outputs := by unfold driveLines; split <;> rfl
@[simp] theorem driveLines_params (s : State) : (driveLines s).params = s.params := by unfold driveLines; split <;> rfl

/-! `setMoves` changes host only. -/

@[simp] theorem setMoves_regs (r : Option HostRun) (m : List HostMove) (s : State) : (setMoves r m s).regs = s.regs := rfl
@[simp] theorem setMoves_hi (r : Option HostRun) (m : List HostMove) (s : State) : (setMoves r m s).hi = s.hi := rfl
@[simp] theorem setMoves_lo (r : Option HostRun) (m : List HostMove) (s : State) : (setMoves r m s).lo = s.lo := rfl
@[simp] theorem setMoves_currentPc (r : Option HostRun) (m : List HostMove) (s : State) : (setMoves r m s).currentPc = s.currentPc := rfl
@[simp] theorem setMoves_pc (r : Option HostRun) (m : List HostMove) (s : State) : (setMoves r m s).pc = s.pc := rfl
@[simp] theorem setMoves_nextPc (r : Option HostRun) (m : List HostMove) (s : State) : (setMoves r m s).nextPc = s.nextPc := rfl
@[simp] theorem setMoves_branch (r : Option HostRun) (m : List HostMove) (s : State) : (setMoves r m s).branch = s.branch := rfl
@[simp] theorem setMoves_delaySlot (r : Option HostRun) (m : List HostMove) (s : State) : (setMoves r m s).delaySlot = s.delaySlot := rfl
@[simp] theorem setMoves_load (r : Option HostRun) (m : List HostMove) (s : State) : (setMoves r m s).load = s.load := rfl
@[simp] theorem setMoves_sr (r : Option HostRun) (m : List HostMove) (s : State) : (setMoves r m s).sr = s.sr := rfl
@[simp] theorem setMoves_cause (r : Option HostRun) (m : List HostMove) (s : State) : (setMoves r m s).cause = s.cause := rfl
@[simp] theorem setMoves_irqIn (r : Option HostRun) (m : List HostMove) (s : State) : (setMoves r m s).irqIn = s.irqIn := rfl
@[simp] theorem setMoves_epc (r : Option HostRun) (m : List HostMove) (s : State) : (setMoves r m s).epc = s.epc := rfl
@[simp] theorem setMoves_badVAddr (r : Option HostRun) (m : List HostMove) (s : State) : (setMoves r m s).badVAddr = s.badVAddr := rfl
@[simp] theorem setMoves_cacheCtl (r : Option HostRun) (m : List HostMove) (s : State) : (setMoves r m s).cacheCtl = s.cacheCtl := rfl
@[simp] theorem setMoves_icache (r : Option HostRun) (m : List HostMove) (s : State) : (setMoves r m s).icache = s.icache := rfl
@[simp] theorem setMoves_busFault (r : Option HostRun) (m : List HostMove) (s : State) : (setMoves r m s).busFault = s.busFault := rfl
@[simp] theorem setMoves_cycles (r : Option HostRun) (m : List HostMove) (s : State) : (setMoves r m s).cycles = s.cycles := rfl
@[simp] theorem setMoves_cost (r : Option HostRun) (m : List HostMove) (s : State) : (setMoves r m s).cost = s.cost := rfl
@[simp] theorem setMoves_clock (r : Option HostRun) (m : List HostMove) (s : State) : (setMoves r m s).clock = s.clock := rfl
@[simp] theorem setMoves_dma (r : Option HostRun) (m : List HostMove) (s : State) : (setMoves r m s).dma = s.dma := rfl
@[simp] theorem setMoves_mem (r : Option HostRun) (m : List HostMove) (s : State) : (setMoves r m s).mem = s.mem := rfl
@[simp] theorem setMoves_fatal (r : Option HostRun) (m : List HostMove) (s : State) : (setMoves r m s).fatal = s.fatal := rfl
@[simp] theorem setMoves_env (r : Option HostRun) (m : List HostMove) (s : State) : (setMoves r m s).env = s.env := rfl
@[simp] theorem setMoves_outputs (r : Option HostRun) (m : List HostMove) (s : State) : (setMoves r m s).outputs = s.outputs := rfl
@[simp] theorem setMoves_params (r : Option HostRun) (m : List HostMove) (s : State) : (setMoves r m s).params = s.params := rfl

/-- Driving the lines moves no `Run` and no move. -/
@[simp] theorem driveLines_running (s : State) : (driveLines s).host.running = s.host.running := by
  unfold driveLines; split <;> rfl
@[simp] theorem driveLines_moves (s : State) : (driveLines s).host.moves = s.host.moves := by
  unfold driveLines; split <;> rfl

@[simp] theorem retireNone_load (s : State) : (retireNone s).load = ⟨0, 0⟩ := rfl
@[simp] theorem retireWrite_load (i : Reg) (v : Word) (s : State) : (retireWrite i v s).load = ⟨0, 0⟩ := rfl
@[simp] theorem retireLoad_load (i : Reg) (v : Word) (s : State) : (retireLoad i v s).load = ⟨i, v⟩ := by
  unfold retireLoad; split <;> rfl

end Sys2Proof.Machine
end

