-- ==== Sys2Proof/Laws/Clock.lean ====
section
/-! SUPPORT. What the clock can change (61_clock_scheduler), said once: `ClockMoves`, and what holds when a tick ends. -/

namespace Sys2Proof.Machine

open Sys2Proof.Safety

/-- What a tick of the clock can change: time goes on, entries keep their cycle lengths, outputs are added, a callback may
drive the interrupt lines; nothing else. -/
structure ClockMoves (s t : State) : Prop where
  frame : t = { s with clock := t.clock, env := t.env, outputs := t.outputs, irqIn := t.irqIn }
  nanos : t.clock.entries.map ClockEntry.nanosPerCycle = s.clock.entries.map ClockEntry.nanosPerCycle
  time : s.clock.systemTime ≤ t.clock.systemTime
  made : ∃ made, t.outputs = made ++ s.outputs

theorem ClockMoves.refl (s : State) : ClockMoves s s := ⟨rfl, rfl, le_refl _, [], rfl⟩

theorem ClockMoves.trans {s t u : State} (h : ClockMoves s t) (h' : ClockMoves t u) : ClockMoves s u := by
  obtain ⟨hf, hn, ht, a, ha⟩ := h
  obtain ⟨hf', hn', ht', b, hb⟩ := h'
  exact ⟨by rw [hf', hf], hn'.trans hn, ht.trans ht', b ++ a, by rw [hb, ha, List.append_assoc]⟩

/-! The steps a tick is made of. -/

theorem emit_clockMoves (o : Output) (s : State) : ClockMoves s (emit o s) := ⟨rfl, rfl, le_refl _, [o], rfl⟩

theorem env_clockMoves (e : Env) (s : State) : ClockMoves s { s with env := e } := ⟨rfl, rfl, le_refl _, [], rfl⟩

theorem drawWord_clockMoves (s : State) : ClockMoves s (drawWord s).2 := by
  unfold drawWord; split <;> exact env_clockMoves _ s

theorem drawWait_clockMoves (s : State) : ClockMoves s (drawWait s).2 := by
  unfold drawWait; split <;> exact env_clockMoves _ s

theorem drawTie_clockMoves (s : State) : ClockMoves s (drawTie s).2 := by
  unfold drawTie; split <;> exact env_clockMoves _ s

theorem drawCallback_clockMoves (s : State) : ClockMoves s (drawCallback s).2 := by
  unfold drawCallback; split <;> exact env_clockMoves _ s

theorem chooseDue_clockMoves (i : Nat) (others : List Nat) (s : State) : ClockMoves s (chooseDue i others s).2 := by
  unfold chooseDue; split
  · exact ClockMoves.refl s
  · exact drawTie_clockMoves s

/-- An update of one entry that keeps its cycle length keeps every entry's. -/
theorem modify_nanos (f : ClockEntry → ClockEntry) (hf : ∀ e, (f e).nanosPerCycle = e.nanosPerCycle) :
    ∀ (es : List ClockEntry) (i : Nat), (es.modify i f).map ClockEntry.nanosPerCycle = es.map ClockEntry.nanosPerCycle
  | [], i => by simp
  | e :: rest, 0 => by simp [List.modify_cons, hf]
  | e :: rest, i + 1 => by simpa [List.modify_cons] using modify_nanos f hf rest i

theorem modify_clockMoves (i : Nat) (f : ClockEntry → ClockEntry) (hf : ∀ e, (f e).nanosPerCycle = e.nanosPerCycle)
    (s : State) : ClockMoves s { s with clock := { s.clock with entries := s.clock.entries.modify i f } } :=
  ⟨rfl, modify_nanos f hf _ i, le_refl _, [], rfl⟩

/-- A request keeps the time and every entry's cycle length. -/
theorem applyRequest_keeps (r : ClockRequest) (c : Clock) : (applyRequest c r).systemTime = c.systemTime ∧
    (applyRequest c r).entries.map ClockEntry.nanosPerCycle = c.entries.map ClockEntry.nanosPerCycle := by
  cases r with
  | setDefaultUpdateFrequency i cycles => exact ⟨rfl, modify_nanos (setFrequencyOn c.systemTime cycles) (fun _ => rfl) _ i⟩
  | requestUpdate i cycles => exact ⟨rfl, modify_nanos (requestUpdateOn c.systemTime cycles) (fun _ => rfl) _ i⟩

theorem requests_keep (rs : List ClockRequest) : ∀ c : Clock, (rs.foldl applyRequest c).systemTime = c.systemTime ∧
    (rs.foldl applyRequest c).entries.map ClockEntry.nanosPerCycle = c.entries.map ClockEntry.nanosPerCycle := by
  induction rs with
  | nil => exact fun c => ⟨rfl, rfl⟩
  | cons r rest ih =>
    exact fun c => ⟨(ih _).1.trans (applyRequest_keeps r c).1, (ih _).2.trans (applyRequest_keeps r c).2⟩

theorem requests_clockMoves (rs : List ClockRequest) (s : State) :
    ClockMoves s { s with clock := rs.foldl applyRequest s.clock } :=
  ⟨rfl, (requests_keep rs _).2, ge_of_eq (requests_keep rs _).1, [], rfl⟩

theorem applyAction_clockMoves (a : CallbackAction) (s : State) : ClockMoves s (applyAction s a) := by
  cases a with
  | request r => exact requests_clockMoves [r] s
  | driveIrq lines => exact ⟨rfl, rfl, le_refl _, [], rfl⟩

theorem actions_clockMoves (as : List CallbackAction) : ∀ s : State, ClockMoves s (as.foldl applyAction s) := by
  induction as with
  | nil => exact ClockMoves.refl
  | cons a rest ih => exact fun s => (applyAction_clockMoves a s).trans (ih _)

theorem drawRequests_clockMoves (s : State) : ClockMoves s (drawRequests s).2 := by
  unfold drawRequests; split <;> exact env_clockMoves _ s

theorem portRequests_clockMoves (s : State) : ClockMoves s (portRequests s) :=
  (drawRequests_clockMoves s).trans (requests_clockMoves _ _)

theorem fire_clockMoves (i : Nat) (s : State) : ClockMoves s (fire i s) := by
  unfold fire
  refine (modify_clockMoves i (rescheduled s.clock.systemTime) (fun _ => rfl) s).trans ?_
  refine (emit_clockMoves (.clockUpdate i s.clock.systemTime (elapsedOf i s.clock)) _).trans ?_
  exact (drawCallback_clockMoves _).trans (actions_clockMoves _ _)

/-- Firing keeps the time. -/
theorem fire_systemTime (i : Nat) (s : State) : (fire i s).clock.systemTime = s.clock.systemTime := by
  have hr : ∀ (as : List CallbackAction) (u : State),
      (as.foldl applyAction u).clock.systemTime = u.clock.systemTime := by
    intro as
    induction as with
    | nil => intro u; rfl
    | cons a rest ih =>
      intro u
      rw [List.foldl_cons, ih]
      cases a with
      | request r => exact (applyRequest_keeps r u.clock).1
      | driveIrq lines => rfl
  have hd : ∀ u : State, (drawCallback u).2.clock = u.clock := by
    intro u; unfold drawCallback; split <;> rfl
  unfold fire
  simp only [hr, hd]
  rfl

theorem chooseDue_clock (i : Nat) (others : List Nat) (s : State) : (chooseDue i others s).2.clock = s.clock := by
  unfold chooseDue drawTie; split
  · rfl
  · dsimp only; split <;> rfl

/-! A tick. -/

theorem earliest_le {t : Nat} : ∀ {es : List ClockEntry} {e : ClockEntry}, e ∈ es → e.nextUpdate = some t →
    ∃ m, earliest es = some m ∧ m ≤ t
  | x :: rest, e, hm, he => by
    unfold earliest
    rcases List.mem_cons.mp hm with rfl | hm
    · cases hr : earliest rest with
      | none => exact ⟨t, he, le_refl _⟩
      | some m => simp only [he, earlier]; split <;> exact ⟨_, rfl, by omega⟩
    · obtain ⟨m, hm', hle⟩ := earliest_le hm he
      rw [hm']
      simp only [earlier]
      split
      · exact ⟨_, rfl, hle⟩
      · split <;> exact ⟨_, rfl, by omega⟩

theorem earliest_mem : ∀ {es : List ClockEntry} {m : Nat}, earliest es = some m → ∃ e ∈ es, e.nextUpdate = some m
  | x :: rest, m, h => by
    unfold earliest at h
    cases hr : earliest rest with
    | none => rw [hr] at h; exact ⟨x, List.mem_cons_self, h⟩
    | some t =>
      rw [hr] at h
      obtain ⟨e, he, ht⟩ := earliest_mem hr
      simp only [earlier] at h
      split at h
      · cases h; exact ⟨e, List.mem_cons_of_mem _ he, ht⟩
      · rename_i d hd
        split at h
        · cases h; exact ⟨e, List.mem_cons_of_mem _ he, ht⟩
        · cases h; exact ⟨x, List.mem_cons_self, hd⟩

theorem handlesAt_ne_nil {t : Nat} : ∀ {es : List ClockEntry} (i : Nat) {e : ClockEntry}, e ∈ es →
    e.nextUpdate = some t → handlesAt t i es ≠ []
  | x :: rest, i, e, hm, he => by
    unfold handlesAt
    split
    · simp
    · rename_i hx
      rcases List.mem_cons.mp hm with rfl | hm
      · exact absurd he hx
      · exact handlesAt_ne_nil (i + 1) hm he

/-- No handle may fire exactly when every entry is in the future. -/
theorem dueHandles_eq_nil (c : Clock) : dueHandles c = [] ↔ NothingDue c := by
  unfold dueHandles
  constructor
  · intro h e he t ht
    obtain ⟨m, hm, hle⟩ := earliest_le he ht
    rw [hm] at h
    dsimp only at h
    split at h
    · obtain ⟨e', he', ht'⟩ := earliest_mem hm
      exact absurd h (handlesAt_ne_nil 0 he' ht')
    · omega
  · intro h
    cases hm : earliest c.entries with
    | none => rfl
    | some m =>
      obtain ⟨e, he, ht⟩ := earliest_mem hm
      have := h e he m ht
      dsimp only
      rw [if_neg (by omega)]

/-- Everything the firing loop can do when it ends. -/
theorem fireDue_next : ∀ (n : Nat) {s t : State}, fireDue n s = .next t →
    ClockMoves s t ∧ NothingDue t.clock ∧ t.clock.systemTime = s.clock.systemTime
  | 0, s, t, h => by
    unfold fireDue at h
    split at h
    · rename_i hd
      cases h
      exact ⟨ClockMoves.refl _, (dueHandles_eq_nil _).mp hd, rfl⟩
    · cases h
  | n + 1, s, t, h => by
    unfold fireDue at h
    split at h
    · rename_i hd
      cases h
      exact ⟨ClockMoves.refl _, (dueHandles_eq_nil _).mp hd, rfl⟩
    · rename_i i others hd
      obtain ⟨hm, hn, ht⟩ := fireDue_next n h
      refine ⟨((chooseDue_clockMoves i others s).trans (fire_clockMoves _ _)).trans hm, hn, ?_⟩
      exact ht.trans ((fire_systemTime _ _).trans (congrArg Clock.systemTime (chooseDue_clock i others s)))

/-- Everything a tick can do when it ends. -/
theorem clockTick_next {n : Nat} {s t : State} (h : clockTick n s = .next t) :
    ClockMoves s t ∧ NothingDue t.clock ∧
      t.clock.systemTime = s.clock.systemTime + n * s.params.masterNanosPerCycle := by
  unfold clockTick at h
  obtain ⟨hm, hn, ht⟩ := fireDue_next _ h
  have h0 : ClockMoves s { s with clock :=
      { s.clock with systemTime := s.clock.systemTime + n * s.params.masterNanosPerCycle } } :=
    ⟨rfl, rfl, Nat.le_add_right _ _, [], rfl⟩
  exact ⟨h0.trans hm, hn, ht⟩

end Sys2Proof.Machine
end

