-- ==== Sys2Proof/Laws/Memory.lean ====
section
/-! SUPPORT. The laws of memory: what a read gives after a write, and that every write keeps the canonical form. -/

namespace Sys2Proof.Machine

open Sys2Proof.Safety

/-- A lower bound may be lowered. -/
theorem Memory.wfFrom_mono {lo lo' : Nat} {m : List Host.Cell} (h : Memory.wfFrom lo m = true) (hle : lo' ≤ lo) :
    Memory.wfFrom lo' m = true := by
  cases m with
  | nil => rfl
  | cons c rest =>
    obtain ⟨a, b⟩ := c
    simp only [Memory.wfFrom, Bool.and_eq_true, decide_eq_true_eq] at h ⊢
    exact ⟨⟨by omega, h.1.2⟩, h.2⟩

/-- Below every listed address a canonical memory reads as unlisted. -/
theorem Memory.read_below {lo : Nat} {m : List Host.Cell} (h : Memory.wfFrom lo m = true) {a : Nat} (ha : a < lo) :
    Memory.read m a = Memory.unlisted a := by
  cases m with
  | nil => rfl
  | cons c rest =>
    obtain ⟨k, v⟩ := c
    simp only [Memory.wfFrom, Bool.and_eq_true, decide_eq_true_eq] at h
    simp [Memory.read, show a < k by omega]

theorem Memory.write_wfFrom {lo : Nat} {m : List Host.Cell} (h : Memory.wfFrom lo m = true) (a : Nat) (b : Byte)
    (ha : lo ≤ a) : Memory.wfFrom lo (Memory.write m a b) = true := by
  induction m generalizing lo with
  | nil =>
    simp only [Memory.write]
    split
    · rfl
    · simp [Memory.wfFrom, *]
  | cons c rest ih =>
    obtain ⟨k, v⟩ := c
    have hc := h
    simp only [Memory.wfFrom, Bool.and_eq_true, decide_eq_true_eq] at hc
    obtain ⟨⟨hk, hv⟩, hr⟩ := hc
    simp only [Memory.write]
    split
    · split
      · exact h
      · simp only [Memory.wfFrom, Bool.and_eq_true, decide_eq_true_eq]
        exact ⟨⟨ha, by simpa using ‹_›⟩, ⟨by omega, hv⟩, hr⟩
    · split
      · split
        · exact Memory.wfFrom_mono hr (by omega)
        · subst_vars
          simp only [Memory.wfFrom, Bool.and_eq_true, decide_eq_true_eq]
          exact ⟨⟨ha, by simpa using ‹_›⟩, hr⟩
      · simp only [Memory.wfFrom, Bool.and_eq_true, decide_eq_true_eq]
        exact ⟨⟨hk, hv⟩, ih hr (by omega)⟩

/-- A write keeps the canonical form. -/
theorem Memory.write_wf {m : List Host.Cell} (h : Memory.wf m = true) (a : Nat) (b : Byte) :
    Memory.wf (Memory.write m a b) = true := Memory.write_wfFrom h a b (Nat.zero_le a)

theorem Memory.read_write_from {lo : Nat} {m : List Host.Cell} (h : Memory.wfFrom lo m = true) (a x : Nat) (b : Byte) :
    Memory.read (Memory.write m a b) x = if x = a then b else Memory.read m x := by
  induction m generalizing lo with
  | nil =>
    simp only [Memory.write]
    split
    · split <;> simp_all [Memory.read]
    · simp only [Memory.read]
      split
      · rw [if_neg (by omega)]
      · rfl
  | cons c rest ih =>
    obtain ⟨k, v⟩ := c
    simp only [Memory.wfFrom, Bool.and_eq_true, decide_eq_true_eq] at h
    obtain ⟨⟨hk, hv⟩, hr⟩ := h
    simp only [Memory.write]
    split
    · split
      · split <;> simp_all [Memory.read]
      · simp only [Memory.read]
        split
        · rw [if_neg (by omega), if_pos (by omega)]
        · rfl
    · split
      · subst_vars
        split
        · split
          · subst_vars; exact Memory.read_below hr (by omega)
          · simp only [Memory.read]
            split
            · exact Memory.read_below hr (by omega)
            · simp_all
        · simp only [Memory.read]
          split <;> split <;> simp_all
      · simp only [Memory.read]
        split
        · rw [if_neg (by omega)]
        · split
          · rw [if_neg (by omega)]
          · exact ih hr

/-- A read after a write: the byte written there, the old byte elsewhere. -/
theorem Memory.read_write {m : List Host.Cell} (h : Memory.wf m = true) (a x : Nat) (b : Byte) :
    Memory.read (Memory.write m a b) x = if x = a then b else Memory.read m x := Memory.read_write_from h a x b

theorem Memory.writeHalf_wf {m : List Host.Cell} (h : Memory.wf m = true) (a : Nat) (v : Half) :
    Memory.wf (Memory.writeHalf m a v) = true := Memory.write_wf (Memory.write_wf h _ _) _ _

theorem Memory.writeWord_wf {m : List Host.Cell} (h : Memory.wf m = true) (a : Nat) (v : Word) :
    Memory.wf (Memory.writeWord m a v) = true :=
  Memory.write_wf (Memory.write_wf (Memory.write_wf (Memory.write_wf h _ _) _ _) _ _) _ _

/-- The bytes after a halfword is written. -/
theorem Memory.read_writeHalf {m : List Host.Cell} (h : Memory.wf m = true) (a x : Nat) (v : Half) :
    Memory.read (Memory.writeHalf m a v) x =
      if a ≤ x ∧ x < a + 2 then v.extractLsb' (8 * (x - a)) 8 else Memory.read m x := by
  simp only [Memory.writeHalf, Memory.read_write (Memory.write_wf h _ _), Memory.read_write h]
  by_cases h1 : x = a + 1
  · subst h1; simp
  by_cases h0 : x = a
  · subst h0; simp
  rw [if_neg h1, if_neg h0, if_neg (by omega)]

/-- The bytes after a word is written. -/
theorem Memory.read_writeWord {m : List Host.Cell} (h : Memory.wf m = true) (a x : Nat) (v : Word) :
    Memory.read (Memory.writeWord m a v) x =
      if a ≤ x ∧ x < a + 4 then v.extractLsb' (8 * (x - a)) 8 else Memory.read m x := by
  have h1 := Memory.write_wf h a (v.extractLsb' 0 8)
  have h2 := Memory.write_wf h1 (a + 1) (v.extractLsb' 8 8)
  have h3 := Memory.write_wf h2 (a + 2) (v.extractLsb' 16 8)
  simp only [Memory.writeWord, Memory.read_write h3, Memory.read_write h2, Memory.read_write h1, Memory.read_write h]
  by_cases e3 : x = a + 3
  · subst e3; simp
  by_cases e2 : x = a + 2
  · subst e2; simp
  by_cases e1 : x = a + 1
  · subst e1; simp
  by_cases e0 : x = a
  · subst e0; simp
  rw [if_neg e3, if_neg e2, if_neg e1, if_neg e0, if_neg (by omega)]

/-- A word reads back as it was written. -/
theorem Memory.readWord_writeWord {m : List Host.Cell} (h : Memory.wf m = true) (a : Nat) (v : Word) :
    Memory.readWord (Memory.writeWord m a v) a = v := by
  simp only [Memory.readWord, Memory.read_writeWord h]
  simp only [show a ≤ a + 3 ∧ a + 3 < a + 4 by omega, show a ≤ a + 2 ∧ a + 2 < a + 4 by omega,
    show a ≤ a + 1 ∧ a + 1 < a + 4 by omega, show a ≤ a ∧ a < a + 4 by omega, and_self, if_true,
    Nat.add_sub_cancel_left, Nat.sub_self]
  ext i hi
  simp only [BitVec.getElem_append, BitVec.getElem_extractLsb']
  split
  · simp [BitVec.getLsbD_eq_getElem, hi]
  split
  · rename_i h1 h2; simp [show 8 + (i - 8) = i by omega, BitVec.getLsbD_eq_getElem, hi]
  split
  · rename_i h1 h2 h3
    simp [show 16 + (i - 8 - 8) = i by omega, BitVec.getLsbD_eq_getElem, hi]
  · rename_i h1 h2 h3
    simp [show 24 + (i - 8 - 8 - 8) = i by omega, BitVec.getLsbD_eq_getElem, hi]

/-- A word elsewhere is left alone by a write of a word that does not overlap it. -/
theorem Memory.readWord_writeWord_other {m : List Host.Cell} (h : Memory.wf m = true) {a b : Nat} (v : Word)
    (hd : a + 4 ≤ b ∨ b + 4 ≤ a) : Memory.readWord (Memory.writeWord m a v) b = Memory.readWord m b := by
  simp only [Memory.readWord, Memory.read_writeWord h]
  rw [if_neg (by omega), if_neg (by omega), if_neg (by omega), if_neg (by omega)]

/-- Every write of a byte array keeps the canonical form. -/
theorem arrayWrite_wf {m : List Host.Cell} (h : Memory.wf m = true) (w : Width) (k : Nat) (v : Word) :
    Memory.wf (arrayWrite w k v m) = true := by
  cases w
  · exact Memory.write_wf h _ _
  · exact Memory.writeHalf_wf h _ _
  · exact Memory.writeWord_wf h _ _

/-- A byte store changes its byte only. -/
theorem arrayWrite_byte_stored {m : List Host.Cell} (h : Memory.wf m = true) (k : Nat) (v : Word) :
    BytesStored m (arrayWrite .byte k v m) k 1 v := by
  intro x
  simp only [arrayWrite, Memory.read_write h, lowByte]
  by_cases hx : x = k
  · subst hx; simp
  · rw [if_neg hx, if_neg (by omega)]

/-- A halfword store changes its two bytes only. -/
theorem arrayWrite_half_stored {m : List Host.Cell} (h : Memory.wf m = true) (k : Nat) (v : Word) :
    BytesStored m (arrayWrite .half k v m) k 2 v := by
  intro x
  simp only [arrayWrite, Memory.read_writeHalf h, lowHalf]
  split
  · ext i hi
    have : 8 * (x - k) + i < 16 := by omega
    simp [this]
  · rfl

/-- A word store changes its four bytes only. -/
theorem arrayWrite_word_stored {m : List Host.Cell} (h : Memory.wf m = true) (k : Nat) (v : Word) :
    BytesStored m (arrayWrite .word k v m) k 4 v := fun x => Memory.read_writeWord h k x v

theorem wordAt_eq_readWord (m : List Host.Cell) (k : Nat) : wordAt m k = Memory.readWord m k := rfl

end Sys2Proof.Machine
end

