-- ==== Sys2Proof/Laws/Dma.lean ====
section
/-! SUPPORT. What the DMA controller can change (62_dma), said once: `DmaMoves` for its effect on the rest of the machine,
`DmaCore` for its registers and pointers, and what holds of the engine when a transfer stops. -/

namespace Sys2Proof.Machine

open Sys2Proof.Safety

/-- The part of the DMA engine's invariant that holds inside a transfer too. -/
def DmaCore (s : State) : Prop :=
  (∀ n, ChannelOk s.params n (s.chan n)) ∧
    s.dma.ramAddress &&& 0x001FFFFC = s.dma.ramAddress ∧ s.dma.otcAddr &&& 0x001FFFFC = s.dma.otcAddr ∧
    s.dma.blockSize.toNat ≤ 0x10000

/-- What the DMA controller can change: what the clock can, its own registers, and bytes of RAM. -/
structure DmaMoves (s t : State) : Prop where
  frame : t = { s with
    clock := t.clock, env := t.env, outputs := t.outputs, irqIn := t.irqIn, dma := t.dma, mem := t.mem }
  nanos : t.clock.entries.map ClockEntry.nanosPerCycle = s.clock.entries.map ClockEntry.nanosPerCycle
  time : s.clock.systemTime ≤ t.clock.systemTime
  made : ∃ made, t.outputs = made ++ s.outputs
  memory : MemoryOk s → MemoryOk t ∧ ∀ x, 0x200000 ≤ x → Memory.read t.mem x = Memory.read s.mem x
  core : DmaCore s → DmaCore t

theorem DmaMoves.refl (s : State) : DmaMoves s s :=
  ⟨rfl, rfl, le_refl _, ⟨[], rfl⟩, fun h => ⟨h, fun _ _ => rfl⟩, id⟩

theorem DmaMoves.trans {s t u : State} (h : DmaMoves s t) (h' : DmaMoves t u) : DmaMoves s u := by
  obtain ⟨hf, hn, ht, ⟨a, ha⟩, hm, hc⟩ := h
  obtain ⟨hf', hn', ht', ⟨b, hb⟩, hm', hc'⟩ := h'
  refine ⟨by rw [hf', hf], hn'.trans hn, ht.trans ht', ⟨b ++ a, by rw [hb, ha, List.append_assoc]⟩, fun h => ?_,
    fun h => hc' (hc h)⟩
  obtain ⟨h1, h2⟩ := hm h
  obtain ⟨h3, h4⟩ := hm' h1
  exact ⟨h3, fun x hx => (h4 x hx).trans (h2 x hx)⟩

theorem ClockMoves.dma {s t : State} (h : ClockMoves s t) : t.dma = s.dma := by rw [h.frame]
theorem ClockMoves.mem {s t : State} (h : ClockMoves s t) : t.mem = s.mem := by rw [h.frame]
theorem ClockMoves.params {s t : State} (h : ClockMoves s t) : t.params = s.params := by rw [h.frame]
theorem DmaMoves.params {s t : State} (h : DmaMoves s t) : t.params = s.params := by rw [h.frame]

/-- The clock's changes are among the DMA controller's. -/
theorem ClockMoves.dmaMoves {s t : State} (h : ClockMoves s t) : DmaMoves s t := by
  refine ⟨?_, h.nanos, h.time, h.made, fun hs => ⟨?_, fun x _ => by rw [h.mem]⟩, fun hc => ?_⟩
  · rw [h.frame]
  · unfold MemoryOk; rw [h.mem]; exact hs
  · unfold DmaCore State.chan; rw [h.dma, h.params]; exact hc

theorem ClockMoves.dmaOk {s t : State} (h : ClockMoves s t) (hs : DmaOk s) : DmaOk t := by
  unfold DmaOk State.chan at *
  rw [h.dma, h.params]; exact hs

/-- A change of the DMA engine alone. -/
theorem dma_dmaMoves (s : State) (d : Dma) (h : DmaCore s → DmaCore { s with dma := d }) :
    DmaMoves s { s with dma := d } :=
  ⟨rfl, rfl, le_refl _, ⟨[], rfl⟩, fun h => ⟨h, fun _ _ => rfl⟩, h⟩

/-! Registers. -/

theorem chan_setChan (n m : Fin 7) (c : DmaChannel) (s : State) :
    (setChan n c s).chan m = if m = n then c else s.chan m := by
  unfold State.chan setChan
  by_cases h : m = n
  · subst h; simp
  · have : n.val ≠ m.val := fun h' => h (Fin.ext h'.symm)
    simp [h, this]

theorem setChan_core {n : Fin 7} {c : DmaChannel} {s : State} (hs : DmaCore s) (hc : ChannelOk s.params n c) :
    DmaCore (setChan n c s) := by
  refine ⟨fun m => ?_, hs.2⟩
  rw [chan_setChan]
  split
  · rename_i h; subst h; exact hc
  · exact hs.1 m

/-- A bit that is clear in `x` is clear in `x &&& m`. -/
theorem and_keeps_clear {x m k : Word} (h : x &&& k = 0) : x &&& m &&& k = 0 := by
  rw [BitVec.and_assoc, BitVec.and_comm m, ← BitVec.and_assoc, h]
  simp

/-- Clearing bits of CHCR other than bit 1 keeps what holds of the channel. -/
theorem channelOk_clear {p : Params} {n : Fin 7} {c : DmaChannel} {m : Word} (hm : m.getLsbD 1 = true)
    (h : ChannelOk p n c) : ChannelOk p n { c with chcr := c.chcr &&& m } := by
  refine ⟨h.1, ?_⟩
  have h2 := h.2
  split at h2
  · rename_i hn
    rw [if_pos hn]
    exact ⟨by simp [h2.1, hm], and_keeps_clear h2.2⟩
  · rename_i hn
    rw [if_neg hn]
    exact and_keeps_clear h2

theorem and_mask_idem (a m : Word) : a &&& m &&& m = a &&& m := by rw [BitVec.and_assoc, BitVec.and_self]

/-! Memory. -/

theorem dmaMask_lt (a : Word) : (a &&& dmaRamMask).toNat + 3 < 0x200000 := by
  rw [BitVec.toNat_and]
  have : a.toNat &&& dmaRamMask.toNat ≤ dmaRamMask.toNat := Nat.and_le_right
  have h : dmaRamMask.toNat = 0x1FFFFC := rfl
  omega

theorem dmaWrite_moves (a v : Word) (s : State) : DmaMoves s (dmaWrite a v s) := by
  refine ⟨rfl, rfl, le_refl _, ⟨[], rfl⟩, fun h => ⟨Memory.writeWord_wf h _ _, fun x hx => ?_⟩, id⟩
  have := dmaMask_lt a
  unfold dmaWrite
  rw [Memory.read_writeWord h]
  rw [if_neg (by omega)]

/-! Words and blocks. -/

/-- What stays during the words of a block. -/
def Stays (s t : State) : Prop :=
  t.dma.active = s.dma.active ∧ t.dma.blocksLeft = s.dma.blocksLeft ∧ t.dma.blockSize = s.dma.blockSize ∧
    t.dma.channels = s.dma.channels

theorem Stays.trans {s t u : State} (h : Stays s t) (h' : Stays t u) : Stays s u :=
  ⟨h'.1.trans h.1, h'.2.1.trans h.2.1, h'.2.2.1.trans h.2.2.1, h'.2.2.2.trans h.2.2.2⟩

theorem ClockMoves.stays {s t : State} (h : ClockMoves s t) : Stays s t := by
  unfold Stays; rw [h.dma]; exact ⟨rfl, rfl, rfl, rfl⟩

theorem dmaAdvance_moves (n : Fin 7) (s : State) : DmaMoves s (dmaAdvance n s) ∧ Stays s (dmaAdvance n s) :=
  ⟨dma_dmaMoves s _ fun h => ⟨h.1, and_mask_idem _ _, h.2.2⟩, rfl, rfl, rfl, rfl⟩

theorem portRead_moves (n : Fin 7) (s : State) : DmaMoves s (portRead n s).2 ∧ Stays s (portRead n s).2 := by
  unfold portRead
  split
  · exact ⟨dma_dmaMoves s _ fun h => ⟨h.1, h.2.1, and_mask_idem _ _, h.2.2.2⟩, rfl, rfl, rfl, rfl⟩
  · have h := ((drawWord_clockMoves s).trans (emit_clockMoves (.portRead n (drawWord s).1) _)).trans
      (portRequests_clockMoves _)
    exact ⟨h.dmaMoves, h.stays⟩

theorem portWrite_moves {n : Fin 7} {v : Word} {s t : State} (h : portWrite n v s = .next t) : ClockMoves s t := by
  unfold portWrite at h
  split at h
  · cases h
  · cases h; exact (emit_clockMoves _ s).trans (portRequests_clockMoves _)

theorem portPoll_moves (n : Fin 7) (ready : Bool) (s : State) : ClockMoves s (portPoll n ready s) :=
  (emit_clockMoves _ s).trans (portRequests_clockMoves _)

/-- A part of a step that goes on came from a part before it that went on. -/
theorem andThen_next {r : Result} {f : State → Result} {t : State} (h : andThen r f = .next t) :
    ∃ u, r = .next u ∧ f u = .next t := by
  cases r with
  | next u => exact ⟨u, rfl, h⟩
  | fault e => cases h
  | refused e => cases h

theorem dmaWord_moves {n : Fin 7} {s t : State} (h : dmaWord n s = .next t) : DmaMoves s t ∧ Stays s t := by
  unfold dmaWord at h
  split at h
  · obtain ⟨u, hu, h⟩ := andThen_next h
    cases h
    have h1 := portWrite_moves hu
    exact ⟨h1.dmaMoves.trans (dmaAdvance_moves n u).1, h1.stays.trans (dmaAdvance_moves n u).2⟩
  · cases h
    have h1 := portRead_moves n s
    have h2 := dmaWrite_moves (portRead n s).2.dma.ramAddress (portRead n s).1 (portRead n s).2
    have h3 := dmaAdvance_moves n (dmaWrite (portRead n s).2.dma.ramAddress (portRead n s).1 (portRead n s).2)
    exact ⟨h1.1.trans (h2.trans h3.1), h1.2.trans h3.2⟩

theorem dmaWords_moves {n : Fin 7} : ∀ (k : Nat) {s t : State}, dmaWords n k s = .next t → DmaMoves s t ∧ Stays s t
  | 0, s, t, h => by cases h; exact ⟨DmaMoves.refl _, rfl, rfl, rfl, rfl⟩
  | k + 1, s, t, h => by
    obtain ⟨u, hu, h⟩ := andThen_next h
    have h1 := dmaWord_moves hu
    have h2 := dmaWords_moves k h
    exact ⟨h1.1.trans h2.1, h1.2.trans h2.2⟩

/-- Everything a block does to the count and the channel registers. -/
theorem dmaBlock_moves {n : Fin 7} {s t : State} (h : dmaBlock n s = .next t) :
    DmaMoves s t ∧ t.dma.active = s.dma.active ∧ t.dma.blocksLeft = s.dma.blocksLeft - 1 := by
  obtain ⟨u, hu, h⟩ := andThen_next h
  have h1 := dmaWords_moves _ hu
  have h2 := (clockTick_next h).1
  have h3 : DmaMoves u { u with dma := { u.dma with blocksLeft := u.dma.blocksLeft - 1 } } :=
    dma_dmaMoves u _ fun h => h
  refine ⟨h1.1.trans (h3.trans h2.dmaMoves), ?_, ?_⟩
  · rw [h2.dma]; exact h1.2.1
  · rw [h2.dma]; exact congrArg (· - 1) h1.2.2.1

/-- What holds between steps follows from the core and the transfer's end. -/
theorem dmaOk_of_core {s : State} (hc : DmaCore s) (ha : s.dma.active = none ↔ s.dma.blocksLeft = 0)
    (h6 : s.dma.active ≠ some 6) (hb : s.dma.blocksLeft.toNat ≤ 0xFFFF)
    (hr : s.dma.active = none → s.dma.ramAddress = 0) : DmaOk s :=
  ⟨hc.1, hc.2.1, hc.2.2.1, ha, h6, hb, hc.2.2.2, hr⟩

theorem dmaOk_core {s : State} (h : DmaOk s) : DmaCore s := ⟨h.1, h.2.1, h.2.2.1, h.2.2.2.2.2.2.1⟩

theorem dmaComplete_moves (n : Fin 7) (s : State) :
    DmaMoves s (dmaComplete n s) ∧ (DmaCore s → DmaOk (dmaComplete n s)) := by
  have hc : DmaCore s → DmaCore (dmaComplete n s) := fun h =>
    have hs := setChan_core h (channelOk_clear (m := 0xFEFFFFFF) (by decide) (h.1 n))
    ⟨hs.1, by simp [dmaComplete], hs.2.2⟩
  exact ⟨dma_dmaMoves s _ hc, fun h => dmaOk_of_core (hc h) ⟨fun _ => rfl, fun _ => rfl⟩ (by simp [dmaComplete])
    (by simp [dmaComplete]) fun _ => rfl⟩

/-- What the completion of a transfer does (62 R373). -/
theorem dmaComplete_completes (n : Fin 7) (s : State) : Completes n s (dmaComplete n s) :=
  ⟨rfl, fun m => chan_setChan n m _ s⟩

theorem portReady_moves (n : Fin 7) (s : State) : ClockMoves s (portReady n s).2 := by
  unfold portReady
  split
  · exact ClockMoves.refl s
  · exact (drawWait_clockMoves s).trans (portPoll_moves n _ _)

/-- Everything the loop over the blocks left can do: it ends with the engine between transfers, or suspended. -/
theorem dmaBlocks_moves {request : Bool} {n : Fin 7} : ∀ (k : Nat) {s t : State},
    dmaBlocks request n k s = .next t → s.dma.active = some n → s.dma.blocksLeft.toNat = k →
    DmaMoves s t ∧ (DmaCore s → k ≤ 0xFFFF → DmaOk t)
  | 0, s, t, h, _, _ => by
    cases h
    exact ⟨(dmaComplete_moves n s).1, fun hc _ => (dmaComplete_moves n s).2 hc⟩
  | k + 1, s, t, h, ha, hk => by
    have step : ∀ {u : State}, ClockMoves s u → andThen (dmaBlock n u) (dmaBlocks request n k) = .next t →
        DmaMoves s t ∧ (DmaCore s → k + 1 ≤ 0xFFFF → DmaOk t) := by
      intro u hu h
      obtain ⟨v, hv, h⟩ := andThen_next h
      obtain ⟨h1, h2, h3⟩ := dmaBlock_moves hv
      have hb : v.dma.blocksLeft.toNat = k := by
        rw [h3, hu.dma, BitVec.toNat_sub]
        have := s.dma.blocksLeft.isLt
        simp; omega
      have h4 := dmaBlocks_moves k h (by rw [h2, hu.dma, ha]) hb
      exact ⟨hu.dmaMoves.trans (h1.trans h4.1), fun hc hle => h4.2 (h1.core (hu.dmaMoves.core hc)) (by omega)⟩
    unfold dmaBlocks at h
    split at h
    · split at h
      · rename_i u hu
        exact step (by have := portReady_moves n s; rw [hu] at this; exact this) h
      · rename_i u hu
        cases h
        have hm : ClockMoves s t := by have := portReady_moves n s; rw [hu] at this; exact this
        refine ⟨hm.dmaMoves, fun hc hle => dmaOk_of_core (hm.dmaMoves.core hc) ?_ ?_ ?_ ?_⟩
        · rw [hm.dma, ha]
          refine ⟨fun h => (by simp at h), fun h => ?_⟩
          rw [h] at hk; simp at hk
        · rw [hm.dma, ha]
          intro h6
          have hn : n = 6 := by simpa using h6
          subst hn
          simp [portReady, otc] at hu
        · rw [hm.dma]; omega
        · rw [hm.dma, ha]; exact fun h => by simp at h
    · exact step (ClockMoves.refl s) h

/-! Linked lists. -/

theorem portPolls_moves {n : Fin 7} : ∀ (k : Nat) {s t : State}, portPolls n k s = .next t → ClockMoves s t
  | 0, s, t, h => by cases h; exact portPoll_moves n true s
  | k + 1, s, t, h => by
    obtain ⟨u, hu, h⟩ := andThen_next h
    exact ((portPoll_moves n false s).trans (clockTick_next hu).1).trans (portPolls_moves k h)

theorem portWait_moves {n : Fin 7} {s t : State} (h : portWait n s = .next t) : ClockMoves s t := by
  unfold portWait at h
  have hd := drawWait_clockMoves s
  split at h
  · cases h
  · rename_i k u hu
    rw [hu] at hd
    exact hd.trans (portPolls_moves k h)

theorem nodeWords_moves {n : Fin 7} {node : Word} : ∀ (i count : Nat) {s t : State},
    nodeWords n node i count s = .next t → ClockMoves s t
  | i, 0, s, t, h => by cases h; exact ClockMoves.refl _
  | i, count + 1, s, t, h => by
    obtain ⟨u, hu, h⟩ := andThen_next h
    obtain ⟨v, hv, h⟩ := andThen_next h
    exact (portWait_moves hu).trans ((portWrite_moves hv).trans (nodeWords_moves (i + 1) count h))

/-- Everything the list walk can do when it ends. -/
theorem dmaList_moves {n : Fin 7} : ∀ (fuel : Nat) {s t : State}, dmaList n fuel s = .next t →
    DmaMoves s t ∧ (DmaCore s → DmaOk t)
  | 0, s, t, h => by cases h
  | fuel + 1, s, t, h => by
    obtain ⟨u, hu, h⟩ := andThen_next h
    obtain ⟨v, hv, h⟩ := andThen_next h
    have h1 := ((nodeWords_moves _ _ hu).trans (clockTick_next hv).1).dmaMoves
    split at h
    · cases h
      exact ⟨h1.trans (dmaComplete_moves n v).1, fun hc => (dmaComplete_moves n v).2 (h1.core hc)⟩
    · have h2 : DmaMoves v { v with dma := { v.dma with
          ramAddress := headerNext (dmaRead s.dma.ramAddress s) &&& dmaRamMask } } :=
        dma_dmaMoves v _ fun hc => ⟨hc.1, and_mask_idem _ _, hc.2.2⟩
      have h3 := dmaList_moves fuel h
      exact ⟨h1.trans (h2.trans h3.1), fun hc => h3.2 (h2.core (h1.core hc))⟩

/-! Starting. -/

theorem dmaLoad_moves (n : Fin 7) {size : Nat} (blocks : Nat) (s : State) (hsize : size ≤ 0x10000) :
    DmaMoves s (dmaLoad n size blocks s) := by
  have hs : (BitVec.ofNat 17 size).toNat ≤ 0x10000 := by rw [BitVec.toNat_ofNat]; omega
  have hc : DmaCore s → DmaCore (setChcr n ((s.chan n).chcr &&& 0xEFFFFFFF) s) := fun h =>
    setChan_core h (channelOk_clear (m := 0xEFFFFFFF) (by decide) (h.1 n))
  unfold dmaLoad
  split
  · exact dma_dmaMoves s _ fun h => ⟨(hc h).1, and_mask_idem _ _, and_mask_idem _ _, hs⟩
  · exact dma_dmaMoves s _ fun h => ⟨(hc h).1, and_mask_idem _ _, h.2.2.1, hs⟩

theorem dmaLoad_active (n : Fin 7) (size blocks : Nat) (s : State) :
    (dmaLoad n size blocks s).dma.active = some n ∧
      (dmaLoad n size blocks s).dma.blocksLeft = BitVec.ofNat 17 blocks := by
  unfold dmaLoad; split <;> exact ⟨rfl, rfl⟩

theorem bcrNumWords_le (w : Word) : bcrNumWords w ≤ 0xFFFF := by
  have := (w.extractLsb' 0 16).isLt; unfold bcrNumWords; omega

theorem bcrNumBlocks_le (w : Word) : bcrNumBlocks w ≤ 0xFFFF := by
  have := (w.extractLsb' 16 16).isLt; unfold bcrNumBlocks; omega

/-- Everything `dmaStart` can do when it ends. -/
theorem dmaStart_moves {n : Fin 7} {s t : State} (h : dmaStart n s = .next t) :
    DmaMoves s t ∧ (DmaCore s → DmaOk t) := by
  have blocks : ∀ {request : Bool} {size blocks : Nat}, size ≤ 0x10000 → blocks ≤ 0xFFFF →
      dmaContinueBlocks request n (dmaLoad n size blocks s) = .next t →
      DmaMoves s t ∧ (DmaCore s → DmaOk t) := by
    intro request size blocks hs hb h
    have hl := dmaLoad_moves n blocks s hs
    have ha := dmaLoad_active n size blocks s
    have h1 := dmaBlocks_moves _ h ha.1 rfl
    refine ⟨hl.trans h1.1, fun hc => h1.2 (hl.core hc) ?_⟩
    rw [ha.2, BitVec.toNat_ofNat]; omega
  unfold dmaStart at h
  dsimp only at h
  split at h
  · cases h
  split at h
  · cases h
  split at h
  · refine blocks ?_ (by omega) h
    have := bcrNumWords_le (s.chan n).bcr
    split <;> omega
  split at h
  · split at h
    · cases h
    · have := bcrNumWords_le (s.chan n).bcr
      exact blocks (by omega) (bcrNumBlocks_le _) h
  · have hl := dmaLoad_moves n 0 s (size := 0) (by omega)
    unfold dmaContinueList at h
    split at h
    · cases h
    split at h
    · cases h
    · have h1 := dmaList_moves _ h
      exact ⟨hl.trans h1.1, fun hc => h1.2 (hl.core hc)⟩

/-- Everything `dmaRun` can do when it ends. -/
theorem dmaRun_moves {s t : State} (h : dmaRun s = .next t) : DmaMoves s t ∧ (DmaOk s → DmaOk t) := by
  unfold dmaRun at h
  split at h
  · rename_i n hn
    have h1 := dmaBlocks_moves _ h hn rfl
    exact ⟨h1.1, fun hs => h1.2 (dmaOk_core hs) hs.2.2.2.2.2.1⟩
  · split at h
    · have h1 := dmaStart_moves h
      exact ⟨h1.1, fun hs => h1.2 (dmaOk_core hs)⟩
    · cases h; exact ⟨DmaMoves.refl _, id⟩

/-- A channel register write keeps what holds of the engine. -/
theorem setChan_ok {n : Fin 7} {c : DmaChannel} {s : State} (hs : DmaOk s) (hc : ChannelOk s.params n c) :
    DmaOk (setChan n c s) :=
  have h := setChan_core (dmaOk_core hs) hc
  ⟨h.1, h.2.1, h.2.2.1, hs.2.2.2.1, hs.2.2.2.2.1, hs.2.2.2.2.2.1, h.2.2.2, hs.2.2.2.2.2.2.2⟩

theorem channelOk_chcrStored (n : Fin 7) (v : Word) (s : State) (h : ChannelOk s.params n (s.chan n)) :
    ChannelOk s.params n { s.chan n with chcr := chcrStored n v s } := by
  refine ⟨h.1, ?_⟩
  unfold chcrStored otc
  split
  · refine ⟨by simp, ?_⟩
    ext i hi
    simp only [BitVec.getElem_and, BitVec.getElem_or, BitVec.getElem_not]
    cases v[i] <;> cases (s.params.dmaChcrMaskOtc)[i] <;> cases (0x00000002#32)[i] <;> simp
  · dsimp only
    rw [BitVec.and_assoc, BitVec.and_not_self]
    simp

/-- Everything a write of the register window can do when it ends. -/
theorem dmaRegWrite_moves {o : Nat} {v : Word} {s t : State} (h : dmaRegWrite o v s = .next t) :
    DmaMoves s t ∧ (DmaOk s → DmaOk t) := by
  have chan : ∀ (n : Fin 7) (c : DmaChannel), (ChannelOk s.params n (s.chan n) → ChannelOk s.params n c) →
      DmaMoves s (setChan n c s) ∧ (DmaOk s → DmaOk (setChan n c s)) := fun n c hc =>
    ⟨dma_dmaMoves s _ fun hs => setChan_core hs (hc (hs.1 n)), fun hs => setChan_ok hs (hc (hs.1 n))⟩
  unfold dmaRegWrite at h
  split at h
  · cases h
    refine chan _ _ fun hc => ⟨?_, hc.2⟩
    dsimp only
    rw [BitVec.and_assoc, BitVec.and_not_self]
    simp
  · cases h; exact chan _ _ fun hc => hc
  · rename_i n _
    have hw := chan n { s.chan n with chcr := chcrStored n v s } (channelOk_chcrStored n v s)
    unfold dmaSyncStart at h
    split at h
    · have h1 := dmaStart_moves h
      exact ⟨hw.1.trans h1.1, fun hs => h1.2 (dmaOk_core (hw.2 hs))⟩
    · cases h; exact hw
  · cases h; exact chan _ _ fun hc => hc
  · cases h; exact ⟨dma_dmaMoves s _ id, id⟩
  · cases h; exact ⟨dma_dmaMoves s _ id, id⟩
  · cases h

end Sys2Proof.Machine
end

