-- ==== Sys2Proof/Laws/Ops.lean ====
section
/-! SUPPORT. What each shared operation of Machine/Ops.lean can do: general registers, retire, taking an exception. -/

namespace Sys2Proof.Machine

open Sys2Proof.Safety

/-! General registers. -/

@[simp] theorem State.gpr_zero (s : State) : s.gpr 0 = 0 := rfl

/-- A register write: r0 reads 0, the written register its value, every other one the old value. -/
theorem gpr_setGpr (i r : Reg) (v : Word) (s : State) :
    (setGpr i v s).gpr r = if r = 0 then 0 else if r = i then v else s.gpr r := by
  unfold State.gpr setGpr
  by_cases hr : r = 0
  · rw [if_pos hr, if_pos hr]
  rw [if_neg hr, if_neg hr, if_neg hr]
  by_cases hi : i = 0
  · have hri : r ≠ i := fun h => hr (h.trans hi)
    rw [if_neg hri]
    simp only [if_pos hi]
  · simp only [if_neg hi]
    by_cases hri : r = i
    · subst hri; rw [if_pos rfl]; simp
    · have : i.toNat ≠ r.toNat := fun h => hri (BitVec.eq_of_toNat_eq h.symm)
      rw [if_neg hri, Vector.getElem_set, if_neg this]

/-- The slot of r0 is never written. -/
theorem setGpr_regs_zero (i : Reg) (v : Word) (s : State) : (setGpr i v s).regs[0] = s.regs[0] := by
  unfold setGpr
  split
  · rfl
  · rename_i h
    have : i.toNat ≠ 0 := fun h0 => h (BitVec.eq_of_toNat_eq (by simpa using h0))
    simp [this]

theorem gpr_congr {s t : State} (h : t.regs = s.regs) (r : Reg) : t.gpr r = s.gpr r := by simp [State.gpr, h]

theorem gpr_commitLoad (s : State) (r : Reg) : (commitLoad s).gpr r = if r = 0 then 0 else committed s r :=
  gpr_setGpr _ _ _ _

theorem commitLoad_regs_zero (s : State) : (commitLoad s).regs[0] = s.regs[0] := setGpr_regs_zero _ _ _

/-! Retire (10_state R28). -/

/-- Everything `retireNone` does. -/
theorem retireNone_retires (u : State) : Retires none u (retireNone u) := by
  refine ⟨by apply State.ext <;> simp [retireNone], commitLoad_regs_zero u, fun r => ?_⟩
  exact (gpr_congr (s := commitLoad u) rfl r).trans (gpr_commitLoad u r)

/-- Everything `retireWrite` does. -/
theorem retireWrite_retires (i : Reg) (v : Word) (u : State) : Retires (some (i, v)) u (retireWrite i v u) := by
  refine ⟨by apply State.ext <;> simp [retireWrite], (setGpr_regs_zero _ _ _).trans (commitLoad_regs_zero u),
    fun r => ?_⟩
  have h := gpr_congr (s := setGpr i v (commitLoad u)) (t := retireWrite i v u) rfl r
  rw [h, gpr_setGpr, gpr_commitLoad]
  unfold registerAfter
  split <;> simp_all

/-- Everything `retireLoad` does. -/
theorem retireLoad_queues (i : Reg) (v : Word) (u : State) : Queues i v u (retireLoad i v u) := by
  unfold retireLoad
  split
  · rename_i h
    refine ⟨rfl, rfl, fun r => ?_⟩
    rw [gpr_congr (s := u) rfl]
    by_cases h0 : r = 0
    · rw [if_pos h0, h0]; rfl
    · rw [if_neg h0]; simp only [committed, h]; split <;> rfl
  · rename_i h
    refine ⟨by apply State.ext <;> simp, commitLoad_regs_zero u, fun r => ?_⟩
    refine (gpr_congr (s := commitLoad u) rfl r).trans ((gpr_commitLoad u r).trans ?_)
    by_cases h0 : r = 0
    · rw [if_pos h0, if_pos h0]
    · rw [if_neg h0, if_neg h0]
      split
      · rename_i hr; simp [committed, hr, Ne.symm h]
      · rfl

/-! Taking an exception (60_exceptions R300). -/

/-- The address BADVADDR takes, where the exception has one. -/
def excAddress : Exc → Option Word
  | .adEL a => some a
  | .adES a => some a
  | _ => none

theorem excBadVAddr_eq (e : Exc) (old : Word) : excBadVAddr e old = (excAddress e).getD old := by cases e <;> rfl

theorem srPush_fields (sr : Word) :
    (srPush sr).extractLsb' 0 2 = 0 ∧ (srPush sr).extractLsb' 2 4 = sr.extractLsb' 0 4 ∧
      (srPush sr).extractLsb' 6 26 = sr.extractLsb' 6 26 := by
  unfold srPush
  refine ⟨?_, ?_, ?_⟩ <;> ext i hi <;> interval_cases i <;> simp

theorem srPop_fields (sr : Word) :
    (srPop sr).extractLsb' 0 4 = sr.extractLsb' 2 4 ∧ (srPop sr).extractLsb' 4 28 = sr.extractLsb' 4 28 := by
  unfold srPop
  refine ⟨?_, ?_⟩ <;> ext i hi <;> interval_cases i <;> simp

theorem causeAfter_fields (e : Exc) (inDelaySlot : Bool) (c : Word) :
    (causeAfter e inDelaySlot c).extractLsb' 2 5 = excCode e ∧ (causeAfter e inDelaySlot c).extractLsb' 28 2 = excCe e ∧
      (causeAfter e inDelaySlot c).getLsbD 31 = inDelaySlot ∧
      causeAfter e inDelaySlot c &&& 0x4FFFFF83 = c &&& 0x4FFFFF83 := by
  unfold causeAfter
  generalize excCode e = code
  generalize excCe e = ce
  refine ⟨?_, ?_, ?_, ?_⟩
  · ext i hi; interval_cases i <;> cases inDelaySlot <;> simp
  · ext i hi; interval_cases i <;> cases inDelaySlot <;> simp
  · cases inDelaySlot <;> simp
  · ext i hi; interval_cases i <;> cases inDelaySlot <;> simp

/-- Everything `takeException` does. -/
theorem takeException_enters (e : Exc) (u : State) :
    Enters (excCode e) (excCe e) (excAddress e) u (takeException e u) := by
  have hs := srPush_fields u.sr
  have hc := causeAfter_fields e u.delaySlot u.cause
  refine ⟨by apply State.ext <;> simp [takeException, exceptionEntry, epcOf, excBadVAddr_eq, excVector, vectorOf],
    commitLoad_regs_zero u, fun r => ?_, ?_⟩
  · exact (gpr_congr (s := commitLoad u) rfl r).trans (gpr_commitLoad u r)
  · simpa [takeException, exceptionEntry] using
      And.intro hs.1 ⟨hs.2.1, hs.2.2, hc.1, hc.2.1, hc.2.2.1, hc.2.2.2⟩

/-- Exception entry consumes the Bus's fault record, so a record made on the way leaves no trace. -/
theorem takeException_recordFault (e : Exc) (c : BusFaultCode) (a : Word) (u : State) :
    takeException e (recordFault c a u) = takeException e u := by
  unfold takeException exceptionEntry commitLoad setGpr recordFault
  simp only [apply_ite]
  split <;> rfl

end Sys2Proof.Machine
end

