-- ==== Sys2Proof/Laws/Devices.lean ====
section
/-! SUPPORT. What the Bus, the devices and the CPU's data accesses do (20_memory R80 to R114): one lemma for each way an
access can go. -/

namespace Sys2Proof.Machine

open Sys2Proof.Safety

/-! Alignment and modes. -/

theorem userBlocked_of_allows {a : Word} {s : State} (h : ModeAllows a s) : userBlocked a s = false := by
  unfold userBlocked userMode
  cases hs : s.sr.getLsbD 1
  · rfl
  · simp [h hs]

theorem userBlocked_of_user {a : Word} {s : State} (hs : s.sr.getLsbD 1 = true) (h : segmentOf a ≠ .user) :
    userBlocked a s = true := by
  simp [userBlocked, userMode, hs, h]

theorem aligned_half_iff (a : Word) : aligned .half a = true ↔ a.getLsbD 0 = false := by simp [aligned]

theorem aligned_word_iff (a : Word) : aligned .word a = true ↔ a.extractLsb' 0 2 = 0 := by
  unfold aligned
  constructor
  · intro h
    simp only [Bool.and_eq_true, Bool.not_eq_true'] at h
    apply BitVec.eq_of_getLsbD_eq
    intro i hi
    interval_cases i
    · simpa using h.1
    · simpa using h.2
  · intro h
    have h0 : (a.extractLsb' 0 2).getLsbD 0 = false := by rw [h]; rfl
    have h1 : (a.extractLsb' 0 2).getLsbD 1 = false := by rw [h]; rfl
    simp at h0 h1
    simp [h0, h1]

theorem alignedWord_aligned (a : Word) : aligned .word (alignedWord a) = true := by
  simp [aligned, alignedWord]

theorem alignedWord_of_aligned {a : Word} (h : a.extractLsb' 0 2 = 0) : alignedWord a = a := by
  have hm := (aligned_word_iff a).mpr h
  simp only [aligned, Bool.and_eq_true, Bool.not_eq_true'] at hm
  unfold alignedWord
  ext i hi
  interval_cases i <;> simp_all

/-! The claim of an address. -/

theorem segmentOf_congr {a b : Word} (h : a.extractLsb' 29 3 = b.extractLsb' 29 3) : segmentOf a = segmentOf b := by
  unfold segmentOf; rw [h]

theorem segmentOf_alignedWord (a : Word) : segmentOf (alignedWord a) = segmentOf a := by
  apply segmentOf_congr
  unfold alignedWord
  ext i hi
  interval_cases i <;> simp

theorem physicalOf_toNat (a : Word) : (physicalOf a).toNat = a.toNat % 0x20000000 := by
  unfold physicalOf
  rw [BitVec.toNat_and]
  exact Nat.and_two_pow_sub_one_eq_mod a.toNat 29

theorem byteLane_toNat (a : Word) : (byteLane a).toNat = a.toNat % 4 := by simp [byteLane]

theorem alignedWord_toNat (a : Word) : (alignedWord a).toNat = a.toNat / 4 * 4 := by
  have h : alignedWord a = (a >>> 2) <<< 2 := by
    unfold alignedWord
    ext i hi
    interval_cases i <;> simp
  have := a.isLt
  rw [h, BitVec.toNat_shiftLeft, BitVec.toNat_ushiftRight, Nat.shiftLeft_eq, Nat.shiftRight_eq_div_pow]
  omega

/-- The physical offset of the aligned word: the offset rounded down to a multiple of 4. -/
theorem physicalOf_alignedWord (a : Word) :
    (physicalOf (alignedWord a)).toNat + (byteLane a).toNat = (physicalOf a).toNat ∧
      4 ∣ (physicalOf (alignedWord a)).toNat := by
  rw [physicalOf_toNat, physicalOf_toNat, byteLane_toNat, alignedWord_toNat]
  omega

/-- Every range starts and ends at a multiple of 4. -/
theorem busTable_aligned : ∀ e ∈ busTable, e.start % 4 = 0 ∧ e.stop % 4 = 0 := by decide

theorem busLookup_congr {seg : Segment} {p q : Nat} (h : p / 4 = q / 4) : busLookup seg p = busLookup seg q := by
  have hc : ∀ e ∈ busTable, entryContains seg p e = entryContains seg q e := by
    intro e he
    obtain ⟨h1, h2⟩ := busTable_aligned e he
    have hs : e.start ≤ p ↔ e.start ≤ q := by omega
    have ht : p < e.stop ↔ q < e.stop := by omega
    simp only [entryContains, hs, ht]
  unfold busLookup
  generalize busTable = es at hc
  induction es with
  | nil => rfl
  | cons e rest ih =>
    rw [List.find?_cons, List.find?_cons, hc e List.mem_cons_self, ih fun x hx => hc x (List.mem_cons_of_mem _ hx)]

/-- The bytes of an aligned word have one claim. -/
theorem claim_alignedWord (a : Word) : claim (alignedWord a) = claim a := by
  obtain ⟨h, h'⟩ := physicalOf_alignedWord a
  have := (byteLane a).isLt
  unfold claim
  rw [segmentOf_alignedWord]
  exact busLookup_congr (by omega)

/-- A claimed address lies in its entry. -/
theorem claim_contains {a : Word} {e : BusEntry} (h : claim a = some e) :
    e ∈ busTable ∧ e.start ≤ (physicalOf a).toNat ∧ (physicalOf a).toNat < e.stop ∧ segmentOf a ∈ e.segments := by
  have hm := List.mem_of_find?_eq_some h
  have hp := List.find?_some h
  simp only [entryContains, Bool.and_eq_true, decide_eq_true_eq, List.contains_iff_mem] at hp
  exact ⟨hm, hp.1.1, hp.1.2, hp.2⟩

theorem rangeOffset_alignedWord {a : Word} {e : BusEntry} (h : claim a = some e) :
    rangeOffset e (alignedWord a) + (byteLane a).toNat = rangeOffset e a := by
  obtain ⟨he, h1, -, -⟩ := claim_contains h
  obtain ⟨h2, h3⟩ := physicalOf_alignedWord a
  have := (busTable_aligned e he).1
  have := (byteLane a).isLt
  unfold rangeOffset
  omega

theorem arrayAt_claim {a : Word} {e : BusEntry} {k : Nat} (h : arrayAt a = some (e, k)) :
    claim a = some e ∧ arrayKey e.device (rangeOffset e a) = some k := by
  unfold arrayAt at h
  split at h
  · cases h
  · rename_i e' he
    cases hk : arrayKey e'.device (rangeOffset e' a) with
    | none => rw [hk] at h; cases h
    | some k' => rw [hk] at h; cases h; exact ⟨he, hk⟩

/-! Devices. -/

theorem deviceAnswer_array {d : Device} {o k : Nat} (h : arrayKey d o = some k) (w : Width) (s : State) :
    deviceAnswer d w o s = .ok (arrayRead w k s.mem) s := by
  cases d <;> simp [arrayKey] at h <;> subst h <;> rfl

theorem deviceAccept_array {d : Device} {o k : Nat} (h : arrayKey d o = some k) (hd : d ≠ .bios) (w : Width) (v : Word)
    (s : State) : deviceAccept d w o v s = .next { s with mem := arrayWrite w k v s.mem } := by
  cases d <;> simp [arrayKey] at h hd <;> subst h <;> rfl

/-- Everything a device's answer to a read can change. -/
theorem deviceAnswer_moves {d : Device} {w : Width} {o : Nat} {v : Word} {s t : State}
    (h : deviceAnswer d w o s = .ok v t) : ClockMoves s t := by
  have same : ∀ {r : Reply Word}, (∀ x u, r = .ok x u → u = s) → r = .ok v t → ClockMoves s t := by
    intro r hr h; rw [hr _ _ h]; exact ClockMoves.refl s
  cases d with
  | gpu =>
    cases h
    exact (drawWord_clockMoves s).trans (portRequests_clockMoves _)
  | dma =>
    refine same ?_ h
    intro x u hx
    unfold deviceAnswer dmaRegRead at hx
    dsimp only at hx
    split at hx
    · split at hx <;> cases hx <;> rfl
    · cases hx
  | cacheControl =>
    refine same ?_ h
    intro x u hx
    unfold deviceAnswer at hx
    dsimp only at hx
    split at hx <;> cases hx
    rfl
  | _ => cases h; exact ClockMoves.refl s

/-- Everything a device write can change, but for the transaction. -/
theorem deviceAccept_moves {d : Device} {w : Width} {o : Nat} {v : Word} {s t : State}
    (h : deviceAccept d w o v s = .next t) :
    (∃ k, arrayKey d o = some k ∧ t = { s with mem := arrayWrite w k v s.mem } ∧ d ≠ .bios) ∨
      (d = .cacheControl ∧ t = { s with cacheCtl := v }) ∨ (DmaMoves s t ∧ (DmaOk s → DmaOk t)) := by
  have same : DmaMoves s s ∧ (DmaOk s → DmaOk s) := ⟨DmaMoves.refl s, id⟩
  cases d with
  | ram => cases h; exact .inl ⟨_, rfl, rfl, by decide⟩
  | scratchpad => cases h; exact .inl ⟨_, rfl, rfl, by decide⟩
  | dma =>
    unfold deviceAccept at h
    dsimp only at h
    split at h
    · exact .inr (.inr (dmaRegWrite_moves h))
    · cases h
  | cacheControl =>
    unfold deviceAccept at h
    dsimp only at h
    split at h
    · cases h; exact .inr (.inl ⟨rfl, rfl⟩)
    · cases h
  | gpu =>
    cases h
    exact .inr (.inr ⟨(portRequests_clockMoves s).dmaMoves, (portRequests_clockMoves s).dmaOk⟩)
  | _ => cases h; exact .inr (.inr same)

/-- The transaction of a read. -/
theorem deviceRead_eq (e : BusEntry) (w : Width) (a : Word) (s : State) :
    deviceRead e.device (segmentOf a) w (rangeOffset e a) s =
      deviceAnswer e.device w (rangeOffset e a) (asked e w a s) := rfl

theorem zextTo_eq (w : Width) (v : Word) : zextTo w v = BitVec.ofNat 32 (v.toNat % 2 ^ widthBits w) := by
  have := v.isLt
  cases w <;> apply BitVec.eq_of_toNat_eq <;> simp [zextTo, zext8, zext16, lowByte, lowHalf, widthBits]
  omega

/-- The transaction of a write. -/
theorem deviceWrite_eq (e : BusEntry) (w : Width) (a v : Word) (s : State) :
    deviceWrite e.device (segmentOf a) w (rangeOffset e a) v s =
      deviceAccept e.device w (rangeOffset e a) v (told e w a v s) := by
  unfold deviceWrite told emit
  rw [zextTo_eq]

/-- Everything a read transaction can change. -/
theorem deviceRead_moves {d : Device} {seg : Segment} {w : Width} {o : Nat} {v : Word} {s t : State}
    (h : deviceRead d seg w o s = .ok v t) : ClockMoves s t :=
  (emit_clockMoves _ s).trans (deviceAnswer_moves h)

/-! The CPU's reads and writes of the Bus. -/

/-- A read that a device answers. -/
theorem cpuBusRead_ok {w : Width} {a v : Word} {e : BusEntry} {s t : State} (hc : claim a = some e)
    (ha : aligned w a = true) (hd : deviceRead e.device (segmentOf a) w (rangeOffset e a) s = .ok v t) :
    cpuBusRead w a s = .ok v (costing e.device t) := by
  have hp : t.params = s.params := (deviceRead_moves hd).params
  simp [cpuBusRead, busRead, hc, ha, hd, addCost, costing, hp]

/-- A read of an address that no device claims. -/
theorem cpuBusRead_unclaimed (w : Width) {a : Word} {s : State} (hc : claim a = none) :
    cpuBusRead w a s = .raise .ibe (recordFault .busErrorFetch a s) := by
  simp [cpuBusRead, busRead, hc, readFault, recordFault]

/-- A misaligned read. -/
theorem cpuBusRead_misaligned {w : Width} {a : Word} {s : State} (hc : claim a ≠ none) (ha : aligned w a = false) :
    cpuBusRead w a s = .raise (.adEL a) (recordFault .addressErrorFetch a s) := by
  obtain ⟨e, he⟩ := Option.ne_none_iff_exists'.mp hc
  simp [cpuBusRead, busRead, he, ha, readFault, recordFault]

theorem deviceWrite_params {d : Device} {seg : Segment} {w : Width} {o : Nat} {v : Word} {s t : State}
    (h : deviceWrite d seg w o v s = .next t) : t.params = s.params := by
  rcases deviceAccept_moves h with ⟨k, -, rfl, -⟩ | ⟨-, rfl⟩ | ⟨hm, -⟩
  · rfl
  · rfl
  · exact hm.params

/-- A write that a device takes. -/
theorem cpuBusWrite_ok {w : Width} {a v : Word} {e : BusEntry} {s t : State} (hc : claim a = some e)
    (ha : aligned w a = true) (hd : deviceWrite e.device (segmentOf a) w (rangeOffset e a) v s = .next t) :
    cpuBusWrite w a v s = .ok () (costing e.device t) := by
  have hp : t.params = s.params := deviceWrite_params hd
  simp [cpuBusWrite, busWrite, hc, ha, hd, addCost, costing, hp]

/-- A write of an address that no device claims. -/
theorem cpuBusWrite_unclaimed (w : Width) {a v : Word} {s : State} (hc : claim a = none) :
    cpuBusWrite w a v s = .raise .dbe (recordFault .busErrorStore a s) := by
  simp [cpuBusWrite, busWrite, hc, writeFault, recordFault]

/-- A misaligned write. -/
theorem cpuBusWrite_misaligned {w : Width} {a v : Word} {s : State} (hc : claim a ≠ none)
    (ha : aligned w a = false) :
    cpuBusWrite w a v s = .raise (.adES a) (recordFault .addressErrorStore a s) := by
  obtain ⟨e, he⟩ := Option.ne_none_iff_exists'.mp hc
  simp [cpuBusWrite, busWrite, he, ha, writeFault, recordFault]

/-! `MemRead` and `MemWrite`. -/

theorem memRead_bus {w : Width} {a : Word} {s : State} (hm : ModeAllows a s) (hi : s.sr.getLsbD 16 = false) :
    memRead w a s = cpuBusRead w a s := by
  unfold memRead isolated; rw [userBlocked_of_allows hm, hi]; rfl

theorem memWrite_bus {w : Width} {a v : Word} {s : State} (hm : ModeAllows a s) (hi : s.sr.getLsbD 16 = false) :
    memWrite w a v s = cpuBusWrite w a v s := by
  unfold memWrite isolated; rw [userBlocked_of_allows hm, hi]; rfl

end Sys2Proof.Machine
end

