-- ==== Sys2Proof/Laws/Operands.lean ====
section
/-! SUPPORT. The operand forms, the overflow conditions, shifts, products and quotients as arithmetic (30_encoding R143;
40_alu R170; 41_shift R197; 42_muldiv R201 to R204; 43_branch_jump R211). -/

namespace Sys2Proof.Machine

open Sys2Proof.Safety

/-! Immediates. -/

theorem sext16_toInt (h : Half) : (sext16 h).toInt = h.toInt := by
  unfold sext16; rw [BitVec.toInt_signExtend_of_le (by omega)]

theorem sext16_eq (h : Half) : sext16 h = BitVec.ofInt 32 h.toInt := by
  rw [← sext16_toInt, BitVec.ofInt_toInt]

theorem zext16_eq (h : Half) : zext16 h = BitVec.ofNat 32 h.toNat := by
  unfold zext16; apply BitVec.eq_of_toNat_eq; simp

theorem upperImmediate_eq (h : Half) : upperImmediate h = h ++ 0#16 := by
  unfold upperImmediate zext16
  apply BitVec.eq_of_getLsbD_eq
  intro i hi
  rw [BitVec.getLsbD_append]
  interval_cases i <;> simp

theorem zext8_eq (b : Byte) : zext8 b = 0#24 ++ b := by
  unfold zext8
  apply BitVec.eq_of_getLsbD_eq
  intro i hi
  rw [BitVec.getLsbD_append]
  interval_cases i <;> simp

theorem zext16_append (h : Half) : zext16 h = 0#16 ++ h := by
  unfold zext16
  apply BitVec.eq_of_getLsbD_eq
  intro i hi
  rw [BitVec.getLsbD_append]
  interval_cases i <;> simp

theorem lowByte_zext8 (b : Byte) : lowByte (zext8 b) = b := by
  unfold lowByte zext8
  ext i hi
  simp [hi]
  omega

theorem lowHalf_zext16 (h : Half) : lowHalf (zext16 h) = h := by
  unfold lowHalf zext16
  ext i hi
  simp [hi]
  omega

theorem effectiveAddress_eq (rs : Reg) (imm : Half) (s : State) :
    effectiveAddress (s.gpr rs) imm = addressOf rs imm s := by
  unfold effectiveAddress addressOf; rw [sext16_eq]

/-! Overflow. -/

theorem addOverflows_iff (a b : Word) :
    addOverflows a b = false ↔ -0x80000000 ≤ a.toInt + b.toInt ∧ a.toInt + b.toInt < 0x80000000 := by
  unfold addOverflows
  have ha := BitVec.toInt_lt (x := a); have ha' := BitVec.le_toInt (x := a)
  have hb := BitVec.toInt_lt (x := b); have hb' := BitVec.le_toInt (x := b)
  simp only [BitVec.msb_eq_toInt, BitVec.toInt_add]
  norm_num at *
  rw [Int.bmod_def]
  norm_num
  split <;> omega

theorem subOverflows_iff (a b : Word) :
    subOverflows a b = false ↔ -0x80000000 ≤ a.toInt - b.toInt ∧ a.toInt - b.toInt < 0x80000000 := by
  unfold subOverflows
  have ha := BitVec.toInt_lt (x := a); have ha' := BitVec.le_toInt (x := a)
  have hb := BitVec.toInt_lt (x := b); have hb' := BitVec.le_toInt (x := b)
  simp only [BitVec.msb_eq_toInt, BitVec.toInt_sub]
  norm_num at *
  rw [Int.bmod_def]
  norm_num
  split <;> omega

/-! Shifts. -/

theorem shiftAmount_eq (w : Word) : shiftAmount w = w.toNat % 32 := by simp [shiftAmount]

theorem shiftLeft_eq (x : Word) (n : Nat) : shiftLeft x n = BitVec.ofNat 32 (x.toNat * 2 ^ n) := by
  unfold shiftLeft; apply BitVec.eq_of_toNat_eq; simp [Nat.shiftLeft_eq]

theorem shiftRight_eq (x : Word) (n : Nat) : shiftRight x n = BitVec.ofNat 32 (x.toNat / 2 ^ n) := by
  unfold shiftRight
  apply BitVec.eq_of_toNat_eq
  simp only [BitVec.toNat_ushiftRight, BitVec.toNat_ofNat, Nat.shiftRight_eq_div_pow]
  rw [Nat.mod_eq_of_lt (lt_of_le_of_lt (Nat.div_le_self _ _) x.isLt)]

theorem shiftRightArith_eq (x : Word) (n : Nat) : shiftRightArith x n = BitVec.ofInt 32 (x.toInt / 2 ^ n) := by
  unfold shiftRightArith
  rw [← BitVec.ofInt_toInt (x := x.sshiftRight n), BitVec.toInt_sshiftRight, Int.shiftRight_eq_div_pow]
  push_cast
  rfl

/-! Products and quotients. -/

theorem product_halves (p : BitVec 64) : highWord p ++ lowWord p = p := by
  unfold highWord lowWord
  apply BitVec.eq_of_getLsbD_eq
  intro i hi
  rw [BitVec.getLsbD_append]
  split
  · simp; omega
  · simp only [BitVec.getLsbD_extractLsb']
    rw [show 32 + (i - 32) = i by omega]
    simp; omega

theorem productSigned_toInt (a b : Word) : (productSigned a b).toInt = a.toInt * b.toInt := by
  have ha := BitVec.toInt_lt (x := a); have ha' := BitVec.le_toInt (x := a)
  have hb := BitVec.toInt_lt (x := b); have hb' := BitVec.le_toInt (x := b)
  unfold productSigned
  rw [BitVec.toInt_ofInt, Int.bmod_eq_of_le] <;> norm_num at * <;> nlinarith

theorem productUnsigned_toNat (a b : Word) : (productUnsigned a b).toNat = a.toNat * b.toNat := by
  have ha := a.isLt
  have hb := b.isLt
  unfold productUnsigned
  rw [BitVec.toNat_ofNat, Nat.mod_eq_of_lt]
  nlinarith

theorem quotientUnsigned_spec {n d : Word} (h : d ≠ 0) :
    n.toNat = (quotientUnsigned n d).toNat * d.toNat + (remainderUnsigned n d).toNat ∧
      (remainderUnsigned n d).toNat < d.toNat := by
  have hd : 0 < d.toNat := Nat.pos_of_ne_zero fun h0 => h (BitVec.eq_of_toNat_eq h0)
  have hn := n.isLt
  have hm : n.toNat % d.toNat < d.toNat := Nat.mod_lt _ hd
  have hq : n.toNat / d.toNat ≤ n.toNat := Nat.div_le_self _ _
  have hr : n.toNat % d.toNat ≤ n.toNat := Nat.mod_le _ _
  unfold quotientUnsigned remainderUnsigned
  rw [if_neg h, if_neg h, BitVec.toNat_ofNat, BitVec.toNat_ofNat, Nat.mod_eq_of_lt (a := n.toNat / d.toNat) (by omega),
    Nat.mod_eq_of_lt (a := n.toNat % d.toNat) (by omega)]
  exact ⟨by rw [Nat.mul_comm]; exact (Nat.div_add_mod _ _).symm, hm⟩

/-- DIV outside its two corners: truncation toward zero, the remainder with the sign of the dividend. -/
theorem quotientSigned_spec {n d : Word} (h : d ≠ 0) (hc : ¬ (n = 0x80000000 ∧ d.toInt = -1)) :
    n.toInt = (quotientSigned n d).toInt * d.toInt + (remainderSigned n d).toInt ∧
      (remainderSigned n d).toInt.natAbs < d.toInt.natAbs ∧
      (remainderSigned n d = 0 ∨ ((remainderSigned n d).toInt < 0 ↔ n.toInt < 0)) := by
  have hd : d.toInt ≠ 0 := fun h0 => h (BitVec.eq_of_toInt_eq (by simpa using h0))
  have hc' : ¬ (n = 0x80000000 ∧ d = 0xFFFFFFFF) := fun h' => hc ⟨h'.1, by rw [h'.2]; decide⟩
  have hn : n.toInt < 2147483648 := BitVec.toInt_lt
  have hn' : -2147483648 ≤ n.toInt := BitVec.le_toInt n
  have hdb : d.toInt < 2147483648 := BitVec.toInt_lt
  have hdb' : -2147483648 ≤ d.toInt := BitVec.le_toInt d
  have e := Int.mul_tdiv_add_tmod n.toInt d.toInt
  have hr : n.toInt - n.toInt.tdiv d.toInt * d.toInt = n.toInt.tmod d.toInt := by
    rw [Int.mul_comm]; omega
  have hrl : (n.toInt.tmod d.toInt).natAbs < d.toInt.natAbs := by
    rw [Int.natAbs_tmod]; exact Nat.mod_lt _ (by omega)
  have hrn : (n.toInt.tmod d.toInt).natAbs ≤ n.toInt.natAbs := by
    rw [Int.natAbs_tmod]; exact Nat.mod_le _ _
  have hql : (n.toInt.tdiv d.toInt).natAbs = n.toInt.natAbs / d.toInt.natAbs := Int.natAbs_tdiv _ _
  have hqn : n.toInt.natAbs / d.toInt.natAbs ≤ n.toInt.natAbs := Nat.div_le_self _ _
  have hs : n.toInt.tmod d.toInt = 0 ∨ (n.toInt.tmod d.toInt < 0 ↔ n.toInt < 0) := by
    rcases lt_or_ge n.toInt 0 with hneg | hpos
    · have : n.toInt.tmod d.toInt ≤ 0 := by
        have := Int.tmod_nonneg (a := -n.toInt) d.toInt (by omega)
        rw [Int.neg_tmod] at this; omega
      rcases Int.lt_or_eq_of_le this with hlt | heq
      · exact .inr ⟨fun _ => hneg, fun _ => hlt⟩
      · exact .inl heq
    · have := Int.tmod_nonneg (a := n.toInt) d.toInt hpos
      exact .inr ⟨fun h => by omega, fun h => by omega⟩
  have small : ∀ z : Int, -2147483648 ≤ z → z < 2147483648 → (BitVec.ofInt 32 z).toInt = z := by
    intro z h1 h2
    rw [BitVec.toInt_ofInt, Int.bmod_eq_of_le] <;> norm_num <;> omega
  have hqb : (BitVec.ofInt 32 (n.toInt.tdiv d.toInt)).toInt = n.toInt.tdiv d.toInt := by
    generalize hq : n.toInt.tdiv d.toInt = q at hql
    refine small q (by omega) ?_
    by_contra hq'
    have h1 : 2147483648 * d.toInt.natAbs ≤ n.toInt.natAbs := by
      have h2 : 2147483648 ≤ n.toInt.natAbs / d.toInt.natAbs := by omega
      exact (Nat.mul_le_mul_right _ h2).trans (Nat.div_mul_le_self _ _)
    have hnv : n.toInt = -2147483648 := by omega
    have hd1 : d.toInt ≠ -1 := fun h1 => hc ⟨BitVec.eq_of_toInt_eq (hnv.trans (by decide)), h1⟩
    have hd2 : d.toInt = 1 := by omega
    rw [hd2, Int.tdiv_one] at hq
    omega
  have hrb := small (n.toInt.tmod d.toInt) (by omega) (by omega)
  unfold quotientSigned remainderSigned
  rw [if_neg h, if_neg hc', if_neg h, if_neg hc', hr, hqb, hrb]
  refine ⟨by rw [Int.mul_comm]; exact e.symm, hrl, ?_⟩
  rcases hs with h0 | h0
  · exact .inl (by rw [h0]; rfl)
  · exact .inr h0

/-! Branch and jump targets. -/

theorem branchTarget_eq (pc : Word) (imm : Half) : branchTarget pc imm = pc + 4 + BitVec.ofInt 32 (imm.toInt * 4) := by
  unfold branchTarget
  congr 1
  rw [BitVec.shiftLeft_eq_mul_twoPow, sext16_eq]
  rw [BitVec.ofInt_mul]
  rfl

theorem jumpTarget_eq (pc : Word) (index : BitVec 26) :
    jumpTarget pc index = (pc + 4).extractLsb' 28 4 ++ index ++ 0#2 := by
  unfold jumpTarget
  generalize pc + 4 = p
  apply BitVec.eq_of_getLsbD_eq
  intro i hi
  rw [BitVec.getLsbD_append, BitVec.getLsbD_append]
  interval_cases i <;> simp

end Sys2Proof.Machine
end

