-- ==== Sys2Proof/Laws/LoadStore.lean ====
section
/-! SUPPORT. What the shared operations of the loads and stores do (44_load_store R230 to R242): one lemma for each way
they can go. -/

namespace Sys2Proof.Machine

open Sys2Proof.Safety

/-! Byte arrays. -/

/-- A byte-array device answers every read of an address it claims. -/
theorem arrayAt_read {a : Word} {e : BusEntry} {k : Nat} (h : arrayAt a = some (e, k)) (w : Width) (s : State) :
    claim a = some e ∧
      deviceRead e.device (segmentOf a) w (rangeOffset e a) s = .ok (arrayRead w k s.mem) (asked e w a s) := by
  obtain ⟨h1, h2⟩ := arrayAt_claim h
  exact ⟨h1, deviceAnswer_array h2 w (asked e w a s)⟩

/-- RAM and scratchpad take every write of an address they claim. -/
theorem arrayAt_write {a : Word} {e : BusEntry} {k : Nat} (h : arrayAt a = some (e, k)) (hd : e.device ≠ .bios)
    (w : Width) (v : Word) (s : State) :
    claim a = some e ∧ deviceWrite e.device (segmentOf a) w (rangeOffset e a) v s =
      .next { told e w a v s with mem := arrayWrite w k v s.mem } := by
  obtain ⟨h1, h2⟩ := arrayAt_claim h
  exact ⟨h1, (deviceWrite_eq e w a v s).trans (deviceAccept_array h2 hd w v (told e w a v s))⟩

theorem arrayKey_sub {d : Device} {o o' k c : Nat} (h : arrayKey d o = some k) (ho : o' + c = o) (hc : c < 4)
    (h4 : 4 ∣ o') : c ≤ k ∧ arrayKey d o' = some (k - c) := by
  cases d <;> simp [arrayKey] at h ⊢ <;> omega

/-- The aligned word of a byte-array address is in the same array. -/
theorem arrayAt_alignedWord {a : Word} {e : BusEntry} {k : Nat} (h : arrayAt a = some (e, k)) :
    (byteLane a).toNat ≤ k ∧ arrayAt (alignedWord a) = some (e, k - (byteLane a).toNat) := by
  obtain ⟨h1, h3⟩ := arrayAt_claim h
  have h4 := rangeOffset_alignedWord h1
  have h5 : 4 ∣ rangeOffset e (alignedWord a) := by
    have := (physicalOf_alignedWord a).2
    have := (busTable_aligned e (claim_contains h1).1).1
    unfold rangeOffset; omega
  have h6 := arrayKey_sub h3 h4 (byteLane a).isLt h5
  refine ⟨h6.1, ?_⟩
  unfold arrayAt
  rw [claim_alignedWord, h1]
  show Option.map _ (arrayKey e.device (rangeOffset e (alignedWord a))) = _
  rw [h6.2]
  rfl

/-! Loads. -/

theorem loadWith_ok {w : Width} {ext : Word → Word} {rt rs : Reg} {imm : Half} {s s1 : State} {v : Word} {e : BusEntry}
    (hi : s.sr.getLsbD 16 = false) (hm : ModeAllows (addressOf rs imm s) s)
    (ha : aligned w (addressOf rs imm s) = true) (hc : claim (addressOf rs imm s) = some e)
    (hd : deviceRead e.device (segmentOf (addressOf rs imm s)) w (rangeOffset e (addressOf rs imm s)) s = .ok v s1) :
    loadWith w ext rt rs imm s = .next (retireLoad rt (ext v) (costing e.device s1)) := by
  unfold loadWith
  rw [effectiveAddress_eq, memRead_bus hm hi, cpuBusRead_ok hc ha hd]
  rfl

theorem allows_alignedWord {a : Word} {s : State} (h : ModeAllows a s) : ModeAllows (alignedWord a) s :=
  fun hs => (segmentOf_alignedWord _).trans (h hs)

theorem loadMerge_ok {merge : BitVec 2 → Word → Word → Word} {rt rs : Reg} {imm : Half} {s s1 : State} {v : Word}
    {e : BusEntry} (hi : s.sr.getLsbD 16 = false) (hm : ModeAllows (addressOf rs imm s) s)
    (hc : claim (alignedWord (addressOf rs imm s)) = some e)
    (hd : deviceRead e.device (segmentOf (addressOf rs imm s)) .word
      (rangeOffset e (alignedWord (addressOf rs imm s))) s = .ok v s1) :
    loadMerge merge rt rs imm s = .next
      (retireLoad rt (merge (byteLane (addressOf rs imm s)) (pendingOr rt s) v) (costing e.device s1)) := by
  unfold loadMerge unalignedRead
  rw [effectiveAddress_eq, userBlocked_of_allows hm, memRead_bus (allows_alignedWord hm) hi,
    cpuBusRead_ok hc (alignedWord_aligned _) ((segmentOf_alignedWord _).symm ▸ hd)]
  rfl

/-! Stores. -/

theorem storeWith_ok {w : Width} {rt rs : Reg} {imm : Half} {s s1 : State} {e : BusEntry}
    (hi : s.sr.getLsbD 16 = false) (hm : ModeAllows (addressOf rs imm s) s)
    (ha : aligned w (addressOf rs imm s) = true) (hc : claim (addressOf rs imm s) = some e)
    (hd : deviceWrite e.device (segmentOf (addressOf rs imm s)) w (rangeOffset e (addressOf rs imm s)) (s.gpr rt) s = .next s1) :
    storeWith w rt rs imm s = .next (retireNone (costing e.device s1)) := by
  unfold storeWith
  rw [effectiveAddress_eq, memWrite_bus hm hi, cpuBusWrite_ok hc ha hd]
  rfl

/-- A device read keeps what the mode check and the isolation look at. -/
theorem costing_sr {d : Device} {s t : State} (h : ClockMoves s t) : (costing d t).sr = s.sr := by
  show t.sr = s.sr
  rw [h.frame]

theorem storeMerge_ok {merge : BitVec 2 → Word → Word → Word} {rt rs : Reg} {imm : Half} {s s1 s2 : State} {v : Word}
    {e : BusEntry} (hi : s.sr.getLsbD 16 = false) (hm : ModeAllows (addressOf rs imm s) s)
    (hc : claim (alignedWord (addressOf rs imm s)) = some e)
    (hd : deviceRead e.device (segmentOf (addressOf rs imm s)) .word
      (rangeOffset e (alignedWord (addressOf rs imm s))) s = .ok v s1)
    (hw : deviceWrite e.device (segmentOf (addressOf rs imm s)) .word (rangeOffset e (alignedWord (addressOf rs imm s)))
      (merge (byteLane (addressOf rs imm s)) v (s.gpr rt)) (costing e.device s1) = .next s2) :
    storeMerge merge rt rs imm s = .next (retireNone (costing e.device s2)) := by
  have hsr := costing_sr (d := e.device) (deviceRead_moves hd)
  have hm1 : ModeAllows (alignedWord (addressOf rs imm s)) (costing e.device s1) := by
    unfold ModeAllows; rw [hsr]; exact allows_alignedWord hm
  have hi1 : (costing e.device s1).sr.getLsbD 16 = false := by rw [hsr]; exact hi
  unfold storeMerge mergeRead isolated
  rw [effectiveAddress_eq, userBlocked_of_allows hm, hi, if_neg (by simp), if_neg (by simp),
    cpuBusRead_ok hc (alignedWord_aligned _) ((segmentOf_alignedWord _).symm ▸ hd)]
  show withAccess (memWrite _ _ _ _) _ = _
  rw [memWrite_bus hm1 hi1, cpuBusWrite_ok hc (alignedWord_aligned _) ((segmentOf_alignedWord _).symm ▸ hw)]
  rfl

end Sys2Proof.Machine
end

