-- ==== Sys2Proof/Laws/Access.lean ====
section
/-! SUPPORT. What the CPU's accesses can change (20_memory R110 to R116), said once: `AccessMoves`. -/

namespace Sys2Proof.Machine

open Sys2Proof.Safety

/-- What an access of the CPU can change, whether it goes through or raises: what the devices can, the cache, the step's
cost and the Bus's fault record. The BIOS ROM keeps its bytes and the DMA engine its invariant. -/
structure AccessMoves (s t : State) : Prop where
  frame : t = { s with
    clock := t.clock, env := t.env, outputs := t.outputs, irqIn := t.irqIn, dma := t.dma, mem := t.mem
    cacheCtl := t.cacheCtl, icache := t.icache, cost := t.cost, busFault := t.busFault }
  nanos : t.clock.entries.map ClockEntry.nanosPerCycle = s.clock.entries.map ClockEntry.nanosPerCycle
  time : s.clock.systemTime ≤ t.clock.systemTime
  made : ∃ made, t.outputs = made ++ s.outputs
  memory : MemoryOk s → MemoryOk t ∧
    ∀ x, 0x1FC00000 ≤ x → x < 0x1FC80000 → Memory.read t.mem x = Memory.read s.mem x
  dma : DmaOk s → DmaOk t

theorem AccessMoves.refl (s : State) : AccessMoves s s :=
  ⟨rfl, rfl, le_refl _, ⟨[], rfl⟩, fun h => ⟨h, fun _ _ _ => rfl⟩, id⟩

theorem AccessMoves.trans {s t u : State} (h : AccessMoves s t) (h' : AccessMoves t u) : AccessMoves s u := by
  obtain ⟨hf, hn, ht, ⟨a, ha⟩, hm, hd⟩ := h
  obtain ⟨hf', hn', ht', ⟨b, hb⟩, hm', hd'⟩ := h'
  refine ⟨by rw [hf', hf], hn'.trans hn, ht.trans ht', ⟨b ++ a, by rw [hb, ha, List.append_assoc]⟩, fun h => ?_,
    fun h => hd' (hd h)⟩
  obtain ⟨h1, h2⟩ := hm h
  obtain ⟨h3, h4⟩ := hm' h1
  exact ⟨h3, fun x hx hx' => (h4 x hx hx').trans (h2 x hx hx')⟩

/-- A change of the cache, its control register, the cost or the fault record alone. -/
theorem fields_accessMoves (s : State) (c : Word) (i : Vector CacheLine 256) (n : Nat) (f : Option BusFault) :
    AccessMoves s { s with cacheCtl := c, icache := i, cost := n, busFault := f } :=
  ⟨rfl, rfl, le_refl _, ⟨[], rfl⟩, fun h => ⟨h, fun _ _ _ => rfl⟩, id⟩

theorem DmaMoves.accessMoves {s t : State} (h : DmaMoves s t) (hd : DmaOk s → DmaOk t) : AccessMoves s t := by
  refine ⟨?_, h.nanos, h.time, h.made, fun hs => ⟨(h.memory hs).1, fun x hx _ => (h.memory hs).2 x (by omega)⟩, hd⟩
  rw [h.frame]

theorem ClockMoves.accessMoves {s t : State} (h : ClockMoves s t) : AccessMoves s t :=
  h.dmaMoves.accessMoves h.dmaOk

/-- RAM and scratchpad lie below the BIOS ROM. -/
theorem arrayKey_below {e : BusEntry} {a : Word} {k : Nat} (hc : claim a = some e)
    (h : arrayKey e.device (rangeOffset e a) = some k) (hd : e.device ≠ .bios) : k / 4 * 4 + 4 ≤ 0x1FC00000 := by
  obtain ⟨he, h1, h2, -⟩ := claim_contains hc
  have hs : ∀ x ∈ busTable, x.device = .scratchpad → x.start = 0x1F800000 ∧ x.stop = 0x1F800400 := by decide
  unfold rangeOffset at h
  cases hdev : e.device <;> rw [hdev] at h hd <;> simp [arrayKey] at h hd
  · omega
  · have := hs e he hdev
    omega

/-- Everything a device that takes a write can do to the machine. -/
theorem deviceAccept_accessMoves {a v : Word} {w : Width} {e : BusEntry} {s t : State} (hc : claim a = some e)
    (ha : aligned w a = true) (h : deviceAccept e.device w (rangeOffset e a) v s = .next t) : AccessMoves s t := by
  rcases deviceAccept_moves h with ⟨k, hk, rfl, hd⟩ | ⟨-, rfl⟩ | ⟨hm, hd⟩
  · refine ⟨rfl, rfl, le_refl _, ⟨[], rfl⟩, fun hs => ⟨arrayWrite_wf hs w k v, fun x hx _ => ?_⟩, id⟩
    have hb := arrayKey_below hc hk hd
    have hal : w = .half → k % 2 = 0 := by
      intro hw; subst hw
      have h0 : (physicalOf a).toNat % 2 = 0 := by
        have h1 := (aligned_half_iff a).mp ha
        have h2 : a.toNat % 2 = 0 := by
          have := congrArg Bool.toNat h1
          rw [BitVec.getLsbD, Nat.testBit_zero] at h1
          simpa using h1
        rw [physicalOf_toNat]; omega
      have h1 := (busTable_aligned e (claim_contains hc).1).1
      have h2 : rangeOffset e a % 2 = 0 := by unfold rangeOffset; have := (claim_contains hc).2.1; omega
      revert hk
      cases e.device <;> simp [arrayKey] <;> omega
    have hal' : w = .word → k % 4 = 0 := by
      intro hw; subst hw
      have h0 : (physicalOf a).toNat % 4 = 0 := by
        have h1 := alignedWord_of_aligned ((aligned_word_iff a).mp ha)
        have h2 := alignedWord_toNat a
        rw [h1] at h2
        rw [physicalOf_toNat]; omega
      have h1 := (busTable_aligned e (claim_contains hc).1).1
      have h2 : rangeOffset e a % 4 = 0 := by unfold rangeOffset; have := (claim_contains hc).2.1; omega
      revert hk
      cases e.device <;> simp [arrayKey] <;> omega
    cases w with
    | byte => exact (arrayWrite_byte_stored hs k v x).trans (if_neg (by omega))
    | half => have := hal rfl; exact (arrayWrite_half_stored hs k v x).trans (if_neg (by omega))
    | word => have := hal' rfl; exact (arrayWrite_word_stored hs k v x).trans (if_neg (by omega))
  · exact fields_accessMoves s _ _ _ _
  · exact hm.accessMoves hd

/-- Everything a write transaction that goes through can do to the machine. -/
theorem deviceWrite_accessMoves {a v : Word} {seg : Segment} {w : Width} {e : BusEntry} {s t : State}
    (hc : claim a = some e) (ha : aligned w a = true) (h : deviceWrite e.device seg w (rangeOffset e a) v s = .next t) :
    AccessMoves s t :=
  (emit_clockMoves _ s).accessMoves.trans (deviceAccept_accessMoves hc ha h)

/-- A write transaction records no Bus fault. -/
theorem deviceWrite_busFault {d : Device} {seg : Segment} {w : Width} {o : Nat} {v : Word} {s t : State}
    (h : deviceWrite d seg w o v s = .next t) : t.busFault = s.busFault := by
  rcases deviceAccept_moves h with ⟨k, -, rfl, -⟩ | ⟨-, rfl⟩ | ⟨hm, -⟩
  · rfl
  · rfl
  · rw [hm.frame]; rfl

/-- The state an access ends in, when it ends in one. -/
def Access.ends {α : Type} (r : Access α) (t : State) : Prop := (∃ v, r = .ok v t) ∨ ∃ e, r = .raise e t

/-- Everything a Bus read of the CPU can change; one that goes through records no fault. -/
theorem cpuBusRead_moves {w : Width} {a : Word} {s t : State} (h : (cpuBusRead w a s).ends t) :
    AccessMoves s t ∧ ∀ v, cpuBusRead w a s = .ok v t → t.busFault = s.busFault := by
  cases hc : claim a with
  | none =>
    rw [cpuBusRead_unclaimed w hc] at h ⊢
    rcases h with ⟨v, h⟩ | ⟨e, h⟩ <;> cases h
    exact ⟨fields_accessMoves s _ _ _ _, fun v h => by cases h⟩
  | some e =>
    cases ha : aligned w a with
    | false =>
      rw [cpuBusRead_misaligned (by rw [hc]; exact Option.some_ne_none e) ha] at h ⊢
      rcases h with ⟨v, h⟩ | ⟨e, h⟩ <;> cases h
      exact ⟨fields_accessMoves s _ _ _ _, fun v h => by cases h⟩
    | true =>
      cases hd : deviceRead e.device (segmentOf a) w (rangeOffset e a) s with
      | ok v u =>
        rw [cpuBusRead_ok hc ha hd] at h ⊢
        rcases h with ⟨v, h⟩ | ⟨e, h⟩ <;> cases h
        have hm := deviceRead_moves hd
        refine ⟨hm.accessMoves.trans (fields_accessMoves u _ _ _ _), fun _ _ => ?_⟩
        show u.busFault = s.busFault
        rw [hm.frame]
      | fault r => simp [cpuBusRead, busRead, hc, ha, hd, Access.ends] at h
      | refused r => simp [cpuBusRead, busRead, hc, ha, hd, Access.ends] at h

/-- Everything a Bus write of the CPU can change; one that goes through records no fault. -/
theorem cpuBusWrite_moves {w : Width} {a v : Word} {s t : State} (h : (cpuBusWrite w a v s).ends t) :
    AccessMoves s t ∧ (cpuBusWrite w a v s = .ok () t → t.busFault = s.busFault) := by
  cases hc : claim a with
  | none =>
    rw [cpuBusWrite_unclaimed w hc] at h ⊢
    rcases h with ⟨v, h⟩ | ⟨e, h⟩ <;> cases h
    exact ⟨fields_accessMoves s _ _ _ _, fun h => by cases h⟩
  | some e =>
    cases ha : aligned w a with
    | false =>
      rw [cpuBusWrite_misaligned (by rw [hc]; exact Option.some_ne_none e) ha] at h ⊢
      rcases h with ⟨v, h⟩ | ⟨e, h⟩ <;> cases h
      exact ⟨fields_accessMoves s _ _ _ _, fun h => by cases h⟩
    | true =>
      cases hd : deviceWrite e.device (segmentOf a) w (rangeOffset e a) v s with
      | next u =>
        rw [cpuBusWrite_ok hc ha hd] at h ⊢
        rcases h with ⟨v, h⟩ | ⟨e, h⟩ <;> cases h
        refine ⟨(deviceWrite_accessMoves hc ha hd).trans (fields_accessMoves u _ _ _ _),
          fun _ => (deviceWrite_busFault hd : u.busFault = s.busFault)⟩
      | fault r => simp [cpuBusWrite, busWrite, hc, ha, hd, Access.ends] at h
      | refused r => simp [cpuBusWrite, busWrite, hc, ha, hd, Access.ends] at h

/-- Everything `MemRead` can change. -/
theorem memRead_moves {w : Width} {a : Word} {s t : State} (h : (memRead w a s).ends t) :
    AccessMoves s t ∧ ∀ v, memRead w a s = .ok v t → t.busFault = s.busFault := by
  unfold memRead at h ⊢
  split at h
  · rw [if_pos ‹_›]
    rcases h with ⟨v, h⟩ | ⟨e, h⟩ <;> cases h
    exact ⟨AccessMoves.refl _, fun _ h => by cases h⟩
  · rw [if_neg ‹_›]
    split at h
    · rcases h with ⟨v, h⟩ | ⟨e, h⟩ <;> cases h
    · rw [if_neg ‹_›]; exact cpuBusRead_moves h

/-- Everything `MemWrite` can change. -/
theorem memWrite_moves {w : Width} {a v : Word} {s t : State} (h : (memWrite w a v s).ends t) :
    AccessMoves s t ∧ (memWrite w a v s = .ok () t → t.busFault = s.busFault) := by
  unfold memWrite at h ⊢
  split at h
  · rw [if_pos ‹_›]
    rcases h with ⟨v, h⟩ | ⟨e, h⟩ <;> cases h
    exact ⟨AccessMoves.refl _, fun h => by cases h⟩
  · rw [if_neg ‹_›]
    split at h
    · rw [if_pos ‹_›]
      split at h
      · rw [if_pos ‹_›]
        rcases h with ⟨v, h⟩ | ⟨e, h⟩ <;> cases h
        unfold isolatedStore
        split <;> exact ⟨fields_accessMoves s _ _ _ _, fun _ => rfl⟩
      · rcases h with ⟨v, h⟩ | ⟨e, h⟩ <;> cases h
    · rw [if_neg ‹_›]; exact cpuBusWrite_moves h

/-- Everything the fetch can change. -/
theorem fetch_moves {a : Word} {s t : State} (h : (fetch a s).ends t) :
    AccessMoves s t ∧ ∀ v, fetch a s = .ok v t → t.busFault = s.busFault := by
  unfold fetch at h ⊢
  split at h
  · rw [if_pos ‹_›]
    rcases h with ⟨v, h⟩ | ⟨e, h⟩ <;> cases h
    exact ⟨AccessMoves.refl _, fun _ h => by cases h⟩
  · rw [if_neg ‹_›]
    split at h
    · rw [if_pos ‹_›]
      split at h
      · rw [if_pos ‹_›]
        rcases h with ⟨v, h⟩ | ⟨e, h⟩ <;> cases h
        exact ⟨AccessMoves.refl _, fun _ _ => rfl⟩
      · rw [if_neg ‹_›]
        have hr := @cpuBusRead_moves .word a s
        cases hb : cpuBusRead .word a s with
        | ok v u =>
          rw [hb] at h hr
          rcases h with ⟨x, h⟩ | ⟨e, h⟩ <;> cases h
          have := hr (.inl ⟨v, rfl⟩)
          exact ⟨this.1.trans (fields_accessMoves u _ _ _ _), fun _ _ => this.2 v rfl⟩
        | raise e u =>
          rw [hb] at h hr
          rcases h with ⟨x, h⟩ | ⟨e', h⟩ <;> cases h
          exact ⟨(hr (.inr ⟨e, rfl⟩)).1, fun _ h => by cases h⟩
        | fault r => rw [hb] at h; rcases h with ⟨x, h⟩ | ⟨e', h⟩ <;> cases h
        | refused r => rw [hb] at h; rcases h with ⟨x, h⟩ | ⟨e', h⟩ <;> cases h
    · rw [if_neg ‹_›]; exact cpuBusRead_moves h

end Sys2Proof.Machine
end

