-- ==== Sys2Proof/Laws/Construct.lean ====
section
/-! SUPPORT. What the construction of the machine answers (70_reset_and_hazards R400, R402), said once. -/

namespace Sys2Proof.Machine

open Sys2Proof.Safety

/-- An image's cells are in canonical form, and none lies below its first address. -/
theorem imageCells_wf : ∀ (image : List Byte) (lo a : Nat), lo ≤ a → Memory.wfFrom lo (imageCells a image) = true
  | [], _, _, _ => rfl
  | b :: rest, lo, a, h => by
    unfold imageCells
    split
    · exact imageCells_wf rest lo (a + 1) (by omega)
    · rename_i hb
      simp [Memory.wfFrom, h, hb, imageCells_wf rest (a + 1) (a + 1) (le_refl _)]

/-- Everything the construction can answer with a state. -/
theorem construct_next {p : Platform} {t : State} (h : construct p = .next t) :
    ∃ clock, t = constructed p (p.requests.foldl applyRequest clock) ∧ imageFits p = true ∧ insideSpec p = true ∧
      (∃ es, busRegisterAll p.params.busMaxDevices p.ranges [] = .ok es) ∧
      addClocks p.params.clockMaxDevices p.clocks { systemTime := 0, entries := [] } = .ok clock := by
  unfold construct at h
  split at h
  · cases h
  · rename_i es hr
    split at h
    · cases h
    · rename_i clock hc
      split at h
      · cases h
      · split at h
        · cases h
        · cases h
          refine ⟨clock, rfl, ?_, ?_, ⟨es, hr⟩, hc⟩ <;> simp_all

/-- The memory of a constructed machine is in its canonical form. -/
theorem constructed_memoryOk (p : Platform) (clock : Clock) : MemoryOk (constructed p clock) := by
  unfold MemoryOk constructed
  cases hb : p.bios with
  | none => rfl
  | some image => exact imageCells_wf image 0 0x1FC00000 (by omega)

end Sys2Proof.Machine
end

