-- ==== Sys2Proof/Laws/PerInstr.lean ====
section
/-! SUPPORT. The statement made for every instruction: its encoding has the fixed bits of its row of the opcode table
(30_encoding R153). One lemma for each constructor. -/

namespace Sys2Proof

/-! The bits of the four word formats. -/

theorem rWord_bit (op : BitVec 6) (rs rt rd : Reg) (shamt : BitVec 5) (funct : BitVec 6) (i : Nat) :
    (rWord op rs rt rd shamt funct).getLsbD i =
      if i < 6 then funct.getLsbD i
      else if i - 6 < 5 then shamt.getLsbD (i - 6)
      else if i - 6 - 5 < 5 then rd.getLsbD (i - 6 - 5)
      else if i - 6 - 5 - 5 < 5 then rt.getLsbD (i - 6 - 5 - 5)
      else if i - 6 - 5 - 5 - 5 < 5 then rs.getLsbD (i - 6 - 5 - 5 - 5)
      else op.getLsbD (i - 6 - 5 - 5 - 5 - 5) := by
  unfold rWord
  simp only [BitVec.getLsbD_append]

theorem iWord_bit (op : BitVec 6) (rs rt : Reg) (imm : Half) (i : Nat) :
    (iWord op rs rt imm).getLsbD i =
      if i < 16 then imm.getLsbD i
      else if i - 16 < 5 then rt.getLsbD (i - 16)
      else if i - 16 - 5 < 5 then rs.getLsbD (i - 16 - 5)
      else op.getLsbD (i - 16 - 5 - 5) := by
  unfold iWord
  simp only [BitVec.getLsbD_append]

theorem jWord_bit (op : BitVec 6) (index : BitVec 26) (i : Nat) :
    (jWord op index).getLsbD i = if i < 26 then index.getLsbD i else op.getLsbD (i - 26) := by
  unfold jWord
  simp only [BitVec.getLsbD_append]

theorem codeWord_bit (code : BitVec 20) (funct : BitVec 6) (i : Nat) :
    (codeWord code funct).getLsbD i =
      if i < 6 then funct.getLsbD i else if i - 6 < 20 then code.getLsbD (i - 6) else (0#6).getLsbD (i - 6 - 20) := by
  unfold codeWord
  simp only [BitVec.getLsbD_append]

/-! The fixed bits of each format. -/

theorem rWord_mask (op : BitVec 6) (rs rt rd : Reg) (shamt : BitVec 5) (funct : BitVec 6) :
    rWord op rs rt rd shamt funct &&& 0xFC00003F = rWord op 0 0 0 0 funct := by
  apply BitVec.eq_of_getLsbD_eq
  intro i hi
  rw [BitVec.getLsbD_and, rWord_bit, rWord_bit]
  interval_cases i <;> simp

theorem rWord_maskRs (op : BitVec 6) (rs rt rd : Reg) (shamt : BitVec 5) (funct : BitVec 6) :
    rWord op rs rt rd shamt funct &&& 0xFFE00000 = rWord op rs 0 0 0 0 := by
  apply BitVec.eq_of_getLsbD_eq
  intro i hi
  rw [BitVec.getLsbD_and, rWord_bit, rWord_bit]
  interval_cases i <;> simp

theorem iWord_mask (op : BitVec 6) (rs rt : Reg) (imm : Half) :
    iWord op rs rt imm &&& 0xFC000000 = iWord op 0 0 0 := by
  apply BitVec.eq_of_getLsbD_eq
  intro i hi
  rw [BitVec.getLsbD_and, iWord_bit, iWord_bit]
  interval_cases i <;> simp

theorem iWord_maskRt (op : BitVec 6) (rs rt : Reg) (imm : Half) :
    iWord op rs rt imm &&& 0xFC1F0000 = iWord op 0 rt 0 := by
  apply BitVec.eq_of_getLsbD_eq
  intro i hi
  rw [BitVec.getLsbD_and, iWord_bit, iWord_bit]
  interval_cases i <;> simp

theorem jWord_mask (op : BitVec 6) (index : BitVec 26) : jWord op index &&& 0xFC000000 = jWord op 0 := by
  apply BitVec.eq_of_getLsbD_eq
  intro i hi
  rw [BitVec.getLsbD_and, jWord_bit, jWord_bit]
  interval_cases i <;> simp

theorem codeWord_mask (code : BitVec 20) (funct : BitVec 6) :
    codeWord code funct &&& 0xFC00003F = codeWord 0 funct := by
  apply BitVec.eq_of_getLsbD_eq
  intro i hi
  rw [BitVec.getLsbD_and, codeWord_bit, codeWord_bit]
  interval_cases i <;> simp

/-- An instruction's encoding has the fixed bits of its row. -/
def Laws.EncodeMatchesRow.Statement (i : Instr) : Prop := encode i &&& (rowOf i).mask = (rowOf i).value

theorem Laws.EncodeMatchesRow.add (rd : Reg) (rs : Reg) (rt : Reg) : Laws.EncodeMatchesRow.Statement (.add rd rs rt) :=
  (rWord_mask _ _ _ _ _ _).trans rfl
theorem Laws.EncodeMatchesRow.addu (rd : Reg) (rs : Reg) (rt : Reg) : Laws.EncodeMatchesRow.Statement (.addu rd rs rt) :=
  (rWord_mask _ _ _ _ _ _).trans rfl
theorem Laws.EncodeMatchesRow.sub (rd : Reg) (rs : Reg) (rt : Reg) : Laws.EncodeMatchesRow.Statement (.sub rd rs rt) :=
  (rWord_mask _ _ _ _ _ _).trans rfl
theorem Laws.EncodeMatchesRow.subu (rd : Reg) (rs : Reg) (rt : Reg) : Laws.EncodeMatchesRow.Statement (.subu rd rs rt) :=
  (rWord_mask _ _ _ _ _ _).trans rfl
theorem Laws.EncodeMatchesRow.and (rd : Reg) (rs : Reg) (rt : Reg) : Laws.EncodeMatchesRow.Statement (.and rd rs rt) :=
  (rWord_mask _ _ _ _ _ _).trans rfl
theorem Laws.EncodeMatchesRow.or (rd : Reg) (rs : Reg) (rt : Reg) : Laws.EncodeMatchesRow.Statement (.or rd rs rt) :=
  (rWord_mask _ _ _ _ _ _).trans rfl
theorem Laws.EncodeMatchesRow.xor (rd : Reg) (rs : Reg) (rt : Reg) : Laws.EncodeMatchesRow.Statement (.xor rd rs rt) :=
  (rWord_mask _ _ _ _ _ _).trans rfl
theorem Laws.EncodeMatchesRow.nor (rd : Reg) (rs : Reg) (rt : Reg) : Laws.EncodeMatchesRow.Statement (.nor rd rs rt) :=
  (rWord_mask _ _ _ _ _ _).trans rfl
theorem Laws.EncodeMatchesRow.slt (rd : Reg) (rs : Reg) (rt : Reg) : Laws.EncodeMatchesRow.Statement (.slt rd rs rt) :=
  (rWord_mask _ _ _ _ _ _).trans rfl
theorem Laws.EncodeMatchesRow.sltu (rd : Reg) (rs : Reg) (rt : Reg) : Laws.EncodeMatchesRow.Statement (.sltu rd rs rt) :=
  (rWord_mask _ _ _ _ _ _).trans rfl
theorem Laws.EncodeMatchesRow.addi (rt : Reg) (rs : Reg) (imm : Half) : Laws.EncodeMatchesRow.Statement (.addi rt rs imm) :=
  (iWord_mask _ _ _ _).trans rfl
theorem Laws.EncodeMatchesRow.addiu (rt : Reg) (rs : Reg) (imm : Half) : Laws.EncodeMatchesRow.Statement (.addiu rt rs imm) :=
  (iWord_mask _ _ _ _).trans rfl
theorem Laws.EncodeMatchesRow.slti (rt : Reg) (rs : Reg) (imm : Half) : Laws.EncodeMatchesRow.Statement (.slti rt rs imm) :=
  (iWord_mask _ _ _ _).trans rfl
theorem Laws.EncodeMatchesRow.sltiu (rt : Reg) (rs : Reg) (imm : Half) : Laws.EncodeMatchesRow.Statement (.sltiu rt rs imm) :=
  (iWord_mask _ _ _ _).trans rfl
theorem Laws.EncodeMatchesRow.andi (rt : Reg) (rs : Reg) (imm : Half) : Laws.EncodeMatchesRow.Statement (.andi rt rs imm) :=
  (iWord_mask _ _ _ _).trans rfl
theorem Laws.EncodeMatchesRow.ori (rt : Reg) (rs : Reg) (imm : Half) : Laws.EncodeMatchesRow.Statement (.ori rt rs imm) :=
  (iWord_mask _ _ _ _).trans rfl
theorem Laws.EncodeMatchesRow.xori (rt : Reg) (rs : Reg) (imm : Half) : Laws.EncodeMatchesRow.Statement (.xori rt rs imm) :=
  (iWord_mask _ _ _ _).trans rfl
theorem Laws.EncodeMatchesRow.lui (rt : Reg) (imm : Half) : Laws.EncodeMatchesRow.Statement (.lui rt imm) :=
  (iWord_mask _ _ _ _).trans rfl
theorem Laws.EncodeMatchesRow.sll (rd : Reg) (rt : Reg) (shamt : Nat) : Laws.EncodeMatchesRow.Statement (.sll rd rt shamt) :=
  (rWord_mask _ _ _ _ _ _).trans rfl
theorem Laws.EncodeMatchesRow.srl (rd : Reg) (rt : Reg) (shamt : Nat) : Laws.EncodeMatchesRow.Statement (.srl rd rt shamt) :=
  (rWord_mask _ _ _ _ _ _).trans rfl
theorem Laws.EncodeMatchesRow.sra (rd : Reg) (rt : Reg) (shamt : Nat) : Laws.EncodeMatchesRow.Statement (.sra rd rt shamt) :=
  (rWord_mask _ _ _ _ _ _).trans rfl
theorem Laws.EncodeMatchesRow.sllv (rd : Reg) (rt : Reg) (rs : Reg) : Laws.EncodeMatchesRow.Statement (.sllv rd rt rs) :=
  (rWord_mask _ _ _ _ _ _).trans rfl
theorem Laws.EncodeMatchesRow.srlv (rd : Reg) (rt : Reg) (rs : Reg) : Laws.EncodeMatchesRow.Statement (.srlv rd rt rs) :=
  (rWord_mask _ _ _ _ _ _).trans rfl
theorem Laws.EncodeMatchesRow.srav (rd : Reg) (rt : Reg) (rs : Reg) : Laws.EncodeMatchesRow.Statement (.srav rd rt rs) :=
  (rWord_mask _ _ _ _ _ _).trans rfl
theorem Laws.EncodeMatchesRow.mult (rs : Reg) (rt : Reg) : Laws.EncodeMatchesRow.Statement (.mult rs rt) :=
  (rWord_mask _ _ _ _ _ _).trans rfl
theorem Laws.EncodeMatchesRow.multu (rs : Reg) (rt : Reg) : Laws.EncodeMatchesRow.Statement (.multu rs rt) :=
  (rWord_mask _ _ _ _ _ _).trans rfl
theorem Laws.EncodeMatchesRow.div (rs : Reg) (rt : Reg) : Laws.EncodeMatchesRow.Statement (.div rs rt) :=
  (rWord_mask _ _ _ _ _ _).trans rfl
theorem Laws.EncodeMatchesRow.divu (rs : Reg) (rt : Reg) : Laws.EncodeMatchesRow.Statement (.divu rs rt) :=
  (rWord_mask _ _ _ _ _ _).trans rfl
theorem Laws.EncodeMatchesRow.mfhi (rd : Reg) : Laws.EncodeMatchesRow.Statement (.mfhi rd) :=
  (rWord_mask _ _ _ _ _ _).trans rfl
theorem Laws.EncodeMatchesRow.mthi (rs : Reg) : Laws.EncodeMatchesRow.Statement (.mthi rs) :=
  (rWord_mask _ _ _ _ _ _).trans rfl
theorem Laws.EncodeMatchesRow.mflo (rd : Reg) : Laws.EncodeMatchesRow.Statement (.mflo rd) :=
  (rWord_mask _ _ _ _ _ _).trans rfl
theorem Laws.EncodeMatchesRow.mtlo (rs : Reg) : Laws.EncodeMatchesRow.Statement (.mtlo rs) :=
  (rWord_mask _ _ _ _ _ _).trans rfl
theorem Laws.EncodeMatchesRow.j (index : BitVec 26) : Laws.EncodeMatchesRow.Statement (.j index) :=
  (jWord_mask _ _).trans rfl
theorem Laws.EncodeMatchesRow.jal (index : BitVec 26) : Laws.EncodeMatchesRow.Statement (.jal index) :=
  (jWord_mask _ _).trans rfl
theorem Laws.EncodeMatchesRow.jr (rs : Reg) : Laws.EncodeMatchesRow.Statement (.jr rs) :=
  (rWord_mask _ _ _ _ _ _).trans rfl
theorem Laws.EncodeMatchesRow.jalr (rd : Reg) (rs : Reg) : Laws.EncodeMatchesRow.Statement (.jalr rd rs) :=
  (rWord_mask _ _ _ _ _ _).trans rfl
theorem Laws.EncodeMatchesRow.beq (rs : Reg) (rt : Reg) (imm : Half) : Laws.EncodeMatchesRow.Statement (.beq rs rt imm) :=
  (iWord_mask _ _ _ _).trans rfl
theorem Laws.EncodeMatchesRow.bne (rs : Reg) (rt : Reg) (imm : Half) : Laws.EncodeMatchesRow.Statement (.bne rs rt imm) :=
  (iWord_mask _ _ _ _).trans rfl
theorem Laws.EncodeMatchesRow.blez (rs : Reg) (imm : Half) : Laws.EncodeMatchesRow.Statement (.blez rs imm) :=
  (iWord_mask _ _ _ _).trans rfl
theorem Laws.EncodeMatchesRow.bgtz (rs : Reg) (imm : Half) : Laws.EncodeMatchesRow.Statement (.bgtz rs imm) :=
  (iWord_mask _ _ _ _).trans rfl
theorem Laws.EncodeMatchesRow.bltz (rs : Reg) (imm : Half) : Laws.EncodeMatchesRow.Statement (.bltz rs imm) :=
  (iWord_maskRt _ _ _ _).trans rfl
theorem Laws.EncodeMatchesRow.bgez (rs : Reg) (imm : Half) : Laws.EncodeMatchesRow.Statement (.bgez rs imm) :=
  (iWord_maskRt _ _ _ _).trans rfl
theorem Laws.EncodeMatchesRow.bltzal (rs : Reg) (imm : Half) : Laws.EncodeMatchesRow.Statement (.bltzal rs imm) :=
  (iWord_maskRt _ _ _ _).trans rfl
theorem Laws.EncodeMatchesRow.bgezal (rs : Reg) (imm : Half) : Laws.EncodeMatchesRow.Statement (.bgezal rs imm) :=
  (iWord_maskRt _ _ _ _).trans rfl
theorem Laws.EncodeMatchesRow.lb (rt : Reg) (rs : Reg) (imm : Half) : Laws.EncodeMatchesRow.Statement (.lb rt rs imm) :=
  (iWord_mask _ _ _ _).trans rfl
theorem Laws.EncodeMatchesRow.lbu (rt : Reg) (rs : Reg) (imm : Half) : Laws.EncodeMatchesRow.Statement (.lbu rt rs imm) :=
  (iWord_mask _ _ _ _).trans rfl
theorem Laws.EncodeMatchesRow.lh (rt : Reg) (rs : Reg) (imm : Half) : Laws.EncodeMatchesRow.Statement (.lh rt rs imm) :=
  (iWord_mask _ _ _ _).trans rfl
theorem Laws.EncodeMatchesRow.lhu (rt : Reg) (rs : Reg) (imm : Half) : Laws.EncodeMatchesRow.Statement (.lhu rt rs imm) :=
  (iWord_mask _ _ _ _).trans rfl
theorem Laws.EncodeMatchesRow.lw (rt : Reg) (rs : Reg) (imm : Half) : Laws.EncodeMatchesRow.Statement (.lw rt rs imm) :=
  (iWord_mask _ _ _ _).trans rfl
theorem Laws.EncodeMatchesRow.lwl (rt : Reg) (rs : Reg) (imm : Half) : Laws.EncodeMatchesRow.Statement (.lwl rt rs imm) :=
  (iWord_mask _ _ _ _).trans rfl
theorem Laws.EncodeMatchesRow.lwr (rt : Reg) (rs : Reg) (imm : Half) : Laws.EncodeMatchesRow.Statement (.lwr rt rs imm) :=
  (iWord_mask _ _ _ _).trans rfl
theorem Laws.EncodeMatchesRow.sb (rt : Reg) (rs : Reg) (imm : Half) : Laws.EncodeMatchesRow.Statement (.sb rt rs imm) :=
  (iWord_mask _ _ _ _).trans rfl
theorem Laws.EncodeMatchesRow.sh (rt : Reg) (rs : Reg) (imm : Half) : Laws.EncodeMatchesRow.Statement (.sh rt rs imm) :=
  (iWord_mask _ _ _ _).trans rfl
theorem Laws.EncodeMatchesRow.sw (rt : Reg) (rs : Reg) (imm : Half) : Laws.EncodeMatchesRow.Statement (.sw rt rs imm) :=
  (iWord_mask _ _ _ _).trans rfl
theorem Laws.EncodeMatchesRow.swl (rt : Reg) (rs : Reg) (imm : Half) : Laws.EncodeMatchesRow.Statement (.swl rt rs imm) :=
  (iWord_mask _ _ _ _).trans rfl
theorem Laws.EncodeMatchesRow.swr (rt : Reg) (rs : Reg) (imm : Half) : Laws.EncodeMatchesRow.Statement (.swr rt rs imm) :=
  (iWord_mask _ _ _ _).trans rfl
theorem Laws.EncodeMatchesRow.syscall (code : Nat) : Laws.EncodeMatchesRow.Statement (.syscall code) :=
  (codeWord_mask _ _).trans rfl
theorem Laws.EncodeMatchesRow.brk (code : Nat) : Laws.EncodeMatchesRow.Statement (.brk code) :=
  (codeWord_mask _ _).trans rfl
theorem Laws.EncodeMatchesRow.mfc0 (rt : Reg) (rd : Reg) : Laws.EncodeMatchesRow.Statement (.mfc0 rt rd) :=
  (rWord_maskRs _ _ _ _ _ _).trans rfl
theorem Laws.EncodeMatchesRow.mtc0 (rt : Reg) (rd : Reg) : Laws.EncodeMatchesRow.Statement (.mtc0 rt rd) :=
  (rWord_maskRs _ _ _ _ _ _).trans rfl
theorem Laws.EncodeMatchesRow.rfe : Laws.EncodeMatchesRow.Statement .rfe :=
  rfl
theorem Laws.EncodeMatchesRow.cop1 : Laws.EncodeMatchesRow.Statement .cop1 :=
  rfl
theorem Laws.EncodeMatchesRow.cop2 : Laws.EncodeMatchesRow.Statement .cop2 :=
  rfl
theorem Laws.EncodeMatchesRow.cop3 : Laws.EncodeMatchesRow.Statement .cop3 :=
  rfl
theorem Laws.EncodeMatchesRow.lwc0 (rt : Reg) (rs : Reg) (imm : Half) : Laws.EncodeMatchesRow.Statement (.lwc0 rt rs imm) :=
  (iWord_mask _ _ _ _).trans rfl
theorem Laws.EncodeMatchesRow.lwc1 (rt : Reg) (rs : Reg) (imm : Half) : Laws.EncodeMatchesRow.Statement (.lwc1 rt rs imm) :=
  (iWord_mask _ _ _ _).trans rfl
theorem Laws.EncodeMatchesRow.lwc2 (rt : Reg) (rs : Reg) (imm : Half) : Laws.EncodeMatchesRow.Statement (.lwc2 rt rs imm) :=
  (iWord_mask _ _ _ _).trans rfl
theorem Laws.EncodeMatchesRow.lwc3 (rt : Reg) (rs : Reg) (imm : Half) : Laws.EncodeMatchesRow.Statement (.lwc3 rt rs imm) :=
  (iWord_mask _ _ _ _).trans rfl
theorem Laws.EncodeMatchesRow.swc0 (rt : Reg) (rs : Reg) (imm : Half) : Laws.EncodeMatchesRow.Statement (.swc0 rt rs imm) :=
  (iWord_mask _ _ _ _).trans rfl
theorem Laws.EncodeMatchesRow.swc1 (rt : Reg) (rs : Reg) (imm : Half) : Laws.EncodeMatchesRow.Statement (.swc1 rt rs imm) :=
  (iWord_mask _ _ _ _).trans rfl
theorem Laws.EncodeMatchesRow.swc2 (rt : Reg) (rs : Reg) (imm : Half) : Laws.EncodeMatchesRow.Statement (.swc2 rt rs imm) :=
  (iWord_mask _ _ _ _).trans rfl
theorem Laws.EncodeMatchesRow.swc3 (rt : Reg) (rs : Reg) (imm : Half) : Laws.EncodeMatchesRow.Statement (.swc3 rt rs imm) :=
  (iWord_mask _ _ _ _).trans rfl

end Sys2Proof
end

