-- ==== Sys2Proof/Tests/Slice0.lean ====
section
/-! SUPPORT. The model's own tests. Expected values come from the spec: 95_test_vectors and the worked examples of the
instruction rules; the source stands beside each group. -/

namespace Sys2Proof.Tests

open Sys2Proof Sys2Proof.Machine Sys2Proof.Safety

/-! Helpers. -/

/-- Fixture F0 of 95_test_vectors: the reset state with the pc in RAM and the host inside a long `Run`. -/
def f0 : State :=
  { State.reset with pc := 0x80010000, nextPc := 0x80010004, host := { running := some ⟨0, 1000⟩, moves := [], lines := [] } }

/-- F0 inside an instruction step: phase P1 has been made. -/
def inStep : State := advance f0

/-- `s` with r1, r2 and r3 set. -/
def withRegs (a b c : Word) (s : State) : State := setGpr 3 c (setGpr 2 b (setGpr 1 a s))

/-- `s` with a word of RAM set. -/
def withWord (a w : Word) (s : State) : State := placeInMemory a w s

/-- The memory of 95_test_vectors 2.5. -/
def loadMem (s : State) : State := withWord 0x80002004 0x04050607 (withWord 0x80002000 0x80F1E2D3 s)

/-- Runs the instruction of a word. -/
def run (w : Word) (s : State) : Result := decodeExecute w s

/-- A value of the next state, when there is one. -/
def after {α : Type} (f : State → α) (r : Result) : Option α :=
  match r with
  | .next s => some (f s)
  | _ => none

/-- The reason of a fault. -/
def faultOf (r : Result) : Option Fault :=
  match r with
  | .fault e => some e
  | _ => none

/-- The reason of a refusal. -/
def refusalOf (r : Result) : Option Refusal :=
  match r with
  | .refused e => some e
  | _ => none

/-- There is a next state. -/
def goesOn (r : Result) : Bool := (after (fun _ => ()) r).isSome

/-! WellFormed: every check refuses an ill-formed term (41_shift R190: five bits; 45_system_coproc R251, R252: twenty
bits), and the largest value passes. -/

theorem test_wf_sll : WellFormed (.sll 1 2 32) = false ∧ WellFormed (.sll 1 2 31) = true := by decide
theorem test_wf_srl : WellFormed (.srl 1 2 32) = false ∧ WellFormed (.srl 1 2 31) = true := by decide
theorem test_wf_sra : WellFormed (.sra 1 2 32) = false ∧ WellFormed (.sra 1 2 31) = true := by decide
theorem test_wf_syscall : WellFormed (.syscall 0x100000) = false ∧ WellFormed (.syscall 0xFFFFF) = true := by decide
theorem test_wf_break : WellFormed (.brk 0x100000) = false ∧ WellFormed (.brk 0xFFFFF) = true := by decide

/-! Decoding: one word of every row (95_test_vectors 2.1 to 2.6 and the examples of the instruction rules; LWC0, LWC3, SWC1,
SWC2, SWC3 from the I format of 30_encoding R141 with the opcodes of R144). -/

theorem test_decode_add : decodeWord 0x00221820 = .ok (.add 3 1 2) := by decide
theorem test_decode_addu : decodeWord 0x00221821 = .ok (.addu 3 1 2) := by decide
theorem test_decode_sub : decodeWord 0x00221822 = .ok (.sub 3 1 2) := by decide
theorem test_decode_subu : decodeWord 0x00221823 = .ok (.subu 3 1 2) := by decide
theorem test_decode_and : decodeWord 0x00221824 = .ok (.and 3 1 2) := by decide
theorem test_decode_or : decodeWord 0x00221825 = .ok (.or 3 1 2) := by decide
theorem test_decode_xor : decodeWord 0x00221826 = .ok (.xor 3 1 2) := by decide
theorem test_decode_nor : decodeWord 0x00221827 = .ok (.nor 3 1 2) := by decide
theorem test_decode_slt : decodeWord 0x0022182A = .ok (.slt 3 1 2) := by decide
theorem test_decode_sltu : decodeWord 0x0022182B = .ok (.sltu 3 1 2) := by decide
theorem test_decode_addi : decodeWord 0x2022FFFF = .ok (.addi 2 1 0xFFFF) := by decide
theorem test_decode_addiu : decodeWord 0x2422FFFF = .ok (.addiu 2 1 0xFFFF) := by decide
theorem test_decode_slti : decodeWord 0x2822FFFF = .ok (.slti 2 1 0xFFFF) := by decide
theorem test_decode_sltiu : decodeWord 0x2C22FFFF = .ok (.sltiu 2 1 0xFFFF) := by decide
theorem test_decode_andi : decodeWord 0x3022FF00 = .ok (.andi 2 1 0xFF00) := by decide
theorem test_decode_ori : decodeWord 0x3422FF00 = .ok (.ori 2 1 0xFF00) := by decide
theorem test_decode_xori : decodeWord 0x3822FFFF = .ok (.xori 2 1 0xFFFF) := by decide
theorem test_decode_lui : decodeWord 0x3FE31234 = .ok (.lui 3 0x1234) := by decide
theorem test_decode_sll : decodeWord 0x00E21900 = .ok (.sll 3 2 4) := by decide
theorem test_decode_srl : decodeWord 0x00021FC2 = .ok (.srl 3 2 31) := by decide
theorem test_decode_sra : decodeWord 0x00021FC3 = .ok (.sra 3 2 31) := by decide
theorem test_decode_sllv : decodeWord 0x00221804 = .ok (.sllv 3 2 1) := by decide
theorem test_decode_srlv : decodeWord 0x00221806 = .ok (.srlv 3 2 1) := by decide
theorem test_decode_srav : decodeWord 0x00221807 = .ok (.srav 3 2 1) := by decide
theorem test_decode_mult : decodeWord 0x00220018 = .ok (.mult 1 2) := by decide
theorem test_decode_multu : decodeWord 0x00220019 = .ok (.multu 1 2) := by decide
theorem test_decode_div : decodeWord 0x0022001A = .ok (.div 1 2) := by decide
theorem test_decode_divu : decodeWord 0x0022001B = .ok (.divu 1 2) := by decide
theorem test_decode_mfhi : decodeWord 0x00001810 = .ok (.mfhi 3) := by decide
theorem test_decode_mthi : decodeWord 0x00200011 = .ok (.mthi 1) := by decide
theorem test_decode_mflo : decodeWord 0x00001812 = .ok (.mflo 3) := by decide
theorem test_decode_mtlo : decodeWord 0x00200013 = .ok (.mtlo 1) := by decide
theorem test_decode_j : decodeWord 0x0BFFFFFF = .ok (.j 0x3FFFFFF) := by decide
theorem test_decode_jal : decodeWord 0x0C0048D0 = .ok (.jal 0x48D0) := by decide
theorem test_decode_jr : decodeWord 0x00200008 = .ok (.jr 1) := by decide
theorem test_decode_jalr : decodeWord 0x00202809 = .ok (.jalr 5 1) := by decide
theorem test_decode_beq : decodeWord 0x10220010 = .ok (.beq 1 2 0x10) := by decide
theorem test_decode_bne : decodeWord 0x1420FFFD = .ok (.bne 1 0 0xFFFD) := by decide
theorem test_decode_blez : decodeWord 0x18200004 = .ok (.blez 1 4) := by decide
theorem test_decode_bgtz : decodeWord 0x1C200004 = .ok (.bgtz 1 4) := by decide
theorem test_decode_bltz : decodeWord 0x04200004 = .ok (.bltz 1 4) := by decide
theorem test_decode_bgez : decodeWord 0x04210004 = .ok (.bgez 1 4) := by decide
theorem test_decode_bltzal : decodeWord 0x07F00004 = .ok (.bltzal 31 4) := by decide
theorem test_decode_bgezal : decodeWord 0x04310004 = .ok (.bgezal 1 4) := by decide
theorem test_decode_lb : decodeWord 0x80430003 = .ok (.lb 3 2 3) := by decide
theorem test_decode_lbu : decodeWord 0x90430003 = .ok (.lbu 3 2 3) := by decide
theorem test_decode_lh : decodeWord 0x84430002 = .ok (.lh 3 2 2) := by decide
theorem test_decode_lhu : decodeWord 0x94430006 = .ok (.lhu 3 2 6) := by decide
theorem test_decode_lw : decodeWord 0x8C43FFFC = .ok (.lw 3 2 0xFFFC) := by decide
theorem test_decode_lwl : decodeWord 0x88430001 = .ok (.lwl 3 2 1) := by decide
theorem test_decode_lwr : decodeWord 0x98430001 = .ok (.lwr 3 2 1) := by decide
theorem test_decode_sb : decodeWord 0xA0410005 = .ok (.sb 1 2 5) := by decide
theorem test_decode_sh : decodeWord 0xA4410002 = .ok (.sh 1 2 2) := by decide
theorem test_decode_sw : decodeWord 0xAC410004 = .ok (.sw 1 2 4) := by decide
theorem test_decode_swl : decodeWord 0xA8410001 = .ok (.swl 1 2 1) := by decide
theorem test_decode_swr : decodeWord 0xB8410001 = .ok (.swr 1 2 1) := by decide
theorem test_decode_syscall : decodeWord 0x0003FFCC = .ok (.syscall 0xFFF) := by decide
theorem test_decode_break : decodeWord 0x0000000D = .ok (.brk 0) := by decide
theorem test_decode_mfc0 : decodeWord 0x401A6800 = .ok (.mfc0 26 13) := by decide
theorem test_decode_mtc0 : decodeWord 0x40816000 = .ok (.mtc0 1 12) := by decide
theorem test_decode_rfe : decodeWord 0x43FFFFD0 = .ok (.rfe) := by decide
theorem test_decode_cop1 : decodeWord 0x44000000 = .ok (.cop1) := by decide
theorem test_decode_cop2 : decodeWord 0x48000000 = .ok (.cop2) := by decide
theorem test_decode_cop3 : decodeWord 0x4C000000 = .ok (.cop3) := by decide
theorem test_decode_lwc0 : decodeWord 0xC0430004 = .ok (.lwc0 3 2 4) := by decide
theorem test_decode_lwc1 : decodeWord 0xC4430000 = .ok (.lwc1 3 2 0) := by decide
theorem test_decode_lwc2 : decodeWord 0xC8430000 = .ok (.lwc2 3 2 0) := by decide
theorem test_decode_lwc3 : decodeWord 0xCC430004 = .ok (.lwc3 3 2 4) := by decide
theorem test_decode_swc0 : decodeWord 0xE0430000 = .ok (.swc0 3 2 0) := by decide
theorem test_decode_swc1 : decodeWord 0xE4430004 = .ok (.swc1 3 2 4) := by decide
theorem test_decode_swc2 : decodeWord 0xE8430004 = .ok (.swc2 3 2 4) := by decide
theorem test_decode_swc3 : decodeWord 0xEC430004 = .ok (.swc3 3 2 4) := by decide

/-! Reserved words (30_encoding R148; 95_test_vectors 2.6). -/

theorem test_reserved_special : decodeWord 0x0000000E = .error .reservedSpecial := by decide
theorem test_reserved_opcode : decodeWord 0x70000000 = .error .reservedOpcode := by decide
theorem test_reserved_bcond : decodeWord 0x04020000 = .error .reservedBcond := by decide
theorem test_reserved_cop0 : decodeWord 0x42000001 = .error .reservedCop0 := by decide
theorem test_reserved_all_ones : decodeWord 0xFFFFFFFF = .error .reservedOpcode := by decide

/-- Bytes are little-endian (20_memory R100), and the bytes after the instruction are given back. -/
theorem test_decode_bytes : decode [0x20, 0x18, 0x22, 0x00, 0x55] = .ok (.add 3 1 2, [0x55]) := by decide
theorem test_decode_truncated : decode [0x20, 0x18, 0x22] = .error .truncated := by decide
theorem test_decode_table_word : decodeTableWord 32 0x00221820 = some (.add 3 1 2) := by decide

/-- The 72 rows are pairwise disjoint (30_encoding R153). -/
theorem test_table_disjoint : opcodeTable.length = 72 ∧ opcodeTable.Pairwise fun a b => a.disjoint b = true := by decide

/-! Meanings: at most two steps of each instruction; expected values from 95_test_vectors 2.1 to 2.6. -/

theorem test_add_a : after (fun s => s.gpr 3) (run 0x00221820 (withRegs 0x00000005 0xFFFFFFFF 0x00000000 inStep)) =
    some 0x00000004 := by decide
theorem test_add_b : after (fun s => (s.epc, s.cause, s.gpr 3, s.pc)) (run 0x00221820 (withRegs 0x80000000 0xFFFFFFFF 0x00000009 inStep)) =
    some (0x80010000, 0x00000030, 0x00000009, 0xBFC00180) := by decide
theorem test_addu_a : after (fun s => s.gpr 3) (run 0x00221821 (withRegs 0xFFFFFFFF 0x00000001 0x00000000 inStep)) =
    some 0x00000000 := by decide
theorem test_addu_b : after (fun s => s.gpr 3) (run 0x00221821 (withRegs 0x80000000 0x80000000 0x00000000 inStep)) =
    some 0x00000000 := by decide
theorem test_sub_a : after (fun s => s.gpr 3) (run 0x00221822 (withRegs 0x00000005 0x00000007 0x00000000 inStep)) =
    some 0xFFFFFFFE := by decide
theorem test_sub_b : after (fun s => (s.epc, s.cause, s.gpr 3, s.pc)) (run 0x00221822 (withRegs 0x80000000 0x00000001 0x00000009 inStep)) =
    some (0x80010000, 0x00000030, 0x00000009, 0xBFC00180) := by decide
theorem test_subu_a : after (fun s => s.gpr 3) (run 0x00221823 (withRegs 0x00000000 0x00000001 0x00000000 inStep)) =
    some 0xFFFFFFFF := by decide
theorem test_subu_b : after (fun s => s.gpr 3) (run 0x00221823 (withRegs 0x80000000 0x00000001 0x00000000 inStep)) =
    some 0x7FFFFFFF := by decide
theorem test_and : after (fun s => s.gpr 3) (run 0x00221824 (withRegs 0xFF00FF00 0x0FF00FF0 0x00000000 inStep)) =
    some 0x0F000F00 := by decide
theorem test_or : after (fun s => s.gpr 3) (run 0x00221825 (withRegs 0xFF00FF00 0x0FF00FF0 0x00000000 inStep)) =
    some 0xFFF0FFF0 := by decide
theorem test_xor : after (fun s => s.gpr 3) (run 0x00221826 (withRegs 0xFF00FF00 0x0FF00FF0 0x00000000 inStep)) =
    some 0xF0F0F0F0 := by decide
theorem test_nor_a : after (fun s => s.gpr 3) (run 0x00221827 (withRegs 0xFF00FF00 0x0FF00FF0 0x00000000 inStep)) =
    some 0x000F000F := by decide
theorem test_nor_b : after (fun s => s.gpr 3) (run 0x00001827 inStep) =
    some 0xFFFFFFFF := by decide
theorem test_slt_a : after (fun s => s.gpr 3) (run 0x0022182A (withRegs 0xFFFFFFFF 0x00000001 0x00000000 inStep)) =
    some 0x00000001 := by decide
theorem test_slt_b : after (fun s => s.gpr 3) (run 0x0022182A (withRegs 0x7FFFFFFF 0x80000000 0x00000007 inStep)) =
    some 0x00000000 := by decide
theorem test_sltu_a : after (fun s => s.gpr 3) (run 0x0022182B (withRegs 0xFFFFFFFF 0x00000001 0x00000007 inStep)) =
    some 0x00000000 := by decide
theorem test_sltu_b : after (fun s => s.gpr 3) (run 0x0022182B (withRegs 0x00000001 0xFFFFFFFF 0x00000000 inStep)) =
    some 0x00000001 := by decide
theorem test_addi_a : after (fun s => s.gpr 3) (run 0x2023FFFF inStep) =
    some 0xFFFFFFFF := by decide
theorem test_addi_b : after (fun s => (s.epc, s.cause, s.gpr 3, s.pc)) (run 0x20237FFF (withRegs 0x7FFF8001 0x00000000 0x00000009 inStep)) =
    some (0x80010000, 0x00000030, 0x00000009, 0xBFC00180) := by decide
theorem test_addiu_a : after (fun s => s.gpr 3) (run 0x24238000 inStep) =
    some 0xFFFF8000 := by decide
theorem test_addiu_b : after (fun s => s.gpr 3) (run 0x2423FFFF (withRegs 0x80000000 0x00000000 0x00000000 inStep)) =
    some 0x7FFFFFFF := by decide
theorem test_slti_a : after (fun s => s.gpr 3) (run 0x2823FFFF (withRegs 0xFFFFFFFE 0x00000000 0x00000000 inStep)) =
    some 0x00000001 := by decide
theorem test_slti_b : after (fun s => s.gpr 3) (run 0x28237FFF (withRegs 0x80000000 0x00000000 0x00000000 inStep)) =
    some 0x00000001 := by decide
theorem test_sltiu_a : after (fun s => s.gpr 3) (run 0x2C23FFFF (withRegs 0xFFFFFFFE 0x00000000 0x00000000 inStep)) =
    some 0x00000001 := by decide
theorem test_sltiu_b : after (fun s => s.gpr 3) (run 0x2C23FFFF (withRegs 0xFFFFFFFF 0x00000000 0x00000007 inStep)) =
    some 0x00000000 := by decide
theorem test_andi_a : after (fun s => s.gpr 3) (run 0x3023FFFF (withRegs 0x12348765 0x00000000 0x00000000 inStep)) =
    some 0x00008765 := by decide
theorem test_andi_b : after (fun s => s.gpr 3) (run 0x30238000 (withRegs 0xFFFFFFFF 0x00000000 0x00000000 inStep)) =
    some 0x00008000 := by decide
theorem test_ori_a : after (fun s => s.gpr 3) (run 0x34238000 (withRegs 0x12340000 0x00000000 0x00000000 inStep)) =
    some 0x12348000 := by decide
theorem test_ori_b : after (fun s => s.gpr 3) (run 0x3403FFFF inStep) =
    some 0x0000FFFF := by decide
theorem test_xori : after (fun s => s.gpr 3) (run 0x3823FFFF (withRegs 0xFFFFFFFF 0x00000000 0x00000000 inStep)) =
    some 0xFFFF0000 := by decide
theorem test_lui_a : after (fun s => s.gpr 3) (run 0x3C038000 (withRegs 0x00000000 0x00000000 0x00001234 inStep)) =
    some 0x80000000 := by decide
theorem test_lui_b : after (fun s => s.gpr 3) (run 0x3FE31234 ((setGpr 31 0xFFFFFFFF inStep))) =
    some 0x12340000 := by decide
theorem test_sll_a : after (fun s => s.gpr 3) (run 0x00021FC0 (withRegs 0x00000000 0x80000001 0x00000000 inStep)) =
    some 0x80000000 := by decide
theorem test_sll_b : after (fun s => s.gpr 3) (run 0x00E21900 (withRegs 0x00000000 0x00000001 0x00000000 (setGpr 7 0xFFFFFFFF inStep))) =
    some 0x00000010 := by decide
theorem test_srl_a : after (fun s => s.gpr 3) (run 0x00021842 (withRegs 0x00000000 0x80000001 0x00000000 inStep)) =
    some 0x40000000 := by decide
theorem test_srl_b : after (fun s => s.gpr 3) (run 0x00021FC2 (withRegs 0x00000000 0x80000001 0x00000000 inStep)) =
    some 0x00000001 := by decide
theorem test_sra_a : after (fun s => s.gpr 3) (run 0x00021FC3 (withRegs 0x00000000 0x80000001 0x00000000 inStep)) =
    some 0xFFFFFFFF := by decide
theorem test_sra_b : after (fun s => s.gpr 3) (run 0x00021903 (withRegs 0x00000000 0x7FFFFFF0 0x00000000 inStep)) =
    some 0x07FFFFFF := by decide
theorem test_sllv_a : after (fun s => s.gpr 3) (run 0x00221804 (withRegs 0x00000020 0x0000FFFF 0x00000000 inStep)) =
    some 0x0000FFFF := by decide
theorem test_sllv_b : after (fun s => s.gpr 3) (run 0x00221804 (withRegs 0xFFFFFFE1 0x0000FFFF 0x00000000 inStep)) =
    some 0x0001FFFE := by decide
theorem test_srlv_a : after (fun s => s.gpr 3) (run 0x00221806 (withRegs 0x00000024 0x80000001 0x00000000 inStep)) =
    some 0x08000000 := by decide
theorem test_srlv_b : after (fun s => s.gpr 3) (run 0x00221806 (withRegs 0x0000001F 0x80000001 0x00000000 inStep)) =
    some 0x00000001 := by decide
theorem test_srav_a : after (fun s => s.gpr 3) (run 0x00221807 (withRegs 0x00000024 0x80000001 0x00000000 inStep)) =
    some 0xF8000000 := by decide
theorem test_srav_b : after (fun s => s.gpr 3) (run 0x00221807 (withRegs 0x0000003F 0x80000001 0x00000000 inStep)) =
    some 0xFFFFFFFF := by decide
theorem test_mult_a : after (fun s => (s.hi, s.lo)) (run 0x00220018 (withRegs 0xFFFFFFFF 0xFFFFFFFF 0x00000000 inStep)) =
    some (0x00000000, 0x00000001) := by decide
theorem test_mult_b : after (fun s => (s.hi, s.lo)) (run 0x00220018 (withRegs 0x80000000 0x7FFFFFFF 0x00000000 inStep)) =
    some (0xC0000000, 0x80000000) := by decide
theorem test_multu_a : after (fun s => (s.hi, s.lo)) (run 0x00220019 (withRegs 0xFFFFFFFF 0xFFFFFFFF 0x00000000 inStep)) =
    some (0xFFFFFFFE, 0x00000001) := by decide
theorem test_multu_b : after (fun s => (s.hi, s.lo)) (run 0x00220019 (withRegs 0x80000000 0x80000000 0x00000000 inStep)) =
    some (0x40000000, 0x00000000) := by decide
theorem test_div_a : after (fun s => (s.hi, s.lo)) (run 0x0022001A (withRegs 0xFFFFFFF9 0xFFFFFFFE 0x00000000 inStep)) =
    some (0xFFFFFFFF, 0x00000003) := by decide
theorem test_div_b : after (fun s => (s.hi, s.lo)) (run 0x0022001A (withRegs 0x80000000 0x00000000 0x00000000 inStep)) =
    some (0x80000000, 0x00000001) := by decide
theorem test_divu_a : after (fun s => (s.hi, s.lo)) (run 0x0022001B (withRegs 0xFFFFFFFF 0x00000002 0x00000000 inStep)) =
    some (0x00000001, 0x7FFFFFFF) := by decide
theorem test_divu_b : after (fun s => (s.hi, s.lo)) (run 0x0022001B (withRegs 0x00000005 0x00000000 0x00000000 inStep)) =
    some (0x00000005, 0xFFFFFFFF) := by decide
theorem test_mfhi : after (fun s => s.gpr 3) (run 0x00001810 { inStep with hi := 0x12345678, lo := 0x9ABCDEF0 }) =
    some 0x12345678 := by decide
theorem test_mflo : after (fun s => s.gpr 3) (run 0x00001812 { inStep with hi := 0x12345678, lo := 0x9ABCDEF0 }) =
    some 0x9ABCDEF0 := by decide
theorem test_mthi : after (fun s => (s.hi, s.lo)) (run 0x00200011 (withRegs 0xDEADBEEF 0x00000000 0x00000000 { inStep with hi := 0x00000001, lo := 0x00000002 })) =
    some (0xDEADBEEF, 0x00000002) := by decide
theorem test_mtlo : after (fun s => (s.hi, s.lo)) (run 0x00200013 (withRegs 0xDEADBEEF 0x00000000 0x00000000 { inStep with hi := 0x00000001, lo := 0x00000002 })) =
    some (0x00000001, 0xDEADBEEF) := by decide
theorem test_beq_a : after (fun s => s.nextPc) (run 0x10220010 (withRegs 0x00000005 0x00000005 0x00000000 inStep)) =
    some 0x80010044 := by decide
theorem test_beq_b : after (fun s => s.nextPc) (run 0x10008000 inStep) =
    some 0x7FFF0004 := by decide
theorem test_bne_a : after (fun s => s.nextPc) (run 0x14220010 (withRegs 0x00000005 0x00000006 0x00000000 inStep)) =
    some 0x80010044 := by decide
theorem test_bne_b : after (fun s => s.nextPc) (run 0x14220010 (withRegs 0x00000005 0x00000005 0x00000000 inStep)) =
    some 0x80010008 := by decide
theorem test_blez_a : after (fun s => s.nextPc) (run 0x18200004 inStep) =
    some 0x80010014 := by decide
theorem test_blez_b : after (fun s => s.nextPc) (run 0x18200004 (withRegs 0x00000001 0x00000000 0x00000000 inStep)) =
    some 0x80010008 := by decide
theorem test_bgtz_a : after (fun s => s.nextPc) (run 0x1C200004 (withRegs 0x00000001 0x00000000 0x00000000 inStep)) =
    some 0x80010014 := by decide
theorem test_bgtz_b : after (fun s => s.nextPc) (run 0x1C200004 (withRegs 0x80000000 0x00000000 0x00000000 inStep)) =
    some 0x80010008 := by decide
theorem test_bltz_a : after (fun s => s.nextPc) (run 0x04200004 (withRegs 0x80000000 0x00000000 0x00000000 inStep)) =
    some 0x80010014 := by decide
theorem test_bltz_b : after (fun s => s.nextPc) (run 0x04200004 inStep) =
    some 0x80010008 := by decide
theorem test_bgez_a : after (fun s => s.nextPc) (run 0x04210004 inStep) =
    some 0x80010014 := by decide
theorem test_bgez_b : after (fun s => s.nextPc) (run 0x04210004 (withRegs 0xFFFFFFFF 0x00000000 0x00000000 inStep)) =
    some 0x80010008 := by decide
theorem test_bltzal_a : after (fun s => (s.nextPc, s.gpr 31)) (run 0x04300004 (withRegs 0x00000001 0x00000000 0x00000000 (setGpr 31 0x00001111 inStep))) =
    some (0x80010008, 0x80010008) := by decide
theorem test_bltzal_b : after (fun s => (s.nextPc, s.gpr 31)) (run 0x07F00004 ((setGpr 31 0x80000000 inStep))) =
    some (0x80010014, 0x80010008) := by decide
theorem test_bgezal_a : after (fun s => (s.nextPc, s.gpr 31)) (run 0x04310004 ((setGpr 31 0x00001111 inStep))) =
    some (0x80010014, 0x80010008) := by decide
theorem test_bgezal_b : after (fun s => (s.nextPc, s.gpr 31)) (run 0x04310004 (withRegs 0xFFFFFFFF 0x00000000 0x00000000 (setGpr 31 0x00001111 inStep))) =
    some (0x80010008, 0x80010008) := by decide
theorem test_j : after (fun s => s.nextPc) (run 0x08100000 inStep) =
    some 0x80400000 := by decide
theorem test_jal : after (fun s => (s.nextPc, s.gpr 31)) (run 0x0C0048D0 ((setGpr 31 0x00001111 inStep))) =
    some (0x80012340, 0x80010008) := by decide
theorem test_jr : after (fun s => s.nextPc) (run 0x00200008 (withRegs 0xBFC00400 0x00000000 0x00000000 inStep)) =
    some 0xBFC00400 := by decide
theorem test_jalr_a : after (fun s => (s.nextPc, s.gpr 5, s.gpr 31)) (run 0x00202809 (withRegs 0x80020000 0x00000000 0x00000000 inStep)) =
    some (0x80020000, 0x80010008, 0x00000000) := by decide
theorem test_jalr_b : after (fun s => (s.nextPc, s.gpr 1)) (run 0x00200809 (withRegs 0x80020000 0x00000000 0x00000000 inStep)) =
    some (0x80020000, 0x80010008) := by decide
theorem test_lb : after (fun s => (s.load.reg, s.load.value)) (run 0x80430003 (withRegs 0x00000000 0x80002000 0xAAAAAAAA (loadMem inStep))) =
    some (3, 0xFFFFFF80) := by decide
theorem test_lbu_a : after (fun s => (s.load.reg, s.load.value)) (run 0x90430000 (withRegs 0x00000000 0x80002000 0xAAAAAAAA (loadMem inStep))) =
    some (3, 0x000000D3) := by decide
theorem test_lbu_b : after (fun s => (s.load.reg, s.load.value)) (run 0x90430003 (withRegs 0x00000000 0x80002000 0xAAAAAAAA (loadMem inStep))) =
    some (3, 0x00000080) := by decide
theorem test_lh : after (fun s => (s.load.reg, s.load.value)) (run 0x84430002 (withRegs 0x00000000 0x80002000 0xAAAAAAAA (loadMem inStep))) =
    some (3, 0xFFFF80F1) := by decide
theorem test_lhu_a : after (fun s => (s.load.reg, s.load.value)) (run 0x94430000 (withRegs 0x00000000 0x80002000 0xAAAAAAAA (loadMem inStep))) =
    some (3, 0x0000E2D3) := by decide
theorem test_lhu_b : after (fun s => (s.load.reg, s.load.value)) (run 0x94430006 (withRegs 0x00000000 0x80002000 0xAAAAAAAA (loadMem inStep))) =
    some (3, 0x00000405) := by decide
theorem test_lw : after (fun s => (s.load.reg, s.load.value)) (run 0x8C430004 (withRegs 0x00000000 0x80002000 0xAAAAAAAA (loadMem inStep))) =
    some (3, 0x04050607) := by decide
theorem test_lwl_a : after (fun s => (s.load.reg, s.load.value)) (run 0x88430000 (withRegs 0x00000000 0x80002000 0xAAAAAAAA (loadMem inStep))) =
    some (3, 0xD3AAAAAA) := by decide
theorem test_lwl_b : after (fun s => (s.load.reg, s.load.value)) (run 0x88430002 (withRegs 0x00000000 0x80002000 0xAAAAAAAA (loadMem inStep))) =
    some (3, 0xF1E2D3AA) := by decide
theorem test_lwr_a : after (fun s => (s.load.reg, s.load.value)) (run 0x98430001 (withRegs 0x00000000 0x80002000 0xAAAAAAAA (loadMem inStep))) =
    some (3, 0xAA80F1E2) := by decide
theorem test_lwr_b : after (fun s => (s.load.reg, s.load.value)) (run 0x98430003 (withRegs 0x00000000 0x80002000 0xAAAAAAAA (loadMem inStep))) =
    some (3, 0xAAAAAA80) := by decide
theorem test_sb_a : after (fun s => (wordAt s.mem 0x2000, wordAt s.mem 0x2004)) (run 0xA0410000 (withRegs 0x11223344 0x80002000 0x00000000 (loadMem inStep))) =
    some (0x80F1E244, 0x04050607) := by decide
theorem test_sb_b : after (fun s => (wordAt s.mem 0x2000, wordAt s.mem 0x2004)) (run 0xA0410005 (withRegs 0x11223344 0x80002000 0x00000000 (loadMem inStep))) =
    some (0x80F1E2D3, 0x04054407) := by decide
theorem test_sh_a : after (fun s => (wordAt s.mem 0x2000, wordAt s.mem 0x2004)) (run 0xA4410000 (withRegs 0x11223344 0x80002000 0x00000000 (loadMem inStep))) =
    some (0x80F13344, 0x04050607) := by decide
theorem test_sh_b : after (fun s => (wordAt s.mem 0x2000, wordAt s.mem 0x2004)) (run 0xA4410006 (withRegs 0x11223344 0x80002000 0x00000000 (loadMem inStep))) =
    some (0x80F1E2D3, 0x33440607) := by decide
theorem test_sw_a : after (fun s => (wordAt s.mem 0x2000, wordAt s.mem 0x2004)) (run 0xAC410000 (withRegs 0x11223344 0x80002000 0x00000000 (loadMem inStep))) =
    some (0x11223344, 0x04050607) := by decide
theorem test_sw_b : after (fun s => (wordAt s.mem 0x2000, wordAt s.mem 0x2004)) (run 0xAC410004 (withRegs 0x11223344 0x80002000 0x00000000 (loadMem inStep))) =
    some (0x80F1E2D3, 0x11223344) := by decide
theorem test_swl_a : after (fun s => (wordAt s.mem 0x2000, wordAt s.mem 0x2004)) (run 0xA8410000 (withRegs 0x11223344 0x80002000 0x00000000 (loadMem inStep))) =
    some (0x80F1E211, 0x04050607) := by decide
theorem test_swl_b : after (fun s => (wordAt s.mem 0x2000, wordAt s.mem 0x2004)) (run 0xA8410002 (withRegs 0x11223344 0x80002000 0x00000000 (loadMem inStep))) =
    some (0x80112233, 0x04050607) := by decide
theorem test_swr_a : after (fun s => (wordAt s.mem 0x2000, wordAt s.mem 0x2004)) (run 0xB8410001 (withRegs 0x11223344 0x80002000 0x00000000 (loadMem inStep))) =
    some (0x223344D3, 0x04050607) := by decide
theorem test_swr_b : after (fun s => (wordAt s.mem 0x2000, wordAt s.mem 0x2004)) (run 0xB8410003 (withRegs 0x11223344 0x80002000 0x00000000 (loadMem inStep))) =
    some (0x44F1E2D3, 0x04050607) := by decide
theorem test_syscall_a : after (fun s => (s.epc, s.cause, s.sr, s.pc)) (run 0x0000000C inStep) =
    some (0x80010000, 0x00000020, 0x00400000, 0xBFC00180) := by decide
theorem test_syscall_b : after (fun s => (s.epc, s.cause, s.sr, s.pc)) (run 0x0000000C { inStep with sr := 0x0000FF15 }) =
    some (0x80010000, 0x00000020, 0x0000FF14, 0x80000080) := by decide
theorem test_break : after (fun s => (s.epc, s.cause, s.sr, s.pc)) (run 0x0000000D inStep) =
    some (0x80010000, 0x00000024, 0x00400000, 0xBFC00180) := by decide
theorem test_mfc0_a : after (fun s => (s.load.reg, s.load.value)) (run 0x40036000 (withRegs 0x00000000 0x00000000 0xAAAAAAAA inStep)) =
    some (3, 0x00400000) := by decide
theorem test_mfc0_b : after (fun s => (s.load.reg, s.load.value)) (run 0x40031800 (withRegs 0x00000000 0x00000000 0xAAAAAAAA inStep)) =
    some (3, 0x00000000) := by decide
theorem test_mtc0_a : after (fun s => s.sr) (run 0x40816000 (withRegs 0x10010401 0x00000000 0x00000000 inStep)) =
    some 0x10010401 := by decide
theorem test_mtc0_b : after (fun s => s.cause) (run 0x40816800 (withRegs 0xFFFFFFFF 0x00000000 0x00000000 inStep)) =
    some 0x00000300 := by decide
theorem test_rfe_a : after (fun s => s.sr) (run 0x42000010 { inStep with sr := 0x0040FF34 }) =
    some 0x0040FF3D := by decide
theorem test_rfe_b : after (fun s => s.sr) (run 0x42000010 { inStep with sr := 0x00000030 }) =
    some 0x0000003C := by decide
theorem test_cop1 : after (fun s => (s.epc, s.cause, s.sr, s.pc)) (run 0x44000000 { inStep with sr := 0x20400000 }) =
    some (0x80010000, 0x1000002C, 0x20400000, 0xBFC00180) := by decide
theorem test_cop3 : after (fun s => (s.epc, s.cause, s.sr, s.pc)) (run 0x4C000000 inStep) =
    some (0x80010000, 0x3000002C, 0x00400000, 0xBFC00180) := by decide
theorem test_cop2 : after (fun s => (s.epc, s.cause, s.sr, s.pc)) (run 0x48000000 inStep) =
    some (0x80010000, 0x2000002C, 0x00400000, 0xBFC00180) := by decide
theorem test_lwc1 : after (fun s => (s.epc, s.cause, s.sr, s.pc)) (run 0xC4430000 (withRegs 0x00000000 0x80002001 0x00000000 inStep)) =
    some (0x80010000, 0x1000002C, 0x00400000, 0xBFC00180) := by decide
theorem test_swc0 : after (fun s => (s.epc, s.cause, s.sr, s.pc)) (run 0xE0430000 (withRegs 0x00000000 0x80002000 0x00000000 inStep)) =
    some (0x80010000, 0x0000002C, 0x00400000, 0xBFC00180) := by decide
theorem test_lwc2 : after (fun s => (s.epc, s.cause, s.sr, s.pc)) (run 0xC8430000 (withRegs 0x00000000 0x80002000 0x00000000 inStep)) =
    some (0x80010000, 0x2000002C, 0x00400000, 0xBFC00180) := by decide
theorem test_lwc0 : after (fun s => (s.cause, s.pc)) (run 0xC0430004 inStep) = some (0x0000002C, 0xBFC00180) := by decide
theorem test_lwc3 : after (fun s => (s.cause, s.pc)) (run 0xCC430004 inStep) = some (0x3000002C, 0xBFC00180) := by decide
theorem test_swc1 : after (fun s => (s.cause, s.pc)) (run 0xE4430004 inStep) = some (0x1000002C, 0xBFC00180) := by decide
theorem test_swc2 : after (fun s => (s.cause, s.pc)) (run 0xE8430004 inStep) = some (0x2000002C, 0xBFC00180) := by decide
theorem test_swc3 : after (fun s => (s.cause, s.pc)) (run 0xEC430004 inStep) = some (0x3000002C, 0xBFC00180) := by decide

/-! Stops (45_system_coproc R255, R258; 20_memory R112, R114; 95_test_vectors 2.6, 2.8). -/

theorem test_mtc0_breakpoint_stops :
    faultOf (run 0x40813800 (withRegs 1 0 0 inStep)) = some (.fatal .cop0BreakpointWrite) := by decide
theorem test_mfc0_absent_stops : faultOf (run 0x40030000 inStep) = some (.fatal .cop0Register) := by decide
theorem test_mtc0_absent_stops : faultOf (run 0x40818000 inStep) = some (.fatal .cop0Register) := by decide
theorem test_cop2_stops : refusalOf (run 0x48000000 { inStep with sr := 0x40400000 }) = some .geometryEngine := by decide
theorem test_isolated_sb_stops :
    faultOf (run 0xA0430000 { inStep with sr := 0x00410000 }) = some (.fatal .isolatedNarrowStore) := by decide
theorem test_isolated_lw_stops : refusalOf (run 0x8C430000 { inStep with sr := 0x00410000 }) = some .isolatedLoad := by
  decide
theorem test_dma_width_stops :
    faultOf (run 0x84430000 (withRegs 0 0x1F801080 0 inStep)) = some (.fatal .dmaAccessWidth) := by decide
theorem test_dma_hole_stops :
    refusalOf (run 0x8C430000 (withRegs 0 0x1F8010F8 0 inStep)) = some .dmaUnassignedWord := by decide
theorem test_cachectl_width_stops :
    faultOf (run 0x80430000 (withRegs 0 0xFFFE0130 0 inStep)) = some (.fatal .cacheCtlWidth) := by decide

/-! Exceptions and modes (95_test_vectors 2.6, 2.7). -/

theorem test_user_mfc0 : after (fun s => (s.cause, s.sr, s.pc)) (run 0x40036000 { inStep with sr := 0x00400002 }) =
    some (0x0000002C, 0x00400008, 0xBFC00180) := by decide
theorem test_user_reserved_cop0 : after (fun s => (s.cause, s.sr)) (run 0x42000001 { inStep with sr := 0x00400002 }) =
    some (0x0000002C, 0x00400008) := by decide
theorem test_user_reserved_cop0_usable :
    after (fun s => (s.cause, s.sr)) (run 0x42000001 { inStep with sr := 0x10400002 }) =
    some (0x00000028, 0x10400008) := by decide
theorem test_user_lw_kernel : after (fun s => (s.cause, s.badVAddr))
    (run 0x8C430000 (withRegs 0 0x80002000 0 { inStep with sr := 0x00400002 })) = some (0x10, 0x80002000) := by decide
theorem test_delay_slot_exception :
    after (fun s => (s.epc, s.cause, s.gpr 3, s.pc))
      (run 0x00221820 (withRegs 0x7FFFFFFF 1 9 { inStep with currentPc := 0x80010004, delaySlot := true })) =
    some (0x80010000, 0x80000030, 9, 0xBFC00180) := by decide
theorem test_unmapped_before_misaligned : after (fun s => (s.cause, s.gpr 3))
    (run 0x8C430001 (withRegs 0 0x00800000 9 inStep)) = some (0x18, 9) := by decide
theorem test_swl_unmapped_reads_first : after (fun s => s.cause) (run 0xA8430000 (withRegs 0 0x1F800400 0 inStep)) =
    some 0x18 := by decide
theorem test_pending_load_survives : after (fun s => (s.gpr 1, s.load.reg))
    (run 0x00642820 (setGpr 4 1 (withRegs 7 0 0x7FFFFFFF { inStep with load := ⟨1, 0x80F1E2D3⟩ }))) =
    some (0x80F1E2D3, 0) := by decide

/-! The step (95_test_vectors 2.7, 2.8; 70 R401, R403). -/

theorem test_step_from_reset : after (fun s => (s.gpr 1, s.pc, s.cycles, s.clock.systemTime))
    (step (State.reset.withFetchWord 32 0x2401000A)) = some (0x0000000A, 0xBFC00004, 1, 30) := by decide
theorem test_interrupt_taken : after (fun s => (s.epc, causeView s, s.sr, s.pc))
    (step (withWord 0x80010000 0x24840001 { f0 with sr := 0x00400401, irqIn := 1 })) =
    some (0x80010000, 0x00000400, 0x00400404, 0xBFC00180) := by decide
theorem test_interrupt_masked : after (fun s => (s.gpr 4, causeView s, s.pc))
    (step (withWord 0x80010000 0x24840001 { f0 with sr := 0x00400801, irqIn := 1 })) =
    some (1, 0x00000400, 0x80010004) := by decide
theorem test_store_costs_three : after (fun s => s.cycles)
    (step (withWord 0x80010000 0xA8410001 (withRegs 0x11223344 0x80002000 0 f0))) = some 3 := by decide
theorem test_cache_fill : after (fun s => ((s.line 0).tag, (s.line 0).valid, (s.line 0).word[0]))
    (step (withWord 0x80010000 0x08004000 { f0 with cacheCtl := 0x800 })) =
    some (0x00010, #v[true, false, false, false], 0x08004000) := by decide
theorem test_misaligned_fetch : after (fun s => (s.cause, s.epc, s.badVAddr))
    (step { f0 with pc := 0x80010102 }) = some (0x10, 0x80010102, 0x80010102) := by decide

/-! Bus (95_test_vectors 1.1, 1.2). -/

theorem test_segments : segmentOf 0x1FFFFFFF = .user ∧ segmentOf 0x20000000 = .invalid ∧ segmentOf 0x7FFFFFFF = .invalid ∧
    segmentOf 0x80000000 = .kernel0 ∧ segmentOf 0xA0000000 = .kernel1 ∧ segmentOf 0xDFFE0130 = .kernel2 ∧
    segmentOf 0xFFFFFFFF = .kernel2 ∧ physicalOf 0xBFC00180 = 0x1FC00180 := by decide
theorem test_duplicate_range :
    busRegister 16 ⟨0x1000, 0x1800, [.kernel0], .ram⟩ [⟨0x1000, 0x2000, [.user, .kernel0], .ram⟩] =
      .error .duplicateRange ∧
    busRegister 16 ⟨0x1000, 0x1800, [.kernel1], .ram⟩ [⟨0x1000, 0x2000, [.user, .kernel0], .ram⟩] =
      .ok [⟨0x1000, 0x2000, [.user, .kernel0], .ram⟩, ⟨0x1000, 0x1800, [.kernel1], .ram⟩] := by decide

/-! Clock (95_test_vectors 1.9 (c), 2.9). -/

/-- Two clock entries of 10 ns cycles with cadences of 100 ns and 250 ns, and a master cycle of 10 ns. -/
def twoClocks : State :=
  { f0 with
    params := { f0.params with masterNanosPerCycle := 10 }
    clock := { systemTime := 0, entries := [⟨10, some 100, some 100, 0⟩, ⟨10, some 250, some 250, 0⟩] } }

theorem test_clock_order :
    after (fun s => (s.outputs, s.clock.entries.map ClockEntry.nextUpdate)) (clockTick 26 twoClocks) =
    some ([.clockUpdate 1 260 26, .clockUpdate 0 260 26], [some 360, some 510]) := by decide
theorem test_request_update : (requestUpdate 0 10 ⟨90, [⟨30, some 120, some 120, 0⟩]⟩).entries.map ClockEntry.nextUpdate =
    [some 120] ∧ (requestUpdate 0 0 ⟨90, [⟨30, some 120, some 120, 0⟩]⟩).entries.map ClockEntry.nextUpdate = [some 90] := by
  decide

/-! DMA (95_test_vectors 1.10, 1.11, 2.10). -/

/-- A port of 2 clocks a word on channel 2, and the words of 95_test_vectors 1.10. -/
def dmaBase : State :=
  withWord 0x10C 0x1003 (withWord 0x108 0x1002 (withWord 0x104 0x1001 (withWord 0x100 0x1000
    { f0 with params := { f0.params with dmaPorts := #v[none, none, some 2, none, none, none, none] } })))

/-- `s` with MADR and BCR of a channel set. -/
def withChannel (n : Fin 7) (madr bcr chcr : Word) (s : State) : State := setChan n ⟨madr, bcr, chcr, 0⟩ s

theorem test_dma_manual :
    after (fun s => (s.outputs.reverse, s.clock.systemTime, (s.chan 2).chcr, s.dma.active))
      (deviceWrite .dma .user .word 0x28 0x11000001 (withChannel 2 0x100 4 0 dmaBase)) =
    some ([.deviceWrite .dma .user 32 0x28 0x11000001, .portWrite 2 0x1000, .portWrite 2 0x1001, .portWrite 2 0x1002,
      .portWrite 2 0x1003], 240, 1, none) := by
  decide
theorem test_dma_list :
    after (fun s => (s.outputs.reverse, s.clock.systemTime, (s.chan 2).chcr))
      (deviceWrite .dma .user .word 0x28 0x01000401 (withWord 0x400 0x02FFFFFF (withWord 0x404 0xAAAA0001
        (withWord 0x408 0xAAAA0002 (withChannel 2 0x400 0 0
          { f0 with env := { f0.env with waits := [some 0, some 0] } }))))) =
    some ([.deviceWrite .dma .user 32 0x28 0x01000401, .portPoll 2 true, .portWrite 2 0xAAAA0001, .portPoll 2 true,
      .portWrite 2 0xAAAA0002], 60, 0x401) := by
  decide
theorem test_dma_ordering_table :
    after (fun s => (wordAt s.mem 0x510, wordAt s.mem 0x50C, wordAt s.mem 0x508, wordAt s.mem 0x504, (s.chan 6).chcr))
      (deviceWrite .dma .user .word 0x68 0x11000002 (withChannel 6 0x510 4 2 f0)) =
    some (0x50C, 0x508, 0x504, 0x00FFFFFF, 2) := by decide
theorem test_dma_table_wraps :
    after (fun s => (wordAt s.mem 4, wordAt s.mem 0, wordAt s.mem 0x1FFFFC))
      (deviceWrite .dma .user .word 0x68 0x11000002 (withChannel 6 4 3 2 f0)) = some (0, 0x001FFFFC, 0x00FFFFFF) := by decide
theorem test_dma_suspends :
    after (fun s => (s.dma.active, s.dma.blocksLeft, s.dma.ramAddress, s.clock.systemTime))
      (deviceWrite .dma .user .word 0x28 0x01000201 (withChannel 2 0x300 0x00020003 0
        { f0 with env := { f0.env with waits := [some 0, some 1] } })) = some (some 2, 1, 0x30C, 90) := by decide
theorem test_dma_write_masks :
    after (fun s => (s.chan 2).madr) (deviceWrite .dma .user .word 0x20 0xFFFFFFFF f0) = some 0x00FFFFFF ∧
    after (fun s => (s.chan 2).chcr) (deviceWrite .dma .user .word 0x28 0xFEFFFFFF f0) = some 0x70770703 ∧
    after (fun s => (s.chan 6).chcr) (deviceWrite .dma .user .word 0x68 0 f0) = some 2 := by decide

/-! Device ports and configuration (20_memory R80, R82; 61 R322; 70 R402, R420). -/

theorem test_transaction_outputs : after (fun s => s.outputs)
    (run 0xA0430011 (withRegs 0 0xBF801800 0xAABBCCDD inStep)) = some [.deviceWrite .gpu .kernel1 8 1 0xDD] := by decide
theorem test_port_request : after (fun s => (s.clock.entries.map ClockEntry.nextUpdate, s.env.requests))
    (deviceWrite .gpu .user .word 0 5 { twoClocks with
      env := { twoClocks.env with requests := [[.requestUpdate 0 3], []] } }) = some ([some 30, some 250], [[]]) := by
  decide
theorem test_bus_capacity : faultOf (construct { params := { busMaxDevices := 15 } }) = some (.fatal .busCapacity) ∧
    faultOf (construct { ranges := busTable ++ busTable }) = some (.fatal .duplicateRange) := by decide
theorem test_clock_capacity :
    faultOf (construct { params := { clockMaxDevices := 1 }, clocks := [10, 20] }) = some (.fatal .clockCapacity) ∧
    after (fun s => s.clock.entries) (construct { clocks := [10, 20], requests := [.setDefaultUpdateFrequency 1 5] }) =
      some [⟨10, none, none, 0⟩, ⟨20, some 100, some 100, 0⟩] := by decide
theorem test_bios_size : faultOf (construct { bios := some [1, 2, 3] }) = some .biosImageSize ∧
    wordAt (biosMemory [0x0A, 0x00, 0x01, 0x24]) 0x1FC00000 = 0x2401000A := by decide

/-! Witnesses: for each statement with hypotheses, a state and operands that meet them, clause by clause. -/

/-- F0 in user mode, CU0 = 0, in a step at 0x00010000. -/
def userStep : State := { inStep with sr := 0x00400002, currentPc := 0x00010000 }

/-- The entries of the three byte arrays (20_memory R95). -/
def ramEntry : BusEntry := ⟨0x00000000, 0x00800000, mirrored, .ram⟩
def scratchpadEntry : BusEntry := ⟨0x1F800000, 0x1F800400, [.user, .kernel0], .scratchpad⟩
def biosEntry : BusEntry := ⟨0x1FC00000, 0x1FC80000, mirrored, .bios⟩

/-- F0 with the cache isolated. -/
def isolatedStep : State := { inStep with sr := 0x00410000 }

theorem test_witness_encode : WellFormed (.sll 31 31 31) = true ∧ WellFormed (.brk 0xFFFFF) = true := by decide
theorem test_witness_decode : decodeWord 0xFC00083F ≠ .ok .rfe ∧ decodeWord 0x03E0F809 = .ok (.jalr 31 31) := by decide
theorem test_witness_table_row : rowOf .rfe ∈ opcodeTable ∧ (rowOf .rfe).matches 0x43FFFFD0 = true := by decide

/-! The step. -/

theorem test_witness_step : f0.fatal = none ∧ f0.host.running = some ⟨0, 1000⟩ ∧ f0.cycles - 0 < (1000 : BitVec 64) ∧
    intPending f0 = false ∧ (f0.sr.getLsbD 1 = true → segmentOf f0.pc = .user) ∧ cacheable f0.pc f0 = false ∧
    f0.pc.extractLsb' 0 2 = 0 ∧ arrayAt f0.pc = some (ramEntry, 0x10000) ∧
    decode [Memory.read f0.mem 0x10000, Memory.read f0.mem 0x10001, Memory.read f0.mem 0x10002,
      Memory.read f0.mem 0x10003] = .ok (.sll 0 0 0, []) ∧ WellFormed (.sll 0 0 0) = true := by decide
/-- F0 with the cache on, which holds ADDIU r4, r4, 1 for the pc; memory holds 0 there. -/
def cachedF0 : State := { cacheFill 0x80010000 0x24840001 f0 with cacheCtl := 0x800 }

theorem test_witness_step_cached : cachedF0.fatal = none ∧ cachedF0.host.running = some ⟨0, 1000⟩ ∧
    intPending cachedF0 = false ∧ cacheable cachedF0.pc cachedF0 = true ∧ decodeWord 0x24840001 = .ok (.addiu 4 4 1) ∧
    fetch cachedF0.pc (advance cachedF0) = .ok 0x24840001 (advance cachedF0) ∧
    after (fun t => (t.gpr 4, t.outputs)) (step cachedF0) = some (1, []) := by
  refine ⟨by decide, by decide, by decide, by decide, by decide, rfl, by decide⟩
theorem test_witness_fetch_uncached : (f0.sr.getLsbD 1 = true → segmentOf 0xBFC7FFFC = .user) ∧
    (0xBFC7FFFC : Word).extractLsb' 0 2 = 0 ∧ cacheable 0xBFC7FFFC f0 = false ∧
    arrayAt 0xBFC7FFFC = some (biosEntry, 0x1FC7FFFC) := by decide
theorem test_witness_fetch_miss : cacheable 0x801FFFFC { f0 with cacheCtl := 0x800 } = true ∧
    cacheHit 0x801FFFFC { f0 with cacheCtl := 0x800 } = false ∧ arrayAt 0x801FFFFC = some (ramEntry, 0x1FFFFC) := by decide
theorem test_witness_fetch_hit : cacheable 0x80010000 { cacheFill 0x80010000 5 f0 with cacheCtl := 0x800 } = true ∧
    cacheHit 0x80010000 { cacheFill 0x80010000 5 f0 with cacheCtl := 0x800 } = true := by decide
theorem test_witness_fetch_user : intPending { f0 with sr := 2, pc := 0x80010000 } = false ∧
    ¬ (({ f0 with sr := 2 } : State).sr.getLsbD 1 = true → segmentOf 0x80010000 = .user) := by decide
theorem test_witness_fetch_unmapped : (f0.sr.getLsbD 1 = true → segmentOf 0x00800000 = .user) ∧
    claim 0x00800000 = none ∧ cacheable 0x00800000 f0 = false ∧
    cacheable 0x00800000 { f0 with cacheCtl := 0x800 } = true ∧
    cacheHit 0x00800000 { f0 with cacheCtl := 0x800 } = false := by decide
theorem test_witness_fetch_misaligned : claim 0x00000003 ≠ none ∧ (0x00000003 : Word).extractLsb' 0 2 ≠ 0 := by decide
theorem test_witness_reserved_cpu : decodeWord 0x42000001 = .error .reservedCop0 ∧
    (0x42000001 : Word).extractLsb' 26 6 = 0x10 ∧ userStep.sr.getLsbD 1 = true ∧ userStep.sr.getLsbD 28 = false := by
  decide
theorem test_witness_reserved_ri : decodeWord 0xFFFFFFFF = .error .reservedOpcode ∧
    ¬ ((0xFFFFFFFF : Word).extractLsb' 26 6 = 0x10 ∧ userStep.sr.getLsbD 1 = true ∧ userStep.sr.getLsbD 28 = false) := by
  decide
theorem test_witness_interrupt_software : intPending { f0 with sr := 0x101, cause := 0x100 } = true := by decide
theorem test_witness_interrupt_hardware : intPending { f0 with sr := 0x8001, irqIn := 0x20 } = true := by decide
theorem test_witness_time : goesOn (cpuStep f0) = true ∧ goesOn (step f0) = true := by decide

/-! Arithmetic. -/

theorem test_witness_overflow_add : (0x7FFFFFFE : Word).toInt + (1 : Word).toInt < 0x80000000 ∧
    ¬ (0x7FFFFFFF : Word).toInt + (1 : Word).toInt < 0x80000000 := by decide
theorem test_witness_overflow_sub : -0x80000000 ≤ (0x80000001 : Word).toInt - (1 : Word).toInt ∧
    ¬ -0x80000000 ≤ (0x80000000 : Word).toInt - (1 : Word).toInt := by decide
theorem test_witness_overflow_addi : -0x80000000 ≤ (0x80008000 : Word).toInt + (0x8000 : Half).toInt ∧
    ¬ -0x80000000 ≤ (0x80007FFF : Word).toInt + (0x8000 : Half).toInt := by decide
theorem test_witness_shift : (31 : Nat) < 32 := by decide
theorem test_witness_divide : (inStep.gpr 2 = 0) ∧
    ((withRegs 0x80000000 0xFFFFFFFF 0 inStep).gpr 1 = 0x80000000 ∧
      ((withRegs 0x80000000 0xFFFFFFFF 0 inStep).gpr 2).toInt = -1) ∧
    ((withRegs 0x80000000 1 0 inStep).gpr 2 ≠ 0 ∧
      ¬ ((withRegs 0x80000000 1 0 inStep).gpr 1 = 0x80000000 ∧ ((withRegs 0x80000000 1 0 inStep).gpr 2).toInt = -1)) := by
  decide

/-! Branches. -/

theorem test_witness_branch_in_slot : goesOn (exec (.beq 0 0 7) inStep) = true ∧
    (match exec (.beq 0 0 7) inStep with
      | .next t =>
        match exec (.beq 0 0 15) (advance t) with
        | .next u => goesOn (exec (.syscall 0) (advance u)) && goesOn (exec (.addu 1 2 3) (advance u))
        | _ => false
      | _ => false) = true ∧ (rowOf (.syscall 0)).mnemonic ∉ branchMnemonics ∧
    (rowOf (.addu 1 2 3)).mnemonic ∉ branchMnemonics := by decide

/-! Loads and stores. -/

theorem test_witness_load_memory : inStep.sr.getLsbD 16 = false ∧
    (inStep.sr.getLsbD 1 = true → segmentOf 0x807FFFFF = .user) ∧
    addressOf 2 0xFFFF (withRegs 0 0x80800000 0 inStep) = 0x807FFFFF ∧ arrayAt 0x807FFFFF = some (ramEntry, 0x1FFFFF) := by
  decide
theorem test_witness_load_memory_user : userStep.sr.getLsbD 16 = false ∧
    (userStep.sr.getLsbD 1 = true → segmentOf 0x1F8003FC = .user) ∧
    arrayAt 0x1F8003FC = some (scratchpadEntry, 0x1F8003FC) ∧ (0x1F8003FC : Word).extractLsb' 0 2 = 0 := by decide
theorem test_witness_load_half : arrayAt 0xBFC7FFFE = some (biosEntry, 0x1FC7FFFE) ∧ (0xBFC7FFFE : Word).getLsbD 0 = false := by
  decide
theorem test_witness_load_device : claim 0x1F07FFFC = some ⟨0x1F000000, 0x1F080000, mirrored, .expansion1⟩ ∧
    deviceRead .expansion1 .user .word 0x7FFFC inStep = .ok 0xFFFFFFFF
      { inStep with outputs := [.deviceRead .expansion1 .user 32 0x7FFFC] } ∧
    deviceRead .expansion1 .user .half 0x7FFFE inStep = .ok 0x0000FFFF
      { inStep with outputs := [.deviceRead .expansion1 .user 16 0x7FFFE] } ∧
    deviceRead .expansion1 .user .byte 0x7FFFF inStep = .ok 0x000000FF
      { inStep with outputs := [.deviceRead .expansion1 .user 8 0x7FFFF] } := ⟨by decide, rfl, rfl, rfl⟩
theorem test_witness_device_list : Device.spu ∈ [Device.bios, .expansion1, .memoryControl1, .peripherals, .memoryControl2,
    .interruptControl, .timers, .cdrom, .mdec, .spu, .expansion2] ∧ Width.half ≠ .word := by decide
theorem test_witness_store_memory : Memory.wf inStep.mem = true ∧ arrayAt 0x80001FFF = some (ramEntry, 0x1FFF) ∧
    ramEntry.device ≠ .bios ∧ arrayAt 0x1F800002 = some (scratchpadEntry, 0x1F800002) ∧
    (0x1F800002 : Word).getLsbD 0 = false := by decide
theorem test_witness_store_device : claim 0x1F801810 = some ⟨0x1F801810, 0x1F801818, mirrored, .gpu⟩ ∧
    goesOn (deviceWrite .gpu .user .word 0 5 inStep) = true ∧ goesOn (deviceWrite .gpu .user .half 2 5 inStep) = true ∧
    goesOn (deviceWrite .gpu .user .byte 3 5 inStep) = true := by decide
theorem test_witness_store_merge_device : claim (alignedWord 0x1F801C03) = some ⟨0x1F801C00, 0x1F802000, mirrored, .spu⟩ ∧
    deviceRead .spu .user .word 0 inStep = .ok 0 { inStep with outputs := [.deviceRead .spu .user 32 0] } ∧
    goesOn (deviceWrite .spu .user .word 0 (mergeSwl 3 0 5)
      (costing .spu { inStep with outputs := [.deviceRead .spu .user 32 0] })) = true := ⟨by decide, rfl, by decide⟩
theorem test_witness_isolated : isolatedStep.sr.getLsbD 16 = true ∧
    (isolatedStep.sr.getLsbD 1 = true → segmentOf 0x00000120 = .user) ∧ isolatedStep.cacheCtl.getLsbD 2 = false ∧
    ({ isolatedStep with cacheCtl := 0x804 } : State).cacheCtl.getLsbD 2 = true := by decide
theorem test_witness_isolated_forms : Instr.swr 1 2 3 ∈ [Instr.sb 1 2 3, .sh 1 2 3, .swl 1 2 3, .swr 1 2 3] ∧
    Instr.lwr 1 2 3 ∈ loads 1 2 3 := by decide
theorem test_witness_user_address : userStep.sr.getLsbD 1 = true ∧ segmentOf 0x20000000 ≠ .user ∧
    segmentOf 0xFFFFFFFF ≠ .user ∧ Instr.swr 1 2 3 ∈ stores 1 2 3 := by decide
theorem test_witness_kernel_address : inStep.sr.getLsbD 1 = false ∧ inStep.sr.getLsbD 16 = false ∧
    cacheable 0x80000000 inStep = false := by decide
theorem test_witness_access_faults : claim 0x1F800400 = none ∧ claim 0x60000000 = none ∧
    (claim 0x80000001 ≠ none ∧ (0x80000001 : Word).getLsbD 0 = true) ∧
    (claim 0x80000002 ≠ none ∧ (0x80000002 : Word).extractLsb' 0 2 ≠ 0) := by decide

/-! Traps and coprocessors. -/

theorem test_witness_cop0_kernel : inStep.sr.getLsbD 1 = true → inStep.sr.getLsbD 28 = true := by decide
theorem test_witness_cop0_user : ({ userStep with sr := 0x10000002 } : State).sr.getLsbD 1 = true ∧
    ({ userStep with sr := 0x10000002 } : State).sr.getLsbD 28 = true := by decide
theorem test_witness_cop0_breakpoint : inStep.gpr 1 = 0 ∧ (11 : Reg) ∈ [(3 : Reg), 5, 6, 7, 9, 11] ∧
    (withRegs 1 0 0 inStep).gpr 1 ≠ 0 := by decide
theorem test_witness_cop0_absent : (16 : Reg) ∉ [(3 : Reg), 5, 6, 7, 8, 9, 11, 12, 13, 14, 15] ∧
    (4 : Reg) ∉ [(3 : Reg), 5, 6, 7, 8, 9, 11, 12, 13, 14, 15] := by decide
theorem test_witness_cop0_trap : userStep.sr.getLsbD 1 = true ∧ userStep.sr.getLsbD 28 = false ∧
    Instr.rfe ∈ [Instr.mfc0 1 2, .mtc0 1 2, .rfe] := by decide
theorem test_witness_cop2 : inStep.sr.getLsbD 30 = false ∧ ({ inStep with sr := 0x40400000 } : State).sr.getLsbD 30 = true ∧
    Instr.cop2 ∈ [Instr.cop2, .lwc2 1 2 3, .swc2 1 2 3] := by decide

/-! The Bus. -/

theorem test_witness_mirror : (0x1FFFFFFF : Word).toNat < 0x20000000 ∧ (0x1F800000 : Word).toNat < 0x20000000 := by decide
theorem test_witness_map_ram : arrayPlace 0 = some (.ram, 0) ∧ arrayPlace 0x007FFFFF = some (.ram, 0x1FFFFF) ∧
    arrayAt 0x00800000 = none := by decide
theorem test_witness_map_scratchpad : arrayPlace 0x1F800000 = some (.scratchpad, 0x1F800000) ∧
    arrayPlace 0x1F8003FF = some (.scratchpad, 0x1F8003FF) ∧ arrayAt 0x1F800400 = none := by decide
theorem test_witness_map_bios : arrayPlace 0x1FC00000 = some (.bios, 0x1FC00000) ∧
    arrayPlace 0x1FC7FFFF = some (.bios, 0x1FC7FFFF) ∧ arrayAt 0x1FC80000 = none := by decide
theorem test_witness_map_cache_control : (claim 0xFFFE0130).map BusEntry.device = some .cacheControl ∧
    (claim 0xFFFE0133).map BusEntry.device = some .cacheControl ∧
    (claim 0xDFFE0130).map BusEntry.device = some .cacheControl ∧ claim 0xFFFE0134 = none ∧ claim 0xFFFE012F = none := by
  decide
theorem test_witness_map_invalid : segmentOf 0x20000000 = .invalid ∧ segmentOf 0x7FFFFFFF = .invalid := by decide
theorem test_witness_register : 16 ≤ 16 ∧ 15 < 16 ∧
    (⟨0, 1, [.kernel2], .ram⟩ : BusEntry) ∈ [(⟨0, 1, [.kernel2], .ram⟩ : BusEntry)] := by decide
theorem test_witness_bus_faults : claim 0x1F800400 = none ∧ claim 0x00000001 ≠ none ∧ aligned .half 0x00000001 = false ∧
    aligned .word 0x00000002 = false := by decide
theorem test_witness_bus_answers : claim 0x1F07FFFE = some ⟨0x1F000000, 0x1F080000, mirrored, .expansion1⟩ ∧
    aligned .half 0x1F07FFFE = true ∧ deviceRead .expansion1 .user .half 0x7FFFE f0 = .ok 0x0000FFFF
      { f0 with outputs := [.deviceRead .expansion1 .user 16 0x7FFFE] } ∧
    deviceWrite .expansion1 .user .half 0x7FFFE 5 f0 = .next
      { f0 with outputs := [.deviceWrite .expansion1 .user 16 0x7FFFE 5] } := ⟨by decide, by decide, rfl, rfl⟩

/-! The clock. -/

theorem test_witness_request : twoClocks.clock.entries[1]? = some ⟨10, some 250, some 250, 0⟩ ∧ (0 : Nat) ≠ 1 := by decide
theorem test_witness_tick_nothing_due :
    NothingDue { twoClocks.clock with systemTime := twoClocks.clock.systemTime + 9 * 10 } :=
  (dueHandles_eq_nil _).mp (by decide)
theorem test_witness_tick : goesOn (clockTick 10 twoClocks) = true := by decide
theorem test_witness_due : twoClocks.env.callbacks = [] ∧ (∀ e ∈ twoClocks.clock.entries, e.updateFrequency ≠ some 0) ∧
    after (fun t => t.outputs.length) (clockTick 25 twoClocks) = some 2 := by decide

/-! DMA. -/

theorem test_witness_start_sync_mode : ((withChannel 2 0 0 0x01000601 dmaBase).chan 2).chcr.extractLsb' 9 2 = 3 := by
  decide
theorem test_witness_start_no_port : dmaBase.params.dmaPorts[(4 : Fin 7)] = none ∧
    (dmaBase.chan 4).chcr.extractLsb' 9 2 ≠ 3 := by decide
theorem test_witness_start_list_direction : dmaBase.params.dmaPorts[(2 : Fin 7)] ≠ none ∧
    ((withChannel 2 0 0 0x01000400 dmaBase).chan 2).chcr.extractLsb' 9 2 = 2 ∧
    ((withChannel 2 0 0 0x01000400 dmaBase).chan 2).chcr.getLsbD 0 = false := by decide
theorem test_witness_start_zero_count :
    ((withChannel 2 0 0x00040000 0x01000201 dmaBase).chan 2).chcr.extractLsb' 9 2 = 1 ∧
    ((withChannel 2 0 0x00040000 0x01000201 dmaBase).chan 2).bcr.extractLsb' 0 16 = 0 ∧
    ((withChannel 2 0 0x00000004 0x01000201 dmaBase).chan 2).bcr.extractLsb' 16 16 = 0 := by decide
theorem test_witness_manual : (2 : Fin 7) ≠ 6 ∧ dmaBase.params.dmaPorts[(2 : Fin 7)] = some 2 ∧
    ((withChannel 2 0x10C 4 0x11000003 dmaBase).chan 2).chcr.extractLsb' 9 2 = 0 ∧
    ((withChannel 2 0x10C 4 0x11000003 dmaBase).chan 2).chcr.getLsbD 0 = true ∧
    (4 : Nat) = (if ((withChannel 2 0x10C 4 0 dmaBase).chan 2).bcr.extractLsb' 0 16 = 0 then 0x10000
      else (((withChannel 2 0x10C 4 0 dmaBase).chan 2).bcr.extractLsb' 0 16).toNat) := by decide
/-- The example of 62_dma R387, device to RAM: three words of the port on channel 3 at 0x200. -/
def fromDevice : State :=
  withChannel 3 0x200 3 0x11000000 { f0 with
    params := { f0.params with dmaPorts := #v[none, none, none, some 1, none, none, none] }
    env := { f0.env with words := [0xA, 0xB, 0xC] } }

theorem test_witness_manual_from_device : (3 : Fin 7) ≠ 6 ∧ fromDevice.params.dmaPorts[(3 : Fin 7)] = some 1 ∧
    (fromDevice.chan 3).chcr.extractLsb' 9 2 = 0 ∧ (fromDevice.chan 3).chcr.getLsbD 0 = false ∧
    Memory.wf fromDevice.mem = true ∧ fromDevice.env.words = [0xA, 0xB, 0xC] ++ [] ∧
    ([0xA, 0xB, 0xC] : List Word).length = ((fromDevice.chan 3).bcr.extractLsb' 0 16).toNat ∧
    after (fun t => (wordAt t.mem 0x200, wordAt t.mem 0x204, wordAt t.mem 0x208, wordAt t.mem 0x20C, (t.chan 3).chcr))
      (dmaStart 3 fromDevice) = some (0xA, 0xB, 0xC, 0, 0) := by decide
theorem test_witness_manual_zero : (0x10000 : Nat) =
    (if ((withChannel 2 0x10C 0 0 dmaBase).chan 2).bcr.extractLsb' 0 16 = 0 then 0x10000 else 0) := by decide
theorem test_witness_ordering_table : Memory.wf f0.mem = true ∧
    ((withChannel 6 0x510 1 0x11000002 f0).chan 6).chcr.extractLsb' 9 2 = 0 ∧
    ((withChannel 6 0x510 1 0x11000002 f0).chan 6).chcr.getLsbD 0 = false ∧
    ((withChannel 6 0x510 1 0x11000002 f0).chan 6).chcr.getLsbD 1 = true ∧
    (1 : Nat) = (if ((withChannel 6 0x510 1 2 f0).chan 6).bcr.extractLsb' 0 16 = 0 then 0x10000
      else (((withChannel 6 0x510 1 2 f0).chan 6).bcr.extractLsb' 0 16).toNat) := by decide
theorem test_witness_run_nothing : f0.dma.active = none ∧ ∀ n, qualifies n f0 = false := by decide
theorem test_witness_run_starts : (withChannel 6 0x510 1 0x11000002 f0).dma.active = none ∧
    qualifies 6 (withChannel 6 0x510 1 0x11000002 f0) = true ∧
    ∀ m : Fin 7, m < 6 → qualifies m (withChannel 6 0x510 1 0x11000002 f0) = false := by decide

theorem test_witness_request_start : (2 : Fin 7) ≠ 6 ∧ dmaBase.params.dmaPorts[(2 : Fin 7)] ≠ none ∧
    ((withChannel 2 0x300 0x00020003 0x01000201 dmaBase).chan 2).chcr.extractLsb' 9 2 = 1 ∧
    ((withChannel 2 0x300 0x00020003 0x01000201 dmaBase).chan 2).bcr.extractLsb' 0 16 ≠ 0 ∧
    ((withChannel 2 0x300 0x00020003 0x01000201 dmaBase).chan 2).bcr.extractLsb' 16 16 ≠ 0 := by decide

/-- A Request transfer of two-word blocks suspended on channel 2 with `blocks` of them left: the answers of its port, and
whether it goes to the device. -/
def suspended (blocks : BitVec 17) (waits : List (Option Nat)) (words : List Word) (toDevice : Bool) : State :=
  withChannel 2 0 0 (if toDevice then 0x01000201 else 0x01000200)
    { dmaBase with
      dma := { dmaBase.dma with active := some 2, blocksLeft := blocks, blockSize := 2, ramAddress := 0x100 }
      env := { dmaBase.env with waits := waits, words := words } }

theorem test_witness_suspended : DmaOk (suspended 2 [some 0] [] true) := by
  refine ⟨?_, by decide, by decide, by decide, by decide, by decide, by decide, by decide⟩
  unfold ChannelOk
  decide
theorem test_witness_resume_not_ready : (suspended 1 [some 1] [] true).dma.active = some 2 ∧
    (suspended 1 [some 1] [] true).params.dmaPorts[(2 : Fin 7)] = some 2 ∧
    (suspended 1 [some 1] [] true).env.waits = some 1 :: [] ∧ (some 1 : Option Nat) ≠ some 0 ∧
    after (fun t => (t.dma.active, t.dma.blocksLeft, t.outputs)) (dmaRun (suspended 1 [some 1] [] true)) =
      some (some 2, 1, [.portPoll 2 false]) := by decide
/-- Two blocks left, the port ready once: one block goes out from the saved pointer, 4 words of 2 clocks of 30 ns, and the
transfer suspends again (62 R371, R374). -/
theorem test_witness_resume_to_device :
    ((suspended 2 [some 0, some 1] [] true).chan 2).chcr.getLsbD 0 = true ∧
    after (fun t => (t.outputs.reverse, t.dma.ramAddress, t.dma.active, t.dma.blocksLeft, t.clock.systemTime))
      (dmaRun (suspended 2 [some 0, some 1] [] true)) =
    some ([.portPoll 2 true, .portWrite 2 0x1000, .portWrite 2 0x1001, .portPoll 2 false], 0x108, some 2, 1, 120) := by
  decide
/-- The last block from the device: RAM holds its words, and the transfer completes (62 R371, R373). -/
theorem test_witness_resume_from_device :
    ((suspended 1 [some 0] [7, 9] false).chan 2).chcr.getLsbD 0 = false ∧
    Memory.wf (suspended 1 [some 0] [7, 9] false).mem = true ∧
    (suspended 1 [some 0] [7, 9] false).env.words = [7, 9] ++ [] ∧
    ([7, 9] : List Word).length = (suspended 1 [some 0] [7, 9] false).dma.blockSize.toNat ∧
    after (fun t => (wordAt t.mem 0x100, wordAt t.mem 0x104, wordAt t.mem 0x108, (t.chan 2).chcr, t.dma.active, t.dma.ramAddress))
      (dmaRun (suspended 1 [some 0] [7, 9] false)) = some (7, 9, 0x1002, 0x200, none, 0) := by decide

/-- A list of one node of two words, and a port that is ready. -/
def oneNode : State :=
  withChannel 2 0x400 0 0x01000401 (withWord 0x400 0x02FFFFFF { dmaBase with
    env := { dmaBase.env with waits := List.replicate 2 (some 0) } })

/-- A list of a one-word node and an empty one; the port is not ready twice. -/
def twoNodes : State :=
  withChannel 2 0x400 0 0x01000401 (withWord 0x500 0x00FFFFFF (withWord 0x404 0xAAAA0001 (withWord 0x400 0x01000500
    { dmaBase with env := { dmaBase.env with waits := [some 2] } })))

theorem test_witness_list : oneNode.params.dmaPorts[(2 : Fin 7)] = some 2 ∧
    (oneNode.chan 2).chcr.extractLsb' 9 2 = 2 ∧ (oneNode.chan 2).chcr.getLsbD 0 = true ∧
    (oneNode.chan 2).madr &&& 0x001FFFFC = 0x400 ∧ 2 = (nodeOf oneNode.mem 0x400).length ∧
    oneNode.env.waits = List.replicate 2 (some 0) ++ [] := by decide
theorem test_witness_list_linked : LinkedFrom oneNode.mem 0x400 [0x400] := by unfold LinkedFrom; decide
theorem test_witness_list_of_two : twoNodes.params.dmaPorts[(2 : Fin 7)] = some 2 ∧
    (twoNodes.chan 2).chcr.extractLsb' 9 2 = 2 ∧ (twoNodes.chan 2).chcr.getLsbD 0 = true ∧
    twoNodes.clock.entries = [] ∧ ([2] : List Nat).length = (([0x400, 0x500] : List Word).flatMap (nodeOf twoNodes.mem)).length ∧
    twoNodes.env.waits = [2].map some ++ [] ∧
    after (fun t => (t.outputs.reverse, t.clock.systemTime)) (dmaStart 2 twoNodes) =
      some ([.portPoll 2 false, .portPoll 2 false, .portPoll 2 true, .portWrite 2 0xAAAA0001], (64 + 2) * 30) := by decide
theorem test_witness_list_of_two_linked : LinkedFrom twoNodes.mem 0x400 [0x400, 0x500] := by
  unfold LinkedFrom LinkedFrom; decide
/-- A callback due while a list waits stands between the two polls (62 R375; 70 R422). -/
theorem test_list_polls_and_callbacks_alternate :
    after (fun t => t.outputs.reverse) (dmaStart 2 { twoNodes with clock := ⟨0, [⟨30, some 960, none, 0⟩]⟩ }) =
      some [.portPoll 2 false, .clockUpdate 0 960 32, .portPoll 2 false, .portPoll 2 true, .portWrite 2 0xAAAA0001] := by
  decide

/-! The whole machine. -/

theorem test_witness_host_lines : ({ f0 with host := { f0.host with lines := [some 5, none] } } : State).host.lines =
    some 5 :: [none] ∧ after (fun t => (t.irqIn, t.host.lines))
      (step { f0 with host := { f0.host with lines := [some 5, none] } }) = some (5, [none]) := by decide
theorem test_witness_host_other_moves : ∀ m ∈ [HostMove.run 5, .dmaRun, .syncToRealtime],
    goesOn (step { f0 with host := { running := none, moves := [m], lines := [] } }) = true := by decide
theorem test_witness_fatal : ({ f0 with fatal := some .dmaNoPort } : State).fatal = some .dmaNoPort ∧
    faultOf (step { f0 with fatal := some .dmaNoPort }) = some (.fatal .dmaNoPort) := by decide
theorem test_witness_host_run : f0.fatal = none ∧ f0.host.running = some ⟨0, 1000⟩ ∧
    f0.cycles - (0 : BitVec 64) < (1000 : BitVec 64) := by decide
theorem test_witness_host_moves : State.reset.host.running = none ∧ State.reset.host.moves = [] ∧
    State.reset.params.quantum ≠ 0 ∧ (1 : BitVec 64) ≤ ({ f0 with cycles := 1 } : State).cycles - 0 := by decide
theorem test_witness_invariants : Memory.wf f0.mem = true ∧ f0.regs[0] = 0 ∧ f0.cause &&& 0x4FFFFC83 = 0 ∧
    f0.busFault = none ∧ f0.cost = 0 ∧ f0.fatal = none ∧ goesOn (step f0) = true := by decide
theorem test_witness_platform : ((({} : Platform).ranges).Perm busTable ∧ ({} : Platform).clocks.length ≤ 8) ∧
    (busTable.reverse.Perm busTable ∧ (15 : Nat) < 16) ∧ (List.replicate 0x80000 (1 : Byte)).length = 0x80000 :=
  ⟨⟨.refl _, by decide⟩, ⟨List.reverse_perm _, by decide⟩, List.length_replicate⟩
theorem test_witness_platform_errors : 16 ≤ ({} : Platform).params.busMaxDevices ∧
    (∃ image, ({ bios := some [1] } : Platform).bios = some image ∧ image.length ≠ 0x80000) ∧
    0 ∈ ({ clocks := [10, 0] } : Platform).clocks ∧ 0 ∉ ({ clocks := [10] } : Platform).clocks ∧
    busWalk .kernel1 0x1F801814 (busTreeOf busTable.reverse) = busLookup .kernel1 0x1F801814 :=
  ⟨by decide, ⟨_, rfl, by decide⟩, by decide, by decide, by decide⟩
theorem test_witness_construct : goesOn (construct { ranges := busTable.reverse, clocks := [10], requests := [.requestUpdate 0 3] }) = true ∧
    refusalOf (construct { ranges := [] }) = some .platformOutsideSpec ∧
    refusalOf (construct { clocks := [0] }) = some .platformOutsideSpec := by decide
theorem test_witness_dma_invariant : (∀ n, ChannelOk f0.params n (f0.chan n)) ∧ f0.dma.active = none ∧
    f0.dma.blocksLeft = 0 ∧ f0.dma.ramAddress = 0 := by
  refine ⟨?_, by decide, by decide, by decide⟩
  unfold ChannelOk
  decide
theorem test_witness_user_state : userStep.sr.getLsbD 1 = true ∧ userStep.sr.getLsbD 28 = false ∧
    userStep.sr.getLsbD 16 = false ∧ goesOn (exec (.addu 1 2 3) userStep) = true ∧
    goesOn (exec (.syscall 0) userStep) = true := by decide

end Sys2Proof.Tests
end

/-! What a step of the machine can change, said once: `StepMoves`. The invariants of the machine, its time, its record
of outputs and its configuration (10_state R21 to R56) are read off it. -/

namespace Sys2Proof.Machine

open Sys2Proof.Safety

/-- What an instruction, a host move and a charge have in common: the fields they leave alone, the parts of the others
that they keep, and the invariants they preserve. -/
structure StepMoves (s t : State) : Prop where
  params : t.params = s.params
  fatal : t.fatal = s.fatal
  regZero : t.regs[0] = s.regs[0]
  cause : t.cause &&& 0x4FFFFC83 = s.cause &&& 0x4FFFFC83
  latch : s.busFault = none → t.busFault = none
  nanos : t.clock.entries.map ClockEntry.nanosPerCycle = s.clock.entries.map ClockEntry.nanosPerCycle
  time : s.clock.systemTime ≤ t.clock.systemTime
  made : ∃ made, t.outputs = made ++ s.outputs
  memory : MemoryOk s → MemoryOk t ∧
    ∀ x, 0x1FC00000 ≤ x → x < 0x1FC80000 → Memory.read t.mem x = Memory.read s.mem x
  dma : DmaOk s → DmaOk t

theorem StepMoves.trans {s t u : State} (h : StepMoves s t) (h' : StepMoves t u) : StepMoves s u where
  params := h'.params.trans h.params
  fatal := h'.fatal.trans h.fatal
  regZero := h'.regZero.trans h.regZero
  cause := h'.cause.trans h.cause
  latch hs := h'.latch (h.latch hs)
  nanos := h'.nanos.trans h.nanos
  time := h.time.trans h'.time
  made := by
    obtain ⟨a, ha⟩ := h.made
    obtain ⟨b, hb⟩ := h'.made
    exact ⟨b ++ a, by rw [hb, ha, List.append_assoc]⟩
  memory hs := by
    obtain ⟨hm, hr⟩ := h.memory hs
    obtain ⟨hm', hr'⟩ := h'.memory hm
    exact ⟨hm', fun x hx hx' => (hr' x hx hx').trans (hr x hx hx')⟩
  dma hs := h'.dma (h.dma hs)

/-- A change of the CPU's own fields and of the host, within what `StepMoves` says of them. -/
theorem StepMoves.of_cpuFields {s t : State}
    (frame : t = { s with
      regs := t.regs, hi := t.hi, lo := t.lo, currentPc := t.currentPc, pc := t.pc, nextPc := t.nextPc
      branch := t.branch, delaySlot := t.delaySlot, load := t.load, sr := t.sr, cause := t.cause, irqIn := t.irqIn
      epc := t.epc, badVAddr := t.badVAddr, busFault := t.busFault, cycles := t.cycles, cost := t.cost
      host := t.host })
    (regZero : t.regs[0] = s.regs[0]) (cause : t.cause &&& 0x4FFFFC83 = s.cause &&& 0x4FFFFC83)
    (latch : s.busFault = none → t.busFault = none) : StepMoves s t where
  params := by rw [frame]
  fatal := by rw [frame]
  regZero := regZero
  cause := cause
  latch := latch
  nanos := by rw [frame]
  time := by rw [frame]
  made := ⟨[], by rw [frame]; rfl⟩
  memory hs := by rw [frame]; exact ⟨hs, fun _ _ _ => rfl⟩
  dma hs := by rw [frame]; exact hs

theorem StepMoves.refl (s : State) : StepMoves s s := .of_cpuFields rfl rfl rfl id

/-- An access that leaves the Bus's fault record alone. -/
theorem AccessMoves.stepMoves {s t : State} (h : AccessMoves s t) (hb : t.busFault = s.busFault) : StepMoves s t where
  params := by rw [h.frame]
  fatal := by rw [h.frame]
  regZero := by rw [h.frame]
  cause := by rw [h.frame]
  latch hs := hb.trans hs
  nanos := h.nanos
  time := h.time
  made := h.made
  memory := h.memory
  dma := h.dma

theorem ClockMoves.stepMoves {s t : State} (h : ClockMoves s t) : StepMoves s t :=
  h.accessMoves.stepMoves (by rw [h.frame])

theorem DmaMoves.stepMoves {s t : State} (h : DmaMoves s t) (hd : DmaOk s → DmaOk t) : StepMoves s t :=
  (h.accessMoves hd).stepMoves (by rw [h.frame])

/-! Retire, exceptions and the phases around them. -/

theorem Retires.stepMoves {own : Option (Reg × Word)} {s t : State} (h : Retires own s t) : StepMoves s t := by
  obtain ⟨hf, h0, -⟩ := h
  exact .of_cpuFields (by rw [hf]) h0 (by rw [hf]) (by rw [hf]; exact id)

theorem Queues.stepMoves {i : Reg} {v : Word} {s t : State} (h : Queues i v s t) : StepMoves s t := by
  obtain ⟨hf, h0, -⟩ := h
  exact .of_cpuFields (by rw [hf]) h0 (by rw [hf]) (by rw [hf]; exact id)

/-- The bits of CAUSE without a function are among those that exception entry keeps. -/
theorem unusedCause_of_kept {x y : Word} (h : x &&& 0x4FFFFF83 = y &&& 0x4FFFFF83) :
    x &&& 0x4FFFFC83 = y &&& 0x4FFFFC83 := by
  have hm : ∀ z : Word, z &&& 0x4FFFFC83 = z &&& 0x4FFFFF83 &&& 0x4FFFFC83 := fun z => by rw [BitVec.and_assoc]; rfl
  rw [hm x, hm y, h]

theorem Enters.stepMoves {code : BitVec 5} {ce : BitVec 2} {bad : Option Word} {s t : State}
    (h : Enters code ce bad s t) : StepMoves s t := by
  obtain ⟨hf, h0, -, -, -, -, -, -, -, hc⟩ := h
  exact .of_cpuFields (by rw [hf]) h0 (unusedCause_of_kept hc) (by rw [hf]; exact fun _ => rfl)

theorem retireNone_stepMoves (s : State) : StepMoves s (retireNone s) := Retires.stepMoves (retireNone_retires s)

theorem retireWrite_stepMoves (i : Reg) (v : Word) (s : State) : StepMoves s (retireWrite i v s) :=
  Retires.stepMoves (retireWrite_retires i v s)

theorem retireLoad_stepMoves (i : Reg) (v : Word) (s : State) : StepMoves s (retireLoad i v s) :=
  Queues.stepMoves (retireLoad_queues i v s)

theorem takeException_stepMoves (e : Exc) (s : State) : StepMoves s (takeException e s) :=
  Enters.stepMoves (takeException_enters e s)

/-- Exception entry does not look at the Bus's fault record, which it clears. -/
theorem takeException_busFault (e : Exc) (f : Option BusFault) (s : State) :
    takeException e { s with busFault := f } = takeException e s := by
  unfold takeException exceptionEntry commitLoad setGpr
  simp only [apply_ite]
  split <;> rfl

/-- An access that raised: the exception clears the fault that it may have left behind (10_state R39). -/
theorem AccessMoves.raised {s t : State} (h : AccessMoves s t) (e : Exc) : StepMoves s (takeException e t) := by
  have hb : AccessMoves s { t with busFault := s.busFault } := h.trans (fields_accessMoves t _ _ _ _)
  rw [← takeException_busFault e s.busFault t]
  exact (hb.stepMoves rfl).trans (takeException_stepMoves e _)

theorem advance_stepMoves (s : State) : StepMoves s (advance s) := .of_cpuFields rfl rfl rfl id

theorem branchTo_stepMoves (taken : Bool) (target : Word) (s : State) : StepMoves s (branchTo taken target s) :=
  .of_cpuFields rfl rfl rfl id

theorem driveLines_stepMoves (s : State) : StepMoves s (driveLines s) := by
  unfold driveLines
  split
  · exact .refl s
  · exact .of_cpuFields rfl rfl rfl id

theorem setMoves_stepMoves (running : Option HostRun) (moves : List HostMove) (s : State) :
    StepMoves s (setMoves running moves s) := .of_cpuFields rfl rfl rfl id

/-! Results and accesses. -/

/-- Where the result goes on, it has moved from `s`. -/
def Moves (s : State) (r : Result) : Prop := ∀ t, r = .next t → StepMoves s t

theorem Moves.next {s t : State} (h : StepMoves s t) : Moves s (.next t) := by rintro _ ⟨⟩; exact h

theorem Moves.fault (s : State) (e : Fault) : Moves s (.fault e) := fun _ h => nomatch h

theorem Moves.refused (s : State) (e : Refusal) : Moves s (.refused e) := fun _ h => nomatch h

theorem Moves.ite {c : Prop} [Decidable c] {s : State} {r r' : Result} (h : Moves s r) (h' : Moves s r') :
    Moves s (if c then r else r') := by split; exacts [h, h']

theorem Moves.andThen {s : State} {r : Result} {f : State → Result} (h : Moves s r) (hf : ∀ u, Moves u (f u)) :
    Moves s (andThen r f) := by
  intro t ht
  obtain ⟨u, hu, ht⟩ := andThen_next ht
  exact (h u hu).trans (hf u t ht)

/-- An access moves from `s` where it gives a value, and where it raises once the exception is taken. -/
structure AccessSteps {α : Type} (s : State) (r : Access α) : Prop where
  ok : ∀ v t, r = .ok v t → StepMoves s t
  raise : ∀ e t, r = .raise e t → StepMoves s (takeException e t)

/-- What is known of the CPU's accesses (`cpuBusRead_moves` and its like) in the form that `withAccess` asks for. -/
theorem AccessSteps.of_moves {α : Type} {s : State} {r : Access α}
    (h : ∀ t, r.ends t → AccessMoves s t ∧ ∀ v, r = .ok v t → t.busFault = s.busFault) : AccessSteps s r where
  ok v t hr := (h t (.inl ⟨v, hr⟩)).1.stepMoves ((h t (.inl ⟨v, hr⟩)).2 v hr)
  raise e t hr := (h t (.inr ⟨e, hr⟩)).1.raised e

theorem AccessSteps.raised {α : Type} (e : Exc) (s : State) : AccessSteps (α := α) s (.raise e s) where
  ok _ _ h := nomatch h
  raise := by rintro _ _ ⟨⟩; exact takeException_stepMoves e s

theorem AccessSteps.fault {α : Type} (e : Fault) (s : State) : AccessSteps (α := α) s (.fault e) where
  ok _ _ h := nomatch h
  raise _ _ h := nomatch h

theorem AccessSteps.value {α : Type} {s t : State} (v : α) (h : StepMoves s t) : AccessSteps s (.ok v t) where
  ok := by rintro _ _ ⟨⟩; exact h
  raise _ _ h := nomatch h

theorem Moves.withAccess {α : Type} {s : State} {r : Access α} {f : α → State → Result} (h : AccessSteps s r)
    (hf : ∀ v u, Moves u (f v u)) : Moves s (withAccess r f) := by
  intro t ht
  cases r with
  | ok v u => exact (h.ok v u rfl).trans (hf v u t ht)
  | raise e u => cases ht; exact h.raise e u rfl
  | fault e => cases ht
  | refused e => cases ht

theorem cpuBusRead_steps (w : Width) (a : Word) (s : State) : AccessSteps s (cpuBusRead w a s) :=
  .of_moves fun _ h => cpuBusRead_moves h

theorem memRead_steps (w : Width) (a : Word) (s : State) : AccessSteps s (memRead w a s) :=
  .of_moves fun _ h => memRead_moves h

theorem memWrite_steps (w : Width) (a v : Word) (s : State) : AccessSteps s (memWrite w a v s) :=
  .of_moves fun _ h => ⟨(memWrite_moves h).1, fun _ => (memWrite_moves h).2⟩

theorem fetch_steps (a : Word) (s : State) : AccessSteps s (fetch a s) := .of_moves fun _ h => fetch_moves h

theorem unalignedRead_steps (a : Word) (s : State) : AccessSteps s (unalignedRead a s) := by
  unfold unalignedRead
  split
  · exact .raised _ s
  · exact memRead_steps _ _ s

theorem mergeRead_steps (a : Word) (s : State) : AccessSteps s (mergeRead a s) := by
  unfold mergeRead
  split
  · exact .raised _ s
  · split
    · exact .fault _ s
    · exact cpuBusRead_steps _ _ s

theorem cop0Read_steps (rd : Reg) (s : State) : AccessSteps s (cop0Read rd s) := by
  unfold cop0Read
  split
  case h_7 => exact .fault _ s
  all_goals exact .value _ (.refl s)

/-- MTC0 to CAUSE writes bits 9:8 only, which have a function (10_state R33). -/
theorem causeWritten_unused (v cause : Word) : causeWritten v cause &&& 0x4FFFFC83 = cause &&& 0x4FFFFC83 := by
  unfold causeWritten
  ext i hi
  interval_cases i <;> simp

theorem cop0Write_steps (rd : Reg) (v : Word) (s : State) : AccessSteps s (cop0Write rd v s) := by
  unfold cop0Write
  split
  case h_1 => exact .value _ (.of_cpuFields rfl rfl rfl id)
  case h_2 => exact .value _ (.of_cpuFields rfl rfl (causeWritten_unused v s.cause) id)
  case h_6 =>
    split
    · exact .value _ (.refl s)
    · exact .fault _ s
  case h_7 => exact .fault _ s
  all_goals exact .value _ (.refl s)

/-! The instructions, one lemma for each way in which they end. -/

theorem raise_moves (e : Exc) (s : State) : Moves s (raise e s) := .next (takeException_stepMoves e s)

theorem writeResult_moves (i : Reg) (v : Word) (s : State) : Moves s (writeResult i v s) :=
  .next (retireWrite_stepMoves i v s)

theorem writeHiLo_moves (hi lo : Word) (s : State) : Moves s (writeHiLo hi lo s) :=
  have h : StepMoves s { s with hi := hi, lo := lo } := .of_cpuFields rfl rfl rfl id
  .next (h.trans (retireNone_stepMoves _))

theorem branch_moves (taken : Bool) (target : Word) (s : State) : Moves s (branch taken target s) :=
  .next ((branchTo_stepMoves taken target s).trans (retireNone_stepMoves _))

theorem branchLink_moves (i : Reg) (taken : Bool) (target : Word) (s : State) : Moves s (branchLink i taken target s) :=
  .next ((branchTo_stepMoves taken target s).trans (retireWrite_stepMoves i _ _))

theorem loadWith_moves (w : Width) (ext : Word → Word) (rt rs : Reg) (imm : Half) (s : State) :
    Moves s (loadWith w ext rt rs imm s) :=
  .withAccess (memRead_steps _ _ s) fun v u => .next (retireLoad_stepMoves rt (ext v) u)

theorem loadMerge_moves (merge : BitVec 2 → Word → Word → Word) (rt rs : Reg) (imm : Half) (s : State) :
    Moves s (loadMerge merge rt rs imm s) :=
  .withAccess (unalignedRead_steps _ s) fun _ u => .next (retireLoad_stepMoves rt _ u)

theorem storeWith_moves (w : Width) (rt rs : Reg) (imm : Half) (s : State) : Moves s (storeWith w rt rs imm s) :=
  .withAccess (memWrite_steps _ _ _ s) fun _ u => .next (retireNone_stepMoves u)

theorem storeMerge_moves (merge : BitVec 2 → Word → Word → Word) (rt rs : Reg) (imm : Half) (s : State) :
    Moves s (storeMerge merge rt rs imm s) :=
  .withAccess (mergeRead_steps _ s) fun _ u =>
    .withAccess (memWrite_steps _ _ _ u) fun _ v => .next (retireNone_stepMoves v)

theorem ifCop0Usable_moves {s : State} {r : Result} (h : Moves s r) : Moves s (ifCop0Usable s r) :=
  .ite h (raise_moves _ s)

theorem geometryEngine_moves (s : State) : Moves s (geometryEngine s) := .ite (.refused s _) (raise_moves _ s)

/-- Everything an instruction can change. -/
theorem exec_moves (i : Instr) (s : State) : Moves s (exec i s) := by
  cases i with
  | add | sub | addi => exact .ite (raise_moves _ s) (writeResult_moves _ _ s)
  | addu | subu | and | or | xor | nor | slt | sltu | addiu | slti | sltiu | andi | ori | xori | lui | sll | srl | sra
  | sllv | srlv | srav | mfhi | mflo => exact writeResult_moves _ _ s
  | mult | multu | div | divu | mthi | mtlo => exact writeHiLo_moves _ _ s
  | j | jr | beq | bne | blez | bgtz | bltz | bgez => exact branch_moves _ _ s
  | jal | jalr | bltzal | bgezal => exact branchLink_moves _ _ _ s
  | lb | lbu | lh | lhu | lw => exact loadWith_moves _ _ _ _ _ s
  | lwl | lwr => exact loadMerge_moves _ _ _ _ s
  | sb | sh | sw => exact storeWith_moves _ _ _ _ s
  | swl | swr => exact storeMerge_moves _ _ _ _ s
  | mfc0 rt rd =>
    exact ifCop0Usable_moves (.withAccess (cop0Read_steps rd s) fun v u => .next (retireLoad_stepMoves rt v u))
  | mtc0 rt rd =>
    exact ifCop0Usable_moves (.withAccess (cop0Write_steps rd _ s) fun _ u => .next (retireNone_stepMoves u))
  | rfe =>
    have h : StepMoves s (returnFromException s) := .of_cpuFields rfl rfl rfl id
    exact ifCop0Usable_moves (.next (h.trans (retireNone_stepMoves _)))
  | syscall | brk | cop1 | cop3 | lwc0 | lwc1 | lwc3 | swc0 | swc1 | swc3 => exact raise_moves _ s
  | cop2 | lwc2 | swc2 => exact geometryEngine_moves s

theorem reservedWord_moves (r : DecodeReject) (s : State) : Moves s (reservedWord r s) :=
  .ite (raise_moves _ s) (raise_moves _ s)

theorem decodeExecute_moves (w : Word) (s : State) : Moves s (decodeExecute w s) := by
  unfold decodeExecute
  split
  · exact exec_moves _ s
  · exact reservedWord_moves _ s

theorem instruction_moves (s : State) : Moves s (instruction s) :=
  .ite (raise_moves _ s) (.withAccess (fetch_steps _ s) decodeExecute_moves)

/-! The charge, the CPU step and the host's moves. -/

theorem stepCost_eq_max (s : State) : stepCost s = max s.cost 1 := by
  unfold stepCost; split <;> omega

/-- Everything the charge of a step can do when its tick ends. -/
theorem charge_next {s t : State} (h : charge s = .next t) : StepMoves s t ∧ t.cost = 0 ∧
    t.clock.systemTime = s.clock.systemTime + stepCost s * s.params.masterNanosPerCycle := by
  obtain ⟨hm, -, ht⟩ := clockTick_next h
  have h0 : StepMoves s { s with cycles := s.cycles + BitVec.ofNat 64 (stepCost s), cost := 0 } :=
    .of_cpuFields rfl rfl rfl id
  exact ⟨h0.trans hm.stepMoves, by rw [hm.frame], ht⟩

/-- Everything a CPU step can do: an instruction's moves, with the cost charged and at least a cycle of time gone by. -/
theorem cpuStep_next {s t : State} (h : cpuStep s = .next t) : StepMoves s t ∧ t.cost = 0 ∧
    s.clock.systemTime + s.params.masterNanosPerCycle ≤ t.clock.systemTime := by
  obtain ⟨u, hu, h⟩ := andThen_next h
  have hm := (advance_stepMoves s).trans (instruction_moves (advance s) u hu)
  obtain ⟨hc, h0, ht⟩ := charge_next h
  refine ⟨hm.trans hc, h0, ?_⟩
  have hcost : 1 ≤ stepCost u := by rw [stepCost_eq_max]; exact le_max_right _ _
  calc s.clock.systemTime + s.params.masterNanosPerCycle
      ≤ u.clock.systemTime + stepCost u * u.params.masterNanosPerCycle := by
        rw [hm.params]; exact Nat.add_le_add hm.time (Nat.le_mul_of_pos_left _ hcost)
    _ = t.clock.systemTime := ht.symm

/-- What a CPU step or another move of the host does to the state: it moves, and keeps a cost of 0. -/
def HostMoves (s : State) (r : Result) : Prop := ∀ t, r = .next t → StepMoves s t ∧ (s.cost = 0 → t.cost = 0)

theorem cpuStep_hostMoves (s : State) : HostMoves s (cpuStep s) := fun _ h =>
  ⟨(cpuStep_next h).1, fun _ => (cpuStep_next h).2.1⟩

theorem dmaRun_hostMoves (s : State) : HostMoves s (dmaRun s) := fun t h => by
  obtain ⟨hm, hd⟩ := dmaRun_moves h
  exact ⟨hm.stepMoves hd, fun h0 => by rw [hm.frame]; exact h0⟩

theorem HostMoves.after {s u : State} {r : Result} (h : HostMoves u r) (hs : StepMoves s u) (h0 : u.cost = s.cost) :
    HostMoves s r := fun t ht => by
  obtain ⟨hm, hc⟩ := h t ht
  exact ⟨hs.trans hm, fun h => hc (h0.trans h)⟩

theorem HostMoves.setMoves {running : Option HostRun} {moves : List HostMove} {s : State} {r : Result}
    (h : HostMoves (setMoves running moves s) r) : HostMoves s r := h.after (setMoves_stepMoves running moves s) rfl

theorem next_hostMoves (s : State) : HostMoves s (.next s) := by rintro _ ⟨⟩; exact ⟨.refl s, id⟩

theorem beginRun_hostMoves (q : BitVec 64) (rest : List HostMove) (s : State) : HostMoves s (beginRun q rest s) := by
  unfold beginRun
  split
  · exact (next_hostMoves _).setMoves
  · exact (cpuStep_hostMoves _).setMoves

theorem hostMove_hostMoves (s : State) : HostMoves s (hostMove s) := by
  unfold hostMove
  split
  · exact beginRun_hostMoves _ _ s
  · exact beginRun_hostMoves _ _ s
  · exact (dmaRun_hostMoves _).setMoves
  · exact (next_hostMoves _).setMoves

theorem hostTurn_hostMoves (s : State) : HostMoves s (hostTurn s) := by
  unfold hostTurn
  split
  · split
    · exact cpuStep_hostMoves s
    · exact hostMove_hostMoves s
  · exact hostMove_hostMoves s

/-- Everything a step of the machine can do. -/
theorem step_hostMoves (s : State) : HostMoves s (step s) := by
  unfold step machineStep
  split
  · exact fun _ h => nomatch h
  · exact (hostTurn_hostMoves _).after (driveLines_stepMoves s) (driveLines_cost s)

theorem step_stepMoves {s t : State} (h : step s = .next t) : StepMoves s t := (step_hostMoves s t h).1

/-! The statements about every step. -/

/-- Settles O11: the charge by the definition of the step's cost, the time and the outputs by what a step can change. -/
theorem timeOnlyAdvances : Obligations.TimeOnlyAdvances := by
  refine ⟨fun s => ?_, fun s t h => (cpuStep_next h).2.2, fun s t h => ?_⟩
  · rw [← stepCost_eq_max]; rfl
  · exact ⟨(step_stepMoves h).time, (step_stepMoves h).made⟩

/-- Settles O55: the memory part of what a step can change. -/
theorem stepKeepsMemoryCanonical : Obligations.StepKeepsMemoryCanonical :=
  fun _ _ hs h => ((step_stepMoves h).memory hs).1

/-- Settles O56: `step_hostMoves` keeps each part, the cost by the charge or by the other moves. -/
theorem stepKeepsCpuFields : Obligations.StepKeepsCpuFields := by
  intro s t ⟨hr, hc, hb, h0, hf⟩ h
  obtain ⟨hm, hcost⟩ := step_hostMoves s t h
  exact ⟨hm.regZero.trans hr, hm.cause.trans hc, hm.latch hb, hcost h0, hm.fatal.trans hf⟩

/-- Settles O57: the DMA part of what a step can change. -/
theorem stepKeepsDmaEngine : Obligations.StepKeepsDmaEngine := fun _ _ hs h => (step_stepMoves h).dma hs

/-- Settles O59: the parameters and the cycle lengths of what a step can change. -/
theorem configurationNeverChanges : Obligations.ConfigurationNeverChanges :=
  fun _ _ h => ⟨(step_stepMoves h).params, (step_stepMoves h).nanos⟩

end Sys2Proof.Machine

/-! The host's moves and the instruction step, case by case (70_reset_and_hazards R420, R421; 10_state R26). -/

namespace Sys2Proof.Machine

open Sys2Proof.Safety

/-! The host. -/

theorem driveLines_nil {s : State} (h : s.host.lines = []) : driveLines s = s := by unfold driveLines; rw [h]

theorem driveLines_cons {s : State} {l : Option (BitVec 6)} {rest : List (Option (BitVec 6))}
    (h : s.host.lines = l :: rest) :
    driveLines s = { s with irqIn := l.getD s.irqIn, host := { s.host with lines := rest } } := by
  unfold driveLines; rw [h]

theorem step_of_fatal {s : State} {r : FatalReason} (h : s.fatal = some r) : step s = .fault (.fatal r) := by
  unfold step machineStep; rw [h]

theorem step_of_not_fatal {s : State} (h : s.fatal = none) : step s = hostTurn (driveLines s) := by
  unfold step machineStep; rw [h]

/-- While the quantum is not met a turn is a CPU step. -/
theorem hostTurn_running {s : State} {r : HostRun} (hr : s.host.running = some r)
    (hq : s.cycles - r.start < r.quantum) : hostTurn s = cpuStep s := by
  have hg : runGoesOn r s = true := decide_eq_true hq
  unfold hostTurn
  rw [hr]
  exact if_pos hg

/-- With no `Run`, or one whose quantum is met, a turn is the next move. -/
theorem hostTurn_idle {s : State} (h : ∀ r, s.host.running = some r → r.quantum ≤ s.cycles - r.start) :
    hostTurn s = hostMove s := by
  unfold hostTurn
  split
  · rename_i r hr
    have hg : ¬ runGoesOn r s = true := fun hg => BitVec.not_lt.mpr (h r hr) (of_decide_eq_true hg)
    exact if_neg hg
  · rfl

theorem beginRun_pos {q : BitVec 64} (rest : List HostMove) (s : State) (hq : q ≠ 0) :
    beginRun q rest s = cpuStep (setMoves (some ⟨s.cycles, q⟩) rest s) := if_neg hq

theorem hostMove_nil {s : State} (h : s.host.moves = []) : hostMove s = beginRun s.params.quantum loopMoves s := by
  unfold hostMove; rw [h]

theorem hostMove_run {s : State} {q : BitVec 64} {rest : List HostMove} (h : s.host.moves = .run q :: rest) :
    hostMove s = beginRun q rest s := by unfold hostMove; rw [h]

theorem hostMove_dmaRun {s : State} {rest : List HostMove} (h : s.host.moves = .dmaRun :: rest) :
    hostMove s = dmaRun (setMoves none rest s) := by unfold hostMove; rw [h]

theorem hostMove_sync {s : State} {rest : List HostMove} (h : s.host.moves = .syncToRealtime :: rest) :
    hostMove s = .next (setMoves none rest s) := by unfold hostMove; rw [h]

/-- Settles O52: the turn that the `Run` in progress calls for, then the move that is listed first. -/
theorem hostMovesFollowTheRun : Obligations.HostMovesFollowTheRun := by
  refine ⟨fun s r h => step_of_fatal h, fun s hf => ⟨driveLines_nil, fun l rest h => driveLines_cons h, ?_, ?_⟩⟩
  · intro r hr hq
    rw [step_of_not_fatal hf]
    exact hostTurn_running (by rw [driveLines_running, hr]) (by rw [driveLines_cycles]; exact hq)
  · intro hidle
    have hstep : step s = hostMove (driveLines s) := by
      rw [step_of_not_fatal hf, hostTurn_idle]
      rw [driveLines_running, driveLines_cycles]
      exact hidle
    rw [hstep]
    refine ⟨fun q rest hm hq => ?_, fun rest hm => ?_, fun rest hm => ?_, fun hm hq => ?_⟩
    · show _ = cpuStep (setMoves (some ⟨s.cycles, q⟩) rest (driveLines s))
      rw [hostMove_run (by rw [driveLines_moves, hm]), beginRun_pos _ _ hq, driveLines_cycles]
    · exact hostMove_dmaRun (by rw [driveLines_moves, hm])
    · exact hostMove_sync (by rw [driveLines_moves, hm])
    · show _ = cpuStep (setMoves (some ⟨s.cycles, s.params.quantum⟩) loopMoves (driveLines s))
      rw [hostMove_nil (by rw [driveLines_moves, hm]), driveLines_params, beginRun_pos _ _ hq, driveLines_cycles]

/-! The instruction. -/

/-- With no interrupt pending, a CPU step runs the instruction of the word that its fetch gives, and charges it. -/
theorem cpuStep_decoded {s v : State} {w : Word} {i : Instr} (hp : intPending s = false)
    (hf : fetch s.pc (advance s) = .ok w v) (hd : decodeWord w = .ok i) : cpuStep s = andThen (exec i v) charge := by
  have hp' : intPending (advance s) = false := hp
  have hf' : fetch (advance s).currentPc (advance s) = .ok w v := hf
  unfold cpuStep instruction
  rw [hp', hf']
  show andThen (decodeExecute w v) charge = _
  unfold decodeExecute
  rw [hd]

/-- A fetch that the cache does not serve, from a byte array: its word, the transaction and the latency. -/
theorem fetch_array {s : State} {a : Word} {e : BusEntry} {k : Nat} (hm : ModeAllows a s) (hc : cacheable a s = false)
    (ha : a.extractLsb' 0 2 = 0) (hk : arrayAt a = some (e, k)) :
    fetch a s = .ok (wordAt s.mem k) (afterRead e .word a s) := by
  obtain ⟨hclaim, hread⟩ := arrayAt_read hk .word s
  unfold fetch
  rw [userBlocked_of_allows hm, hc]
  exact cpuBusRead_ok hclaim ((aligned_word_iff a).mpr ha) hread

/-- The decoder reads the word that four bytes of memory make. -/
theorem decodeWord_of_decode {m : List Host.Cell} {k : Nat} {i : Instr} {rest : List Byte}
    (h : decode [Memory.read m k, Memory.read m (k + 1), Memory.read m (k + 2), Memory.read m (k + 3)] =
      .ok (i, rest)) : decodeWord (wordAt m k) = .ok i := by
  simp only [decode] at h
  split at h
  · rename_i j hj; cases h; exact hj
  · cases h

/-- Settles O6: the turn is a CPU step, and `advance` leaves what the mode check, the cache and memory look at. -/
theorem stepRunsDecodedInstruction : Obligations.StepRunsDecodedInstruction := by
  intro s q i u moved hf hr hq hp
  have hmoved : moved = advance u := by
    simp only [moved, u, advance, driveLines_pc, driveLines_nextPc, driveLines_branch]
  have hpc : s.pc = u.pc := (driveLines_pc s).symm
  have hstep : step s = cpuStep u := by
    rw [step_of_not_fatal hf]
    exact hostTurn_running (by rw [driveLines_running, hr]) (by rw [driveLines_cycles]; exact hq)
  have hrun : ∀ w v, fetch s.pc moved = .ok w v → decodeWord w = .ok i → step s = andThen (exec i v) charge := by
    intro w v hw hd
    rw [hpc, hmoved] at hw
    rw [hstep, cpuStep_decoded hp hw hd]
  refine ⟨hrun, fun e k rest hm hc ha hk hd _ => ?_⟩
  have hsr : moved.sr = s.sr := driveLines_sr s
  have hmem : moved.mem = s.mem := driveLines_mem s
  have hctl : moved.cacheCtl = s.cacheCtl := driveLines_cacheCtl s
  have hm' : ModeAllows s.pc moved := by unfold ModeAllows; rw [hsr]; exact hm
  have hc' : cacheable s.pc moved = false := by unfold cacheable cacheEnabled at *; rw [hctl]; exact hc
  refine hrun _ _ (fetch_array hm' hc' ha hk) ?_
  rw [hmem]
  exact decodeWord_of_decode hd

end Sys2Proof.Machine

/-! Block transfers word by word: the walk of the RAM pointer, the words that a run of writes leaves in memory, and the
state after any number of words of a block (62_dma R363, R371, R372, R381). -/

namespace Sys2Proof.Machine

open Sys2Proof.Safety

/-! The RAM pointer. -/

/-- The masked address: its word's number in the 2 MB of RAM, times 4. -/
theorem dmaMask_toNat (a : Word) : (a &&& dmaRamMask).toNat = a.toNat / 4 % 0x80000 * 4 := by
  have h : a &&& dmaRamMask = ((a >>> 2) &&& 0x7FFFF) <<< 2 := by
    unfold dmaRamMask
    ext i hi
    interval_cases i <;> simp
  have hm : (a.toNat >>> 2) &&& 0x7FFFF = (a.toNat >>> 2) % 0x80000 := Nat.and_two_pow_sub_one_eq_mod _ 19
  rw [h, BitVec.toNat_shiftLeft, BitVec.toNat_and, BitVec.toNat_ushiftRight]
  show (a.toNat >>> 2 &&& 0x7FFFF) <<< 2 % 2 ^ 32 = _
  rw [hm, Nat.shiftLeft_eq, Nat.shiftRight_eq_div_pow]
  omega

/-- The addresses of a transfer: word aligned inside the 2 MB, each the one before it plus or minus 4 (62 R372). -/
def PointerWalk (chcr : Word) (address : Nat → Word) : Prop :=
  address 0 &&& dmaRamMask = address 0 ∧
    ∀ j, address (j + 1) = (if chcrDescending chcr then address j - 4 else address j + 4) &&& dmaRamMask

theorem PointerWalk.masked {chcr : Word} {address : Nat → Word} (h : PointerWalk chcr address) :
    ∀ j, address j &&& dmaRamMask = address j
  | 0 => h.1
  | j + 1 => by rw [h.2 j, and_mask_idem]

/-- Going down or up from a masked address stays masked the same way. -/
theorem mask_sub_four (a : Word) : (a &&& dmaRamMask) - 4 &&& dmaRamMask = (a - 4) &&& dmaRamMask := by
  apply BitVec.eq_of_toNat_eq
  have h4 : (4 : Word).toNat = 4 := rfl
  simp only [dmaMask_toNat, BitVec.toNat_sub, h4]
  omega

theorem mask_add_four (a : Word) : (a &&& dmaRamMask) + 4 &&& dmaRamMask = (a + 4) &&& dmaRamMask := by
  apply BitVec.eq_of_toNat_eq
  have h4 : (4 : Word).toNat = 4 := rfl
  simp only [dmaMask_toNat, BitVec.toNat_add, h4]
  omega

theorem ramPointer_zero {chcr start : Word} (h : start &&& 0x001FFFFC = start) : ramPointer chcr start 0 = start := by
  have h0 : BitVec.ofNat 32 (4 * 0) = 0#32 := rfl
  unfold ramPointer
  rw [h0, BitVec.sub_zero, BitVec.add_zero, ite_self, h]

theorem ramPointer_succ (chcr start : Word) (j : Nat) : ramPointer chcr start (j + 1) =
    (if chcr.getLsbD 1 then ramPointer chcr start j - 4 else ramPointer chcr start j + 4) &&& dmaRamMask := by
  have h4 : BitVec.ofNat 32 (4 * (j + 1)) = BitVec.ofNat 32 (4 * j) + 4 := by rw [Nat.mul_succ, BitVec.ofNat_add]; rfl
  unfold ramPointer
  rw [h4]
  split
  · rw [sub_add_eq_sub_sub]; exact (mask_sub_four _).symm
  · rw [← add_assoc]; exact (mask_add_four _).symm

/-- `ramPointer` walks by any CHCR with the same step bit. -/
theorem ramPointer_walk {chcr chcr' start : Word} (hs : start &&& 0x001FFFFC = start)
    (hc : chcr'.getLsbD 1 = chcr.getLsbD 1) : PointerWalk chcr' (ramPointer chcr start) := by
  refine ⟨by rw [ramPointer_zero hs]; exact hs, fun j => ?_⟩
  unfold chcrDescending
  rw [hc]
  exact ramPointer_succ chcr start j

/-- The number of the word that is `j` words down from an address. -/
theorem dmaMask_sub_toNat (a : Word) {j : Nat} (hj : j < 0x80000) :
    ((a - BitVec.ofNat 32 (4 * j)) &&& dmaRamMask).toNat = (a.toNat / 4 + (0x80000 - j)) % 0x80000 * 4 := by
  have h4 : (BitVec.ofNat 32 (4 * j)).toNat = 4 * j := by rw [BitVec.toNat_ofNat]; omega
  rw [dmaMask_toNat, BitVec.toNat_sub, h4]
  omega

/-- The number of the word that is `j` words up from an address. -/
theorem dmaMask_add_toNat (a : Word) {j : Nat} (hj : j < 0x80000) :
    ((a + BitVec.ofNat 32 (4 * j)) &&& dmaRamMask).toNat = (a.toNat / 4 + j) % 0x80000 * 4 := by
  have h4 : (BitVec.ofNat 32 (4 * j)).toNat = 4 * j := by rw [BitVec.toNat_ofNat]; omega
  rw [dmaMask_toNat, BitVec.toNat_add, h4]
  omega

/-- No two of the first `k` addresses name overlapping words. -/
def Apart (address : Nat → Word) (k : Nat) : Prop := ∀ i j, i < j → j < k →
  (address i).toNat + 4 ≤ (address j).toNat ∨ (address j).toNat + 4 ≤ (address i).toNat

/-- The words of a transfer of at most the whole RAM do not overlap. -/
theorem ramPointer_apart (chcr start : Word) {k : Nat} (hk : k ≤ 0x80000) : Apart (ramPointer chcr start) k := by
  intro i j hij hjk
  have hj : j < 0x80000 := by omega
  have hi : i < 0x80000 := by omega
  unfold ramPointer
  split
  · have hdi := dmaMask_sub_toNat start hi
    have hdj := dmaMask_sub_toNat start hj
    unfold dmaRamMask at hdi hdj
    omega
  · have hui := dmaMask_add_toNat start hi
    have huj := dmaMask_add_toNat start hj
    unfold dmaRamMask at hui huj
    omega

/-! Runs of written words. -/

/-- Memory after the words `0` to `k - 1` are written at their addresses, in order. -/
def wordsWritten (m : List Host.Cell) (address word : Nat → Word) : Nat → List Host.Cell
  | 0 => m
  | k + 1 => Memory.writeWord (wordsWritten m address word k) (address k).toNat (word k)

section
variable {m : List Host.Cell} (hm : Memory.wf m = true) (address word : Nat → Word)
include hm

theorem wordsWritten_wf : ∀ k, Memory.wf (wordsWritten m address word k) = true
  | 0 => hm
  | k + 1 => Memory.writeWord_wf (wordsWritten_wf k) _ _

/-- A byte that none of the words covers reads as before. -/
theorem read_wordsWritten_other {x : Nat} : ∀ k, (∀ j, j < k → ¬ ((address j).toNat ≤ x ∧ x < (address j).toNat + 4)) →
    Memory.read (wordsWritten m address word k) x = Memory.read m x
  | 0, _ => rfl
  | k + 1, h => by
    rw [wordsWritten, Memory.read_writeWord (wordsWritten_wf hm address word k), if_neg (h k (Nat.lt_succ_self k))]
    exact read_wordsWritten_other k fun j hj => h j (Nat.lt_succ_of_lt hj)

/-- Each word is where it was written. -/
theorem wordAt_wordsWritten {j : Nat} : ∀ k, Apart address k → j < k →
    wordAt (wordsWritten m address word k) (address j).toNat = word j
  | k + 1, ha, hj => by
    have hwf := wordsWritten_wf hm address word k
    rw [wordsWritten, wordAt_eq_readWord]
    rcases Nat.lt_succ_iff_lt_or_eq.mp hj with hlt | rfl
    · have hd := ha j k hlt (Nat.lt_succ_self k)
      rw [Memory.readWord_writeWord_other hwf _ hd.symm]
      exact wordAt_wordsWritten k (fun i l hil hl => ha i l hil (Nat.lt_succ_of_lt hl)) hlt
    · exact Memory.readWord_writeWord hwf _ _

/-- A list of words that is written in order is stored. -/
theorem wordsWritten_stored {words : List Word} (ha : Apart address words.length)
    (hw : ∀ j, j < words.length → word j = words.getD j 0) :
    WordsStored m (wordsWritten m address word words.length) address words :=
  ⟨fun j hj => (wordAt_wordsWritten hm address word _ ha hj).trans (hw j hj),
    fun _ hx => read_wordsWritten_other hm address word _ hx⟩

end

/-! Accesses of a port. -/

/-- The state after `r` accesses of ports: their requests of the Clock made, the answers `waits` left, outputs added. -/
def portMoves (r : Nat) (waits : List (Option Nat)) (made : List Output) (s : State) : State :=
  { s with
    clock := (s.env.requests.take r).flatten.foldl applyRequest s.clock
    env := { s.env with waits := waits, requests := s.env.requests.drop r }
    outputs := made ++ s.outputs }

theorem portMoves_portMoves (r r' : Nat) (waits waits' : List (Option Nat)) (made made' : List Output) (s : State) :
    portMoves r' waits' made' (portMoves r waits made s) = portMoves (r + r') waits' (made' ++ made) s := by
  simp [portMoves, List.take_add, List.foldl_append]

theorem portRequests_moves (s : State) : portRequests s = portMoves 1 s.env.waits [] s := by
  rw [portRequests_eq]
  unfold portMoves
  cases s.env.requests <;> simp

theorem portPoll_eq (n : Fin 7) (ready : Bool) (s : State) :
    portPoll n ready s = portMoves 1 s.env.waits [.portPoll n ready] s := portRequests_moves _

theorem portWrite_eq {n : Fin 7} (hn : n ≠ otc) (v : Word) (s : State) :
    portWrite n v s = .next (portMoves 1 s.env.waits [.portWrite n v] s) :=
  (if_neg hn).trans (congrArg _ (portRequests_moves _))

theorem portRead_eq {n : Fin 7} (hn : n ≠ otc) {s : State} {w : Word} {rest : List Word} (h : s.env.words = w :: rest) :
    portRead n s =
      (w, portMoves 1 s.env.waits [.portRead n w] { s with env := { s.env with words := rest } }) := by
  unfold portRead drawWord
  rw [if_neg hn, h]
  exact congrArg _ (portRequests_moves _)

/-! The words of a block. -/

theorem andThen_assoc (r : Result) (f g : State → Result) :
    andThen (andThen r f) g = andThen r fun s => andThen (f s) g := by cases r <;> rfl

/-- The last word of a block, after the words before it. -/
theorem dmaWords_succ (n : Fin 7) : ∀ (k : Nat) (s : State), dmaWords n (k + 1) s = andThen (dmaWords n k s) (dmaWord n)
  | 0, s => by
    show andThen (dmaWord n s) (dmaWords n 0) = dmaWord n s
    cases dmaWord n s <;> rfl
  | k + 1, s => by
    show andThen (dmaWord n s) (dmaWords n (k + 1)) = andThen (andThen (dmaWord n s) (dmaWords n k)) (dmaWord n)
    rw [andThen_assoc]
    exact congrArg (andThen _) (funext (dmaWords_succ n k))

/-- One word to the device. -/
theorem dmaWord_sent {n : Fin 7} {s : State} (hn : n ≠ otc) (hd : chcrToDevice (s.chan n).chcr = true) :
    dmaWord n s = .next { portMoves 1 s.env.waits [.portWrite n (dmaRead s.dma.ramAddress s)] s with
      dma := { s.dma with ramAddress := dmaNextAddress n s } } := by
  unfold dmaWord
  rw [if_pos hd, portWrite_eq hn]
  rfl

/-- One word from the device. -/
theorem dmaWord_stored {n : Fin 7} {s : State} {w : Word} {rest : List Word} (hn : n ≠ otc)
    (hd : chcrToDevice (s.chan n).chcr = false) (h : s.env.words = w :: rest) :
    dmaWord n s = .next { portMoves 1 s.env.waits [.portRead n w] { s with env := { s.env with words := rest } } with
      dma := { s.dma with ramAddress := dmaNextAddress n s }
      mem := Memory.writeWord s.mem (s.dma.ramAddress &&& dmaRamMask).toNat w } := by
  unfold dmaWord
  rw [if_neg (Bool.not_eq_true _ ▸ hd), portRead_eq hn h]
  rfl

/-- The state after `k` words to the device. -/
def wordsSent (n : Fin 7) (address : Nat → Word) (k : Nat) (s : State) : State :=
  { portMoves k s.env.waits ((List.range k).reverse.map fun j => .portWrite n (wordAt s.mem (address j).toNat)) s with
    dma := { s.dma with ramAddress := address k } }

/-- The state after `k` words from the device: the words are the environment's. -/
def wordsStored (n : Fin 7) (address : Nat → Word) (k : Nat) (s : State) : State :=
  { portMoves k s.env.waits ((s.env.words.take k).reverse.map (.portRead n))
      { s with env := { s.env with words := s.env.words.drop k } } with
    dma := { s.dma with ramAddress := address k }
    mem := wordsWritten s.mem address (fun j => s.env.words.getD j 0) k }

/-- The words of a block to the device (62 R372). -/
theorem dmaWords_sent {n : Fin 7} {address : Nat → Word} {s : State} (hn : n ≠ otc)
    (hd : chcrToDevice (s.chan n).chcr = true) (hw : PointerWalk (s.chan n).chcr address)
    (h0 : s.dma.ramAddress = address 0) : ∀ k, dmaWords n k s = .next (wordsSent n address k s)
  | 0 => by
    show Host.Outcome.next s = .next { s with dma := { s.dma with ramAddress := address 0 } }
    rw [← h0]
  | k + 1 => by
    have hread : dmaRead (wordsSent n address k s).dma.ramAddress (wordsSent n address k s) =
        wordAt s.mem (address k).toNat := by
      show Memory.readWord s.mem (address k &&& dmaRamMask).toNat = _
      rw [hw.masked k]; rfl
    have hnext : dmaNextAddress n (wordsSent n address k s) = address (k + 1) := (hw.2 k).symm
    rw [dmaWords_succ, dmaWords_sent hn hd hw h0 k]
    refine (dmaWord_sent (s := wordsSent n address k s) hn hd).trans ?_
    rw [hread, hnext]
    simp [wordsSent, portMoves, List.take_add, List.foldl_append, List.range_succ]

/-- The words of a block from the device, as many as the environment lists (62 R372; log entry 7). -/
theorem dmaWords_stored {n : Fin 7} {address : Nat → Word} {s : State} (hn : n ≠ otc)
    (hd : chcrToDevice (s.chan n).chcr = false) (hw : PointerWalk (s.chan n).chcr address)
    (h0 : s.dma.ramAddress = address 0) : ∀ k, k ≤ s.env.words.length →
      dmaWords n k s = .next (wordsStored n address k s)
  | 0, _ => by
    show Host.Outcome.next s = .next { s with dma := { s.dma with ramAddress := address 0 } }
    rw [← h0]
  | k + 1, hk => by
    have hwords : (wordsStored n address k s).env.words = s.env.words[k] :: s.env.words.drop (k + 1) :=
      List.drop_eq_getElem_cons hk
    have hmade : (s.env.words.take (k + 1)).reverse.map (Output.portRead n) =
        .portRead n s.env.words[k] :: (s.env.words.take k).reverse.map (.portRead n) := by
      rw [List.take_succ_eq_append_getElem hk, List.reverse_append]; rfl
    have hword : s.env.words.getD k 0 = s.env.words[k] := List.getD_eq_getElem _ _ hk
    have hnext : dmaNextAddress n (wordsStored n address k s) = address (k + 1) := (hw.2 k).symm
    rw [dmaWords_succ, dmaWords_stored hn hd hw h0 k (Nat.le_of_succ_le hk)]
    refine (dmaWord_stored (s := wordsStored n address k s) hn hd hwords).trans ?_
    rw [hnext, show (wordsStored n address k s).dma.ramAddress = address k from rfl, hw.masked k]
    unfold wordsStored
    rw [hmade, wordsWritten, hword]
    simp [portMoves, List.take_add, List.foldl_append]

end Sys2Proof.Machine

/-! Manual transfers: a start, one block of words, one tick, the completion (62_dma R365, R371 to R373, R380, R381). -/

namespace Sys2Proof.Machine

open Sys2Proof.Safety

/-! The start. -/

/-- The channel registers once the start has consumed the trigger (62 R365). -/
def triggered (n : Fin 7) (s : State) : Vector DmaChannel 7 :=
  s.dma.channels.set n { s.chan n with chcr := (s.chan n).chcr &&& 0xEFFFFFFF }

theorem chan_triggered (n m : Fin 7) {s t : State} (h : t.dma.channels = triggered n s) :
    t.chan m = if m = n then { s.chan n with chcr := (s.chan n).chcr &&& 0xEFFFFFFF } else s.chan m := by
  have hs : t.chan m = (setChan n { s.chan n with chcr := (s.chan n).chcr &&& 0xEFFFFFFF } s).chan m := by
    show t.dma.channels[m] = (triggered n s)[m]
    rw [h]
  rw [hs, chan_setChan]

theorem dmaLoad_port {n : Fin 7} (hn : n ≠ otc) (size blocks : Nat) (s : State) : dmaLoad n size blocks s = { s with
    dma := { s.dma with
      channels := triggered n s, active := some n, ramAddress := (s.chan n).madr &&& dmaRamMask
      blockSize := BitVec.ofNat 17 size, blocksLeft := BitVec.ofNat 17 blocks } } := if_neg hn

theorem dmaLoad_otc (size blocks : Nat) (s : State) : dmaLoad otc size blocks s = { s with
    dma := { s.dma with
      channels := triggered otc s, active := some otc, ramAddress := (s.chan otc).madr &&& dmaRamMask
      blockSize := BitVec.ofNat 17 size, blocksLeft := BitVec.ofNat 17 blocks
      otcAddr := (s.chan otc).madr &&& dmaRamMask, otcLeft := BitVec.ofNat 17 (size * blocks) } } := rfl

theorem hasPort_of_clocks {n : Fin 7} {s : State} {clocks : Nat} (h : s.params.dmaPorts[n] = some clocks) :
    hasPort n s = true := by unfold hasPort; rw [h]; simp

theorem portClocks_of_clocks {n : Fin 7} {s : State} {clocks : Nat} (hn : n ≠ otc)
    (h : s.params.dmaPorts[n] = some clocks) : portClocks n s = clocks := by unfold portClocks; rw [if_neg hn, h]; rfl

/-- The step bit and the direction stay when the trigger is consumed. -/
theorem triggered_bit (chcr : Word) {i : Nat} (hi : i < 2) :
    (chcr &&& 0xEFFFFFFF).getLsbD i = chcr.getLsbD i := by
  interval_cases i <;> simp

/-- The number of words of a Manual transfer (62 R365). -/
theorem manual_count {w : Word} {count : Nat}
    (h : count = (if w.extractLsb' 0 16 = 0 then 0x10000 else (w.extractLsb' 0 16).toNat)) :
    (if bcrNumWords w = 0 then 0x10000 else bcrNumWords w) = count ∧ count ≤ 0x10000 := by
  have hz : bcrNumWords w = 0 ↔ w.extractLsb' 0 16 = 0 := by
    rw [← BitVec.toNat_inj]; rfl
  have hle := bcrNumWords_le w
  simp only [hz]
  refine ⟨h.symm, ?_⟩
  rw [h]
  split
  · exact le_refl _
  · exact hle.trans (by decide)

theorem dmaLoad_blockSize (n : Fin 7) (size blocks : Nat) (s : State) :
    (dmaLoad n size blocks s).dma.blockSize = BitVec.ofNat 17 size := by unfold dmaLoad; split <;> rfl

theorem dmaLoad_params (n : Fin 7) (size blocks : Nat) (s : State) : (dmaLoad n size blocks s).params = s.params := by
  unfold dmaLoad; split <;> rfl

theorem portClocks_congr (n : Fin 7) {s t : State} (h : t.params = s.params) : portClocks n t = portClocks n s := by
  unfold portClocks; rw [h]

/-- A Manual start: the words of one block, one tick, the completion. -/
theorem dmaStart_manual {n : Fin 7} {s v : State} {count : Nat} (hm : (s.chan n).chcr.extractLsb' 9 2 = 0)
    (hp : hasPort n s = true)
    (hc : count = (if (s.chan n).bcr.extractLsb' 0 16 = 0 then 0x10000 else ((s.chan n).bcr.extractLsb' 0 16).toNat))
    (hw : dmaWords n count (dmaLoad n count 1 s) = .next v) :
    dmaStart n s = andThen (clockTick (portClocks n s * count) { v with dma := { v.dma with blocksLeft := 0 } })
      (fun u => .next (dmaComplete n u)) := by
  obtain ⟨hcount, hle⟩ := manual_count hc
  obtain ⟨hmoves, -, hleft, hsize, -⟩ := dmaWords_moves _ hw
  rw [dmaLoad_blockSize] at hsize
  rw [(dmaLoad_active n count 1 s).2] at hleft
  have hnat : (BitVec.ofNat 17 count).toNat = count := by rw [BitVec.toNat_ofNat]; omega
  have hmode : chcrSyncMode (s.chan n).chcr = 0 := hm
  have hstart : dmaStart n s = dmaContinueBlocks false n (dmaLoad n count 1 s) := by
    unfold dmaStart
    simp only [hmode, hp, hcount]
    rfl
  rw [hstart]
  unfold dmaContinueBlocks
  rw [(dmaLoad_active n count 1 s).2]
  show andThen (dmaBlock n _) _ = _
  unfold dmaBlock
  rw [dmaLoad_blockSize, hnat, hw]
  show andThen (clockTick _ { v with dma := { v.dma with blocksLeft := v.dma.blocksLeft - 1 } }) _ = _
  rw [hsize, hnat, hleft, portClocks_congr n (hmoves.params.trans (dmaLoad_params n count 1 s))]
  rfl

/-- Settles O48: the start's one block is a run of `dmaWord`, from the masked MADR. -/
theorem manualTransferSendsTheWords : Obligations.ManualTransferSendsTheWords := by
  intro s n clocks count c address ends moved requests env hn hp hm hc
  have hle := (manual_count hc).2
  have hstart : (c.madr &&& 0x001FFFFC) &&& 0x001FFFFC = c.madr &&& 0x001FFFFC := and_mask_idem _ _
  have hload := dmaLoad_port hn count 1 s
  have hchan : ((dmaLoad n count 1 s).chan n).chcr = c.chcr &&& 0xEFFFFFFF := by
    rw [chan_triggered n n (by rw [hload]), if_pos rfl]
  have hwalk : PointerWalk ((dmaLoad n count 1 s).chan n).chcr address := by
    rw [hchan]; exact ramPointer_walk hstart (triggered_bit _ (by decide))
  have hfirst : (dmaLoad n count 1 s).dma.ramAddress = address 0 := by
    rw [hload]; exact (ramPointer_zero hstart).symm
  have hdir : chcrToDevice ((dmaLoad n count 1 s).chan n).chcr = c.chcr.getLsbD 0 := by
    rw [hchan]; exact triggered_bit _ (by decide)
  have hends : ∀ {u v : State}, dmaWords n count (dmaLoad n count 1 s) = .next v →
      u = { v with dma := { v.dma with blocksLeft := 0 } } → u.dma.channels = triggered n s → ends u := by
    rintro u v hw rfl hchannels
    refine ⟨?_, dmaComplete_completes n, fun m => chan_triggered n m hchannels⟩
    rw [dmaStart_manual hm (hasPort_of_clocks hp) hc hw, portClocks_of_clocks hn hp]
  refine ⟨fun hd => ?_, fun words more hd hmem hwords hlen => ?_⟩
  · have hw := dmaWords_sent hn (hdir.trans hd) hwalk hfirst count
    exact ⟨{ s with clock := requests, env := env, dma := moved (triggered n s), outputs := _ },
      hends hw (by rw [hload]; rfl) rfl, rfl⟩
  · subst hlen
    have hw := dmaWords_stored hn (hdir.trans hd) hwalk hfirst words.length
      (by rw [hload]; show _ ≤ s.env.words.length; rw [hwords, List.length_append]; omega)
    have happ : ∀ j, j < words.length → (words ++ more).getD j 0 = words.getD j 0 :=
      fun j hj => List.getD_append _ _ _ _ hj
    have hstored := wordsWritten_stored hmem address _ (ramPointer_apart c.chcr (c.madr &&& 0x001FFFFC) (by omega)) happ
    refine ⟨{ s with
      clock := requests, env := { env with words := more }, dma := moved (triggered n s)
      mem := wordsWritten s.mem address (fun j => (words ++ more).getD j 0) words.length, outputs := _ },
      hends hw ?_ rfl, hstored, rfl⟩
    rw [hload]
    unfold wordsStored
    simp only [hwords, List.take_left, List.drop_left]
    rfl

/-! The ordering-table clear. -/

/-- The word that the OTC generator gives at `address j`, with `left` words to go at the start (62 R381). -/
def otcWord (left : BitVec 17) (address : Nat → Word) (j : Nat) : Word :=
  if left - BitVec.ofNat 17 j - 1 = 0 then 0x00FFFFFF else (address j - 4) &&& 0x001FFFFF

/-- The state after `k` words of the clear. -/
def wordsCleared (address : Nat → Word) (k : Nat) (s : State) : State :=
  { s with
    mem := wordsWritten s.mem address (otcWord s.dma.otcLeft address) k
    dma := { s.dma with
      ramAddress := address k, otcAddr := address k, otcLeft := s.dma.otcLeft - BitVec.ofNat 17 k } }

/-- One word of the clear. -/
theorem dmaWord_cleared {s : State} (hd : chcrToDevice (s.chan otc).chcr = false) : dmaWord otc s = .next { s with
    mem := Memory.writeWord s.mem (s.dma.ramAddress &&& dmaRamMask).toNat (otcRead s).1
    dma := { s.dma with
      ramAddress := dmaNextAddress otc s, otcAddr := (s.dma.otcAddr - 4) &&& dmaRamMask
      otcLeft := s.dma.otcLeft - 1 } } := by
  unfold dmaWord
  rw [if_neg (Bool.not_eq_true _ ▸ hd)]
  rfl

/-- The words of the clear: RAM and the generator are walked together. -/
theorem dmaWords_cleared {address : Nat → Word} {s : State} (hd : chcrToDevice (s.chan otc).chcr = false)
    (hstep : chcrDescending (s.chan otc).chcr = true) (hw : PointerWalk (s.chan otc).chcr address)
    (h0 : s.dma.ramAddress = address 0) (h1 : s.dma.otcAddr = address 0) :
    ∀ k, dmaWords otc k s = .next (wordsCleared address k s)
  | 0 => by
    show Host.Outcome.next s = .next { s with
      dma := { s.dma with ramAddress := address 0, otcAddr := address 0, otcLeft := s.dma.otcLeft - 0 } }
    rw [sub_zero]
    nth_rewrite 1 [← h0]
    rw [← h1]
  | k + 1 => by
    have hdown : address (k + 1) = (address k - 4) &&& dmaRamMask := by rw [hw.2 k, if_pos hstep]
    have hnext : dmaNextAddress otc (wordsCleared address k s) = address (k + 1) := (hw.2 k).symm
    have hleft : s.dma.otcLeft - BitVec.ofNat 17 k - 1 = s.dma.otcLeft - BitVec.ofNat 17 (k + 1) := by
      rw [BitVec.ofNat_add, sub_add_eq_sub_sub]; rfl
    rw [dmaWords_succ, dmaWords_cleared hd hstep hw h0 h1 k]
    refine (dmaWord_cleared (s := wordsCleared address k s) hd).trans ?_
    show Host.Outcome.next { s with
      mem := Memory.writeWord _ (address k &&& dmaRamMask).toNat (otcWord s.dma.otcLeft address k)
      dma := { s.dma with
        ramAddress := dmaNextAddress otc (wordsCleared address k s), otcAddr := (address k - 4) &&& dmaRamMask
        otcLeft := s.dma.otcLeft - BitVec.ofNat 17 k - 1 } } = _
    rw [hnext, hw.masked k, ← hdown, hleft]
    rfl

/-- Below an aligned address, also with the two low bits that the RAM mask clears. -/
theorem mask_sub_four_aligned {x : Word} (hx : x.toNat % 4 = 0) :
    (x &&& dmaRamMask) - 4 &&& 0x001FFFFF = (x - 4) &&& 0x001FFFFF := by
  have hmod : ∀ y : Word, (y &&& 0x001FFFFF).toNat = y.toNat % 0x200000 := fun y => by
    rw [BitVec.toNat_and]; exact Nat.and_two_pow_sub_one_eq_mod y.toNat 21
  have h4 : (4 : Word).toNat = 4 := rfl
  apply BitVec.eq_of_toNat_eq
  simp only [hmod, BitVec.toNat_sub, dmaMask_toNat, h4]
  omega

/-- The generator's last word is the sentinel, and every other one the address below. -/
theorem otcWord_eq {start : Word} {count j : Nat} (hs : start &&& 0x001FFFFC = start) (hle : count ≤ 0x10000)
    (hj : j < count) :
    otcWord (BitVec.ofNat 17 count) (fun i => (start - BitVec.ofNat 32 (4 * i)) &&& 0x001FFFFC) j =
      if j + 1 = count then 0x00FFFFFF else (start - BitVec.ofNat 32 (4 * j + 4)) &&& 0x001FFFFF := by
  have hlast : BitVec.ofNat 17 count - BitVec.ofNat 17 j - 1 = 0 ↔ j + 1 = count := by
    have h1 : (1 : BitVec 17).toNat = 1 := rfl
    rw [sub_sub, sub_eq_zero, ← BitVec.toNat_inj]
    simp only [BitVec.toNat_add, BitVec.toNat_ofNat, h1]
    omega
  have hbelow : ((start - BitVec.ofNat 32 (4 * j)) &&& 0x001FFFFC) - 4 &&& 0x001FFFFF =
      (start - BitVec.ofNat 32 (4 * j + 4)) &&& 0x001FFFFF := by
    have h4 : (BitVec.ofNat 32 (4 * j)).toNat = 4 * j := by rw [BitVec.toNat_ofNat]; omega
    have haligned : (start - BitVec.ofNat 32 (4 * j)).toNat % 4 = 0 := by
      have hmask : start.toNat = start.toNat / 4 % 0x80000 * 4 := by rw [← dmaMask_toNat]; exact congrArg _ hs.symm
      rw [BitVec.toNat_sub, h4]
      omega
    rw [BitVec.ofNat_add, sub_add_eq_sub_sub]
    exact mask_sub_four_aligned haligned
  unfold otcWord
  simp only [hlast, hbelow]

/-- Settles O49: the start's one block is a run of `dmaWord` on the OTC channel. -/
theorem orderingTableClearWritesTheList : Obligations.OrderingTableClearWritesTheList := by
  intro s count c start address key hmem hm hd hstep hc
  have hle := (manual_count hc).2
  have hstart : start &&& 0x001FFFFC = start := and_mask_idem _ _
  have haddress : address = ramPointer c.chcr start := funext fun j => by unfold ramPointer; rw [if_pos hstep]
  have hload := dmaLoad_otc count 1 s
  have hchan : ((dmaLoad otc count 1 s).chan otc).chcr = c.chcr &&& 0xEFFFFFFF := by
    rw [chan_triggered otc otc (by rw [hload]), if_pos rfl]; rfl
  have hwalk : PointerWalk ((dmaLoad otc count 1 s).chan otc).chcr address := by
    rw [hchan, haddress]; exact ramPointer_walk hstart (triggered_bit _ (by decide))
  have hfirst : start = address 0 := by rw [haddress, ramPointer_zero hstart]
  have hw := dmaWords_cleared (by rw [hchan]; exact (triggered_bit _ (by decide)).trans hd)
    (by rw [hchan]; exact (triggered_bit _ (by decide)).trans hstep) hwalk (by rw [hload]; exact hfirst)
    (by rw [hload]; exact hfirst) count
  have hapart : Apart address count := by rw [haddress]; exact ramPointer_apart _ _ (by omega)
  have hleft : BitVec.ofNat 17 (count * 1) - BitVec.ofNat 17 count = 0 := by rw [Nat.mul_one, sub_self]
  refine ⟨{ s with
    mem := wordsWritten s.mem address (otcWord (BitVec.ofNat 17 (count * 1)) address) count
    dma := { s.dma with
      channels := triggered otc s, active := some otc, ramAddress := address count
      blockSize := BitVec.ofNat 17 count, blocksLeft := 0, otcAddr := address count
      otcLeft := BitVec.ofNat 17 (count * 1) - BitVec.ofNat 17 count } }, ?_, dmaComplete_completes 6, ?_,
    fun m => chan_triggered otc m rfl, fun j hj => ?_, fun x hx => ?_⟩
  · rw [dmaStart_manual hm rfl hc hw, show portClocks 6 s * count = count from Nat.one_mul count, hload]
    rfl
  · rw [hleft]; rfl
  · rw [wordAt_wordsWritten hmem address _ count hapart hj, Nat.mul_one]
    exact otcWord_eq hstart hle hj
  · exact read_wordsWritten_other hmem address _ count hx

end Sys2Proof.Machine

/-! Linked lists: the words of a node behind a port that is ready, the time that polls take where no device is
registered with the Clock, and the walk from node to node (62_dma R375). -/

namespace Sys2Proof.Machine

open Sys2Proof.Safety

/-! A node's words. -/

/-- Word `i` of the node at `node`. -/
def nodeWord (m : List Host.Cell) (node : Word) (i : Nat) : Word :=
  wordAt m ((node + BitVec.ofNat 32 (4 * i)) &&& dmaRamMask).toNat

/-- The words `i` to `i + count - 1` of the node at `node`, the header being word 0. -/
def nodeSlice (m : List Host.Cell) (node : Word) (i count : Nat) : List Word :=
  (List.range' i count).map (nodeWord m node)

theorem nodeSlice_succ (m : List Host.Cell) (node : Word) (i count : Nat) : nodeSlice m node i (count + 1) =
    nodeWord m node i :: nodeSlice m node (i + 1) count := by simp [nodeSlice, List.range'_succ]

theorem nodeSlice_length (m : List Host.Cell) (node : Word) (i count : Nat) :
    (nodeSlice m node i count).length = count := by simp [nodeSlice]

theorem nodeOf_eq_slice (m : List Host.Cell) (a : Word) :
    nodeOf m a = nodeSlice m a 1 (headerCount (wordAt m a.toNat)) := by
  simp only [nodeOf, nodeSlice, List.range'_eq_map_range, List.map_map, Function.comp_def, Nat.add_comm 1]
  rfl

/-- One word of a node: the wait, then the write. -/
theorem nodeWords_succ {n : Fin 7} {node : Word} {i count : Nat} {s t : State} (hn : n ≠ otc)
    (hwait : portWait n s = .next t) (hmem : t.mem = s.mem) : nodeWords n node i (count + 1) s =
      nodeWords n node (i + 1) count (portMoves 1 t.env.waits [.portWrite n (nodeWord s.mem node i)] t) := by
  show andThen (portWait n s) _ = _
  rw [hwait]
  show andThen (portWrite n (dmaRead _ t) t) _ = _
  rw [portWrite_eq hn, dmaRead, hmem]
  rfl

/-! A port that is ready. -/

/-- The wait for a port that answers "ready" at once. -/
theorem portWait_ready {n : Fin 7} {s : State} {rest : List (Option Nat)} (h : s.env.waits = some 0 :: rest) :
    portWait n s = .next (portMoves 1 rest [.portPoll n true] s) := by
  unfold portWait drawWait
  rw [h]
  exact congrArg _ (portPoll_eq n true _)

/-- What a ready port sees of a node's words, newest first. -/
def readyOutputs (n : Fin 7) (words : List Word) : List Output :=
  words.reverse.flatMap fun w => [.portWrite n w, .portPoll n true]

theorem readyOutputs_cons (n : Fin 7) (w : Word) (ws : List Word) :
    readyOutputs n (w :: ws) = readyOutputs n ws ++ [Output.portWrite n w, Output.portPoll n true] := by
  simp [readyOutputs]

theorem nodeWords_ready_succ {n : Fin 7} {node : Word} {i count : Nat} {s : State} {waits : List (Option Nat)}
    (hn : n ≠ otc) (h : s.env.waits = some 0 :: waits) : nodeWords n node i (count + 1) s =
      nodeWords n node (i + 1) count
        (portMoves 2 waits [.portWrite n (nodeWord s.mem node i), .portPoll n true] s) := by
  rw [nodeWords_succ hn (portWait_ready h) rfl, portMoves_portMoves]
  rfl

/-- The words of a node behind a port that is always ready. -/
theorem nodeWords_ready {n : Fin 7} {node : Word} {rest : List (Option Nat)} (hn : n ≠ otc) :
    ∀ (count i : Nat) (s : State), s.env.waits = List.replicate count (some 0) ++ rest →
      nodeWords n node i count s =
        .next (portMoves (2 * count) rest (readyOutputs n (nodeSlice s.mem node i count)) s)
  | 0, i, s, h => by
    have hw : s.env.waits = rest := h
    rw [← hw]; rfl
  | count + 1, i, s, h => by
    have hcount : 2 + 2 * count = 2 * (count + 1) := by omega
    rw [nodeWords_ready_succ (waits := List.replicate count (some 0) ++ rest) hn h,
      nodeWords_ready hn count (i + 1) (portMoves _ _ _ s) rfl, portMoves_portMoves, hcount, nodeSlice_succ,
      readyOutputs_cons]
    rfl

/-! No device registered with the Clock. -/

/-- The state after ticks of `cycles` cycles and `r` accesses of ports, where the Clock has no entries: time goes on,
the requests are without effect, the answers `waits` are left, outputs are added. -/
def idleMoves (cycles r : Nat) (waits : List (Option Nat)) (made : List Output) (s : State) : State :=
  { s with
    clock := { s.clock with systemTime := s.clock.systemTime + cycles * s.params.masterNanosPerCycle }
    env := { s.env with waits := waits, requests := s.env.requests.drop r }
    outputs := made ++ s.outputs }

theorem idleMoves_idleMoves (c c' r r' : Nat) (waits waits' : List (Option Nat)) (made made' : List Output)
    (s : State) : idleMoves c' r' waits' made' (idleMoves c r waits made s) =
      idleMoves (c + c') (r + r') waits' (made' ++ made) s := by
  simp [idleMoves, Nat.add_mul, Nat.add_assoc]

theorem requests_idle {c : Clock} (h : c.entries = []) : ∀ rs : List ClockRequest, rs.foldl applyRequest c = c
  | [] => rfl
  | r :: rest => by
    have hr : applyRequest c r = c := by
      obtain ⟨time, entries⟩ := c
      cases h
      cases r <;> simp [applyRequest, setDefaultUpdateFrequency, requestUpdate]
    rw [List.foldl_cons, hr, requests_idle h rest]

theorem portMoves_idle {s : State} (h : s.clock.entries = []) (r : Nat) (waits : List (Option Nat))
    (made : List Output) : portMoves r waits made s = idleMoves 0 r waits made s := by
  unfold portMoves idleMoves
  rw [requests_idle h, Nat.zero_mul]
  rfl

/-- A tick without entries only moves time. -/
theorem clockTick_idle {s : State} (h : s.clock.entries = []) (cycles : Nat) :
    clockTick cycles s = .next (idleMoves cycles 0 s.env.waits [] s) := by
  have hdue : ∀ (k : Nat) (t : State), t.clock.entries = [] → fireDue k t = .next t := by
    intro k t ht
    have hd : dueHandles t.clock = [] := by unfold dueHandles; rw [ht]; rfl
    cases k <;> unfold fireDue <;> rw [hd]
  exact hdue _ _ h

theorem portPolls_idle {n : Fin 7} : ∀ (k : Nat) (s : State), s.clock.entries = [] → portPolls n k s =
    .next (idleMoves (32 * k) (k + 1) s.env.waits (.portPoll n true :: List.replicate k (.portPoll n false)) s)
  | 0, s, h => by
    show Host.Outcome.next (portPoll n true s) = _
    rw [portPoll_eq, portMoves_idle h]
    rfl
  | k + 1, s, h => by
    show andThen (clockTick 32 (portPoll n false s)) (portPolls n k) = _
    rw [portPoll_eq, portMoves_idle h, clockTick_idle (s := idleMoves _ _ _ _ s) h, idleMoves_idleMoves]
    show portPolls n k _ = _
    rw [portPolls_idle k (idleMoves _ _ _ _ s) h, idleMoves_idleMoves]
    have hc : 0 + 32 + 32 * k = 32 * (k + 1) := by omega
    have hr : 1 + 0 + (k + 1) = k + 1 + 1 := by omega
    rw [hc, hr, List.replicate_succ']
    rfl

/-- The wait for a port that answers "not ready" `k` times. -/
theorem portWait_idle {n : Fin 7} {s : State} {k : Nat} {rest : List (Option Nat)} (hc : s.clock.entries = [])
    (h : s.env.waits = some k :: rest) : portWait n s =
      .next (idleMoves (32 * k) (k + 1) rest (.portPoll n true :: List.replicate k (.portPoll n false)) s) := by
  unfold portWait drawWait
  rw [h]
  exact portPolls_idle k _ hc

/-- What the port sees of words with the given numbers of not-ready polls, newest first. -/
def polledOutputs (n : Fin 7) (words : List Word) (polls : List Nat) : List Output :=
  ((words.zip polls).flatMap fun p =>
    List.replicate p.2 (Output.portPoll n false) ++ [Output.portPoll n true, Output.portWrite n p.1]).reverse

theorem polledOutputs_cons (n : Fin 7) (w : Word) (ws : List Word) (k : Nat) (ks : List Nat) :
    polledOutputs n (w :: ws) (k :: ks) =
      polledOutputs n ws ks ++
        (Output.portWrite n w :: Output.portPoll n true :: List.replicate k (Output.portPoll n false)) := by
  simp [polledOutputs]

theorem polledOutputs_append (n : Fin 7) {ws ws' : List Word} {ks ks' : List Nat} (h : ws.length = ks.length) :
    polledOutputs n (ws ++ ws') (ks ++ ks') = polledOutputs n ws' ks' ++ polledOutputs n ws ks := by
  simp [polledOutputs, List.zip_append h]

theorem nodeWords_idle_succ {n : Fin 7} {node : Word} {i count k : Nat} {s : State} {waits : List (Option Nat)}
    (hn : n ≠ otc) (hc : s.clock.entries = []) (h : s.env.waits = some k :: waits) :
    nodeWords n node i (count + 1) s = nodeWords n node (i + 1) count (idleMoves (32 * k) (k + 2) waits
      (.portWrite n (nodeWord s.mem node i) :: .portPoll n true :: List.replicate k (.portPoll n false)) s) := by
  rw [nodeWords_succ hn (portWait_idle hc h) rfl, portMoves_idle (s := idleMoves _ _ _ _ s) hc, idleMoves_idleMoves]
  rfl

/-- The words of a node, each after its polls. -/
theorem nodeWords_idle {n : Fin 7} {node : Word} {rest : List (Option Nat)} (hn : n ≠ otc) :
    ∀ (polls : List Nat) (i : Nat) (s : State), s.clock.entries = [] → s.env.waits = polls.map some ++ rest →
      nodeWords n node i polls.length s =
        .next (idleMoves (32 * polls.sum) (polls.sum + 2 * polls.length) rest
          (polledOutputs n (nodeSlice s.mem node i polls.length) polls) s)
  | [], i, s, hc, h => by
    have hw : s.env.waits = rest := h
    show Host.Outcome.next s = .next { s with
      clock := { s.clock with systemTime := s.clock.systemTime + 0 * s.params.masterNanosPerCycle }
      env := { s.env with waits := rest } }
    rw [← hw, Nat.zero_mul, Nat.add_zero]
  | k :: ks, i, s, hc, h => by
    have hcycles : 32 * k + 32 * ks.sum = 32 * (k + ks.sum) := by omega
    have hr : k + 2 + (ks.sum + 2 * ks.length) = k + ks.sum + 2 * (ks.length + 1) := by omega
    rw [List.length_cons, nodeWords_idle_succ (waits := ks.map some ++ rest) hn hc h,
      nodeWords_idle hn ks (i + 1) (idleMoves _ _ _ _ s) hc rfl, idleMoves_idleMoves, nodeSlice_succ,
      polledOutputs_cons, List.sum_cons, hcycles, hr]
    rfl

/-! The walk. -/

theorem headerNext_toNat (h : Word) : (headerNext h).toNat = (h.extractLsb' 0 24).toNat := by
  unfold headerNext
  rw [BitVec.toNat_and, BitVec.extractLsb'_toNat, Nat.shiftRight_zero]
  exact Nat.and_two_pow_sub_one_eq_mod h.toNat 24

/-- A header's link as the statements write it (62 R375). -/
theorem headerNext_eq_append (h : Word) : headerNext h = 0#8 ++ h.extractLsb' 0 24 := by
  apply BitVec.eq_of_toNat_eq
  rw [headerNext_toNat, BitVec.toNat_append]
  simp

theorem headerNext_eq_sentinel (h : Word) : headerNext h = 0x00FFFFFF ↔ h.extractLsb' 0 24 = 0x00FFFFFF := by
  rw [← BitVec.toNat_inj, ← BitVec.toNat_inj, headerNext_toNat]
  rfl

/-- The walk at the node at `a`. -/
def atNode (a : Word) (s : State) : State := { s with dma := { s.dma with ramAddress := a } }

/-- One node of the walk, once its words are sent: its tick, then the next node, or the completion. -/
theorem dmaList_succ {n : Fin 7} {fuel : Nat} {s t : State} (hs : s.dma.ramAddress &&& 0x001FFFFC = s.dma.ramAddress)
    (hw : nodeWords n s.dma.ramAddress 1 (headerCount (wordAt s.mem s.dma.ramAddress.toNat)) s = .next t) :
    dmaList n (fuel + 1) s =
      andThen (clockTick (portClocks n s * (nodeOf s.mem s.dma.ramAddress).length) t) fun u =>
        if headerNext (wordAt s.mem s.dma.ramAddress.toNat) = 0x00FFFFFF then .next (dmaComplete n u)
        else dmaList n fuel (atNode (headerNext (wordAt s.mem s.dma.ramAddress.toNat) &&& 0x001FFFFC) u) := by
  have hread : dmaRead s.dma.ramAddress s = wordAt s.mem s.dma.ramAddress.toNat := by
    show Memory.readWord s.mem (s.dma.ramAddress &&& 0x001FFFFC).toNat = _
    rw [hs]; rfl
  have hp := portClocks_congr n (nodeWords_moves _ _ hw).params
  show andThen (nodeWords n _ 1 (headerCount (dmaRead s.dma.ramAddress s)) s) _ = _
  rw [hread, hw]
  show andThen (clockTick (portClocks n t * headerCount _) t) _ = _
  rw [hp, nodeOf_eq_slice, nodeSlice_length]
  rfl

/-- One node of the walk with no device registered: the time of its polls and of its words goes by. -/
theorem dmaList_idle_succ {n : Fin 7} {fuel clocks : Nat} {s : State} {polls : List Nat} {waits : List (Option Nat)}
    (hn : n ≠ otc) (hp : s.params.dmaPorts[n] = some clocks) (hc : s.clock.entries = [])
    (hs : s.dma.ramAddress &&& 0x001FFFFC = s.dma.ramAddress)
    (hlen : polls.length = (nodeOf s.mem s.dma.ramAddress).length) (hw : s.env.waits = polls.map some ++ waits) :
    let u := idleMoves (32 * polls.sum + clocks * polls.length) (polls.sum + 2 * polls.length) waits
      (polledOutputs n (nodeOf s.mem s.dma.ramAddress) polls) s
    dmaList n (fuel + 1) s =
      if headerNext (wordAt s.mem s.dma.ramAddress.toNat) = 0x00FFFFFF then .next (dmaComplete n u)
      else dmaList n fuel (atNode (headerNext (wordAt s.mem s.dma.ramAddress.toNat) &&& 0x001FFFFC) u) := by
  have hcount : headerCount (wordAt s.mem s.dma.ramAddress.toNat) = polls.length := by
    rw [hlen, nodeOf_eq_slice, nodeSlice_length]
  have hwords := nodeWords_idle (node := s.dma.ramAddress) hn polls 1 s hc hw
  rw [← hcount] at hwords
  rw [dmaList_succ hs hwords, clockTick_idle (s := idleMoves _ _ _ _ s) hc, idleMoves_idleMoves,
    portClocks_of_clocks hn hp, ← hlen, hcount, Nat.add_zero, nodeOf_eq_slice, hcount]
  rfl

/-- The completion clears the pointer, wherever the walk stood. -/
theorem dmaComplete_atNode (n : Fin 7) (a : Word) (c r : Nat) (waits : List (Option Nat)) (made : List Output)
    (s : State) : dmaComplete n (idleMoves c r waits made (atNode a s)) =
      dmaComplete n (idleMoves c r waits made s) := rfl

/-- The walk of a whole list with no device registered with the Clock. -/
theorem dmaList_idle {n : Fin 7} {clocks : Nat} {rest : List (Option Nat)} (hn : n ≠ otc) (nodes : List Word) :
    ∀ (fuel : Nat) (s : State) (polls : List Nat), nodes.length ≤ fuel →
      s.params.dmaPorts[n] = some clocks → s.clock.entries = [] →
      s.dma.ramAddress &&& 0x001FFFFC = s.dma.ramAddress → LinkedFrom s.mem s.dma.ramAddress nodes →
      polls.length = (nodes.flatMap (nodeOf s.mem)).length → s.env.waits = polls.map some ++ rest →
      dmaList n fuel s = .next (dmaComplete n
        (idleMoves (32 * polls.sum + clocks * polls.length) (polls.sum + 2 * polls.length) rest
          (polledOutputs n (nodes.flatMap (nodeOf s.mem)) polls) s)) := by
  induction nodes with
  | nil => exact fun _ _ _ _ _ _ _ hl => hl.elim
  | cons first more ih =>
    intro fuel s polls hf hp hc hs hl hlen hw
    obtain ⟨fuel, rfl⟩ : ∃ f, fuel = f + 1 := Nat.exists_eq_add_one_of_ne_zero (Nat.ne_of_gt (Nat.zero_lt_of_lt hf))
    cases more with
    | nil =>
      obtain ⟨rfl, hsentinel⟩ := hl
      simp only [List.flatMap_cons, List.flatMap_nil, List.append_nil] at hlen ⊢
      rw [dmaList_idle_succ hn hp hc hs hlen hw, if_pos ((headerNext_eq_sentinel _).mpr hsentinel)]
    | cons node more =>
      obtain ⟨rfl, hsentinel, hnext⟩ := hl
      obtain ⟨here, later, rfl, hhere⟩ : ∃ here later, polls = here ++ later ∧
          here.length = (nodeOf s.mem s.dma.ramAddress).length := by
        refine ⟨polls.take (nodeOf s.mem s.dma.ramAddress).length, polls.drop _, (List.take_append_drop _ _).symm, ?_⟩
        rw [List.length_take, hlen, List.flatMap_cons, List.length_append]
        omega
      rw [List.flatMap_cons] at hlen ⊢
      rw [List.map_append, List.append_assoc] at hw
      rw [← headerNext_eq_append] at hnext
      have hlater : later.length = ((node :: more).flatMap (nodeOf s.mem)).length := by
        rw [List.length_append, List.length_append] at hlen; omega
      rw [dmaList_idle_succ hn hp hc hs hhere hw, if_neg (mt (headerNext_eq_sentinel _).mp hsentinel),
        ih fuel (atNode _ (idleMoves _ _ _ _ s)) later (Nat.le_of_succ_le_succ hf) hp hc
          (and_mask_idem _ _) hnext hlater rfl]
      have hcycles : 32 * here.sum + clocks * here.length + (32 * later.sum + clocks * later.length) =
          32 * (here.sum + later.sum) + clocks * (here.length + later.length) := by ring
      have hr : here.sum + 2 * here.length + (later.sum + 2 * later.length) =
          here.sum + later.sum + 2 * (here.length + later.length) := by ring
      rw [dmaComplete_atNode, idleMoves_idleMoves, hcycles, hr, polledOutputs_append n hhere.symm,
        List.sum_append, List.length_append]
      rfl

/-! The start of a list. -/

/-- The state in which the walk of a list starts: at the masked MADR, with no blocks (62 R365). -/
def listLoaded (n : Fin 7) (s : State) : State :=
  { s with dma := { s.dma with
      channels := triggered n s, active := some n, ramAddress := (s.chan n).madr &&& 0x001FFFFC
      blockSize := 0, blocksLeft := 0 } }

theorem dmaStart_list {n : Fin 7} {s : State} (hn : n ≠ otc) (hp : hasPort n s = true)
    (hm : (s.chan n).chcr.extractLsb' 9 2 = 2) (hd : (s.chan n).chcr.getLsbD 0 = true) :
    dmaStart n s = dmaList n ramWords (listLoaded n s) := by
  have hmode : chcrSyncMode (s.chan n).chcr = 2 := hm
  have hdir : chcrToDevice ((listLoaded n s).chan n).chcr = true := by
    rw [chan_triggered n n rfl, if_pos rfl]
    exact (triggered_bit _ (by decide)).trans hd
  have hstart : dmaStart n s = dmaContinueList n (dmaLoad n 0 0 s) := by
    unfold dmaStart
    simp only [hmode, hp]
    rfl
  rw [hstart, dmaLoad_port hn]
  show dmaContinueList n (listLoaded n s) = _
  unfold dmaContinueList
  rw [hdir, if_neg (by decide), if_neg hn]

/-- A list of one node behind a port that is always ready: its words, one tick, the completion. -/
theorem dmaList_ready_last {n : Fin 7} {fuel clocks : Nat} {s : State} {rest : List (Option Nat)} (hn : n ≠ otc)
    (hp : s.params.dmaPorts[n] = some clocks) (hs : s.dma.ramAddress &&& 0x001FFFFC = s.dma.ramAddress)
    (hl : LinkedFrom s.mem s.dma.ramAddress [s.dma.ramAddress])
    (hw : s.env.waits = List.replicate (nodeOf s.mem s.dma.ramAddress).length (some 0) ++ rest) :
    dmaList n (fuel + 1) s = andThen
      (clockTick (clocks * (nodeOf s.mem s.dma.ramAddress).length)
        (portMoves (2 * (nodeOf s.mem s.dma.ramAddress).length) rest
          (readyOutputs n (nodeOf s.mem s.dma.ramAddress)) s))
      fun u => .next (dmaComplete n u) := by
  obtain ⟨-, hsentinel⟩ := hl
  have hcount : headerCount (wordAt s.mem s.dma.ramAddress.toNat) = (nodeOf s.mem s.dma.ramAddress).length := by
    rw [nodeOf_eq_slice, nodeSlice_length]
  have hwords := nodeWords_ready (node := s.dma.ramAddress) hn _ 1 s hw
  rw [← hcount] at hwords
  rw [dmaList_succ hs hwords, portClocks_of_clocks hn hp, hcount]
  simp only [if_pos ((headerNext_eq_sentinel _).mpr hsentinel)]
  rw [nodeOf_eq_slice, nodeSlice_length]

/-- The channel registers once the transfer has consumed its trigger and completed. -/
theorem chan_completed (n m : Fin 7) {s t : State} (h : t.dma.channels = triggered n s) : (dmaComplete n t).chan m =
    if m = n then { s.chan n with chcr := (s.chan n).chcr &&& 0xEEFFFFFF } else s.chan m := by
  rw [(dmaComplete_completes n t).2 m, chan_triggered n n h, chan_triggered n m h, if_pos rfl]
  by_cases hm : m = n
  · rw [if_pos hm, if_pos hm]
    simp only [BitVec.and_assoc]
    rfl
  · rw [if_neg hm, if_neg hm, if_neg hm]

/-- Settles O51: the walk from the masked MADR, of one node with callbacks in its tick, of any number without. -/
theorem listNodeSendsItsWords : Obligations.ListNodeSendsItsWords := by
  intro s n clocks rest c hn hp hm hd
  have hstart : (c.madr &&& 0x001FFFFC) &&& 0x001FFFFC = c.madr &&& 0x001FFFFC := and_mask_idem _ _
  rw [dmaStart_list hn (hasPort_of_clocks hp) hm hd]
  refine ⟨fun count hl hcount hw => ?_, fun nodes polls hc hl hle hlen hw => ?_⟩
  · subst hcount
    exact ⟨_, dmaList_ready_last (fuel := 0x7FFFF) (s := listLoaded n s) hn hp hstart hl hw,
      dmaComplete_completes n, rfl, fun m => chan_triggered n m rfl⟩
  · exact ⟨_, dmaList_idle hn nodes ramWords (listLoaded n s) polls hle hp hc hstart hl hlen hw,
      (dmaComplete_completes n _).1, fun m => chan_completed n m rfl⟩

end Sys2Proof.Machine

/-! The BIOS ROM along every step (20_memory R96; 62_dma R363). -/

namespace Sys2Proof.Machine

open Sys2Proof.Safety

/-- Settles O58: the memory part of what a step can change. RAM and scratchpad lie below the ROM (`arrayKey_below`), the
ROM ignores writes, and the DMA controller's addresses are masked to RAM (`dmaWrite_moves`). -/
theorem noStepWritesTheRom : Obligations.NoStepWritesTheRom := fun _ _ hs h => ((step_stepMoves h).memory hs).2

end Sys2Proof.Machine

/-! The segments and the address map (20_memory R70 to R72, R83, R95 to R98). -/

namespace Sys2Proof.Machine

open Sys2Proof.Safety

/-! Segments. -/

/-- Each segment by the number that address bits 31:29 make (20_memory R70). -/
theorem segmentOf_iff (a : Word) :
    (segmentOf a = .user ↔ a.toNat / 0x20000000 = 0) ∧
    (segmentOf a = .invalid ↔ 1 ≤ a.toNat / 0x20000000 ∧ a.toNat / 0x20000000 < 4) ∧
    (segmentOf a = .kernel0 ↔ a.toNat / 0x20000000 = 4) ∧
    (segmentOf a = .kernel1 ↔ a.toNat / 0x20000000 = 5) ∧
    (segmentOf a = .kernel2 ↔ 6 ≤ a.toNat / 0x20000000) := by
  have hbits : a.toNat / 0x20000000 = (a.extractLsb' 29 3).toNat := by
    rw [BitVec.extractLsb'_toNat, Nat.shiftRight_eq_div_pow]
    have := a.isLt
    omega
  unfold segmentOf
  rw [hbits]
  generalize a.extractLsb' 29 3 = b
  revert b
  decide

theorem segmentOf_add_kernel0 {a : Word} (h : a.toNat < 0x20000000) : segmentOf (a + 0x80000000) = .kernel0 := by
  obtain ⟨-, -, hk, -⟩ := segmentOf_iff (a + 0x80000000)
  rw [hk, BitVec.toNat_add]
  show (a.toNat + 0x80000000) % 2 ^ 32 / _ = 4
  omega

theorem segmentOf_add_kernel1 {a : Word} (h : a.toNat < 0x20000000) : segmentOf (a + 0xA0000000) = .kernel1 := by
  obtain ⟨-, -, -, hk, -⟩ := segmentOf_iff (a + 0xA0000000)
  rw [hk, BitVec.toNat_add]
  show (a.toNat + 0xA0000000) % 2 ^ 32 / _ = 5
  omega

theorem segmentOf_user {a : Word} (h : a.toNat < 0x20000000) : segmentOf a = .user := by
  obtain ⟨hu, -⟩ := segmentOf_iff a
  exact hu.mpr (Nat.div_eq_of_lt h)

theorem segmentOf_eq_kernel2 (a : Word) : segmentOf a = .kernel2 ↔ 0xC0000000 ≤ a.toNat := by
  obtain ⟨-, -, -, -, hk⟩ := segmentOf_iff a
  rw [hk]
  omega

theorem physicalOf_eq_append (a : Word) : physicalOf a = 0#3 ++ a.extractLsb' 0 29 := by
  apply BitVec.eq_of_toNat_eq
  rw [physicalOf_toNat, BitVec.toNat_append, BitVec.extractLsb'_toNat]
  simp

/-- Adding a multiple of 0x20000000 keeps the physical offset. -/
theorem physicalOf_add (a : Word) {b : Word} (hb : b.toNat % 0x20000000 = 0) : physicalOf (a + b) = physicalOf a := by
  apply BitVec.eq_of_toNat_eq
  rw [physicalOf_toNat, physicalOf_toNat, BitVec.toNat_add]
  omega

/-! The address map. -/

/-- No two ranges of the map overlap. -/
theorem busTable_apart : ∀ e ∈ busTable, ∀ x ∈ busTable, e = x ∨ e.stop ≤ x.start ∨ x.stop ≤ e.start := by decide

theorem entryContains_iff (seg : Segment) (p : Nat) (e : BusEntry) :
    entryContains seg p e = true ↔ e.start ≤ p ∧ p < e.stop ∧ seg ∈ e.segments := by
  simp [entryContains, and_assoc]

/-- One range at most holds an offset. -/
theorem entryContains_unique {seg : Segment} {p : Nat} {e x : BusEntry} (he : e ∈ busTable) (hx : x ∈ busTable)
    (hce : entryContains seg p e = true) (hcx : entryContains seg p x = true) : e = x := by
  obtain ⟨h1, h2, -⟩ := (entryContains_iff seg p e).mp hce
  obtain ⟨h3, h4, -⟩ := (entryContains_iff seg p x).mp hcx
  rcases busTable_apart e he x hx with h | h | h
  · exact h
  · omega
  · omega

theorem busLookup_eq_some {seg : Segment} {p : Nat} {e : BusEntry} : busLookup seg p = some e ↔
    e ∈ busTable ∧ e.start ≤ p ∧ p < e.stop ∧ seg ∈ e.segments := by
  rw [← entryContains_iff]
  refine ⟨fun h => ⟨List.mem_of_find?_eq_some h, List.find?_some h⟩, fun ⟨he, hc⟩ => ?_⟩
  obtain ⟨x, hx⟩ := Option.isSome_iff_exists.mp (List.find?_isSome.mpr ⟨e, he, hc⟩)
  rw [entryContains_unique he (List.mem_of_find?_eq_some hx) hc (List.find?_some hx)]
  exact hx

theorem claim_eq_some {a : Word} {e : BusEntry} : claim a = some e ↔
    e ∈ busTable ∧ e.start ≤ a.toNat % 0x20000000 ∧ a.toNat % 0x20000000 < e.stop ∧ segmentOf a ∈ e.segments := by
  unfold claim
  rw [physicalOf_toNat]
  exact busLookup_eq_some

/-- Where the segments reach the same entries of the map, they show the same. -/
theorem busLookup_segment {seg seg' : Segment} {p : Nat} (h : ∀ e ∈ busTable, seg ∈ e.segments ↔ seg' ∈ e.segments) :
    busLookup seg p = busLookup seg' p := by
  ext e
  rw [busLookup_eq_some, busLookup_eq_some]
  exact and_congr_right fun he => by rw [h e he]

theorem arrayAt_congr {a b : Word} (hc : claim a = claim b) (hp : physicalOf a = physicalOf b) :
    arrayAt a = arrayAt b := by
  unfold arrayAt rangeOffset; rw [hc, hp]

theorem arrayAt_of_claim {a : Word} {e : BusEntry} (h : claim a = some e) :
    arrayAt a = (arrayKey e.device (rangeOffset e a)).map fun k => (e, k) := by unfold arrayAt; rw [h]

theorem arrayAt_of_unclaimed {a : Word} (h : claim a = none) : arrayAt a = none := by unfold arrayAt; rw [h]

theorem arrayPlace_of_claim {a : Word} {e : BusEntry} (h : claim a = some e) :
    arrayPlace a = (arrayKey e.device (rangeOffset e a)).map fun k => (e.device, k) := by
  unfold arrayPlace; rw [arrayAt_of_claim h, Option.map_map]; rfl

/-- Kernel1 shows what User shows, but for the scratchpad (20_memory R95). -/
theorem claim_kernel1_iff {a : Word} (ha : a.toNat < 0x20000000) (e : BusEntry) :
    claim (a + 0xA0000000) = some e ↔ claim a = some e ∧ e.device ≠ .scratchpad := by
  have hp : physicalOf (a + 0xA0000000) = physicalOf a := physicalOf_add a (by decide)
  have hs : ∀ e ∈ busTable, .kernel1 ∈ e.segments ↔ .user ∈ e.segments ∧ e.device ≠ .scratchpad := by decide
  unfold claim
  rw [hp, segmentOf_add_kernel1 ha, segmentOf_user ha, busLookup_eq_some, busLookup_eq_some]
  constructor
  · rintro ⟨he, h1, h2, hseg⟩
    obtain ⟨huser, hd⟩ := (hs e he).mp hseg
    exact ⟨⟨he, h1, h2, huser⟩, hd⟩
  · rintro ⟨⟨he, h1, h2, hseg⟩, hd⟩
    exact ⟨he, h1, h2, (hs e he).mpr ⟨hseg, hd⟩⟩

/-- Settles O38: each segment is a number of address bits 31:29, and the entries of the map that a mirror reaches are
those that User reaches. -/
theorem segmentsMirrorThePhysicalSpace : Obligations.SegmentsMirrorThePhysicalSpace := by
  intro a
  obtain ⟨hu, hi, h0, h1, -⟩ := segmentOf_iff a
  refine ⟨physicalOf_eq_append a, hu.trans (by omega), hi.trans (by omega), h0.trans (by omega), h1.trans (by omega),
    segmentOf_eq_kernel2 a, fun ha => ⟨?_, ?_⟩⟩
  · have hp : physicalOf (a + 0x80000000) = physicalOf a := physicalOf_add a (by decide)
    refine arrayAt_congr ?_ hp
    unfold claim
    rw [hp, segmentOf_add_kernel0 ha, segmentOf_user ha]
    exact busLookup_segment (by decide)
  · have hp : physicalOf (a + 0xA0000000) = physicalOf a := physicalOf_add a (by decide)
    have hk := claim_kernel1_iff ha
    cases hc : claim a with
    | none =>
      have hn : claim (a + 0xA0000000) = none := Option.eq_none_iff_forall_ne_some.mpr fun e h => by
        obtain ⟨he, -⟩ := (hk e).mp h
        exact Option.some_ne_none e (he.symm.trans hc)
      exact .inl ((arrayAt_of_unclaimed hn).trans (arrayAt_of_unclaimed hc).symm)
    | some e =>
      by_cases hd : e.device = .scratchpad
      · have hn : claim (a + 0xA0000000) = none := Option.eq_none_iff_forall_ne_some.mpr fun x h => by
          obtain ⟨hx, hxd⟩ := (hk x).mp h
          rw [hc] at hx
          cases hx
          exact hxd hd
        exact .inr ⟨_, by rw [arrayPlace_of_claim hc, hd]; rfl, hn⟩
      · exact .inl (arrayAt_congr (((hk e).mpr ⟨hc, hd⟩).trans hc.symm) hp)

/-- The ranges of the byte arrays and of the cache-control register in the map (20_memory R95). -/
theorem busTable_ranges : ∀ e ∈ busTable,
    (e.device = .ram → e = ⟨0x00000000, 0x00800000, mirrored, .ram⟩) ∧
    (e.device = .scratchpad → e = ⟨0x1F800000, 0x1F800400, [.user, .kernel0], .scratchpad⟩) ∧
    (e.device = .bios → e = ⟨0x1FC00000, 0x1FC80000, mirrored, .bios⟩) ∧
    (e.device = .cacheControl → e = ⟨0x1FFE0130, 0x1FFE0134, [.kernel2], .cacheControl⟩) := by decide

/-- A User address in a range of the map, User included, is in its byte array. -/
theorem arrayPlace_of_range {a : Word} (ha : a.toNat < 0x20000000) {e : BusEntry} {k : Nat} (he : e ∈ busTable)
    (hs : .user ∈ e.segments) (h1 : e.start ≤ a.toNat) (h2 : a.toNat < e.stop)
    (hk : arrayKey e.device (a.toNat - e.start) = some k) : arrayPlace a = some (e.device, k) := by
  have hp : a.toNat % 0x20000000 = a.toNat := Nat.mod_eq_of_lt ha
  have hc : claim a = some e := claim_eq_some.mpr (by rw [hp, segmentOf_user ha]; exact ⟨he, h1, h2, hs⟩)
  rw [arrayPlace_of_claim hc, rangeOffset, physicalOf_toNat, hp, hk]
  rfl

/-- Settles O39: the lookup by `busLookup_eq_some`, the places of the arrays and of the cache-control register by the
ranges of the map. -/
theorem addressMapIsTheTable : Obligations.AddressMapIsTheTable := by
  refine ⟨fun seg p e => busLookup_eq_some, fun a => ⟨?_, fun h => ?_⟩, fun a h => ?_, fun a ha => ⟨?_, ?_, ?_, ?_⟩⟩
  · rintro ⟨e, hc, hd⟩
    obtain ⟨he, h1, h2, hs⟩ := claim_eq_some.mp hc
    obtain ⟨-, -, -, hr⟩ := busTable_ranges e he
    rw [hr hd] at h1 h2 hs
    have hk := (segmentOf_eq_kernel2 a).mp (List.mem_singleton.mp hs)
    have := a.isLt
    dsimp only at h1 h2
    omega
  · have hk : segmentOf a = .kernel2 := (segmentOf_eq_kernel2 a).mpr (by omega)
    refine ⟨⟨0x1FFE0130, 0x1FFE0134, [.kernel2], .cacheControl⟩, claim_eq_some.mpr ⟨by decide, ?_, ?_, ?_⟩, rfl⟩
    · show 0x1FFE0130 ≤ _
      omega
    · show _ < 0x1FFE0134
      omega
    · exact List.mem_singleton.mpr hk
  · have hs : ∀ e ∈ busTable, .invalid ∉ e.segments := by decide
    refine Option.eq_none_iff_forall_ne_some.mpr fun e hc => ?_
    obtain ⟨he, -, -, hseg⟩ := claim_eq_some.mp hc
    exact hs e he (h ▸ hseg)
  · exact fun h => arrayPlace_of_range ha (e := ⟨0x00000000, 0x00800000, mirrored, .ram⟩) (by decide) (by decide)
      (Nat.zero_le _) h rfl
  · exact fun ⟨h1, h2⟩ => arrayPlace_of_range ha (e := ⟨0x1F800000, 0x1F800400, [.user, .kernel0], .scratchpad⟩)
      (by decide) (by decide) h1 h2 (congrArg some (Nat.add_sub_cancel' h1))
  · exact fun ⟨h1, h2⟩ => arrayPlace_of_range ha (e := ⟨0x1FC00000, 0x1FC80000, mirrored, .bios⟩) (by decide)
      (by decide) h1 h2 (congrArg some (Nat.add_sub_cancel' h1))
  · intro h
    obtain ⟨⟨e, k⟩, hk⟩ := Option.ne_none_iff_exists'.mp h
    obtain ⟨hc, hkey⟩ := arrayAt_claim hk
    obtain ⟨he, h1, h2, -⟩ := claim_eq_some.mp hc
    obtain ⟨hram, hscratch, hbios, -⟩ := busTable_ranges e he
    rw [Nat.mod_eq_of_lt ha] at h1 h2
    cases hd : e.device with
    | ram => rw [hram hd] at h2; exact .inl h2
    | scratchpad => rw [hscratch hd] at h1 h2; exact .inr (.inl ⟨h1, h2⟩)
    | bios => rw [hbios hd] at h1 h2; exact .inr (.inr ⟨h1, h2⟩)
    | _ => rw [hd] at hkey; cases hkey

end Sys2Proof.Machine

/-! Registration, the search tree and the construction (20_memory R82, R83; 61_clock_scheduler R321, R322;
70_reset_and_hazards R400, R402). -/

namespace Sys2Proof.Machine

open Sys2Proof.Safety

/-! Registration (20_memory R82). -/

/-- A start that is already registered on a shared segment is a duplicate. -/
theorem busRegister_duplicate (c : Nat) {e x : BusEntry} {es : List BusEntry} (hx : x ∈ es) (hs : x.start = e.start)
    {seg : Segment} (h1 : seg ∈ x.segments) (h2 : seg ∈ e.segments) : busRegister c e es = .error .duplicateRange := by
  refine if_pos (List.any_eq_true.mpr ⟨x, hx, ?_⟩)
  rw [Bool.and_eq_true, beq_iff_eq, List.any_eq_true]
  exact ⟨hs, seg, h1, List.contains_iff_mem.mpr h2⟩

/-- A start that is registered nowhere fails only for lack of room. -/
theorem busRegister_new (c : Nat) {e : BusEntry} {es : List BusEntry} (h : ∀ x ∈ es, x.start ≠ e.start) :
    busRegister c e es = if c ≤ es.length then .error .busCapacity else .ok (es ++ [e]) := by
  refine if_neg ?_
  rw [List.any_eq_true]
  rintro ⟨x, hx, hd⟩
  rw [Bool.and_eq_true, beq_iff_eq] at hd
  exact h x hx hd.1

/-- Ranges with different starts register while there is room. -/
theorem busRegisterAll_new (c : Nat) : ∀ es reg : List BusEntry, reg.length ≤ c →
    ((reg ++ es).map BusEntry.start).Nodup → busRegisterAll c es reg =
      if reg.length + es.length ≤ c then .ok (reg ++ es) else .error .busCapacity
  | [], reg, hr, _ => by
    rw [List.append_nil]
    exact (if_pos hr).symm
  | e :: rest, reg, hr, hn => by
    have hne : ∀ x ∈ reg, x.start ≠ e.start := by
      rw [List.map_append, List.nodup_append] at hn
      obtain ⟨-, -, hne⟩ := hn
      exact fun x hx => hne _ (List.mem_map_of_mem hx) _ List.mem_cons_self
    unfold busRegisterAll
    rw [busRegister_new c hne]
    by_cases hfull : c ≤ reg.length
    · rw [if_pos hfull, if_neg (by rw [List.length_cons]; omega)]
    · rw [List.append_cons reg e rest] at hn ⊢
      rw [if_neg hfull]
      dsimp only
      rw [busRegisterAll_new c rest (reg ++ [e]) (by rw [List.length_append, List.length_singleton]; omega) hn]
      simp only [List.length_append, List.length_cons, List.length_nil, Nat.add_assoc, Nat.zero_add, Nat.add_comm 1]

theorem busTable_starts : (busTable.map BusEntry.start).Nodup := by decide

/-- The ranges of the map, in any order, need room for 16. -/
theorem busRegisterAll_table {es : List BusEntry} (h : es.Perm busTable) (c : Nat) :
    busRegisterAll c es [] = if 16 ≤ c then .ok es else .error .busCapacity := by
  have hn : (es.map BusEntry.start).Nodup := (h.map BusEntry.start).nodup_iff.mpr busTable_starts
  rw [busRegisterAll_new c es [] (Nat.zero_le c) hn, h.length_eq, List.nil_append]
  rfl

/-! The search tree (20_memory R83). -/

/-- The entries of a tree. -/
def BusTree.entries : BusTree → List BusEntry
  | .leaf => []
  | .node e l r => e :: (l.entries ++ r.entries)

/-- Smaller starts are on the left, the others on the right. -/
def BusTree.Ordered : BusTree → Prop
  | .leaf => True
  | .node e l r => (∀ x ∈ l.entries, x.start < e.start) ∧ (∀ x ∈ r.entries, e.start ≤ x.start) ∧ l.Ordered ∧ r.Ordered

theorem mem_busInsert (e x : BusEntry) : ∀ t : BusTree, x ∈ (busInsert e t).entries ↔ x = e ∨ x ∈ t.entries
  | .leaf => by simp [busInsert, BusTree.entries]
  | .node y l r => by
    unfold busInsert
    split
    · simp only [BusTree.entries, List.mem_cons, List.mem_append, mem_busInsert e x l]; tauto
    · simp only [BusTree.entries, List.mem_cons, List.mem_append, mem_busInsert e x r]; tauto

theorem busInsert_ordered (e : BusEntry) : ∀ {t : BusTree}, t.Ordered → (busInsert e t).Ordered
  | .leaf, _ => ⟨fun _ h => (List.not_mem_nil h).elim, fun _ h => (List.not_mem_nil h).elim, trivial, trivial⟩
  | .node y l r, ⟨hl, hr, hol, hor⟩ => by
    unfold busInsert
    split
    · rename_i h
      refine ⟨fun x hx => ?_, hr, busInsert_ordered e hol, hor⟩
      rcases (mem_busInsert e x l).mp hx with rfl | hx
      · exact h
      · exact hl x hx
    · rename_i h
      refine ⟨hl, fun x hx => ?_, hol, busInsert_ordered e hor⟩
      rcases (mem_busInsert e x r).mp hx with rfl | hx
      · exact Nat.le_of_not_lt h
      · exact hr x hx

theorem foldl_busInsert_spec : ∀ (es : List BusEntry) {t : BusTree}, t.Ordered →
    (es.foldl (fun t e => busInsert e t) t).Ordered ∧
      ∀ x, x ∈ (es.foldl (fun t e => busInsert e t) t).entries ↔ x ∈ es ∨ x ∈ t.entries
  | [], _, h => ⟨h, fun x => by simp⟩
  | e :: rest, t, h => by
    obtain ⟨ho, hm⟩ := foldl_busInsert_spec rest (busInsert_ordered e h)
    refine ⟨ho, fun x => (hm x).trans ?_⟩
    rw [mem_busInsert, List.mem_cons]
    tauto

theorem busTreeOf_spec (es : List BusEntry) :
    (busTreeOf es).Ordered ∧ ∀ x, x ∈ (busTreeOf es).entries ↔ x ∈ es := by
  obtain ⟨ho, hm⟩ := foldl_busInsert_spec es (t := .leaf) trivial
  exact ⟨ho, fun x => (hm x).trans (by simp [BusTree.entries])⟩

theorem busTable_pos : ∀ e ∈ busTable, e.start < e.stop := by decide

/-- In an ordered tree of ranges of the map the walk finds the range that holds the offset. -/
theorem busWalk_eq_some {seg : Segment} {p : Nat} {e : BusEntry} : ∀ {t : BusTree}, t.Ordered →
    (∀ x ∈ t.entries, x ∈ busTable) →
    (busWalk seg p t = some e ↔ e ∈ t.entries ∧ entryContains seg p e = true)
  | .leaf, _, _ => by simp [busWalk, BusTree.entries]
  | .node y l r, ⟨hl, hr, hol, hor⟩, hb => by
    have hy := hb y List.mem_cons_self
    have hbl : ∀ x ∈ l.entries, x ∈ busTable := fun x hx => hb x (List.mem_cons_of_mem _ (List.mem_append_left _ hx))
    have hbr : ∀ x ∈ r.entries, x ∈ busTable := fun x hx => hb x (List.mem_cons_of_mem _ (List.mem_append_right _ hx))
    have hmem : e ∈ (BusTree.node y l r).entries ↔ e = y ∨ e ∈ l.entries ∨ e ∈ r.entries := by
      rw [BusTree.entries, List.mem_cons, List.mem_append]
    rw [hmem]
    unfold busWalk
    by_cases hc : entryContains seg p y = true
    · rw [if_pos hc]
      refine ⟨fun h => ?_, fun ⟨h, he⟩ => ?_⟩
      · cases h; exact ⟨.inl rfl, hc⟩
      · rw [entryContains_unique (hb e (hmem.mpr h)) hy he hc]
    · rw [if_neg hc]
      have hey : entryContains seg p e = true → e ≠ y := fun he h => hc (h ▸ he)
      by_cases hp : p < y.start
      · rw [if_pos hp, busWalk_eq_some hol hbl]
        refine ⟨fun ⟨h, he⟩ => ⟨.inr (.inl h), he⟩, fun ⟨h, he⟩ => ⟨?_, he⟩⟩
        obtain ⟨h3, -, -⟩ := (entryContains_iff seg p e).mp he
        rcases h with h | h | h
        · exact absurd h (hey he)
        · exact h
        · have := hr e h; omega
      · rw [if_neg hp, busWalk_eq_some hor hbr]
        refine ⟨fun ⟨h, he⟩ => ⟨.inr (.inr h), he⟩, fun ⟨h, he⟩ => ⟨?_, he⟩⟩
        obtain ⟨-, h4, -⟩ := (entryContains_iff seg p e).mp he
        rcases h with h | h | h
        · exact absurd h (hey he)
        · have hlt := hl e h
          have := busTable_pos y hy
          rcases busTable_apart e (hbl e h) y hy with h | h | h
          · exact absurd h (hey he)
          · omega
          · omega
        · exact h

/-- The walk of the tree built from the ranges of the map, in any order, finds what the lookup finds. -/
theorem busWalk_eq_busLookup {es : List BusEntry} (h : es.Perm busTable) (seg : Segment) (p : Nat) :
    busWalk seg p (busTreeOf es) = busLookup seg p := by
  obtain ⟨ho, hm⟩ := busTreeOf_spec es
  ext e
  rw [busWalk_eq_some ho fun x hx => h.mem_iff.mp ((hm x).mp hx), busLookup_eq_some, hm, h.mem_iff, entryContains_iff]

/-! Construction (70_reset_and_hazards R402). -/

/-- A clock entry as a device that is added at the time `now` gets it (61 R322). -/
def freshEntry (now nanos : Nat) : ClockEntry :=
  { nanosPerCycle := nanos, nextUpdate := none, updateFrequency := none, lastUpdateTime := now }

/-- Clock devices are added while there is room. -/
theorem addClocks_eq (capacity : Nat) : ∀ (ns : List Nat) (c : Clock), c.entries.length ≤ capacity →
    addClocks capacity ns c = if c.entries.length + ns.length ≤ capacity
      then .ok { c with entries := c.entries ++ ns.map (freshEntry c.systemTime) } else .error .clockCapacity
  | [], c, h => by
    rw [List.map_nil, List.append_nil]
    exact (if_pos h).symm
  | nanos :: rest, c, h => by
    unfold addClocks clockAddDevice
    by_cases hfull : capacity ≤ c.entries.length
    · rw [if_pos hfull, if_neg (by rw [List.length_cons]; omega)]
    · rw [if_neg hfull]
      dsimp only
      rw [addClocks_eq capacity rest _ (by rw [List.length_append, List.length_singleton]; omega)]
      simp only [List.length_append, List.length_cons, List.length_nil, Nat.add_assoc, Nat.zero_add, Nat.add_comm 1,
        List.append_assoc, List.map_cons]
      rfl

theorem imageFits_iff (p : Platform) :
    imageFits p = true ↔ ∀ image, p.bios = some image → image.length = 0x80000 := by
  unfold imageFits
  cases p.bios <;> simp [biosBytes]

theorem insideSpec_iff {p : Platform} (h : p.ranges.Perm busTable) : insideSpec p = true ↔ 0 ∉ p.clocks := by
  unfold insideSpec
  rw [Bool.and_eq_true, List.isPerm_iff, List.all_eq_true]
  simp only [h, true_and, bne_iff_ne]
  exact ⟨fun hn h0 => hn 0 h0 rfl, fun hn x hx h0 => hn (h0 ▸ hx)⟩

/-- A byte of a loaded image. -/
theorem read_imageCells : ∀ (image : List Byte) (a j : Nat),
    Memory.read (imageCells a image) (a + j) = image.getD j 0
  | [], _, _ => rfl
  | b :: rest, a, 0 => by
    unfold imageCells
    split
    · rename_i hb
      exact (Memory.read_below (imageCells_wf rest (a + 1) (a + 1) (le_refl _)) (Nat.lt_succ_self a)).trans hb.symm
    · simp [Memory.read]
  | b :: rest, a, j + 1 => by
    have ih := read_imageCells rest (a + 1) j
    rw [Nat.add_assoc, Nat.add_comm 1] at ih
    unfold imageCells
    split
    · exact ih
    · unfold Memory.read
      rw [if_neg (by omega), if_neg (by omega)]
      exact ih

/-- The construction of a platform with the ranges of the map, error by error (70 R402; log entry 30). -/
theorem construct_table {p : Platform} (h : p.ranges.Perm busTable) : construct p =
    if p.params.busMaxDevices < 16 then .fault (.fatal .busCapacity)
    else if p.params.clockMaxDevices < p.clocks.length then .fault (.fatal .clockCapacity)
    else if ¬ imageFits p = true then .fault .biosImageSize
    else if 0 ∈ p.clocks then .refused .platformOutsideSpec
    else .next (constructed p (p.requests.foldl applyRequest
      { systemTime := 0, entries := p.clocks.map (freshEntry 0) })) := by
  have hclocks := addClocks_eq p.params.clockMaxDevices p.clocks { systemTime := 0, entries := [] } (Nat.zero_le _)
  rw [List.length_nil, Nat.zero_add] at hclocks
  unfold construct
  rw [busRegisterAll_table h, hclocks]
  by_cases hb : p.params.busMaxDevices < 16
  · rw [if_neg (Nat.not_le.mpr hb), if_pos hb]
  rw [if_pos (Nat.le_of_not_lt hb), if_neg hb]
  by_cases hc : p.params.clockMaxDevices < p.clocks.length
  · rw [if_neg (Nat.not_le.mpr hc), if_pos hc]
  rw [if_pos (Nat.le_of_not_lt hc), if_neg hc]
  cases hf : imageFits p with
  | false => rfl
  | true =>
    rw [if_neg (not_not.mpr rfl)]
    by_cases h0 : 0 ∈ p.clocks
    · have hs : insideSpec p = false := Bool.eq_false_iff.mpr fun hs => (insideSpec_iff h).mp hs h0
      rw [hs, if_pos h0]
      rfl
    · rw [(insideSpec_iff h).mpr h0, if_neg h0]
      rfl

/-- Settles O40: registration by the starts, which differ; the walk by the order of the tree; the construction error by
error. -/
theorem registrationAndTreeWalk : Obligations.RegistrationAndTreeWalk := by
  refine ⟨fun es h => ⟨fun c hc => ?_, fun c hc => ?_, busWalk_eq_busLookup h⟩,
    fun c e x es hx hs ⟨seg, h1, h2⟩ => busRegister_duplicate c hx hs h1 h2, fun p h => ?_⟩
  · rw [busRegisterAll_table h, if_pos hc]
  · rw [busRegisterAll_table h, if_neg (Nat.not_le.mpr hc)]
  intro fits
  have hfits : imageFits p = true ↔ fits := imageFits_iff p
  rw [construct_table h, ← hfits]
  refine ⟨fun hb => if_pos hb, fun hb hc => ?_, fun hb hc => ?_⟩
  · rw [if_neg (Nat.not_lt.mpr hb), if_pos hc]
  rw [if_neg (Nat.not_lt.mpr hb), if_neg (Nat.not_lt.mpr hc)]
  refine ⟨fun hf => if_pos hf, fun hf h0 => ?_, fun hf h0 => ?_⟩
  · rw [if_neg (not_not.mpr hf), if_pos h0]
  · rw [if_neg (not_not.mpr hf), if_neg h0]
    refine ⟨_, rfl, rfl, rfl, rfl, fun image himage j => ?_⟩
    show Memory.read ((p.bios.map biosMemory).getD []) _ = _
    rw [himage]
    exact read_imageCells image _ j

end Sys2Proof.Machine

/-! The Bus: the lookup, the alignment, and the width of an answer (20_memory R80, R84 to R86). -/

namespace Sys2Proof.Machine

open Sys2Proof.Safety

theorem zext8_lt (b : Byte) : (zext8 b).toNat < 2 ^ widthBits .byte := by
  rw [zext8, BitVec.zeroExtend, BitVec.toNat_setWidth]
  exact (Nat.mod_le _ _).trans_lt b.isLt

theorem zext16_lt (h : Half) : (zext16 h).toNat < 2 ^ widthBits .half := by
  rw [zext16, BitVec.zeroExtend, BitVec.toNat_setWidth]
  exact (Nat.mod_le _ _).trans_lt h.isLt

theorem zextTo_lt (w : Width) (v : Word) : (zextTo w v).toNat < 2 ^ widthBits w := by
  cases w
  · exact zext8_lt _
  · exact zext16_lt _
  · exact v.isLt

theorem stubRead_lt (w : Width) (c : StubConstants) : (stubRead w c).toNat < 2 ^ widthBits w := by
  cases w
  · exact zext8_lt _
  · exact zext16_lt _
  · exact c.read32.isLt

theorem arrayRead_lt (w : Width) (k : Nat) (m : List Host.Cell) : (arrayRead w k m).toNat < 2 ^ widthBits w := by
  cases w
  · exact zext8_lt _
  · exact zext16_lt _
  · exact (Memory.readWord m k).isLt

/-- What a device answers lies within the width of the access (20_memory R80). -/
theorem deviceAnswer_lt {d : Device} {w : Width} {o : Nat} {v : Word} {s t : State}
    (h : deviceAnswer d w o s = .ok v t) : v.toNat < 2 ^ widthBits w := by
  have word : ∀ {r : Reply Word} {f : Fault}, (if w = .word then r else .fault f) = .ok v t →
      v.toNat < 2 ^ widthBits w := fun {r f} h => by
    split at h
    · rename_i hw; rw [hw]; exact v.isLt
    · cases h
  cases d with
  | ram | scratchpad | bios => cases h; exact arrayRead_lt _ _ _
  | expansion1 | gpu => cases h; exact zextTo_lt _ _
  | dma => exact word h
  | cacheControl => exact word h
  | _ => cases h; exact stubRead_lt _ _

theorem aligned_half_extract (a : Word) : aligned .half a = true ↔ a.extractLsb' 0 1 = 0 := by
  rw [aligned_half_iff, ← BitVec.toNat_inj, BitVec.extractLsb'_toNat, BitVec.getLsbD, Nat.testBit_zero]
  simp

/-- Settles O41: one way after the other that an access can go, and the width of what a device answers. -/
theorem busFaultsLookupFirst : Obligations.BusFaultsLookupFirst := by
  intro s w a v
  refine ⟨⟨rfl, aligned_half_extract a, aligned_word_iff a⟩, fun hc => ?_, fun hc ha => ?_,
    fun e x s1 hc ha => ⟨fun hr => ⟨?_, deviceAnswer_lt hr⟩, fun hw => ?_⟩⟩
  · unfold busRead busWrite
    rw [hc]
    exact ⟨rfl, rfl⟩
  · obtain ⟨e, he⟩ := Option.ne_none_iff_exists'.mp hc
    simp only [busRead, busWrite, he, ha]
    exact ⟨rfl, rfl⟩
  · simp [busRead, hc, ha, hr]
  · simp [busWrite, hc, ha, hw]

end Sys2Proof.Machine

/-! The registers of the devices without a byte array (20_memory R80, R96, R97; 62_dma R355 to R366). -/

namespace Sys2Proof.Machine

open Sys2Proof.Safety

theorem drawWord_eq (s : State) : drawWord s = (s.env.words.headD (Config.freeWord s.env.drawn), { s with
    env := { s.env with
      words := s.env.words.tail
      drawn := if s.env.words = [] then s.env.drawn + 1 else s.env.drawn } }) := by
  unfold drawWord
  cases h : s.env.words with
  | nil => simp [countDraw, h]
  | cons w rest => simp

/-- A write transaction, with the bits of the data that the width carries. -/
theorem deviceWrite_told (d : Device) (seg : Segment) (w : Width) (o : Nat) (v : Word) (s : State) :
    deviceWrite d seg w o v s = deviceAccept d w o v { s with
      outputs := .deviceWrite d seg (widthBits w) o (BitVec.ofNat 32 (v.toNat % 2 ^ widthBits w)) :: s.outputs } := by
  unfold deviceWrite emit
  rw [zextTo_eq]

/-- Everything a read of the GPU does (20_memory R96; 70_reset_and_hazards R420). -/
theorem gpuAnswer_eq (w : Width) (s : State) : gpuAnswer w s =
    .ok (BitVec.ofNat 32 ((s.env.words.headD (Config.freeWord s.env.drawn)).toNat % 2 ^ widthBits w)) { s with
      clock := (s.env.requests.headD []).foldl applyRequest s.clock
      env := { s.env with
        words := s.env.words.tail, requests := s.env.requests.tail
        drawn := if s.env.words = [] then s.env.drawn + 1 else s.env.drawn } } := by
  unfold gpuAnswer
  rw [drawWord_eq]
  simp only [zextTo_eq, portRequests_eq]

theorem dmaRegAt_madr (n : Fin 7) : dmaRegAt (16 * n.val) = .madr n := by revert n; decide

theorem dmaRegAt_bcr (n : Fin 7) : dmaRegAt (16 * n.val + 4) = .bcr n := by revert n; decide

theorem dmaRegAt_chcr (n : Fin 7) : dmaRegAt (16 * n.val + 8) = .chcr n := by revert n; decide

theorem dmaRegAt_unused (n : Fin 7) : dmaRegAt (16 * n.val + 12) = .unused n := by revert n; decide

theorem dmaRegRead_madr (n : Fin 7) (s : State) : dmaRegRead (16 * n.val) s = .ok (s.chan n).madr s := by
  unfold dmaRegRead; rw [dmaRegAt_madr]

theorem dmaRegRead_bcr (n : Fin 7) (s : State) : dmaRegRead (16 * n.val + 4) s = .ok (s.chan n).bcr s := by
  unfold dmaRegRead; rw [dmaRegAt_bcr]

theorem dmaRegRead_chcr (n : Fin 7) (s : State) : dmaRegRead (16 * n.val + 8) s = .ok (s.chan n).chcr s := by
  unfold dmaRegRead; rw [dmaRegAt_chcr]

theorem dmaRegRead_unused (n : Fin 7) (s : State) : dmaRegRead (16 * n.val + 12) s = .ok (s.chan n).unused s := by
  unfold dmaRegRead; rw [dmaRegAt_unused]

theorem dmaRegWrite_madr (n : Fin 7) (v : Word) (s : State) : dmaRegWrite (16 * n.val) v s =
    .next (setChan n { s.chan n with madr := v &&& s.params.dmaMadrMask } s) := by
  unfold dmaRegWrite; rw [dmaRegAt_madr]

theorem dmaRegWrite_bcr (n : Fin 7) (v : Word) (s : State) : dmaRegWrite (16 * n.val + 4) v s =
    .next (setChan n { s.chan n with bcr := v } s) := by
  unfold dmaRegWrite; rw [dmaRegAt_bcr]

theorem dmaRegWrite_chcr (n : Fin 7) (v : Word) (s : State) : dmaRegWrite (16 * n.val + 8) v s =
    dmaSyncStart n (setChcr n (chcrStored n v s) s) := by
  unfold dmaRegWrite; rw [dmaRegAt_chcr]

theorem dmaRegWrite_unused (n : Fin 7) (v : Word) (s : State) : dmaRegWrite (16 * n.val + 12) v s =
    .next (setChan n { s.chan n with unused := v } s) := by
  unfold dmaRegWrite; rw [dmaRegAt_unused]

/-- Settles O46: the write of the register, then the synchronous start by the stored bits. -/
theorem controlWriteStoresAndStarts : Obligations.ControlWriteStoresAndStarts := by
  intro s seg n v offset stored u
  have hwrite : deviceWrite .dma seg .word offset v s = dmaSyncStart n u := dmaRegWrite_chcr n v _
  have hchan : u.chan n = { s.chan n with chcr := stored } := (chan_setChan n n _ _).trans (if_pos rfl)
  have hq : qualifies n u = true ↔
      stored.getLsbD 24 = true ∧ (stored.extractLsb' 9 2 ≠ 0 ∨ stored.getLsbD 28 = true) := by
    unfold qualifies
    rw [hchan, Bool.and_eq_true, Bool.or_eq_true, bne_iff_ne]
    rfl
  rw [hwrite]
  unfold dmaSyncStart
  simp only [hq, and_assoc]
  rfl

/-- Settles O25: device by device; the DMA registers by the register at each offset. -/
theorem deviceRegistersReadAndWrite : Obligations.DeviceRegistersReadAndWrite := by
  intro s seg w0 offset v0 n ask tell reads stores constant word made
  have hconst : ∀ c, stubRead w0 c = constant c := fun c => by
    cases w0
    exacts [zext8_eq _, zext16_append _, rfl]
  refine ⟨rfl, rfl, rfl, ?stubs, ?ignore, ?_, ?_, rfl, ?_, dmaRegRead_madr n _, dmaRegRead_bcr n _,
    dmaRegRead_chcr n _, dmaRegRead_unused n _, rfl, rfl, ?_, ?_, ?_, ?_, ?_, ?_, ?_⟩
  case stubs =>
    intro p hp
    simp only [List.mem_cons, List.not_mem_nil, or_false] at hp
    rcases hp with rfl | rfl | rfl | rfl | rfl | rfl | rfl | rfl | rfl <;> exact congrArg (Reply.ok · _) (hconst _)
  case ignore =>
    intro d hd
    simp only [List.mem_cons, List.not_mem_nil, or_false] at hd
    rcases hd with rfl | rfl | rfl | rfl | rfl | rfl | rfl | rfl | rfl | rfl | rfl <;>
      exact deviceWrite_told _ _ _ _ _ _
  · exact gpuAnswer_eq _ _
  · refine (deviceWrite_told _ _ _ _ _ _).trans ?_
    exact congrArg _ (portRequests_eq _)
  · exact deviceWrite_told _ _ _ _ _ _
  · exact deviceWrite_told _ _ _ _ _ _
  · exact deviceWrite_told _ _ _ _ _ _
  · exact (deviceWrite_told _ _ _ _ _ _).trans (dmaRegWrite_madr n _ _)
  · exact (deviceWrite_told _ _ _ _ _ _).trans (dmaRegWrite_bcr n _ _)
  · exact (deviceWrite_told _ _ _ _ _ _).trans (dmaRegWrite_unused n _ _)
  · intro o ho
    simp only [List.mem_cons, List.not_mem_nil, or_false] at ho
    rcases ho with rfl | rfl <;> exact ⟨rfl, rfl⟩
  · exact fun hw => ⟨if_neg hw, if_neg hw, if_neg hw, if_neg hw⟩

end Sys2Proof.Machine

/-! The loads and stores of devices (20_memory R80, R84, R110, R111; 44_load_store R230 to R242). -/

namespace Sys2Proof.Machine

open Sys2Proof.Safety

theorem queues_of_next {r : Result} {i : Reg} {v v' : Word} {u : State} (h : r = .next (retireLoad i v u)) (hv : v = v') :
    ∃ t, r = .next t ∧ Queues i v' u t := ⟨_, h, hv ▸ retireLoad_queues i v u⟩

/-- Settles O24: `loadWith_ok` and `loadMerge_ok`, the extensions as appended zeros. -/
theorem loadsFromDevicesQueueTheAnswer : Obligations.LoadsFromDevicesQueueTheAnswer := by
  intro s s1 rt rs imm e v a pending read hi hm
  refine ⟨?_, ?_, ?_, ?_, ?_, ?_, ?_⟩
  · exact fun ⟨hc, hr⟩ => queues_of_next (loadWith_ok hi hm rfl hc hr) rfl
  · exact fun ⟨hc, hr⟩ => queues_of_next (loadWith_ok hi hm rfl hc hr) (zext8_eq _)
  · exact fun ha ⟨hc, hr⟩ => queues_of_next (loadWith_ok hi hm ((aligned_half_iff a).mpr ha) hc hr) rfl
  · exact fun ha ⟨hc, hr⟩ => queues_of_next (loadWith_ok hi hm ((aligned_half_iff a).mpr ha) hc hr) (zext16_append _)
  · exact fun ha ⟨hc, hr⟩ => queues_of_next (loadWith_ok hi hm ((aligned_word_iff a).mpr ha) hc hr) rfl
  · exact fun ⟨hc, hr⟩ => queues_of_next (loadMerge_ok hi hm hc (segmentOf_alignedWord a ▸ hr)) rfl
  · exact fun ⟨hc, hr⟩ => queues_of_next (loadMerge_ok hi hm hc (segmentOf_alignedWord a ▸ hr)) rfl

theorem retires_of_next {r : Result} {u : State} (h : r = .next (retireNone u)) :
    ∃ t, r = .next t ∧ Retires none u t := ⟨_, h, retireNone_retires u⟩

/-- Settles O27: `storeWith_ok` and `storeMerge_ok`. -/
theorem storesToDevicesRetire : Obligations.StoresToDevicesRetire := by
  intro s s1 rt rs imm e a wrote merged hi hm
  refine ⟨?_, ?_, ?_, ?_, ?_⟩
  · exact fun v s2 hc hr hw => retires_of_next (storeMerge_ok hi hm hc hr hw)
  · exact fun v s2 hc hr hw => retires_of_next (storeMerge_ok hi hm hc hr hw)
  · exact fun ⟨hc, hw⟩ => retires_of_next (storeWith_ok hi hm rfl hc hw)
  · exact fun ha ⟨hc, hw⟩ => retires_of_next (storeWith_ok hi hm ((aligned_half_iff a).mpr ha) hc hw)
  · exact fun ha ⟨hc, hw⟩ => retires_of_next (storeWith_ok hi hm ((aligned_word_iff a).mpr ha) hc hw)

end Sys2Proof.Machine

/-! Accesses that the mode blocks, and accesses while the cache is isolated (20_memory R112 to R114). -/

namespace Sys2Proof.Machine

open Sys2Proof.Safety

/-! Loads and stores of one shape. -/

/-- What holds of both shapes of a load holds of every load. -/
theorem loads_forall {P : Result → Prop} {rt rs : Reg} {imm : Half} {s : State}
    (hw : ∀ w ext, P (loadWith w ext rt rs imm s)) (hm : ∀ merge, P (loadMerge merge rt rs imm s)) :
    ∀ i ∈ loads rt rs imm, P (exec i s) := by
  simp only [loads, List.forall_mem_cons]
  exact ⟨hw _ _, hw _ _, hw _ _, hw _ _, hw _ _, hm _, hm _, List.forall_mem_nil _⟩

/-- What holds of both shapes of a store holds of every store. -/
theorem stores_forall {P : Result → Prop} {rt rs : Reg} {imm : Half} {s : State}
    (hw : ∀ w, P (storeWith w rt rs imm s)) (hm : ∀ merge, P (storeMerge merge rt rs imm s)) :
    ∀ i ∈ stores rt rs imm, P (exec i s) := by
  simp only [stores, List.forall_mem_cons]
  exact ⟨hw _, hw _, hw _, hm _, hm _, List.forall_mem_nil _⟩

/-! How a load or a store goes on from its access. -/

section
variable {rt rs : Reg} {imm : Half} {s : State}

theorem loadWith_of_read {w : Width} {ext : Word → Word} {r : Access Word} (h : memRead w (addressOf rs imm s) s = r) :
    loadWith w ext rt rs imm s = withAccess r fun v s1 => .next (retireLoad rt (ext v) s1) := by
  unfold loadWith; rw [effectiveAddress_eq, h]

theorem loadMerge_of_read {merge : BitVec 2 → Word → Word → Word} {r : Access Word}
    (h : unalignedRead (addressOf rs imm s) s = r) : loadMerge merge rt rs imm s = withAccess r fun w s1 =>
      .next (retireLoad rt (merge (byteLane (addressOf rs imm s)) (pendingOr rt s) w) s1) := by
  unfold loadMerge; rw [effectiveAddress_eq, h]

theorem storeWith_of_write {w : Width} {r : Access Unit} (h : memWrite w (addressOf rs imm s) (s.gpr rt) s = r) :
    storeWith w rt rs imm s = withAccess r fun _ s1 => .next (retireNone s1) := by
  unfold storeWith; rw [effectiveAddress_eq, h]

theorem storeMerge_of_read {merge : BitVec 2 → Word → Word → Word} {r : Access Word}
    (h : mergeRead (addressOf rs imm s) s = r) : storeMerge merge rt rs imm s = withAccess r fun w s1 =>
      withAccess (memWrite .word (alignedWord (addressOf rs imm s))
        (merge (byteLane (addressOf rs imm s)) w (s.gpr rt)) s1) fun _ s2 => .next (retireNone s2) := by
  unfold storeMerge; rw [effectiveAddress_eq, h]

end

/-! Accesses that the mode blocks. -/

section
variable {a : Word} {s : State} (h : userBlocked a s = true)
include h

theorem memRead_blocked (w : Width) : memRead w a s = .raise (.adEL a) s := if_pos h

theorem memWrite_blocked (w : Width) (v : Word) : memWrite w a v s = .raise (.adES a) s := if_pos h

theorem unalignedRead_blocked : unalignedRead a s = .raise (.adEL a) s := if_pos h

theorem mergeRead_blocked : mergeRead a s = .raise (.adES a) s := if_pos h

theorem fetch_blocked : fetch a s = .raise (.adEL a) s := if_pos h

end

/-! Accesses while the cache is isolated. -/

section
variable {a : Word} {s : State} (hm : ModeAllows a s) (hi : s.sr.getLsbD 16 = true)
include hm hi

theorem memRead_isolated (w : Width) : memRead w a s = .refused .isolatedLoad := by
  unfold memRead isolated; rw [userBlocked_of_allows hm, hi]; rfl

theorem unalignedRead_isolated : unalignedRead a s = .refused .isolatedLoad := by
  unfold unalignedRead
  rw [userBlocked_of_allows hm, memRead_isolated (allows_alignedWord hm) hi]
  rfl

theorem memWrite_isolated_word (v : Word) : memWrite .word a v s = .ok () (isolatedStore a v s) := by
  unfold memWrite isolated; rw [userBlocked_of_allows hm, hi]; rfl

theorem memWrite_isolated_narrow {w : Width} (v : Word) (hw : w ≠ .word) :
    memWrite w a v s = .fault (.fatal .isolatedNarrowStore) := by
  unfold memWrite isolated; rw [userBlocked_of_allows hm, hi]; exact if_neg hw

theorem mergeRead_isolated : mergeRead a s = .fault (.fatal .isolatedNarrowStore) := by
  unfold mergeRead isolated; rw [userBlocked_of_allows hm, hi]; rfl

end

/-! The line that an isolated store maintains. -/

theorem line_setLine (i j : BitVec 8) (l : CacheLine) (s : State) :
    (setLine i l s).line j = if j = i then l else s.line j := by
  unfold State.line setLine
  by_cases h : j = i
  · subst h; simp
  · have hij : i.toNat ≠ j.toNat := fun h' => h (BitVec.eq_of_toNat_eq h'.symm)
    simp [h, hij]

theorem line_retireNone (i : BitVec 8) (s : State) : (retireNone s).line i = s.line i := by
  simp only [State.line, retireNone_icache]

/-- The line that an isolated store leaves in its place. -/
def lineMaintained (tagMode : Bool) (k : BitVec 2) (v : Word) (l : CacheLine) : CacheLine :=
  if tagMode then lineInvalidated l else linePatched k v l

theorem isolatedStore_eq (a v : Word) (s : State) : isolatedStore a v s =
    setLine (cacheIndex a) (lineMaintained (tagTest s) (cacheSlot a) v (s.line (cacheIndex a))) s := by
  unfold isolatedStore lineMaintained; split <;> rfl

theorem linePatched_word (k : BitVec 2) (v : Word) (l : CacheLine) (j : Fin 4) :
    (linePatched k v l).word[j] = if j.val = k.toNat then v else l.word[j] := by
  simp [linePatched, Vector.getElem_set, eq_comm]

/-- Settles O28: the mode allows the access, so each shape goes on from its isolated access; SW by the line it leaves. -/
theorem isolatedCacheAccesses : Obligations.IsolatedCacheAccesses := by
  intro s rt rs imm a index hi hm
  refine ⟨⟨retireNone (isolatedStore a (s.gpr rt) s), storeWith_of_write (memWrite_isolated_word hm hi _), ?_, ?_⟩, ?_, ?_⟩
  · have h := retireNone_retires (isolatedStore a (s.gpr rt) s)
    rw [isolatedStore_eq] at h ⊢
    rw [retireNone_icache]
    exact h
  · have hlines : ∀ l, (retireNone (isolatedStore a (s.gpr rt) s)).line l = if l = index then
        lineMaintained (tagTest s) (cacheSlot a) (s.gpr rt) (s.line index) else s.line l := fun l => by
      rw [line_retireNone, isolatedStore_eq]
      exact line_setLine index l _ s
    refine ⟨fun l hl => (hlines l).trans (if_neg hl), ?_⟩
    rw [(hlines index).trans (if_pos rfl)]
    cases ht : tagTest s
    · exact ⟨rfl, fun h => absurd (ht.symm.trans h) (by decide), fun _ => ⟨rfl, linePatched_word _ _ _⟩⟩
    · exact ⟨rfl, fun _ => ⟨rfl, fun j => Vector.getElem_replicate j.isLt⟩,
        fun h => absurd (ht.symm.trans h) (by decide)⟩
  · have merged := fun merge => storeMerge_of_read (rt := rt) (merge := merge) (mergeRead_isolated hm hi)
    simp only [List.forall_mem_cons]
    exact ⟨storeWith_of_write (memWrite_isolated_narrow (w := .byte) hm hi _ (by decide)),
      storeWith_of_write (memWrite_isolated_narrow (w := .half) hm hi _ (by decide)),
      merged _, merged _, List.forall_mem_nil _⟩
  · exact loads_forall (P := fun r => r = .refused .isolatedLoad)
      (fun w _ => loadWith_of_read (memRead_isolated hm hi w))
      (fun _ => loadMerge_of_read (unalignedRead_isolated hm hi))

/-! The user-mode check. -/

/-- A fetch that the cache is not looked up for is a Bus read. -/
theorem fetch_uncached {a : Word} {s : State} (hm : ModeAllows a s) (hc : cacheable a s = false) :
    fetch a s = cpuBusRead .word a s := by
  unfold fetch; rw [userBlocked_of_allows hm, hc]; rfl

/-- Settles O29: in user mode each shape goes on from its blocked access; in kernel mode every address is allowed. -/
theorem userModeAddressCheck : Obligations.UserModeAddressCheck := by
  intro s rt rs imm a
  refine ⟨fun hu hs => ?_, fun hk hi w b v => ?_⟩
  · have hb : userBlocked a s = true := userBlocked_of_user hu hs
    have hload : ∀ i ∈ loads rt rs imm, exec i s = raise (.adEL a) s :=
      loads_forall (P := fun r => r = raise (.adEL a) s) (fun w _ => loadWith_of_read (memRead_blocked hb w))
        (fun _ => loadMerge_of_read (unalignedRead_blocked hb))
    have hstore : ∀ i ∈ stores rt rs imm, exec i s = raise (.adES a) s :=
      stores_forall (P := fun r => r = raise (.adES a) s) (fun w => storeWith_of_write (memWrite_blocked hb w _))
        (fun _ => storeMerge_of_read (mergeRead_blocked hb))
    exact ⟨fun i hi => ⟨_, hload i hi, takeException_enters (.adEL a) s⟩,
      fun i hi => ⟨_, hstore i hi, takeException_enters (.adES a) s⟩, fetch_blocked hb⟩
  · have hm : ModeAllows b s := fun h => absurd (hk.symm.trans h) (by decide)
    exact ⟨memRead_bus hm hi, memWrite_bus hm hi, fetch_uncached hm⟩

end Sys2Proof.Machine

/-! The instruction fetch and the cache (20_memory R115, R116; 60_exceptions R293). -/

namespace Sys2Proof.Machine

open Sys2Proof.Safety

/-! The ways a fetch can go. -/

section
variable {a : Word} {s : State} (hm : ModeAllows a s)
include hm

theorem fetch_hit (hc : cacheable a s = true) (hh : cacheHit a s = true) : fetch a s = .ok (cachedWord a s) s := by
  unfold fetch; rw [userBlocked_of_allows hm, hc, hh]; rfl

/-- A miss that reads its word: the cache is filled in the state that the read leaves. -/
theorem fetch_miss {w : Word} {u : State} (hc : cacheable a s = true) (hh : cacheHit a s = false)
    (hr : cpuBusRead .word a s = .ok w u) : fetch a s = .ok w (cacheFill a w u) := by
  unfold fetch; rw [userBlocked_of_allows hm, hc, hh, hr]; rfl

/-- Where the cache does not serve the fetch, an exception of the Bus read is the fetch's. -/
theorem fetch_busRaise {e : Exc} {u : State} (hh : ¬ (cacheable a s = true ∧ cacheHit a s = true))
    (hr : cpuBusRead .word a s = .raise e u) : fetch a s = .raise e u := by
  cases hc : cacheable a s with
  | false => rw [fetch_uncached hm hc, hr]
  | true =>
    have hmiss : cacheHit a s = false := Bool.eq_false_iff.mpr fun h => hh ⟨hc, h⟩
    unfold fetch
    rw [userBlocked_of_allows hm, hc, hmiss, hr]
    rfl

end

/-! The cache. -/

theorem cacheable_iff (a : Word) (s : State) : cacheable a s = true ↔
    s.cacheCtl.getLsbD 11 = true ∧ (segmentOf a = .user ∨ segmentOf a = .kernel0) ∧ a.extractLsb' 0 2 = 0 := by
  unfold cacheable cacheEnabled
  rw [Bool.and_eq_true, Bool.and_eq_true, Bool.or_eq_true, beq_iff_eq, beq_iff_eq, aligned_word_iff, and_assoc]

theorem cacheTag_eq (a : Word) : cacheTag a = a.extractLsb' 12 17 := by
  unfold cacheTag physicalOf
  ext i hi
  interval_cases i <;> simp

/-- A line with the word of slot `k` filled (20_memory R116). -/
theorem lineFilled_eq (k : BitVec 2) (tag : BitVec 17) (w : Word) (l : CacheLine) : lineFilled k tag w l =
    { tag := tag, word := l.word.set k.toNat w k.isLt
      valid := (if l.tag = tag then l.valid else Vector.replicate 4 false).set k.toNat true k.isLt } := by
  unfold lineFilled
  split
  · rename_i h; rw [← h]
  · rfl

theorem lineFilled_same (k : BitVec 2) (tag : BitVec 17) (w : Word) (l : CacheLine) :
    (lineFilled k tag w l).valid[k.toNat]'k.isLt = true ∧ (lineFilled k tag w l).word[k.toNat]'k.isLt = w := by
  rw [lineFilled_eq]
  exact ⟨Vector.getElem_set_self _, Vector.getElem_set_self _⟩

theorem lineFilled_other {k : BitVec 2} (tag : BitVec 17) (w : Word) (l : CacheLine) {j : Fin 4}
    (hj : j.val ≠ k.toNat) : (lineFilled k tag w l).word[j] = l.word[j] ∧
      (lineFilled k tag w l).valid[j] = (l.tag == tag && l.valid[j]) := by
  rw [lineFilled_eq]
  refine ⟨Vector.getElem_set_ne k.isLt j.isLt hj.symm, (Vector.getElem_set_ne k.isLt j.isLt hj.symm).trans ?_⟩
  by_cases h : l.tag = tag <;> simp [h]

theorem line_cacheFill (a w : Word) (s : State) (l : BitVec 8) : (cacheFill a w s).line l =
    if l = cacheIndex a then lineFilled (cacheSlot a) (cacheTag a) w (s.line (cacheIndex a)) else s.line l :=
  line_setLine _ l _ s

theorem cacheFill_hit (a w : Word) (s : State) :
    cacheHit a (cacheFill a w s) = true ∧ cachedWord a (cacheFill a w s) = w := by
  obtain ⟨hvalid, hword⟩ := lineFilled_same (cacheSlot a) (cacheTag a) w (s.line (cacheIndex a))
  unfold cacheHit cachedWord
  rw [(line_cacheFill a w s (cacheIndex a)).trans (if_pos rfl), hvalid, hword, lineFilled_eq]
  exact ⟨by simp, rfl⟩

/-- Settles O7: the three ways of a fetch from an allowed aligned address; a miss by the line that `cacheFill` leaves. -/
theorem fetchReadsCacheOrMemory : Obligations.FetchReadsCacheOrMemory := by
  intro s a
  refine ⟨cacheable_iff a s, ⟨rfl, rfl, cacheTag_eq a⟩, fun j hj => ?_, fun e k _ hk => arrayAt_read hk .word s,
    fun hm ha => ⟨fetch_hit hm, fun e w s1 hc hr => ?_⟩⟩
  · have hslot : ∀ {α : Type} (v : Vector α 4), v[(cacheSlot a).toNat]'(cacheSlot a).isLt = v[j] := fun v => by
      simp only [Fin.getElem_fin, hj, cacheSlot]
    refine ⟨?_, hslot _⟩
    unfold cacheHit
    rw [hslot, Bool.and_eq_true, beq_iff_eq, cacheTag_eq]
    rfl
  · have hbus := cpuBusRead_ok hc ((aligned_word_iff a).mpr ha) hr
    refine ⟨fun hu => (fetch_uncached hm hu).trans hbus, fun hca hmiss => ?_⟩
    have hline : ∀ l, (costing e.device s1).line l = s.line l := fun l => by
      have hi : s1.icache = s.icache := by rw [(deviceRead_moves hr).frame]
      show s1.icache[l.toNat] = s.icache[l.toNat]
      simp only [hi]
    have hfill := line_cacheFill a w (costing e.device s1)
    simp only [hline] at hfill
    obtain ⟨hhit, hword⟩ := cacheFill_hit a w (costing e.device s1)
    refine ⟨cacheFill a w (costing e.device s1), fetch_miss hm hca hmiss hbus, rfl, hhit, hword,
      fun l hl => (hfill l).trans (if_neg hl), fun j hj => ?_⟩
    rw [(hfill _).trans (if_pos rfl)]
    exact lineFilled_other _ w _ hj

/-! Fetch exceptions. -/

/-- With no interrupt pending, a fetch that raises is taken in place of the instruction, and charged. -/
theorem cpuStep_raised {s u : State} {e : Exc} (hp : intPending s = false)
    (hf : fetch s.pc (advance s) = .raise e u) : cpuStep s = charge (takeException e u) := by
  have hp' : intPending (advance s) = false := hp
  have hf' : fetch (advance s).currentPc (advance s) = .raise e u := hf
  unfold cpuStep instruction
  rw [hp', hf']
  rfl

/-- Where the cache does not serve the fetch, a fault of the Bus enters the handler, and its record leaves no trace. -/
theorem cpuStep_busFault {s : State} {e : Exc} {c : BusFaultCode} (hp : intPending s = false)
    (hm : ModeAllows s.pc s) (hh : ¬ (cacheable s.pc s = true ∧ cacheHit s.pc s = true))
    (hr : cpuBusRead .word s.pc (advance s) = .raise e (recordFault c s.pc (advance s))) :
    ∃ t, cpuStep s = charge t ∧ Enters (excCode e) (excCe e) (excAddress e) (advance s) t := by
  refine ⟨takeException e (advance s), ?_, takeException_enters e _⟩
  rw [← takeException_recordFault e c s.pc]
  exact cpuStep_raised hp (fetch_busRaise (s := advance s) hm hh hr)

/-- Settles O8: the blocked fetch, then the two faults of the Bus; a misaligned address is never looked up. -/
theorem fetchFaultsEnterTheHandler : Obligations.FetchFaultsEnterTheHandler := by
  intro s hp
  refine ⟨fun hm => ?_, fun hm hc hh => cpuStep_busFault hp hm hh (cpuBusRead_unclaimed .word hc), fun hm hc ha => ?_⟩
  · obtain ⟨hu, hseg⟩ := Classical.not_imp.mp hm
    exact ⟨_, cpuStep_raised hp (fetch_blocked (userBlocked_of_user (s := advance s) hu hseg)),
      takeException_enters (.adEL s.pc) _⟩
  · have hal : aligned .word s.pc = false := Bool.eq_false_iff.mpr fun h => ha ((aligned_word_iff s.pc).mp h)
    have hh : ¬ (cacheable s.pc s = true ∧ cacheHit s.pc s = true) := fun ⟨hc, _⟩ => by
      obtain ⟨-, -, h⟩ := (cacheable_iff s.pc s).mp hc
      exact ha h
    exact cpuStep_busFault hp hm hh (cpuBusRead_misaligned hc hal)

end Sys2Proof.Machine

/-! Encoding (30_encoding): the fields of the word formats, what the decoder reads from an encoded word, what an accepted
word fixes, and the opcode table as the table of the decoder's dispatch. -/

namespace Sys2Proof

open Machine Safety

/-! The fields of a word in each format (R141). -/

/-- A field by its bits. -/
theorem extractLsb'_eq_of_bits {w : Word} {l n : Nat} {x : BitVec n}
    (h : ∀ i, i < n → w.getLsbD (l + i) = x.getLsbD i) : w.extractLsb' l n = x :=
  BitVec.eq_of_getLsbD_eq fun i hi => by rw [BitVec.getLsbD_extractLsb', decide_eq_true hi, Bool.true_and, h i hi]

section

variable (op : BitVec 6) (rs rt rd : Reg) (shamt : BitVec 5) (funct : BitVec 6) (imm : Half) (index : BitVec 26)
  (code : BitVec 20)

@[simp] theorem opOf_rWord : opOf (rWord op rs rt rd shamt funct) = op :=
  extractLsb'_eq_of_bits fun i hi => by rw [rWord_bit]; interval_cases i <;> rfl
@[simp] theorem rsOf_rWord : rsOf (rWord op rs rt rd shamt funct) = rs :=
  extractLsb'_eq_of_bits fun i hi => by rw [rWord_bit]; interval_cases i <;> rfl
@[simp] theorem rtOf_rWord : rtOf (rWord op rs rt rd shamt funct) = rt :=
  extractLsb'_eq_of_bits fun i hi => by rw [rWord_bit]; interval_cases i <;> rfl
@[simp] theorem rdOf_rWord : rdOf (rWord op rs rt rd shamt funct) = rd :=
  extractLsb'_eq_of_bits fun i hi => by rw [rWord_bit]; interval_cases i <;> rfl
@[simp] theorem shamtOf_rWord : shamtOf (rWord op rs rt rd shamt funct) = shamt :=
  extractLsb'_eq_of_bits fun i hi => by rw [rWord_bit]; interval_cases i <;> rfl
@[simp] theorem functOf_rWord : functOf (rWord op rs rt rd shamt funct) = funct :=
  extractLsb'_eq_of_bits fun i hi => by rw [rWord_bit]; interval_cases i <;> rfl

@[simp] theorem opOf_iWord : opOf (iWord op rs rt imm) = op :=
  extractLsb'_eq_of_bits fun i hi => by rw [iWord_bit]; interval_cases i <;> rfl
@[simp] theorem rsOf_iWord : rsOf (iWord op rs rt imm) = rs :=
  extractLsb'_eq_of_bits fun i hi => by rw [iWord_bit]; interval_cases i <;> rfl
@[simp] theorem rtOf_iWord : rtOf (iWord op rs rt imm) = rt :=
  extractLsb'_eq_of_bits fun i hi => by rw [iWord_bit]; interval_cases i <;> rfl
@[simp] theorem imm16Of_iWord : imm16Of (iWord op rs rt imm) = imm :=
  extractLsb'_eq_of_bits fun i hi => by rw [iWord_bit]; interval_cases i <;> rfl

@[simp] theorem opOf_jWord : opOf (jWord op index) = op :=
  extractLsb'_eq_of_bits fun i hi => by rw [jWord_bit]; interval_cases i <;> rfl
@[simp] theorem index26Of_jWord : index26Of (jWord op index) = index :=
  extractLsb'_eq_of_bits fun i hi => by rw [jWord_bit]; interval_cases i <;> rfl

@[simp] theorem opOf_codeWord : opOf (codeWord code funct) = 0 :=
  extractLsb'_eq_of_bits fun i hi => by rw [codeWord_bit]; interval_cases i <;> rfl
@[simp] theorem codeOf_codeWord : codeOf (codeWord code funct) = code :=
  extractLsb'_eq_of_bits fun i hi => by rw [codeWord_bit]; interval_cases i <;> rfl
@[simp] theorem functOf_codeWord : functOf (codeWord code funct) = funct :=
  extractLsb'_eq_of_bits fun i hi => by rw [codeWord_bit]; interval_cases i <;> rfl

/-! A word is its fields. -/

theorem rWord_fields (w : Word) : rWord (opOf w) (rsOf w) (rtOf w) (rdOf w) (shamtOf w) (functOf w) = w := by
  apply BitVec.eq_of_getLsbD_eq
  intro i hi
  rw [rWord_bit]
  interval_cases i <;> simp [opOf, rsOf, rtOf, rdOf, shamtOf, functOf]

theorem iWord_fields (w : Word) : iWord (opOf w) (rsOf w) (rtOf w) (imm16Of w) = w := by
  apply BitVec.eq_of_getLsbD_eq
  intro i hi
  rw [iWord_bit]
  interval_cases i <;> simp [opOf, rsOf, rtOf, imm16Of]

theorem jWord_fields (w : Word) : jWord (opOf w) (index26Of w) = w := by
  apply BitVec.eq_of_getLsbD_eq
  intro i hi
  rw [jWord_bit]
  interval_cases i <;> simp [opOf, index26Of]

/-- The form of SYSCALL and BREAK has the opcode 0. -/
theorem codeWord_fields {w : Word} (h : 0#6 = opOf w) : codeWord (codeOf w) (functOf w) = w := by
  apply BitVec.eq_of_getLsbD_eq
  intro i hi
  rw [codeWord_bit, h]
  interval_cases i <;> simp [opOf, codeOf, functOf]

theorem rWord_eq_iff {w : Word} : rWord op rs rt rd shamt funct = w ↔
    op = opOf w ∧ rs = rsOf w ∧ rt = rtOf w ∧ rd = rdOf w ∧ shamt = shamtOf w ∧ funct = functOf w := by
  constructor
  · rintro rfl; simp
  · rintro ⟨rfl, rfl, rfl, rfl, rfl, rfl⟩; exact rWord_fields w

theorem iWord_eq_iff {w : Word} :
    iWord op rs rt imm = w ↔ op = opOf w ∧ rs = rsOf w ∧ rt = rtOf w ∧ imm = imm16Of w := by
  constructor
  · rintro rfl; simp
  · rintro ⟨rfl, rfl, rfl, rfl⟩; exact iWord_fields w

theorem jWord_eq_iff {w : Word} : jWord op index = w ↔ op = opOf w ∧ index = index26Of w := by
  constructor
  · rintro rfl; simp
  · rintro ⟨rfl, rfl⟩; exact jWord_fields w

theorem codeWord_eq_iff {w : Word} :
    codeWord code funct = w ↔ 0#6 = opOf w ∧ code = codeOf w ∧ funct = functOf w := by
  constructor
  · rintro rfl; simp
  · rintro ⟨h, rfl, rfl⟩; exact codeWord_fields h

end

/-! Encode, then decode. -/

/-- Settles O1: each map of the decoder finds the fixed fields of the encoded word and reads the operands back; the two
operands that are plain numbers fit their fields. -/
theorem encodeThenDecodeIsIdentity : Obligations.EncodeThenDecodeIsIdentity := by
  intro i hwf
  cases i
  case sll rd rt shamt | srl rd rt shamt | sra rd rt shamt =>
    have h : shamt < 32 := of_decide_eq_true hwf
    simp [encode, decodeWord, decodeSpecial, Nat.mod_eq_of_lt h]
  case syscall code | brk code =>
    have h : code < 1048576 := of_decide_eq_true hwf
    simp [encode, decodeWord, decodeSpecial, Nat.mod_eq_of_lt h]
  case bltz | bgez | bltzal | bgezal => simp [encode, decodeWord, decodeBcond]
  case mfc0 | mtc0 => simp [encode, decodeWord, decodeCop0]
  case rfe | cop1 | cop2 | cop3 => rfl
  all_goals simp [encode, decodeWord, decodeSpecial]

/-! Decode, then encode. A mask keeps or clears a field; the mask of the used bits keeps all that the decoder reads. -/

theorem extractLsb'_and_of_ones {w m : Word} {l n : Nat} (h : m.extractLsb' l n = BitVec.allOnes n) :
    (w &&& m).extractLsb' l n = w.extractLsb' l n := by
  rw [BitVec.extractLsb'_and, h, BitVec.and_allOnes]

theorem extractLsb'_and_of_zero {w m : Word} {l n : Nat} (h : m.extractLsb' l n = 0#n) :
    (w &&& m).extractLsb' l n = 0#n := by
  rw [BitVec.extractLsb'_and, h, BitVec.and_zero]

section

variable {w m : Word}

@[simp] theorem opOf_and_of_ones (h : opOf m = BitVec.allOnes 6) : opOf (w &&& m) = opOf w :=
  extractLsb'_and_of_ones h
@[simp] theorem rsOf_and_of_ones (h : rsOf m = BitVec.allOnes 5) : rsOf (w &&& m) = rsOf w :=
  extractLsb'_and_of_ones h
@[simp] theorem rtOf_and_of_ones (h : rtOf m = BitVec.allOnes 5) : rtOf (w &&& m) = rtOf w :=
  extractLsb'_and_of_ones h
@[simp] theorem rdOf_and_of_ones (h : rdOf m = BitVec.allOnes 5) : rdOf (w &&& m) = rdOf w :=
  extractLsb'_and_of_ones h
@[simp] theorem shamtOf_and_of_ones (h : shamtOf m = BitVec.allOnes 5) : shamtOf (w &&& m) = shamtOf w :=
  extractLsb'_and_of_ones h
@[simp] theorem functOf_and_of_ones (h : functOf m = BitVec.allOnes 6) : functOf (w &&& m) = functOf w :=
  extractLsb'_and_of_ones h
@[simp] theorem imm16Of_and_of_ones (h : imm16Of m = BitVec.allOnes 16) : imm16Of (w &&& m) = imm16Of w :=
  extractLsb'_and_of_ones h
@[simp] theorem index26Of_and_of_ones (h : index26Of m = BitVec.allOnes 26) : index26Of (w &&& m) = index26Of w :=
  extractLsb'_and_of_ones h
@[simp] theorem codeOf_and_of_ones (h : codeOf m = BitVec.allOnes 20) : codeOf (w &&& m) = codeOf w :=
  extractLsb'_and_of_ones h

@[simp] theorem rsOf_and_of_zero (h : rsOf m = 0#5) : rsOf (w &&& m) = 0#5 := extractLsb'_and_of_zero h
@[simp] theorem rtOf_and_of_zero (h : rtOf m = 0#5) : rtOf (w &&& m) = 0#5 := extractLsb'_and_of_zero h
@[simp] theorem rdOf_and_of_zero (h : rdOf m = 0#5) : rdOf (w &&& m) = 0#5 := extractLsb'_and_of_zero h
@[simp] theorem shamtOf_and_of_zero (h : shamtOf m = 0#5) : shamtOf (w &&& m) = 0#5 := extractLsb'_and_of_zero h
@[simp] theorem functOf_and_of_zero (h : functOf m = 0#6) : functOf (w &&& m) = 0#6 := extractLsb'_and_of_zero h
@[simp] theorem imm16Of_and_of_zero (h : imm16Of m = 0#16) : imm16Of (w &&& m) = 0#16 := extractLsb'_and_of_zero h

end

/-- The encoding of `i` keeps the bits of `w` that `i` looks at, and has 0 for the others (R142). -/
def Reencodes (i : Instr) (w : Word) : Prop := WellFormed i = true ∧ encode i = w &&& usedBits i

theorem reencodes_of_decodeSpecial {w : Word} {i : Instr} (hop : opOf w = 0x00#6) (h : decodeSpecial w = .ok i) :
    Reencodes i w := by
  unfold decodeSpecial at h
  split at h <;> rename_i hf <;> cases h
  case h_9.refl | h_10.refl =>
    exact ⟨decide_eq_true (codeOf w).isLt, by simp (disch := decide) [encode, usedBits, codeWord_eq_iff, hop, hf]⟩
  case h_1.refl | h_2.refl | h_3.refl =>
    exact ⟨decide_eq_true (shamtOf w).isLt, by simp (disch := decide) [encode, usedBits, rWord_eq_iff, hop, hf]⟩
  all_goals exact ⟨rfl, by simp (disch := decide) [encode, usedBits, rWord_eq_iff, hop, hf]⟩

theorem reencodes_of_decodeBcond {w : Word} {i : Instr} (hop : opOf w = 0x01#6) (h : decodeBcond w = .ok i) :
    Reencodes i w := by
  unfold decodeBcond at h
  split at h <;> rename_i hrt <;> cases h
  all_goals exact ⟨rfl, by simp (disch := decide) [encode, usedBits, iWord_eq_iff, hop, hrt]⟩

/-- The mask of RFE keeps one bit of rs, its top bit. -/
theorem rsOf_and_rfe {w : Word} (h : w.getLsbD 25 = true) : rsOf (w &&& 0xFE00003F#32) = 0x10#5 := by
  unfold rsOf
  ext i hi
  interval_cases i <;> simp [h]

theorem reencodes_of_decodeCop0 {w : Word} {i : Instr} (hop : opOf w = 0x10#6) (h : decodeCop0 w = .ok i) :
    Reencodes i w := by
  unfold decodeCop0 at h
  split_ifs at h with h0 h4 hrfe <;> cases h
  · exact ⟨rfl, by simp (disch := decide) [encode, usedBits, rWord_eq_iff, hop, h0]⟩
  · exact ⟨rfl, by simp (disch := decide) [encode, usedBits, rWord_eq_iff, hop, h4]⟩
  · obtain ⟨h25, hf⟩ := hrfe
    exact ⟨rfl, by simp (disch := decide) [encode, usedBits, rWord_eq_iff, rsOf_and_rfe h25, hop, hf]⟩

theorem reencodes_of_decodeWord {w : Word} {i : Instr} (h : decodeWord w = .ok i) : Reencodes i w := by
  unfold decodeWord at h
  split at h <;> rename_i hop
  case h_1 => exact reencodes_of_decodeSpecial hop h
  case h_2 => exact reencodes_of_decodeBcond hop h
  case h_17 => exact reencodes_of_decodeCop0 hop h
  all_goals cases h
  case h_3.refl | h_4.refl => exact ⟨rfl, by simp (disch := decide) [encode, usedBits, jWord_eq_iff, hop]⟩
  all_goals exact ⟨rfl, by simp (disch := decide) [encode, usedBits, iWord_eq_iff, hop]⟩

/-- Settles O2: the encoding is the word with the unused bits cleared (`reencodes_of_decodeWord`). -/
theorem decodeThenEncodeKeepsUsedBits : Obligations.DecodeThenEncodeKeepsUsedBits := by
  intro w i h
  obtain ⟨hwf, he⟩ := reencodes_of_decodeWord h
  exact ⟨hwf, by rw [he, BitVec.and_assoc, BitVec.and_self]⟩

/-! The opcode table (R153). -/

/-- The model's law of each instruction, for all of them. -/
theorem encode_and_mask (i : Instr) : encode i &&& (rowOf i).mask = (rowOf i).value := by
  open Laws.EncodeMatchesRow in
  cases i
  exacts [add _ _ _, addu _ _ _, sub _ _ _, subu _ _ _, and _ _ _, or _ _ _, xor _ _ _, nor _ _ _, slt _ _ _, sltu _ _ _,
    addi _ _ _, addiu _ _ _, slti _ _ _, sltiu _ _ _, andi _ _ _, ori _ _ _, xori _ _ _, lui _ _, sll _ _ _, srl _ _ _,
    sra _ _ _, sllv _ _ _, srlv _ _ _, srav _ _ _, mult _ _, multu _ _, div _ _, divu _ _, mfhi _, mthi _, mflo _, mtlo _,
    j _, jal _, jr _, jalr _ _, beq _ _ _, bne _ _ _, blez _ _, bgtz _ _, bltz _ _, bgez _ _, bltzal _ _, bgezal _ _,
    lb _ _ _, lbu _ _ _, lh _ _ _, lhu _ _ _, lw _ _ _, lwl _ _ _, lwr _ _ _, sb _ _ _, sh _ _ _, sw _ _ _, swl _ _ _,
    swr _ _ _, syscall _, brk _, mfc0 _ _, mtc0 _ _, rfe, cop1, cop2, cop3, lwc0 _ _ _, lwc1 _ _ _, lwc2 _ _ _,
    lwc3 _ _ _, swc0 _ _ _, swc1 _ _ _, swc2 _ _ _, swc3 _ _ _]

theorem rowOf_mem_opcodeTable (i : Instr) : rowOf i ∈ opcodeTable := by
  cases i <;> exact List.mem_of_elem_eq_true rfl

/-- An instruction looks at every bit that its row fixes. -/
theorem usedBits_and_mask (i : Instr) : usedBits i &&& (rowOf i).mask = (rowOf i).mask := by
  cases i <;> simp only [usedBits, rowOf] <;> decide

theorem TableRow.matches_iff (r : TableRow) (w : Word) : r.matches w = true ↔ w &&& r.mask = r.value := beq_iff_eq

/-- A word that decodes has the fixed bits of its instruction's row. -/
theorem matches_of_decodeWord {w : Word} {i : Instr} (h : decodeWord w = .ok i) : (rowOf i).matches w = true := by
  obtain ⟨-, he⟩ := reencodes_of_decodeWord h
  rw [TableRow.matches_iff]
  calc w &&& (rowOf i).mask = (w &&& usedBits i) &&& (rowOf i).mask := by rw [BitVec.and_assoc, usedBits_and_mask]
    _ = (rowOf i).value := by rw [← he, encode_and_mask]

/-- A word that a row matches has the row's value in every field that the row's mask covers. -/
theorem field_of_matches {r : TableRow} {w : Word} {l n : Nat} (h : r.matches w = true)
    (hm : r.mask.extractLsb' l n = BitVec.allOnes n) : w.extractLsb' l n = r.value.extractLsb' l n := by
  rw [← (r.matches_iff w).mp h, extractLsb'_and_of_ones hm]

theorem decodeSpecial_row_congr {w v : Word} (h : functOf w = functOf v) :
    (decodeSpecial w).map rowOf = (decodeSpecial v).map rowOf := by
  unfold decodeSpecial
  rw [h]
  split <;> rfl

theorem decodeBcond_row_congr {w v : Word} (h : rtOf w = rtOf v) :
    (decodeBcond w).map rowOf = (decodeBcond v).map rowOf := by
  unfold decodeBcond
  rw [h]
  split <;> rfl

/-- The row of a decoded word is decided by the opcode, and where it selects another map by that map. -/
theorem decodeWord_row_congr {w v : Word} (h : opOf w = opOf v)
    (hs : opOf v = 0x00 → (decodeSpecial w).map rowOf = (decodeSpecial v).map rowOf)
    (hb : opOf v = 0x01 → (decodeBcond w).map rowOf = (decodeBcond v).map rowOf)
    (hc : opOf v = 0x10 → (decodeCop0 w).map rowOf = (decodeCop0 v).map rowOf) :
    (decodeWord w).map rowOf = (decodeWord v).map rowOf := by
  unfold decodeWord
  rw [h]
  split
  case h_1 hv => exact hs hv
  case h_2 hv => exact hb hv
  case h_17 hv => exact hc hv
  all_goals rfl

/-- The masks cover the fields that the decoder dispatches on; the COP0 rows are three. -/
theorem opcodeTable_masks : ∀ r ∈ opcodeTable,
    opOf r.mask = BitVec.allOnes 6 ∧ (opOf r.value = 0x00 → functOf r.mask = BitVec.allOnes 6) ∧
    (opOf r.value = 0x01 → rtOf r.mask = BitVec.allOnes 5) ∧
    (opOf r.value = 0x10 → r = rowOf (.mfc0 0 0) ∨ r = rowOf (.mtc0 0 0) ∨ r = rowOf .rfe) := by decide

theorem opcodeTable_value_decodes : ∀ r ∈ opcodeTable, (decodeWord r.value).map rowOf = .ok r := by decide

theorem opcodeTable_value_matches : ∀ r ∈ opcodeTable, r.matches r.value = true := by decide

theorem decodeCop0_mfc0 {w : Word} (h : rsOf w = 0x00) : decodeCop0 w = .ok (.mfc0 (rtOf w) (rdOf w)) := if_pos h

theorem decodeCop0_mtc0 {w : Word} (h : rsOf w = 0x04) : decodeCop0 w = .ok (.mtc0 (rtOf w) (rdOf w)) := by
  have h0 : rsOf w ≠ 0x00 := by rw [h]; decide
  unfold decodeCop0
  rw [if_neg h0, if_pos h]

/-- Bit 25 is the top bit of rs, so it excludes MFC0 and MTC0. -/
theorem decodeCop0_rfe {w : Word} (h25 : w.getLsbD 25 = true) (hf : functOf w = 0x10) : decodeCop0 w = .ok .rfe := by
  have hbit : (rsOf w).getLsbD 4 = true := by simpa [rsOf] using h25
  have h0 : rsOf w ≠ 0x00 := fun h => by rw [h] at hbit; cases hbit
  have h4 : rsOf w ≠ 0x04 := fun h => by rw [h] at hbit; cases hbit
  unfold decodeCop0
  rw [if_neg h0, if_neg h4, if_pos ⟨h25, hf⟩]

theorem decodeCop0_row_of_matches {w : Word} {r : TableRow}
    (hr : r = rowOf (.mfc0 0 0) ∨ r = rowOf (.mtc0 0 0) ∨ r = rowOf .rfe) (h : r.matches w = true) :
    (decodeCop0 w).map rowOf = .ok r := by
  obtain rfl | rfl | rfl := hr
  · have hrs := field_of_matches (l := 21) (n := 5) h (by decide)
    rw [decodeCop0_mfc0 (hrs.trans (by decide))]
    rfl
  · have hrs := field_of_matches (l := 21) (n := 5) h (by decide)
    rw [decodeCop0_mtc0 (hrs.trans (by decide))]
    rfl
  · have hf := field_of_matches (l := 0) (n := 6) h (by decide)
    have h25 := field_of_matches (l := 25) (n := 1) h (by decide)
    have hbit : w.getLsbD 25 = true := by simpa [rowOf] using congrArg (BitVec.getLsbD · 0) h25
    rw [decodeCop0_rfe hbit (hf.trans (by decide))]
    rfl

/-- A word that a row matches decodes to an instruction of that row. -/
theorem decodeWord_row_of_matches {w : Word} {r : TableRow} (hr : r ∈ opcodeTable) (h : r.matches w = true) :
    (decodeWord w).map rowOf = .ok r := by
  obtain ⟨hop, hs, hb, hc⟩ := opcodeTable_masks r hr
  rw [← opcodeTable_value_decodes r hr]
  exact decodeWord_row_congr (field_of_matches h hop)
    (fun hv => decodeSpecial_row_congr (field_of_matches h (hs hv)))
    (fun hv => decodeBcond_row_congr (field_of_matches h (hb hv)))
    (fun hv => (decodeCop0_row_of_matches (hc hv) h).trans
      (decodeCop0_row_of_matches (hc hv) (opcodeTable_value_matches r hr)).symm)

/-- Settles O3: the row fixes the fields that the decoder dispatches on, and a decoded word has its row's fixed bits. -/
theorem decoderAgreesWithOpcodeTable : Obligations.DecoderAgreesWithOpcodeTable := by
  intro w r hr
  constructor
  · intro h
    have hd := decodeWord_row_of_matches hr h
    cases hw : decodeWord w with
    | ok i => rw [hw] at hd; exact ⟨i, rfl, Except.ok.inj hd⟩
    | error e => rw [hw] at hd; cases hd
  · rintro ⟨i, hd, rfl⟩
    exact matches_of_decodeWord hd

/-- Settles O4: by the row of the decoded word, of which there is one. -/
theorem reservedWordsMatchNoRow : Obligations.ReservedWordsMatchNoRow := by
  refine ⟨fun w => ⟨?_, fun h => ?_⟩, fun w a ha b hb hwa hwb => ?_⟩
  · rintro ⟨e, he⟩ r hr
    refine Bool.eq_false_iff.mpr fun h => ?_
    obtain ⟨i, hi, -⟩ := (decoderAgreesWithOpcodeTable w r hr).mp h
    cases he.symm.trans hi
  · cases hd : decodeWord w with
    | error e => exact ⟨e, rfl⟩
    | ok i => cases (matches_of_decodeWord hd).symm.trans (h _ (rowOf_mem_opcodeTable i))
  · exact Except.ok.inj ((decodeWord_row_of_matches ha hwa).symm.trans (decodeWord_row_of_matches hb hwb))

/-! Reserved words (R148). -/

theorem decodeSpecial_error {w : Word} {e : DecodeReject} (h : decodeSpecial w = .error e) : e = .reservedSpecial := by
  unfold decodeSpecial at h
  split at h <;> cases h
  rfl

theorem decodeBcond_error {w : Word} {e : DecodeReject} (h : decodeBcond w = .error e) : e = .reservedBcond := by
  unfold decodeBcond at h
  split at h <;> cases h
  rfl

theorem decodeCop0_error {w : Word} {e : DecodeReject} (h : decodeCop0 w = .error e) : e = .reservedCop0 := by
  unfold decodeCop0 at h
  split_ifs at h
  cases h
  rfl

/-- The reserved COP0 words are those of the opcode 0x10. -/
theorem decodeWord_error_iff {w : Word} {e : DecodeReject} (h : decodeWord w = .error e) :
    e = .reservedCop0 ↔ opOf w = 0x10 := by
  unfold decodeWord at h
  split at h <;> rename_i hop
  case h_1 => simp [decodeSpecial_error h, hop]
  case h_2 => simp [decodeBcond_error h, hop]
  case h_17 => simp [decodeCop0_error h, hop]
  all_goals cases h
  exact iff_of_false nofun ‹opOf w = 0x10#6 → False›

theorem cop0Usable_eq_false (s : State) : cop0Usable s = false ↔ s.sr.getLsbD 1 = true ∧ s.sr.getLsbD 28 = false := by
  simp [cop0Usable, userMode]

/-- Settles O9: the exception of a reserved word is decided by the opcode (`decodeWord_error_iff`) and by whether COP0 is
usable. -/
theorem reservedWordsRaise : Obligations.ReservedWordsRaise := by
  intro s w e h
  have hrun : decodeExecute w s = reservedWord e s := by unfold decodeExecute; rw [h]
  have hiff : (w.extractLsb' 26 6 = 0x10 ∧ s.sr.getLsbD 1 = true ∧ s.sr.getLsbD 28 = false) ↔
      e = .reservedCop0 ∧ cop0Usable s = false := by
    rw [decodeWord_error_iff h, cop0Usable_eq_false]
    rfl
  rw [hrun, hiff]
  exact ⟨fun hc => ⟨_, if_pos hc, takeException_enters (.cpU 0) s⟩, fun hc => ⟨_, if_neg hc, takeException_enters .ri s⟩⟩

end Sys2Proof

/-! Arithmetic and logic (40_alu): how an instruction with a register result ends, with and without the overflow trap. -/

namespace Sys2Proof.Machine

open Sys2Proof.Safety

/-! Comparisons as register values (R179, R180). -/

theorem boolWord_lessSigned (a b : Word) : boolWord (lessSigned a b) = if a.toInt < b.toInt then 1 else 0 := by
  simp only [boolWord, lessSigned, decide_eq_true_eq]

theorem boolWord_lessUnsigned (a b : Word) : boolWord (lessUnsigned a b) = if a.toNat < b.toNat then 1 else 0 := by
  simp only [boolWord, lessUnsigned, decide_eq_true_eq]

/-! How the instructions end. -/

theorem retires_of_eq_writeResult {r : Result} {i : Reg} {v : Word} {s : State} (h : r = writeResult i v s) :
    ∃ t, r = .next t ∧ Retires (some (i, v)) s t :=
  ⟨_, h, retireWrite_retires i v s⟩

theorem enters_of_eq_raise {r : Result} {e : Exc} {s : State} (h : r = raise e s) :
    ∃ t, r = .next t ∧ Enters (excCode e) (excCe e) (excAddress e) s t :=
  ⟨_, h, takeException_enters e s⟩

/-- A result with the overflow condition `overflows`: `fits` is the condition under which it is written (R170 (b), (c)). -/
theorem retires_or_enters_of_overflow {r : Result} {overflows : Bool} {fits : Prop} {i : Reg} {v : Word} {s : State}
    (h : r = if overflows then raise .ov s else writeResult i v s) (hfits : overflows = false ↔ fits) :
    (fits → ∃ t, r = .next t ∧ Retires (some (i, v)) s t) ∧ (¬ fits → ∃ t, r = .next t ∧ Enters 12 0 none s t) := by
  rw [← hfits, Bool.not_eq_false]
  exact ⟨fun ho => retires_of_eq_writeResult (h.trans (if_neg (ne_true_of_eq_false ho))),
    fun ho => enters_of_eq_raise (h.trans (if_pos ho))⟩

/-! The statements. -/

/-- Settles O14: each of the three is a result with an overflow condition, which says that the exact result does not fit
(`addOverflows_iff`, `subOverflows_iff`). -/
theorem overflowTrapsAndKeepsDestination : Obligations.OverflowTrapsAndKeepsDestination := by
  intro s rd rs rt imm fits x y
  have hadd : addOverflows (s.gpr rs) (s.gpr rt) = false ↔ fits (x + y) := addOverflows_iff _ _
  have hsub : subOverflows (s.gpr rs) (s.gpr rt) = false ↔ fits (x - y) := subOverflows_iff _ _
  have haddi : addOverflows (s.gpr rs) (sext16 imm) = false ↔ fits (x + imm.toInt) := by
    rw [← sext16_toInt]
    exact addOverflows_iff _ _
  have hsum : BitVec.ofInt 32 (x + imm.toInt) = s.gpr rs + sext16 imm := by
    rw [BitVec.ofInt_add, BitVec.ofInt_toInt, sext16_eq]
  rw [hsum]
  obtain ⟨addFits, addTraps⟩ := retires_or_enters_of_overflow (r := exec (.add rd rs rt) s) rfl hadd
  obtain ⟨subFits, subTraps⟩ := retires_or_enters_of_overflow (r := exec (.sub rd rs rt) s) rfl hsub
  obtain ⟨addiFits, addiTraps⟩ := retires_or_enters_of_overflow (r := exec (.addi rt rs imm) s) rfl haddi
  exact ⟨addFits, addTraps, subFits, subTraps, addiFits, addiTraps⟩

/-- Settles O12: each of the eight retires with its result (`retires_of_eq_writeResult`); the comparisons are 0 or 1. -/
theorem registerOperationsGiveResults : Obligations.RegisterOperationsGiveResults := by
  intro s rd rs rt
  rw [← boolWord_lessSigned, ← boolWord_lessUnsigned]
  have ends {i : Instr} {v : Word} (h : exec i s = writeResult rd v s) := retires_of_eq_writeResult h
  exact ⟨ends rfl, ends rfl, ends rfl, ends rfl, ends rfl, ends rfl, ends rfl, ends rfl⟩

/-- Settles O13: each of the seven retires with its result (`retires_of_eq_writeResult`) on its form of the immediate. -/
theorem immediateOperationsGiveResults : Obligations.ImmediateOperationsGiveResults := by
  intro s rt rs imm
  rw [← sext16_eq, ← zext16_eq, ← upperImmediate_eq, ← sext16_toInt, ← boolWord_lessSigned, ← boolWord_lessUnsigned]
  have ends {i : Instr} {v : Word} (h : exec i s = writeResult rt v s) := retires_of_eq_writeResult h
  exact ⟨ends rfl, ends rfl, ends rfl, ends rfl, ends rfl, ends rfl, ends rfl⟩

/-- Settles O5: the decoder evaluated on each of the words. -/
theorem specWordsDecode : Obligations.SpecWordsDecode := by
  unfold Obligations.SpecWordsDecode
  decide

end Sys2Proof.Machine

/-! Shifts (41_shift): every shift is a register result, whose value the laws give as a product or a quotient. -/

namespace Sys2Proof.Machine

/-- Settles O15: each of the six retires with its shifted value (`retires_of_eq_writeResult`), which is the product or the
quotient by a power of two; a register amount is its low five bits (`shiftAmount_eq`). -/
theorem shiftsMultiplyAndDivideByPowers : Obligations.ShiftsMultiplyAndDivideByPowers := by
  intro s rd rt rs n _
  simp only [← shiftAmount_eq, ← shiftLeft_eq, ← shiftRight_eq, ← shiftRightArith_eq]
  have ends {i : Instr} {v : Word} (h : exec i s = writeResult rd v s) := retires_of_eq_writeResult h
  exact ⟨ends rfl, ends rfl, ends rfl, ends rfl, ends rfl, ends rfl⟩

end Sys2Proof.Machine

/-! Multiply, divide and the HI/LO moves (42_muldiv): every one but MFHI and MFLO ends by writing HI and LO. -/

namespace Sys2Proof.Machine

open Sys2Proof.Safety

/-! The corners of the divisions (R203, R204); the laws `quotientSigned_spec` and `quotientUnsigned_spec` give the rest. -/

theorem quotientSigned_zero (n : Word) : quotientSigned n 0 = if n.toInt < 0 then 1 else 0xFFFFFFFF := by
  unfold quotientSigned
  rw [if_pos rfl, ← ite_not]
  simp only [not_le]

theorem remainderSigned_zero (n : Word) : remainderSigned n 0 = n := if_pos rfl

theorem quotientSigned_intMin_neg_one : quotientSigned 0x80000000 0xFFFFFFFF = 0x80000000 := by decide

theorem remainderSigned_intMin_neg_one : remainderSigned 0x80000000 0xFFFFFFFF = 0 := by decide

theorem quotientUnsigned_zero (n : Word) : quotientUnsigned n 0 = 0xFFFFFFFF := if_pos rfl

theorem remainderUnsigned_zero (n : Word) : remainderUnsigned n 0 = n := if_pos rfl

/-! How the instructions end. -/

theorem retires_of_eq_writeHiLo {r : Result} {hi lo : Word} {s : State} (h : r = writeHiLo hi lo s) :
    ∃ t, r = .next t ∧ Retires none { s with hi := hi, lo := lo } t :=
  retires_of_next h

/-- The same for HI and LO that are known by what they satisfy. -/
theorem retires_with_of_eq_writeHiLo {r : Result} {hi lo : Word} {s : State} {P : Word → Word → Prop}
    (h : r = writeHiLo hi lo s) (hP : P hi lo) :
    ∃ t hi lo, r = .next t ∧ Retires none { s with hi := hi, lo := lo } t ∧ P hi lo := by
  obtain ⟨t, ht, hr⟩ := retires_of_eq_writeHiLo h
  exact ⟨t, hi, lo, ht, hr, hP⟩

/-! The statements. -/

/-- Settles O16: HI and LO are the halves of the product (`product_halves`), and 64 bits hold it exactly
(`productSigned_toInt`, `productUnsigned_toNat`). -/
theorem multiplyGivesExactProduct : Obligations.MultiplyGivesExactProduct := by
  intro s rs rt
  constructor
  · refine retires_with_of_eq_writeHiLo (r := exec (.mult rs rt) s) rfl ?_
    rw [product_halves, productSigned_toInt]
  · refine retires_with_of_eq_writeHiLo (r := exec (.multu rs rt) s) rfl ?_
    rw [product_halves, productUnsigned_toNat]

/-- Settles O17: the corners are the values of the quotient and the remainder there; the other divisions are
`quotientSigned_spec` and `quotientUnsigned_spec`. -/
theorem divideGivesQuotientAndRemainder : Obligations.DivideGivesQuotientAndRemainder := by
  intro s rs rt x y
  have hdiv : exec (.div rs rt) s = writeHiLo (remainderSigned x y) (quotientSigned x y) s := rfl
  have hdivu : exec (.divu rs rt) s = writeHiLo (remainderUnsigned x y) (quotientUnsigned x y) s := rfl
  refine ⟨fun hy => ?_, fun hx hy => ?_, fun hy hc => ?_, fun hy => ?_, fun hy => ?_⟩
  · rw [hy, remainderSigned_zero, quotientSigned_zero] at hdiv
    exact retires_of_eq_writeHiLo hdiv
  · have hy' : y = 0xFFFFFFFF := BitVec.eq_of_toInt_eq hy
    rw [hx, hy', remainderSigned_intMin_neg_one, quotientSigned_intMin_neg_one] at hdiv
    exact retires_of_eq_writeHiLo hdiv
  · exact retires_with_of_eq_writeHiLo hdiv (quotientSigned_spec hy hc)
  · rw [hy, remainderUnsigned_zero, quotientUnsigned_zero] at hdivu
    exact retires_of_eq_writeHiLo hdivu
  · exact retires_with_of_eq_writeHiLo hdivu (quotientUnsigned_spec hy)

/-- Settles O18: MFHI and MFLO end with a register result, MTHI and MTLO by writing HI and LO, one of them as it was. -/
theorem hiLoMovesCopyOneRegister : Obligations.HiLoMovesCopyOneRegister := fun _ _ =>
  ⟨retires_of_eq_writeResult rfl, retires_of_eq_writeResult rfl, retires_of_eq_writeHiLo rfl, retires_of_eq_writeHiLo rfl⟩

end Sys2Proof.Machine

/-! Branches and jumps (43_branch_jump): how they end, and which instruction is fetched after one that is no branch. -/

namespace Sys2Proof.Machine

open Sys2Proof.Safety

/-! How branches and jumps end (R210, R211). -/

theorem retires_of_eq_branch {r : Result} {taken : Bool} {target next : Word} {s : State}
    (h : r = branch taken target s) (hn : (if taken then target else s.nextPc) = next) :
    ∃ t, r = .next t ∧ Retires none { s with branch := true, nextPc := next } t := by
  subst hn
  exact retires_of_next h

theorem retires_of_eq_branchLink {r : Result} {i : Reg} {taken : Bool} {target next : Word} {s : State}
    (h : r = branchLink i taken target s) (hn : (if taken then target else s.nextPc) = next) :
    ∃ t, r = .next t ∧ Retires (some (i, s.currentPc + 8)) { s with branch := true, nextPc := next } t := by
  subst hn
  exact ⟨_, h, retireWrite_retires i _ _⟩

/-- Settles O19: each of the four ends as a branch that is taken, two of them with a link. -/
theorem jumpsSetTheNextFetch : Obligations.JumpsSetTheNextFetch := by
  intro s index rd rs region
  have hregion : jumpTarget s.currentPc index = region := jumpTarget_eq _ _
  exact ⟨retires_of_eq_branch rfl hregion, retires_of_eq_branchLink rfl hregion, retires_of_eq_branch rfl rfl,
    retires_of_eq_branchLink rfl rfl⟩

theorem msb_iff_toInt_neg (x : Word) : x.msb = true ↔ x.toInt < 0 := by
  rw [BitVec.msb_eq_toInt, decide_eq_true_iff]

theorem not_msb_iff_toInt_nonneg (x : Word) : (!x.msb) = true ↔ 0 ≤ x.toInt := by
  rw [Bool.not_eq_true', ← Bool.not_eq_true, msb_iff_toInt_neg, not_lt]

/-- Settles O20: each of the eight ends as a branch, two of them with a link, and its condition is a comparison of the old
registers. -/
theorem conditionalBranchesDecide : Obligations.ConditionalBranchesDecide := by
  intro s rs rt imm x target after link
  have decides {taken : Bool} {c : Prop} [Decidable c] (hc : taken = true ↔ c) :
      (if taken then branchTarget s.currentPc imm else s.nextPc) = if c then target else s.nextPc :=
    if_congr hc (branchTarget_eq _ _) rfl
  have hltz := decides (msb_iff_toInt_neg x)
  have hgez := decides (not_msb_iff_toInt_nonneg x)
  exact ⟨retires_of_eq_branch rfl (decides beq_iff_eq), retires_of_eq_branch rfl (decides bne_iff_ne),
    retires_of_eq_branch rfl (decides decide_eq_true_iff), retires_of_eq_branch rfl (decides decide_eq_true_iff),
    retires_of_eq_branch rfl hltz, retires_of_eq_branch rfl hgez,
    retires_of_eq_branchLink rfl hltz, retires_of_eq_branchLink rfl hgez⟩

/-! What an instruction that is no branch leaves to the next fetch: it goes on at the pc that P1 set, or it raises. -/

/-- The fields that exception entry and the next fetch look at are those of `s`. -/
structure ControlKept (s u : State) : Prop where
  currentPc : u.currentPc = s.currentPc
  pc : u.pc = s.pc
  branch : u.branch = s.branch
  delaySlot : u.delaySlot = s.delaySlot
  sr : u.sr = s.sr

theorem ControlKept.refl (s : State) : ControlKept s s := ⟨rfl, rfl, rfl, rfl, rfl⟩

theorem AccessMoves.controlKept {s u : State} (h : AccessMoves s u) : ControlKept s u := by
  constructor <;> rw [h.frame]

/-- The pc and the branch flag are those of `s`, or an exception of `s` has been taken (60_exceptions R300). -/
def FollowsOrTraps (s t : State) : Prop :=
  (t.pc = s.pc ∧ t.branch = s.branch) ∨
    (t.pc = vectorOf s.sr ∧ t.branch = false ∧ t.epc = if s.delaySlot then s.currentPc - 4 else s.currentPc)

/-- Where the result goes on, it follows `s` or has taken an exception of it. -/
def NoBranch (s : State) (r : Result) : Prop := ∀ t, r = .next t → FollowsOrTraps s t

theorem NoBranch.follows {s t : State} (hpc : t.pc = s.pc) (hb : t.branch = s.branch) : NoBranch s (.next t) := by
  rintro _ ⟨⟩; exact .inl ⟨hpc, hb⟩

theorem NoBranch.raise {s u : State} (e : Exc) (h : ControlKept s u) : NoBranch s (raise e u) := by
  rintro _ ⟨⟩
  obtain ⟨frame, -⟩ := takeException_enters e u
  unfold FollowsOrTraps
  rw [← h.sr, ← h.delaySlot, ← h.currentPc]
  exact .inr ⟨by rw [frame], by rw [frame], by rw [frame]⟩

theorem NoBranch.ite {c : Prop} [Decidable c] {s : State} {r r' : Result} (h : NoBranch s r) (h' : NoBranch s r') :
    NoBranch s (if c then r else r') := by split; exacts [h, h']

theorem NoBranch.withAccess {α : Type} {s : State} {r : Access α} {f : α → State → Result}
    (hok : ∀ v u, r = .ok v u → NoBranch s (f v u)) (hraise : ∀ e u, r = .raise e u → ControlKept s u) :
    NoBranch s (withAccess r f) := by
  cases r with
  | ok v u => exact hok v u rfl
  | raise e u => exact .raise e (hraise e u rfl)
  | fault e => exact fun _ h => nomatch h
  | refused e => exact fun _ h => nomatch h

/-- The same for an access that keeps the control fields wherever it ends. -/
theorem NoBranch.access {α : Type} {s : State} {r : Access α} {f : α → State → Result}
    (hr : ∀ u, r.ends u → ControlKept s u) (hf : ∀ v u, ControlKept s u → NoBranch s (f v u)) :
    NoBranch s (Machine.withAccess r f) :=
  .withAccess (fun v u h => hf v u (hr u (.inl ⟨v, h⟩))) fun e u h => hr u (.inr ⟨e, h⟩)

/-! The accesses. -/

theorem raise_ends {α : Type} {e : Exc} {s u : State} (h : (Access.raise (α := α) e s).ends u) : u = s := by
  obtain ⟨v, h⟩ | ⟨e', h⟩ := h <;> cases h
  rfl

theorem not_fault_ends {α : Type} {e : Fault} {u : State} : ¬ (Access.fault (α := α) e).ends u := by
  rintro (⟨v, h⟩ | ⟨e', h⟩) <;> cases h

theorem unalignedRead_moves {a : Word} {s u : State} (h : (unalignedRead a s).ends u) : AccessMoves s u := by
  unfold unalignedRead at h
  split at h
  · cases raise_ends h; exact .refl s
  · exact (memRead_moves h).1

theorem mergeRead_moves {a : Word} {s u : State} (h : (mergeRead a s).ends u) : AccessMoves s u := by
  unfold mergeRead at h
  split at h
  · cases raise_ends h; exact .refl s
  · split at h
    · exact (not_fault_ends h).elim
    · exact (cpuBusRead_moves h).1

theorem cop0Read_ends {rd : Reg} {s u : State} (h : (cop0Read rd s).ends u) : u = s := by
  unfold cop0Read at h
  split at h
  case h_7 => exact (not_fault_ends h).elim
  all_goals obtain ⟨v, h⟩ | ⟨e, h⟩ := h <;> cases h; rfl

/-- MTC0's write raises nothing and changes no other field than SR and CAUSE (45_system_coproc R255). -/
theorem cop0Write_ends {rd : Reg} {v : Word} {s u : State} (h : (cop0Write rd v s).ends u) :
    cop0Write rd v s = .ok () u ∧ u = { s with sr := u.sr, cause := u.cause } := by
  unfold cop0Write at h ⊢
  split at h
  case h_6 =>
    split at h
    · rw [if_pos ‹_›]; obtain ⟨_, h⟩ | ⟨e, h⟩ := h <;> cases h; exact ⟨rfl, rfl⟩
    · exact (not_fault_ends h).elim
  case h_7 => exact (not_fault_ends h).elim
  all_goals obtain ⟨_, h⟩ | ⟨e, h⟩ := h <;> cases h; exact ⟨rfl, rfl⟩

/-! The instructions, one lemma for each way in which they end. -/

theorem retireNone_noBranch {s u : State} (hpc : u.pc = s.pc) (hb : u.branch = s.branch) :
    NoBranch s (.next (retireNone u)) :=
  .follows ((retireNone_pc u).trans hpc) ((retireNone_branch u).trans hb)

theorem retireLoad_noBranch {s u : State} (i : Reg) (v : Word) (h : ControlKept s u) :
    NoBranch s (.next (retireLoad i v u)) :=
  .follows ((retireLoad_pc i v u).trans h.pc) ((retireLoad_branch i v u).trans h.branch)

theorem raise_noBranch (e : Exc) (s : State) : NoBranch s (raise e s) := .raise e (.refl s)

theorem writeResult_noBranch (i : Reg) (v : Word) (s : State) : NoBranch s (writeResult i v s) :=
  .follows (retireWrite_pc i v s) (retireWrite_branch i v s)

theorem writeHiLo_noBranch (hi lo : Word) (s : State) : NoBranch s (writeHiLo hi lo s) := retireNone_noBranch rfl rfl

theorem loadWith_noBranch (w : Width) (ext : Word → Word) (rt rs : Reg) (imm : Half) (s : State) :
    NoBranch s (loadWith w ext rt rs imm s) :=
  .access (fun _ h => (memRead_moves h).1.controlKept) fun v _ hu => retireLoad_noBranch rt (ext v) hu

theorem loadMerge_noBranch (merge : BitVec 2 → Word → Word → Word) (rt rs : Reg) (imm : Half) (s : State) :
    NoBranch s (loadMerge merge rt rs imm s) :=
  .access (fun _ h => (unalignedRead_moves h).controlKept) fun _ _ hu => retireLoad_noBranch rt _ hu

theorem storeWith_noBranch (w : Width) (rt rs : Reg) (imm : Half) (s : State) :
    NoBranch s (storeWith w rt rs imm s) :=
  .access (fun _ h => (memWrite_moves h).1.controlKept) fun _ _ hu => retireNone_noBranch hu.pc hu.branch

theorem storeMerge_noBranch (merge : BitVec 2 → Word → Word → Word) (rt rs : Reg) (imm : Half) (s : State) :
    NoBranch s (storeMerge merge rt rs imm s) :=
  .withAccess
    (fun _ _ hu => .access
      (fun _ h => ((mergeRead_moves (.inl ⟨_, hu⟩)).trans (memWrite_moves h).1).controlKept)
      fun _ _ hv => retireNone_noBranch hv.pc hv.branch)
    fun _ _ hu => (mergeRead_moves (.inr ⟨_, hu⟩)).controlKept

theorem ifCop0Usable_noBranch {s : State} {r : Result} (h : NoBranch s r) : NoBranch s (ifCop0Usable s r) :=
  .ite h (raise_noBranch _ s)

theorem execMfc0_noBranch (rt rd : Reg) (s : State) : NoBranch s (execMfc0 rt rd s) :=
  ifCop0Usable_noBranch (.access (fun _ h => cop0Read_ends h ▸ .refl s) fun v _ hu => retireLoad_noBranch rt v hu)

theorem execMtc0_noBranch (rt rd : Reg) (s : State) : NoBranch s (execMtc0 rt rd s) := by
  refine ifCop0Usable_noBranch (.withAccess (fun v u h => ?_) fun e u h => ?_)
  · obtain ⟨-, frame⟩ := cop0Write_ends (.inl ⟨v, h⟩)
    exact retireNone_noBranch (by rw [frame]) (by rw [frame])
  · obtain ⟨hok, -⟩ := cop0Write_ends (.inr ⟨e, h⟩)
    exact nomatch hok.symm.trans h

theorem geometryEngine_noBranch (s : State) : NoBranch s (geometryEngine s) :=
  .ite (fun _ h => nomatch h) (raise_noBranch _ s)

/-- An instruction that is no branch goes on at the pc of its state, or it raises there. -/
theorem exec_noBranch {i : Instr} (hi : (rowOf i).mnemonic ∉ branchMnemonics) (s : State) : NoBranch s (exec i s) := by
  cases i with
  | j | jal | jr | jalr | beq | bne | blez | bgtz | bltz | bgez | bltzal | bgezal =>
    exact absurd (by simp [rowOf, branchMnemonics]) hi
  | add | sub | addi => exact .ite (raise_noBranch _ s) (writeResult_noBranch _ _ s)
  | addu | subu | and | or | xor | nor | slt | sltu | addiu | slti | sltiu | andi | ori | xori | lui | sll | srl | sra
  | sllv | srlv | srav | mfhi | mflo => exact writeResult_noBranch _ _ s
  | mult | multu | div | divu | mthi | mtlo => exact writeHiLo_noBranch _ _ s
  | lb | lbu | lh | lhu | lw => exact loadWith_noBranch _ _ _ _ _ s
  | lwl | lwr => exact loadMerge_noBranch _ _ _ _ s
  | sb | sh | sw => exact storeWith_noBranch _ _ _ _ s
  | swl | swr => exact storeMerge_noBranch _ _ _ _ s
  | mfc0 rt rd => exact execMfc0_noBranch rt rd s
  | mtc0 rt rd => exact execMtc0_noBranch rt rd s
  | rfe => exact ifCop0Usable_noBranch (retireNone_noBranch rfl rfl)
  | syscall | brk | cop1 | cop3 | lwc0 | lwc1 | lwc3 | swc0 | swc1 | swc3 => exact raise_noBranch _ s
  | cop2 | lwc2 | swc2 => exact geometryEngine_noBranch s

/-! A branch in a delay slot (R212). -/

/-- BEQ r0, r0 is taken: the next fetch stays, the one after it is at the target, and the branch flag is set. -/
theorem exec_beq_zero_next {imm : Half} {s t : State} (h : exec (.beq 0 0 imm) s = .next t) :
    t.pc = s.pc ∧ t.nextPc = s.currentPc + 4 + BitVec.ofInt 32 (imm.toInt * 4) ∧ t.branch = true := by
  have taken : exec (.beq 0 0 imm) s = branch true (branchTarget s.currentPc imm) s :=
    congrArg (branch · _ s) (beq_self_eq_true (s.gpr 0))
  obtain ⟨u, hu, frame, -⟩ := retires_of_eq_branch taken (branchTarget_eq _ _)
  cases hu.symm.trans h
  exact ⟨by rw [frame], by rw [frame], by rw [frame]⟩

/-- Settles O21: `exec_beq_zero_next` for the two branches, then `exec_noBranch` in the state after the second P1, which
sits in a delay slot with the branch flag clear. -/
theorem branchInDelaySlotFetchOrder : Obligations.BranchInDelaySlotFetchOrder := by
  intro s t1 t2 t3 first second i target1 target2 h1 h2 hi h3
  obtain ⟨hpc1, hnext1, hbranch1⟩ := exec_beq_zero_next h1
  obtain ⟨hpc2, hnext2, hbranch2⟩ := exec_beq_zero_next h2
  have hslot : (advance t1).currentPc = s.pc := hpc1
  have hcurrent : (advance t2).currentPc = target1 := hpc2.trans hnext1
  have hmarked : (advance t2).delaySlot = true := hbranch2
  have hsecond : (advance t2).pc = target2 := by
    rw [hslot] at hnext2
    exact hnext2
  refine ⟨hslot, hbranch1, hcurrent, hmarked, ?_⟩
  obtain ⟨hpc, hbranch⟩ | ⟨hpc, hbranch, hepc⟩ := exec_noBranch hi (advance t2) t3 h3
  · exact ⟨hbranch, .inl (hpc.trans hsecond)⟩
  · rw [if_pos hmarked, hcurrent] at hepc
    exact ⟨hbranch, .inr ⟨hpc, hepc⟩⟩

end Sys2Proof.Machine

/-! The bytes that the unaligned accesses move (44_load_store R236, R237, R241, R242). -/

namespace Sys2Proof.Machine

open Sys2Proof.Safety

theorem lane_cases : ∀ k : BitVec 2, k = 0#2 ∨ k = 1#2 ∨ k = 2#2 ∨ k = 3#2 := by decide

/-- LWL's merge: the low bytes are kept, the word enters above them. -/
theorem mergeLwl_eq (k : BitVec 2) (old w : Word) : mergeLwl k old w =
    (old &&& ~~~(BitVec.allOnes 32 <<< (8 * (3 - k.toNat)))) ||| (w <<< (8 * (3 - k.toNat))) := by
  rcases lane_cases k with rfl | rfl | rfl | rfl <;> simp [mergeLwl]

/-- LWR's merge: the high bytes are kept, the word enters below them. -/
theorem mergeLwr_eq (k : BitVec 2) (old w : Word) : mergeLwr k old w =
    (old &&& ~~~(BitVec.allOnes 32 >>> (8 * k.toNat))) ||| (w >>> (8 * k.toNat)) := by
  rcases lane_cases k with rfl | rfl | rfl | rfl <;> simp [mergeLwr]

/-- SWR's merge is LWL's from the mirrored lane. -/
theorem mergeSwr_eq_mergeLwl (k : BitVec 2) (old w : Word) : mergeSwr k old w = mergeLwl (3 - k) old w := by
  rcases lane_cases k with rfl | rfl | rfl | rfl <;> rfl

/-- SWL's merge is LWR's from the mirrored lane. -/
theorem mergeSwl_eq_mergeLwr (k : BitVec 2) (old w : Word) : mergeSwl k old w = mergeLwr (3 - k) old w := by
  rcases lane_cases k with rfl | rfl | rfl | rfl <;> rfl

theorem mirroredLane_toNat (k : BitVec 2) : (3 - k).toNat = 3 - k.toNat := by bv_omega

section
variable (k : BitVec 2) (old w : Word) {j : Nat} (hj : j < 4)
include hj

theorem byte_mergeLwl : (mergeLwl k old w).extractLsb' (8 * j) 8 =
    if 3 - j ≤ k.toNat then w.extractLsb' (8 * (j + k.toNat - 3)) 8 else old.extractLsb' (8 * j) 8 := by
  have hk := k.isLt
  rw [mergeLwl_eq]
  ext i hi
  have hi32 : 8 * j + i < 32 := by omega
  split
  case isTrue h =>
    have hin : 8 * (3 - k.toNat) ≤ 8 * j + i := by omega
    have hfrom : 8 * j + i - 8 * (3 - k.toNat) = 8 * (j + k.toNat - 3) + i := by omega
    have hto : 8 * (j + k.toNat - 3) + i < 32 := by omega
    simp [-BitVec.reduceAllOnes, hi32, hin.not_gt, hfrom, hto, BitVec.getLsbD_eq_getElem]
  case isFalse h =>
    have hbelow : 8 * j + i < 8 * (3 - k.toNat) := by omega
    simp [hi32, hbelow]

theorem byte_mergeLwr : (mergeLwr k old w).extractLsb' (8 * j) 8 =
    if j + k.toNat ≤ 3 then w.extractLsb' (8 * (j + k.toNat)) 8 else old.extractLsb' (8 * j) 8 := by
  rw [mergeLwr_eq]
  ext i hi
  have hi32 : 8 * j + i < 32 := by omega
  have hfrom : 8 * k.toNat + (8 * j + i) = 8 * (j + k.toNat) + i := by omega
  split
  case isTrue h =>
    have hin : 8 * (j + k.toNat) + i < 32 := by omega
    simp [-BitVec.reduceAllOnes, hi32, hfrom, hin]
  case isFalse h =>
    have hout : 32 ≤ 8 * (j + k.toNat) + i := by omega
    simp [hi32, hfrom, hout]

theorem byte_mergeSwr : (mergeSwr k old w).extractLsb' (8 * j) 8 =
    if k.toNat ≤ j then w.extractLsb' (8 * (j - k.toNat)) 8 else old.extractLsb' (8 * j) 8 := by
  have hk := k.isLt
  rw [mergeSwr_eq_mergeLwl, byte_mergeLwl _ old w hj, mirroredLane_toNat]
  refine if_congr (by omega) ?_ rfl
  rw [show j + (3 - k.toNat) - 3 = j - k.toNat by omega]

theorem byte_mergeSwl : (mergeSwl k old w).extractLsb' (8 * j) 8 =
    if j ≤ k.toNat then w.extractLsb' (8 * (j + 3 - k.toNat)) 8 else old.extractLsb' (8 * j) 8 := by
  have hk := k.isLt
  rw [mergeSwl_eq_mergeLwr, byte_mergeLwr _ old w hj, mirroredLane_toNat]
  refine if_congr (by omega) ?_ rfl
  rw [show j + (3 - k.toNat) = j + 3 - k.toNat by omega]

end

/-- Settles O23: LWL and LWR shift the word in over a mask, and SWR and SWL do the same from the mirrored lane. -/
theorem unalignedLanesMoveTheBytes : Obligations.UnalignedLanesMoveTheBytes := fun old w k j =>
  ⟨byte_mergeLwl k old w j.isLt, byte_mergeLwr k old w j.isLt, byte_mergeSwl k old w j.isLt,
    byte_mergeSwr k old w j.isLt⟩

end Sys2Proof.Machine

/-! The faults of the Bus (44_load_store R230 (c), (d); 20_memory R110, R111). -/

namespace Sys2Proof.Machine

open Sys2Proof.Safety

/-- An exception on which the Bus recorded its fault: the handler is entered from the state before the access. -/
theorem enters_of_busFault {r : Result} {e : Exc} {c : BusFaultCode} {a : Word} {s : State}
    (h : r = raise e (recordFault c a s)) : ∃ t, r = .next t ∧ Enters (excCode e) (excCe e) (excAddress e) s t :=
  enters_of_eq_raise (h.trans (congrArg Host.Outcome.next (takeException_recordFault e c a s)))

section
variable {a : Word} {s : State} (hm : ModeAllows a s) (hi : s.sr.getLsbD 16 = false)
include hm hi

theorem unalignedRead_bus : unalignedRead a s = cpuBusRead .word (alignedWord a) s := by
  unfold unalignedRead
  rw [userBlocked_of_allows hm, memRead_bus (allows_alignedWord hm) hi]
  rfl

theorem mergeRead_bus : mergeRead a s = cpuBusRead .word (alignedWord a) s := by
  unfold mergeRead isolated
  rw [userBlocked_of_allows hm, hi]
  rfl

end

/-- Settles O30: each shape goes on from an access that the Bus faults; the aligned word of an unclaimed address is
unclaimed (`claim_alignedWord`). -/
theorem dataAccessFaultsEnterTheHandler : Obligations.DataAccessFaultsEnterTheHandler := by
  intro s rt rs imm a hi hm
  refine ⟨fun hc => ?_, fun hc ha => ?_, fun hc ha => ?_⟩
  · have hword := cpuBusRead_unclaimed .word (s := s) ((claim_alignedWord a).trans hc)
    have stored := fun w => enters_of_busFault
      (storeWith_of_write ((memWrite_bus (v := s.gpr rt) hm hi).trans (cpuBusWrite_unclaimed w hc)))
    have merged := fun merge => enters_of_busFault
      (storeMerge_of_read (rt := rt) (merge := merge) ((mergeRead_bus hm hi).trans hword))
    simp only [List.forall_mem_cons]
    refine ⟨loads_forall (P := fun r => ∃ t, r = .next t ∧ Enters 6 0 none s t) (fun w _ => ?_) (fun _ => ?_),
      ⟨stored _, stored _, stored _, List.forall_mem_nil _⟩, merged _, merged _, List.forall_mem_nil _⟩
    · exact enters_of_busFault (loadWith_of_read ((memRead_bus hm hi).trans (cpuBusRead_unclaimed w hc)))
    · exact enters_of_busFault (loadMerge_of_read ((unalignedRead_bus hm hi).trans hword))
  · have hal : aligned .half a = false := by unfold aligned; rw [ha]; rfl
    have loaded {ext : Word → Word} := enters_of_busFault
      (loadWith_of_read (rt := rt) (ext := ext) ((memRead_bus hm hi).trans (cpuBusRead_misaligned hc hal)))
    simp only [List.forall_mem_cons]
    exact ⟨⟨loaded, loaded, List.forall_mem_nil _⟩,
      enters_of_busFault (storeWith_of_write ((memWrite_bus hm hi).trans (cpuBusWrite_misaligned hc hal)))⟩
  · have hal : aligned .word a = false := Bool.eq_false_iff.mpr fun h => ha ((aligned_word_iff a).mp h)
    exact ⟨enters_of_busFault (loadWith_of_read ((memRead_bus hm hi).trans (cpuBusRead_misaligned hc hal))),
      enters_of_busFault (storeWith_of_write ((memWrite_bus hm hi).trans (cpuBusWrite_misaligned hc hal)))⟩

end Sys2Proof.Machine

/-! The loads and stores of RAM, scratchpad and BIOS ROM (44_load_store R230 to R242; 20_memory R96, R100). -/

namespace Sys2Proof.Machine

open Sys2Proof.Safety

/-! The loads. -/

theorem zext16_readHalf (m : List Host.Cell) (k : Nat) :
    zext16 (Memory.readHalf m k) = 0#16 ++ Memory.read m (k + 1) ++ Memory.read m k := by
  rw [zext16_append, Memory.readHalf, BitVec.append_assoc]
  rfl

/-- Settles O22: the byte array answers each read (`arrayAt_read`), of the aligned word for LWL and LWR; a narrow load
takes the low bits of the answer. -/
theorem loadsFromMemoryQueueTheValue : Obligations.LoadsFromMemoryQueueTheValue := by
  intro s rt rs imm e k a pending hi hm hk
  obtain ⟨hword, hread⟩ := arrayAt_read (arrayAt_alignedWord hk).2 .word s
  rw [segmentOf_alignedWord] at hread
  have loaded {w : Width} {ext : Word → Word} {v : Word} (ha : aligned w a = true)
      (hv : ext (arrayRead w k s.mem) = v) :
      ∃ t, loadWith w ext rt rs imm s = .next t ∧ Queues rt v (afterRead e w a s) t := by
    obtain ⟨hc, hr⟩ := arrayAt_read hk w s
    exact queues_of_next (loadWith_ok hi hm ha hc hr) hv
  have half {v : Half → Word} {x : Word} (ha : a.getLsbD 0 = false) (hx : v (Memory.readHalf s.mem k) = x) :
      ∃ t, loadWith .half (fun y => v (lowHalf y)) rt rs imm s = .next t ∧ Queues rt x (afterRead e .half a s) t :=
    loaded ((aligned_half_iff a).mpr ha) ((congrArg v (lowHalf_zext16 _)).trans hx)
  refine ⟨loaded rfl (congrArg sext8 (lowByte_zext8 _)), loaded rfl ?_, fun ha => half ha rfl,
    fun ha => half ha (zext16_readHalf _ _), fun ha => loaded ((aligned_word_iff a).mpr ha) rfl,
    queues_of_next (loadMerge_ok hi hm hword hread) rfl, queues_of_next (loadMerge_ok hi hm hword hread) rfl⟩
  exact (congrArg zext8 (lowByte_zext8 _)).trans (zext8_eq _)

/-! The bytes that a store leaves. -/

theorem byte_append_bytes (byte : Nat → Byte) {j : Nat} (hj : j < 4) :
    (byte 3 ++ byte 2 ++ byte 1 ++ byte 0).extractLsb' (8 * j) 8 = byte j := by
  interval_cases j <;> simp only [BitVec.extractLsb'_append_eq_ite] <;> simp

theorem byte_wordAt (m : List Host.Cell) (k : Nat) {j : Nat} (hj : j < 4) :
    (wordAt m k).extractLsb' (8 * j) 8 = Memory.read m (k + j) :=
  byte_append_bytes (fun i => Memory.read m (k + i)) hj

theorem extractLsb'_ushiftRight (w : Word) (n l m : Nat) : (w >>> n).extractLsb' l m = w.extractLsb' (n + l) m := by
  ext i hi
  simp [Nat.add_assoc]

/-- A word written over another one that it shares its other bytes with stores the `n` bytes from `lo` on. -/
theorem arrayWrite_part_stored {m : List Host.Cell} (h : Memory.wf m = true) (k : Nat) {lo n : Nat} {x v : Word}
    (hn : lo + n ≤ 4) (hx : ∀ j < 4, x.extractLsb' (8 * j) 8 =
      if lo ≤ j ∧ j < lo + n then v.extractLsb' (8 * (j - lo)) 8 else (wordAt m k).extractLsb' (8 * j) 8) :
    BytesStored m (arrayWrite .word k x m) (k + lo) n v := by
  intro y
  rw [arrayWrite_word_stored h]
  by_cases hy : k ≤ y ∧ y < k + 4
  · obtain ⟨j, rfl⟩ := Nat.exists_eq_add_of_le hy.1
    have hj : j < 4 := by omega
    rw [if_pos hy, Nat.add_sub_cancel_left, hx j hj, byte_wordAt m k hj, Nat.add_sub_add_left]
    exact if_congr (by omega) rfl rfl
  · rw [if_neg hy, if_neg (by omega)]

/-- SWL stores the high bytes of the register, up to the lane. -/
theorem arrayWrite_mergeSwl_stored {m : List Host.Cell} (h : Memory.wf m = true) (k : Nat) (lane : BitVec 2) (v : Word) :
    BytesStored m (arrayWrite .word k (mergeSwl lane (wordAt m k) v) m) k (lane.toNat + 1)
      (v >>> (8 * (3 - lane.toNat))) := by
  have hlane := lane.isLt
  refine arrayWrite_part_stored h k (lo := 0) (by omega) fun j hj => ?_
  rw [byte_mergeSwl _ _ _ hj, extractLsb'_ushiftRight]
  refine if_congr (by omega) ?_ rfl
  rw [show 8 * (3 - lane.toNat) + 8 * (j - 0) = 8 * (j + 3 - lane.toNat) by omega]

/-- SWR stores the low bytes of the register, from the lane on. -/
theorem arrayWrite_mergeSwr_stored {m : List Host.Cell} (h : Memory.wf m = true) (k : Nat) (lane : BitVec 2) (v : Word) :
    BytesStored m (arrayWrite .word k (mergeSwr lane (wordAt m k) v) m) (k + lane.toNat) (4 - lane.toNat) v := by
  have hlane := lane.isLt
  refine arrayWrite_part_stored h k (by omega) fun j hj => ?_
  rw [byte_mergeSwr _ _ _ hj]
  exact if_congr (by omega) rfl rfl

/-! The stores. -/

/-- A store that retires after `m'` became the memory stores what `m'` holds. -/
theorem stored_of_next {r : Result} {c : State} {m m' : List Host.Cell} {k n : Nat} {v : Word}
    (h : r = .next (retireNone { c with mem := m' })) (hb : BytesStored m m' k n v) :
    ∃ t, r = .next t ∧ Retires none { c with mem := t.mem } t ∧ BytesStored m t.mem k n v := by
  refine ⟨_, h, ?_⟩
  rw [retireNone_mem]
  exact ⟨retireNone_retires _, hb⟩

/-- Settles O26: RAM and scratchpad take each write (`arrayAt_write`); SWL and SWR write their merge over the aligned word
that they read. -/
theorem storesToMemoryWriteTheirBytes : Obligations.StoresToMemoryWriteTheirBytes := by
  intro s rt rs imm e k a lane v read merged stored hwf hi hm hk hd
  obtain ⟨hlane, hka⟩ := arrayAt_alignedWord hk
  obtain ⟨hword, hread⟩ := arrayAt_read hka .word s
  rw [segmentOf_alignedWord] at hread
  have plain {w : Width} {n : Nat} (ha : aligned w a = true) (hb : BytesStored s.mem (arrayWrite w k v s.mem) k n v) :
      ∃ t, storeWith w rt rs imm s = .next t ∧ Retires none { afterWrite e w a v s with mem := t.mem } t ∧
        BytesStored s.mem t.mem k n v := by
    obtain ⟨hc, hw⟩ := arrayAt_write hk hd w v s
    exact stored_of_next (storeWith_ok hi hm ha hc hw) hb
  have unaligned (merge : BitVec 2 → Word → Word → Word) {first n : Nat} {x : Word} (hb : BytesStored s.mem
        (arrayWrite .word (k - lane) (merge (byteLane a) (wordAt s.mem (k - lane)) v) s.mem) first n x) :
      ∃ t, storeMerge merge rt rs imm s = .next t ∧ Retires none { merged merge with mem := t.mem } t ∧
        BytesStored s.mem t.mem first n x := by
    obtain ⟨-, hw⟩ := arrayAt_write hka hd .word (merge (byteLane a) (wordAt s.mem (k - lane)) v) read
    rw [segmentOf_alignedWord] at hw
    exact stored_of_next (storeMerge_ok hi hm hword hread hw) hb
  have hswr := arrayWrite_mergeSwr_stored hwf (k - lane) (byteLane a) v
  rw [Nat.sub_add_cancel hlane] at hswr
  exact ⟨plain rfl (arrayWrite_byte_stored hwf k v),
    fun ha => plain ((aligned_half_iff a).mpr ha) (arrayWrite_half_stored hwf k v),
    fun ha => plain ((aligned_word_iff a).mpr ha) (arrayWrite_word_stored hwf k v),
    unaligned mergeSwl (arrayWrite_mergeSwl_stored hwf (k - lane) (byteLane a) v), unaligned mergeSwr hswr⟩

end Sys2Proof.Machine

/-! Traps and coprocessors (45_system_coproc R250 to R259): how an instruction ends where its coprocessor is usable and
where it is not, and what the moves do to each register of R255. -/

namespace Sys2Proof.Machine

open Sys2Proof.Safety

/-! Traps and absent coprocessors (R251, R252, R257 to R259). -/

/-- Settles O31: both raise, and neither exception has a coprocessor number or an address. -/
theorem syscallAndBreakTrap : Obligations.SyscallAndBreakTrap := fun _ _ =>
  ⟨enters_of_eq_raise rfl, enters_of_eq_raise rfl⟩

/-- What the geometry engine's instructions do, by SR.CU2 (R258). -/
theorem geometryEngine_ends {r : Result} {s : State} (h : r = geometryEngine s) :
    (s.sr.getLsbD 30 = false → ∃ t, r = .next t ∧ Enters 11 2 none s t) ∧
      (s.sr.getLsbD 30 = true → r = .refused .geometryEngine) :=
  ⟨fun hc => enters_of_eq_raise (h.trans (if_neg (ne_true_of_eq_false hc))), fun hc => h.trans (if_pos hc)⟩

/-- Settles O36: the instructions of coprocessors 0, 1 and 3 raise in every state, those of 2 are `geometryEngine_ends`. -/
theorem otherCoprocessorsAreUnusable : Obligations.OtherCoprocessorsAreUnusable := by
  intro s rt rs imm
  have absent {z : BitVec 2} {r : Result} (h : r = absentCoprocessor z s) : ∃ t, r = .next t ∧ Enters 11 z none s t :=
    enters_of_eq_raise h
  simp only [List.forall_mem_cons]
  exact ⟨⟨absent rfl, absent rfl, absent rfl, List.forall_mem_nil _⟩,
    ⟨absent rfl, absent rfl, absent rfl, List.forall_mem_nil _⟩, ⟨absent rfl, absent rfl, List.forall_mem_nil _⟩,
    geometryEngine_ends rfl, geometryEngine_ends rfl, geometryEngine_ends rfl, List.forall_mem_nil _⟩

/-! Whether COP0 is usable (R250; 60_exceptions R311). -/

theorem cop0Usable_eq_true (s : State) : cop0Usable s = true ↔ (s.sr.getLsbD 1 = true → s.sr.getLsbD 28 = true) := by
  rw [← not_iff_not, Bool.not_eq_true, cop0Usable_eq_false, Classical.not_imp, Bool.not_eq_true]

theorem enters_of_ifCop0Usable {r r' : Result} {s : State} (hu : cop0Usable s = false) (h : r = ifCop0Usable s r') :
    ∃ t, r = .next t ∧ Enters 11 0 none s t :=
  enters_of_eq_raise (h.trans (if_neg (ne_true_of_eq_false hu)))

/-! The registers of R255 that are not there or read 0. -/

theorem cop0RegOf_breakpoint : ∀ rd ∈ [(3 : Reg), 5, 6, 7, 9, 11], cop0RegOf rd = .breakpoint := by decide

theorem cop0RegOf_absent : ∀ rd ∉ [(3 : Reg), 5, 6, 7, 8, 9, 11, 12, 13, 14, 15], cop0RegOf rd = .absent := by decide

/-! The words that CAUSE takes and gives (10_state R33). -/

/-- CAUSE as it reads: the lines, the stored bits with a function, and 0 in the others. -/
theorem causeView_fields (s : State) :
    (causeView s).extractLsb' 10 6 = s.irqIn ∧ (causeView s).extractLsb' 8 2 = s.cause.extractLsb' 8 2 ∧
      (causeView s).extractLsb' 2 5 = s.cause.extractLsb' 2 5 ∧
      (causeView s).extractLsb' 28 2 = s.cause.extractLsb' 28 2 ∧
      (causeView s).getLsbD 31 = s.cause.getLsbD 31 ∧ causeView s &&& 0x4FFF0083 = 0 := by
  unfold causeView
  generalize s.irqIn = lines
  refine ⟨?_, ?_, ?_, ?_, by simp, ?_⟩ <;> ext i hi <;> interval_cases i <;> simp

theorem causeWritten_fields (v cause : Word) :
    (causeWritten v cause).extractLsb' 8 2 = v.extractLsb' 8 2 ∧
      causeWritten v cause &&& 0xFFFFFCFF = cause &&& 0xFFFFFCFF := by
  unfold causeWritten
  refine ⟨?_, ?_⟩ <;> ext i hi <;> interval_cases i <;> simp

/-! The moves and RFE where COP0 is usable (R253, R254, R256). -/

section
variable {s : State} (hu : s.sr.getLsbD 1 = true → s.sr.getLsbD 28 = true)
include hu

theorem ifCop0Usable_of_usable (r : Result) : ifCop0Usable s r = r := if_pos ((cop0Usable_eq_true s).mpr hu)

theorem exec_mfc0 (rt rd : Reg) :
    exec (.mfc0 rt rd) s = withAccess (cop0Read rd s) fun v u => .next (retireLoad rt v u) :=
  ifCop0Usable_of_usable hu _

theorem exec_mtc0 (rt rd : Reg) :
    exec (.mtc0 rt rd) s = withAccess (cop0Write rd (s.gpr rt) s) fun _ u => .next (retireNone u) :=
  ifCop0Usable_of_usable hu _

theorem queues_of_cop0Read {rt rd : Reg} {v : Word} (h : cop0Read rd s = .ok v s) :
    ∃ t, exec (.mfc0 rt rd) s = .next t ∧ Queues rt v s t :=
  queues_of_next ((exec_mfc0 hu rt rd).trans (congrArg (withAccess · _) h)) rfl

theorem retires_of_cop0Write {rt rd : Reg} {u : State} (h : cop0Write rd (s.gpr rt) s = .ok () u) :
    ∃ t, exec (.mtc0 rt rd) s = .next t ∧ Retires none u t :=
  retires_of_next ((exec_mtc0 hu rt rd).trans (congrArg (withAccess · _) h))

theorem fault_of_cop0Read {rt rd : Reg} {e : Fault} (h : cop0Read rd s = .fault e) :
    exec (.mfc0 rt rd) s = .fault e :=
  (exec_mfc0 hu rt rd).trans (congrArg (withAccess · _) h)

theorem fault_of_cop0Write {rt rd : Reg} {e : Fault} (h : cop0Write rd (s.gpr rt) s = .fault e) :
    exec (.mtc0 rt rd) s = .fault e :=
  (exec_mtc0 hu rt rd).trans (congrArg (withAccess · _) h)

end

/-! The statements about coprocessor 0. -/

/-- Settles O32: each register's read has its value and leaves the state alone; CAUSE is `causeView_fields`. -/
theorem moveFromCop0QueuesTheRegister : Obligations.MoveFromCop0QueuesTheRegister := by
  intro s rt hu moves
  refine ⟨queues_of_cop0Read hu rfl, queues_of_cop0Read hu rfl, queues_of_cop0Read hu rfl, queues_of_cop0Read hu rfl,
    fun rd hrd => queues_of_cop0Read hu ?_, causeView s, queues_of_cop0Read hu rfl, causeView_fields s⟩
  rw [cop0Read, cop0RegOf_breakpoint rd hrd]

/-- Settles O33: SR takes the whole word, CAUSE is `causeWritten_fields`, and the other registers' writes answer the state
as it was. -/
theorem moveToCop0Writes : Obligations.MoveToCop0Writes := by
  intro s rt hu writes
  refine ⟨retires_of_cop0Write hu rfl,
    ⟨_, retires_of_cop0Write hu rfl, causeWritten_fields (s.gpr rt) s.cause⟩, retires_of_cop0Write hu rfl,
    retires_of_cop0Write hu rfl, retires_of_cop0Write hu rfl, fun h0 rd hrd => retires_of_cop0Write hu ?_⟩
  rw [cop0Write, cop0RegOf_breakpoint rd hrd]
  exact if_pos h0

/-- Settles O34: the guard of the three instructions raises, or it lets through the fault of the register's read or
write. -/
theorem cop0TrapsAndStops : Obligations.Cop0TrapsAndStops := by
  intro s rt rd
  refine ⟨fun hku hcu => ?_, fun hu => ⟨fun hrd => ?_, fun hv hrd => fault_of_cop0Write hu ?_⟩⟩
  · have trapped {r r' : Result} := enters_of_ifCop0Usable (r := r) (r' := r') ((cop0Usable_eq_false s).mpr ⟨hku, hcu⟩)
    simp only [List.forall_mem_cons]
    exact ⟨trapped rfl, trapped rfl, trapped rfl, List.forall_mem_nil _⟩
  · have habsent := cop0RegOf_absent rd hrd
    exact ⟨fault_of_cop0Read hu (by rw [cop0Read, habsent]), fault_of_cop0Write hu (by rw [cop0Write, habsent])⟩
  · rw [cop0Write, cop0RegOf_breakpoint rd hrd]
    exact if_neg hv

/-- Settles O35: RFE retires after the pop of SR (`srPop_fields`). -/
theorem returnFromExceptionPopsModes : Obligations.ReturnFromExceptionPopsModes := by
  intro s hu
  refine ⟨_, ifCop0Usable_of_usable hu (.next (retireNone (returnFromException s))), ?_⟩
  rw [retireNone_sr]
  exact ⟨retireNone_retires _, srPop_fields s.sr⟩

end Sys2Proof.Machine

/-! Exceptions and modes (60_exceptions): the interrupt that a step takes, the way back from the handler, and what user
mode cannot change. -/

namespace Sys2Proof.Machine

open Sys2Proof.Safety

/-! The system state that user mode cannot reach (R310, R311; 20_memory R113). -/

/-- The instruction cache, CACHECTL and the exception registers of coprocessor 0 are those of `s`. -/
structure SystemKept (s u : State) : Prop where
  icache : u.icache = s.icache
  cacheCtl : u.cacheCtl = s.cacheCtl
  sr : u.sr = s.sr
  cause : u.cause = s.cause
  epc : u.epc = s.epc
  badVAddr : u.badVAddr = s.badVAddr

theorem SystemKept.refl (s : State) : SystemKept s s := ⟨rfl, rfl, rfl, rfl, rfl, rfl⟩

theorem SystemKept.trans {s t u : State} (h : SystemKept s t) (h' : SystemKept t u) : SystemKept s u where
  icache := h'.icache.trans h.icache
  cacheCtl := h'.cacheCtl.trans h.cacheCtl
  sr := h'.sr.trans h.sr
  cause := h'.cause.trans h.cause
  epc := h'.epc.trans h.epc
  badVAddr := h'.badVAddr.trans h.badVAddr

theorem Retires.systemKept {own : Option (Reg × Word)} {s u t : State} (h : Retires own u t) (hu : SystemKept s u) :
    SystemKept s t := by
  obtain ⟨frame, -⟩ := h
  exact hu.trans (by constructor <;> rw [frame])

theorem Queues.systemKept {i : Reg} {v : Word} {s u t : State} (h : Queues i v u t) (hu : SystemKept s u) :
    SystemKept s t := by
  obtain ⟨frame, -⟩ := h
  exact hu.trans (by constructor <;> rw [frame])

theorem DmaMoves.systemKept {s t : State} (h : DmaMoves s t) : SystemKept s t := by constructor <;> rw [h.frame]

/-! The accesses. -/

theorem ok_ends {α : Type} {v : α} {s u : State} (h : (Access.ok v s).ends u) : u = s := by
  obtain ⟨v', h⟩ | ⟨e, h⟩ := h <;> cases h
  rfl

theorem not_refused_ends {α : Type} {e : Refusal} {u : State} : ¬ (Access.refused (α := α) e).ends u := by
  rintro (⟨v, h⟩ | ⟨e', h⟩) <;> cases h

/-- Where a Bus read of the CPU ends: at the record of a fault, or after the device's answer, with the latency added. -/
theorem cpuBusRead_ends {w : Width} {a : Word} {s u : State} (h : (cpuBusRead w a s).ends u) :
    (∃ c, u = recordFault c a s) ∨ ∃ e v t, claim a = some e ∧
      deviceRead e.device (segmentOf a) w (rangeOffset e a) s = .ok v t ∧ u = costing e.device t := by
  cases hc : claim a with
  | none =>
    rw [cpuBusRead_unclaimed w hc] at h
    exact .inl ⟨_, raise_ends h⟩
  | some e =>
    cases ha : aligned w a with
    | false =>
      rw [cpuBusRead_misaligned (hc ▸ Option.some_ne_none e) ha] at h
      exact .inl ⟨_, raise_ends h⟩
    | true =>
      cases hd : deviceRead e.device (segmentOf a) w (rangeOffset e a) s with
      | ok v t =>
        rw [cpuBusRead_ok hc ha hd] at h
        exact .inr ⟨e, v, t, rfl, hd, ok_ends h⟩
      | fault r | refused r => simp [cpuBusRead, busRead, hc, ha, hd, Access.ends] at h

/-- Where a Bus write of the CPU ends: at the record of a fault, or after the device's write, with the latency added. -/
theorem cpuBusWrite_ends {w : Width} {a v : Word} {s u : State} (h : (cpuBusWrite w a v s).ends u) :
    (∃ c, u = recordFault c a s) ∨ ∃ e t, claim a = some e ∧
      deviceWrite e.device (segmentOf a) w (rangeOffset e a) v s = .next t ∧ u = costing e.device t := by
  cases hc : claim a with
  | none =>
    rw [cpuBusWrite_unclaimed w hc] at h
    exact .inl ⟨_, raise_ends h⟩
  | some e =>
    cases ha : aligned w a with
    | false =>
      rw [cpuBusWrite_misaligned (hc ▸ Option.some_ne_none e) ha] at h
      exact .inl ⟨_, raise_ends h⟩
    | true =>
      cases hd : deviceWrite e.device (segmentOf a) w (rangeOffset e a) v s with
      | next t =>
        rw [cpuBusWrite_ok hc ha hd] at h
        exact .inr ⟨e, t, rfl, hd, ok_ends h⟩
      | fault r | refused r => simp [cpuBusWrite, busWrite, hc, ha, hd, Access.ends] at h

theorem recordFault_systemKept (c : BusFaultCode) (a : Word) (s : State) : SystemKept s (recordFault c a s) :=
  ⟨rfl, rfl, rfl, rfl, rfl, rfl⟩

theorem costing_systemKept (d : Device) (s : State) : SystemKept s (costing d s) := ⟨rfl, rfl, rfl, rfl, rfl, rfl⟩

theorem cpuBusRead_systemKept {w : Width} {a : Word} {s u : State} (h : (cpuBusRead w a s).ends u) :
    SystemKept s u := by
  obtain ⟨c, rfl⟩ | ⟨e, v, t, -, hd, rfl⟩ := cpuBusRead_ends h
  · exact recordFault_systemKept c a s
  · exact (deviceRead_moves hd).dmaMoves.systemKept.trans (costing_systemKept _ t)

/-- The cache-control register is not among the devices of the User segment (20_memory R95, R97). -/
theorem claim_user_ne_cacheControl {a : Word} {e : BusEntry} (hc : claim a = some e) (ha : segmentOf a = .user) :
    e.device ≠ .cacheControl := by
  have hmap : ∀ e ∈ busTable, .user ∈ e.segments → e.device ≠ .cacheControl := by decide
  obtain ⟨he, -, -, hseg⟩ := claim_contains hc
  exact hmap e he (ha ▸ hseg)

theorem deviceWrite_systemKept {d : Device} {seg : Segment} {w : Width} {o : Nat} {v : Word} {s t : State}
    (hd : d ≠ .cacheControl) (h : deviceWrite d seg w o v s = .next t) : SystemKept s t := by
  obtain ⟨k, -, rfl, -⟩ | ⟨rfl, -⟩ | ⟨hm, -⟩ := deviceAccept_moves h
  · exact ⟨rfl, rfl, rfl, rfl, rfl, rfl⟩
  · exact absurd rfl hd
  · exact (emit_clockMoves _ s).dmaMoves.systemKept.trans hm.systemKept

theorem cpuBusWrite_systemKept {w : Width} {a v : Word} {s u : State} (ha : segmentOf a = .user)
    (h : (cpuBusWrite w a v s).ends u) : SystemKept s u := by
  obtain ⟨c, rfl⟩ | ⟨e, t, hc, hd, rfl⟩ := cpuBusWrite_ends h
  · exact recordFault_systemKept c a s
  · exact (deviceWrite_systemKept (claim_user_ne_cacheControl hc ha) hd).trans (costing_systemKept _ t)

theorem memRead_systemKept {w : Width} {a : Word} {s u : State} (h : (memRead w a s).ends u) : SystemKept s u := by
  unfold memRead at h
  split at h
  · cases raise_ends h; exact .refl s
  · split at h
    · exact (not_refused_ends h).elim
    · exact cpuBusRead_systemKept h

theorem unalignedRead_systemKept {a : Word} {s u : State} (h : (unalignedRead a s).ends u) : SystemKept s u := by
  unfold unalignedRead at h
  split at h
  · cases raise_ends h; exact .refl s
  · exact memRead_systemKept h

theorem mergeRead_systemKept {a : Word} {s u : State} (h : (mergeRead a s).ends u) : SystemKept s u := by
  unfold mergeRead at h
  split at h
  · cases raise_ends h; exact .refl s
  · split at h
    · exact (not_fault_ends h).elim
    · exact cpuBusRead_systemKept h

/-- A user-mode write outside the User segment raises before it reaches a device. -/
theorem memWrite_systemKept {w : Width} {a v : Word} {s u : State} (hku : s.sr.getLsbD 1 = true)
    (hisc : s.sr.getLsbD 16 = false) (h : (memWrite w a v s).ends u) : SystemKept s u := by
  by_cases ha : segmentOf a = .user
  · rw [memWrite_bus (fun _ => ha) hisc] at h
    exact cpuBusWrite_systemKept ha h
  · rw [memWrite_blocked (userBlocked_of_user hku ha)] at h
    cases raise_ends h
    exact .refl s

/-! Results that are confined: the system state is kept, but for an exception taken. -/

/-- The cache and CACHECTL are those of `s`; the exception registers are too, or an exception of `s` has been taken, with
the handler in kernel mode, interrupts off and the old modes pushed (R300). -/
def KeepsOrTraps (s t : State) : Prop :=
  t.icache = s.icache ∧ t.cacheCtl = s.cacheCtl ∧
  ((t.sr = s.sr ∧ t.cause = s.cause ∧ t.epc = s.epc ∧ t.badVAddr = s.badVAddr) ∨
    (t.pc = vectorOf s.sr ∧ t.sr.extractLsb' 0 2 = 0 ∧ t.sr.extractLsb' 2 4 = s.sr.extractLsb' 0 4))

/-- Where the result goes on, it keeps the system state of `s` or has taken an exception. -/
def Confined (s : State) (r : Result) : Prop := ∀ t, r = .next t → KeepsOrTraps s t

theorem Confined.kept {s t : State} (h : SystemKept s t) : Confined s (.next t) := by
  rintro _ ⟨⟩; exact ⟨h.icache, h.cacheCtl, .inl ⟨h.sr, h.cause, h.epc, h.badVAddr⟩⟩

theorem Confined.raise {s u : State} (e : Exc) (h : SystemKept s u) : Confined s (raise e u) := by
  rintro _ ⟨⟩
  obtain ⟨frame, -, -, hcurrent, hpushed, -⟩ := takeException_enters e u
  rw [h.sr] at hpushed
  refine ⟨?_, ?_, .inr ⟨?_, hcurrent, hpushed⟩⟩
  · rw [frame]; exact h.icache
  · rw [frame]; exact h.cacheCtl
  · rw [frame, h.sr]

theorem Confined.ite {c : Prop} [Decidable c] {s : State} {r r' : Result} (h : Confined s r) (h' : Confined s r') :
    Confined s (if c then r else r') := by split; exacts [h, h']

/-- An access that keeps the system state wherever it ends, and what follows its value. -/
theorem Confined.access {α : Type} {s : State} {r : Access α} {f : α → State → Result}
    (hr : ∀ u, r.ends u → SystemKept s u) (hf : ∀ v u, SystemKept s u → Confined s (f v u)) :
    Confined s (withAccess r f) := by
  cases r with
  | ok v u => exact hf v u (hr u (.inl ⟨v, rfl⟩))
  | raise e u => exact .raise e (hr u (.inr ⟨e, rfl⟩))
  | fault e => exact fun _ h => nomatch h
  | refused e => exact fun _ h => nomatch h

theorem Confined.retireNone {s u : State} (h : SystemKept s u) : Confined s (.next (retireNone u)) :=
  .kept (Retires.systemKept (retireNone_retires u) h)

theorem Confined.retireWrite {s u : State} (i : Reg) (v : Word) (h : SystemKept s u) :
    Confined s (.next (retireWrite i v u)) :=
  .kept (Retires.systemKept (retireWrite_retires i v u) h)

theorem Confined.retireLoad {s u : State} (i : Reg) (v : Word) (h : SystemKept s u) :
    Confined s (.next (retireLoad i v u)) :=
  .kept (Queues.systemKept (retireLoad_queues i v u) h)

/-! The instructions, one lemma for each way in which they end. -/

theorem raise_confined (e : Exc) (s : State) : Confined s (raise e s) := .raise e (.refl s)

theorem writeResult_confined (i : Reg) (v : Word) (s : State) : Confined s (writeResult i v s) :=
  .retireWrite i v (.refl s)

theorem writeHiLo_confined (hi lo : Word) (s : State) : Confined s (writeHiLo hi lo s) :=
  .retireNone ⟨rfl, rfl, rfl, rfl, rfl, rfl⟩

theorem branchTo_systemKept (taken : Bool) (target : Word) (s : State) : SystemKept s (branchTo taken target s) :=
  ⟨rfl, rfl, rfl, rfl, rfl, rfl⟩

theorem branch_confined (taken : Bool) (target : Word) (s : State) : Confined s (branch taken target s) :=
  .retireNone (branchTo_systemKept taken target s)

theorem branchLink_confined (i : Reg) (taken : Bool) (target : Word) (s : State) :
    Confined s (branchLink i taken target s) :=
  .retireWrite i _ (branchTo_systemKept taken target s)

theorem loadWith_confined (w : Width) (ext : Word → Word) (rt rs : Reg) (imm : Half) (s : State) :
    Confined s (loadWith w ext rt rs imm s) :=
  .access (fun _ => memRead_systemKept) fun v _ => .retireLoad rt (ext v)

theorem loadMerge_confined (merge : BitVec 2 → Word → Word → Word) (rt rs : Reg) (imm : Half) (s : State) :
    Confined s (loadMerge merge rt rs imm s) :=
  .access (fun _ => unalignedRead_systemKept) fun _ _ => .retireLoad rt _

theorem geometryEngine_confined (s : State) : Confined s (geometryEngine s) :=
  .ite (fun _ h => nomatch h) (raise_confined _ s)

section
variable {s : State} (hku : s.sr.getLsbD 1 = true)
include hku

theorem storeWith_confined (hisc : s.sr.getLsbD 16 = false) (w : Width) (rt rs : Reg) (imm : Half) :
    Confined s (storeWith w rt rs imm s) :=
  .access (fun _ => memWrite_systemKept hku hisc) fun _ _ => .retireNone

/-- The write half of SWL and SWR sees the mode and the isolation that the read half saw. -/
theorem storeMerge_confined (hisc : s.sr.getLsbD 16 = false) (merge : BitVec 2 → Word → Word → Word) (rt rs : Reg)
    (imm : Half) : Confined s (storeMerge merge rt rs imm s) :=
  .access (fun _ => mergeRead_systemKept) fun _ _ hu =>
    .access (fun _ h => hu.trans (memWrite_systemKept (hu.sr ▸ hku) (hu.sr ▸ hisc) h)) fun _ _ => .retireNone

/-- Without CU0, an instruction of coprocessor 0 can only raise in user mode (R311; 45_system_coproc R250). -/
theorem ifCop0Usable_confined (hcu : s.sr.getLsbD 28 = false) (r : Result) : Confined s (ifCop0Usable s r) := by
  have hraise : ifCop0Usable s r = raise (.cpU 0) s :=
    if_neg (ne_true_of_eq_false ((cop0Usable_eq_false s).mpr ⟨hku, hcu⟩))
  rw [hraise]
  exact raise_confined _ s

theorem exec_confined (hcu : s.sr.getLsbD 28 = false) (hisc : s.sr.getLsbD 16 = false) (i : Instr) :
    Confined s (exec i s) := by
  cases i with
  | add | sub | addi => exact .ite (raise_confined _ s) (writeResult_confined _ _ s)
  | addu | subu | and | or | xor | nor | slt | sltu | addiu | slti | sltiu | andi | ori | xori | lui | sll | srl | sra
  | sllv | srlv | srav | mfhi | mflo => exact writeResult_confined _ _ s
  | mult | multu | div | divu | mthi | mtlo => exact writeHiLo_confined _ _ s
  | j | jr | beq | bne | blez | bgtz | bltz | bgez => exact branch_confined _ _ s
  | jal | jalr | bltzal | bgezal => exact branchLink_confined _ _ _ s
  | lb | lbu | lh | lhu | lw => exact loadWith_confined _ _ _ _ _ s
  | lwl | lwr => exact loadMerge_confined _ _ _ _ s
  | sb | sh | sw => exact storeWith_confined hku hisc _ _ _ _
  | swl | swr => exact storeMerge_confined hku hisc _ _ _ _
  | mfc0 | mtc0 | rfe => exact ifCop0Usable_confined hku hcu _
  | syscall | brk | cop1 | cop3 | lwc0 | lwc1 | lwc3 | swc0 | swc1 | swc3 => exact raise_confined _ s
  | cop2 | lwc2 | swc2 => exact geometryEngine_confined s

end

/-- Settles O60, by cases on how the instruction ends (`exec_confined`): a user-mode write reaches no CACHECTL and no
isolated cache, and coprocessor 0 only raises. -/
theorem userModeKeepsSystemState : Obligations.UserModeKeepsSystemState :=
  fun _ t i hku hcu hisc h => exec_confined hku hcu hisc i t h

/-! Interrupts (R290, R291). -/

/-- Bits 15:8 of a word are not all 0. -/
theorem and_ff00_ne_zero_iff (w : Word) : w &&& 0x0000FF00 ≠ 0 ↔ ∃ k : Fin 8, w.getLsbD (8 + k) = true := by
  have hmask : ∀ k : Fin 8, (0x0000FF00 : Word).getLsbD (8 + k) = true := by decide
  constructor
  · contrapose!
    intro hclear
    ext i hi
    by_cases hip : 8 ≤ i ∧ i < 16
    · obtain ⟨k, rfl⟩ := Nat.exists_eq_add_of_le hip.1
      have hk : w.getLsbD (8 + k) = false := Bool.eq_false_iff.mpr (hclear ⟨k, by omega⟩)
      simp [← BitVec.getLsbD_eq_getElem, hk]
    · interval_cases i <;> simp at hip ⊢
  · rintro ⟨k, hk⟩ hzero
    have hbit : (w &&& 0x0000FF00).getLsbD (8 + k) = true := by rw [BitVec.getLsbD_and, hk, hmask k]; rfl
    exact absurd (hzero ▸ hbit) (by simp)

/-- The IP bits as CAUSE reads: the stored bits of the two software interrupts, and the lines (10_state R33). -/
theorem causeView_getLsbD_ip (s : State) (k : Fin 8) : (causeView s).getLsbD (8 + k) =
    if k.val < 2 then s.cause.getLsbD (8 + k) else s.irqIn.getLsbD (k - 2) := by
  unfold causeView
  fin_cases k <;> simp

theorem intPending_iff (s : State) : intPending s = true ↔
    s.sr.getLsbD 0 = true ∧ ∃ k : Fin 8, s.sr.getLsbD (8 + k) = true ∧
      (if k.val < 2 then s.cause.getLsbD (8 + k) else s.irqIn.getLsbD (k - 2)) = true := by
  unfold intPending
  rw [Bool.and_eq_true, bne_iff_ne, and_ff00_ne_zero_iff]
  simp only [BitVec.getLsbD_and, Bool.and_eq_true, causeView_getLsbD_ip]

/-- A pending interrupt is taken in place of the fetch and the instruction. -/
theorem cpuStep_interrupted {s : State} (h : intPending s = true) :
    cpuStep s = charge (takeException .int (advance s)) := by
  have hinstruction : instruction (advance s) = raise .int (advance s) := if_pos h
  unfold cpuStep
  rw [hinstruction]
  rfl

/-- A step without a Bus access is charged one cycle (10_state R26 P7). -/
theorem charge_of_cost_zero {s : State} (h : s.cost = 0) :
    charge s = clockTick 1 { s with cycles := s.cycles + 1, cost := 0 } := by
  unfold charge stepCost
  rw [if_pos h]
  rfl

/-- Settles O10: the condition bit by bit, then the exception that the step takes and charges. -/
theorem pendingInterruptIsTaken : Obligations.PendingInterruptIsTaken := by
  refine fun s => ⟨intPending_iff s, fun h => ⟨takeException .int (advance s), takeException_enters .int _,
    takeException_currentPc _ _, takeException_icache _ _, ?_⟩⟩
  rw [cpuStep_interrupted h, charge_of_cost_zero (takeException_cost _ _), takeException_cycles, advance_cycles]

/-! Return from the handler (R305; 45_system_coproc R256). -/

/-- Words that agree on a field agree on each part of it. -/
theorem extractLsb'_part_eq {x y : Word} {l n : Nat} (h : x.extractLsb' l n = y.extractLsb' l n) (m : Nat) {k : Nat}
    (hpart : m + k ≤ n) : x.extractLsb' (l + m) k = y.extractLsb' (l + m) k := by
  ext i hi
  have hbit := congrArg (·.getLsbD (m + i)) h
  simpa [show m + i < n by omega, Nat.add_assoc] using hbit

/-- Settles O37: the handler runs in kernel mode, so RFE pops (`returnFromExceptionPopsModes`) what the exception
pushed. -/
theorem trapThenReturnRestoresModes : Obligations.TrapThenReturnRestoresModes := by
  intro s e
  obtain ⟨-, -, -, hcurrent, hpushed, hhigh, -⟩ := takeException_enters e s
  have hkernel : (takeException e s).sr.getLsbD 1 = false := by simpa using congrArg (·.getLsbD 1) hcurrent
  obtain ⟨t, ht, -, hpopped, hkept⟩ := returnFromExceptionPopsModes (takeException e s)
    fun hku => absurd hku (ne_true_of_eq_false hkernel)
  have hupper := extractLsb'_part_eq (k := 26) hkept 2 (by decide)
  exact ⟨t, ht, hpopped.trans hpushed, hupper.trans hhigh⟩

end Sys2Proof.Machine

/-! The clock scheduler (61_clock_scheduler): the requests of its devices, and the order and the effect of the firings of
a tick. -/

namespace Sys2Proof.Machine

open Sys2Proof.Safety

/-! A request: the deadline moves only to an earlier time (R324, R325). -/

theorem earlier_eq_ite (d : Option Nat) (t : Nat) [Decidable (∀ u, d = some u → t < u)] :
    earlier d t = if ∀ u, d = some u → t < u then some t else d := by
  cases d <;> simp [earlier]

/-- Settles O42: a request modifies its entry alone, by `earlier` (`earlier_eq_ite`). -/
theorem requestsOnlyBringTheDeadlineForward : Obligations.RequestsOnlyBringTheDeadlineForward := by
  intro c i j cycles e he candidate sooner
  have hsooner : earlier e.nextUpdate candidate = sooner := earlier_eq_ite _ _
  refine ⟨?_, ?_, fun hj => ⟨?_, ?_⟩⟩
  · simp [requestUpdate, requestUpdateOn, he, ← hsooner, candidate]
  · simp [setDefaultUpdateFrequency, setFrequencyOn, requestUpdateOn, he, ← hsooner, candidate]
  · exact List.getElem?_modify_ne _ _ hj.symm
  · exact List.getElem?_modify_ne _ _ hj.symm

/-! A tick that reaches no deadline (R330). -/

theorem fireDue_of_nothingDue {s : State} (h : NothingDue s.clock) (n : Nat) : fireDue n s = .next s := by
  have hdue := (dueHandles_eq_nil _).mpr h
  cases n <;> unfold fireDue <;> rw [hdue]

/-- Settles O43: with no deadline reached the firing loop ends at once, and it ends only when nothing is due
(`clockTick_next`). -/
theorem clockTickLeavesNothingDue : Obligations.ClockTickLeavesNothingDue :=
  ⟨fun _ _ h => fireDue_of_nothingDue h _, fun _ _ _ h => (clockTick_next h).2⟩

/-! The handles that are due, and the one that fires next (R330, R333). -/

/-- The entry of handle `i` has reached its deadline. -/
def IsDue (c : Clock) (i : Nat) : Prop :=
  ∃ e next, c.entries[i]? = some e ∧ e.nextUpdate = some next ∧ next ≤ c.systemTime

/-- The deadline of handle `i`; 0 where it has none. -/
def deadlineOf (c : Clock) (i : Nat) : Nat := (c.entries[i]?.bind ClockEntry.nextUpdate).getD 0

theorem nothingDue_of_no_isDue {c : Clock} (h : ∀ i, ¬ IsDue c i) : NothingDue c := by
  intro e he t ht
  obtain ⟨i, hi⟩ := List.mem_iff_getElem?.mp he
  exact Nat.lt_of_not_le fun hle => h i ⟨e, t, hi, ht, hle⟩

theorem isDue_lt_length {c : Clock} {i : Nat} (h : IsDue c i) : i < c.entries.length := by
  obtain ⟨e, -, he, -⟩ := h
  exact (List.getElem?_eq_some_iff.mp he).1

theorem deadlineOf_eq {c : Clock} {i t : Nat} {e : ClockEntry} (he : c.entries[i]? = some e)
    (ht : e.nextUpdate = some t) : deadlineOf c i = t := by simp [deadlineOf, he, ht]

/-- A handle listed for time `t` from `k` up is that of an entry whose deadline is `t`. -/
theorem exists_entry_of_mem_handlesAt {t i : Nat} : ∀ {es : List ClockEntry} {k : Nat}, i ∈ handlesAt t k es →
    ∃ j e, i = k + j ∧ es[j]? = some e ∧ e.nextUpdate = some t
  | x :: rest, k, h => by
    have later : i ∈ handlesAt t (k + 1) rest →
        ∃ j e, i = k + j ∧ (x :: rest)[j]? = some e ∧ e.nextUpdate = some t := by
      intro hi
      obtain ⟨j, e, hj, he, ht⟩ := exists_entry_of_mem_handlesAt hi
      exact ⟨j + 1, e, by omega, he, ht⟩
    unfold handlesAt at h
    split at h
    · next hx =>
      rcases List.mem_cons.mp h with rfl | hi
      · exact ⟨0, x, rfl, rfl, hx⟩
      · exact later hi
    · exact later h

/-- A handle that may fire next is due, and no due handle has an earlier deadline. -/
theorem isDue_earliest_of_mem_dueHandles {c : Clock} {i : Nat} (h : i ∈ dueHandles c) :
    IsDue c i ∧ ∀ j, IsDue c j → deadlineOf c i ≤ deadlineOf c j := by
  unfold dueHandles at h
  split at h
  · cases h
  · next t hearliest =>
    split at h
    · next hreached =>
      obtain ⟨k, e, hk, he, ht⟩ := exists_entry_of_mem_handlesAt h
      obtain rfl : i = k := by omega
      refine ⟨⟨e, t, he, ht, hreached⟩, ?_⟩
      rintro j ⟨e', t', he', ht', -⟩
      obtain ⟨m, hm, hle⟩ := earliest_le (List.mem_of_getElem? he') ht'
      rw [deadlineOf_eq he ht, deadlineOf_eq he' ht']
      exact Option.some.inj (hearliest.symm.trans hm) ▸ hle
    · cases h

/-- The choice among the candidates is one of them. -/
theorem chooseDue_mem (i : Nat) (others : List Nat) (s : State) : (chooseDue i others s).1 ∈ i :: others := by
  cases others with
  | nil => exact List.mem_singleton.mpr rfl
  | cons j rest =>
    have hlt : (drawTie s).1 % ((j :: rest).length + 1) < (i :: j :: rest).length := Nat.mod_lt _ (Nat.succ_pos _)
    have hchosen : (chooseDue i (j :: rest) s).1 = (i :: j :: rest)[(drawTie s).1 % (rest.length + 2)] :=
      List.getD_eq_getElem _ i hlt
    rw [hchosen]
    exact List.getElem_mem hlt

/-- The choice uses up at most an answer about ties, or a free draw. -/
theorem chooseDue_state (i : Nat) (others : List Nat) (s : State) : ∃ ties drawn,
    (chooseDue i others s).2 = { s with env := { s.env with ties := ties, drawn := drawn } } := by
  cases others with
  | nil => exact ⟨_, _, rfl⟩
  | cons j rest =>
    show ∃ ties drawn, (drawTie s).2 = _
    unfold drawTie
    split <;> exact ⟨_, _, rfl⟩

/-! Firings whose callbacks do nothing (R330 to R332). -/

/-- The clock after the handles `fired` have fired: their entries are rescheduled from the present. -/
def rescheduleAll (fired : List Nat) (c : Clock) : Clock :=
  { c with entries := c.entries.mapIdx fun i e => if i ∈ fired then rescheduled c.systemTime e else e }

@[simp] theorem rescheduleAll_systemTime (fired : List Nat) (c : Clock) :
    (rescheduleAll fired c).systemTime = c.systemTime := rfl

@[simp] theorem rescheduleAll_getElem? (fired : List Nat) (c : Clock) (i : Nat) :
    (rescheduleAll fired c).entries[i]? =
      c.entries[i]?.map fun e => if i ∈ fired then rescheduled c.systemTime e else e := List.getElem?_mapIdx

theorem rescheduleAll_singleton_getElem?_of_ne {i j : Nat} (h : j ≠ i) (c : Clock) :
    (rescheduleAll [i] c).entries[j]? = c.entries[j]? := by simp [h]

theorem rescheduleAll_nil (c : Clock) : rescheduleAll [] c = c :=
  congrArg (Clock.mk c.systemTime) (List.ext_getElem? fun i => by simp)

theorem rescheduleAll_cons {i : Nat} {rest : List Nat} (h : i ∉ rest) (c : Clock) :
    rescheduleAll rest (rescheduleAll [i] c) = rescheduleAll (i :: rest) c := by
  refine congrArg (Clock.mk c.systemTime) (List.ext_getElem? fun j => ?_)
  show (rescheduleAll rest (rescheduleAll [i] c)).entries[j]? = (rescheduleAll (i :: rest) c).entries[j]?
  by_cases hj : j = i
  · subst hj; simp [h, Function.comp_def]
  · simp [hj]

/-- Where no period is 0, an entry that has fired is due no longer. -/
theorem isDue_rescheduleAll_singleton {c : Clock} (hfreq : ∀ e ∈ c.entries, e.updateFrequency ≠ some 0) (i j : Nat) :
    IsDue (rescheduleAll [i] c) j ↔ IsDue c j ∧ j ≠ i := by
  by_cases hj : j = i
  · subst hj
    refine iff_of_false ?_ (fun h => h.2 rfl)
    rintro ⟨e', next, he', hnext, hle⟩
    obtain ⟨e, he, rfl⟩ := Option.map_eq_some_iff.mp ((rescheduleAll_getElem? [j] c j).symm.trans he')
    rw [if_pos List.mem_cons_self] at hnext
    obtain ⟨period, hperiod, rfl⟩ := Option.map_eq_some_iff.mp hnext
    have hpos : period ≠ 0 := fun h0 => hfreq e (List.mem_of_getElem? he) (h0 ▸ hperiod)
    simp only [rescheduleAll_systemTime] at hle
    omega
  · simp [IsDue, rescheduleAll_singleton_getElem?_of_ne hj, hj]

theorem rescheduleAll_updateFrequency {fired : List Nat} {c : Clock}
    (h : ∀ e ∈ c.entries, e.updateFrequency ≠ some 0) :
    ∀ e ∈ (rescheduleAll fired c).entries, e.updateFrequency ≠ some 0 := by
  intro e' he'
  obtain ⟨i, hi, rfl⟩ := List.mem_mapIdx.mp he'
  have hkept := h _ (List.getElem_mem hi)
  split <;> exact hkept

/-- The state after the handles `fired` have fired, first to last, each callback doing nothing. -/
def firings (fired ties : List Nat) (drawn : Nat) (s : State) : State :=
  { s with
    clock := rescheduleAll fired s.clock
    outputs := (fired.reverse.map fun i => .clockUpdate i s.clock.systemTime (elapsedOf i s.clock)) ++ s.outputs
    env := { s.env with ties := ties, drawn := drawn } }

theorem firings_nil (s : State) : firings [] s.env.ties s.env.drawn s = s := by
  simp [firings, rescheduleAll_nil]

theorem firings_cons {i : Nat} {rest : List Nat} (h : i ∉ rest) (ties ties' : List Nat) (drawn drawn' : Nat)
    (s : State) : firings rest ties' drawn' (firings [i] ties drawn s) = firings (i :: rest) ties' drawn' s := by
  have hspan : ∀ j ∈ rest, elapsedOf j (rescheduleAll [i] s.clock) = elapsedOf j s.clock := by
    intro j hj
    have hne : j ≠ i := fun hji => h (hji ▸ hj)
    unfold elapsedOf
    rw [rescheduleAll_singleton_getElem?_of_ne hne, rescheduleAll_systemTime]
  simp +contextual [firings, rescheduleAll_cons h, hspan]

theorem fire_eq_firings {s : State} (h : s.env.callbacks = []) (i : Nat) :
    fire i s = firings [i] s.env.ties s.env.drawn s := by
  have hentries : s.clock.entries.modify i (rescheduled s.clock.systemTime) = (rescheduleAll [i] s.clock).entries := by
    refine List.ext_getElem? fun j => ?_
    rw [rescheduleAll_getElem?, List.getElem?_modify]
    simp [eq_comm]
  unfold fire drawCallback
  simp only [emit, h, hentries]
  rfl

/-- One round of the firing loop: a due handle with no earlier one due fires. -/
theorem fireDue_succ_of_due {s : State} {i : Nat} {others : List Nat} (hcall : s.env.callbacks = [])
    (hdue : dueHandles s.clock = i :: others) (n : Nat) : ∃ j ∈ dueHandles s.clock, ∃ ties drawn,
      fireDue (n + 1) s = fireDue n (firings [j] ties drawn s) := by
  obtain ⟨ties, drawn, hchosen⟩ := chooseDue_state i others s
  refine ⟨(chooseDue i others s).1, hdue ▸ chooseDue_mem i others s, ties, drawn, ?_⟩
  have hround : fireDue (n + 1) s = fireDue n (fire (chooseDue i others s).1 (chooseDue i others s).2) := by
    rw [fireDue, hdue]
  rw [hround, hchosen]
  exact congrArg (fireDue n)
    (fire_eq_firings (s := { s with env := { s.env with ties := ties, drawn := drawn } }) hcall _)

/-- The handles that are due, each once, in the order of their deadlines. -/
structure DueInOrder (fired : List Nat) (c : Clock) : Prop where
  nodup : fired.Nodup
  mem_iff : ∀ i, i ∈ fired ↔ IsDue c i
  ordered : fired.Pairwise fun i j => deadlineOf c i ≤ deadlineOf c j

theorem DueInOrder.nil {c : Clock} (h : NothingDue c) : DueInOrder [] c := by
  refine ⟨.nil, fun i => iff_of_false List.not_mem_nil ?_, .nil⟩
  rintro ⟨e, next, he, hnext, hle⟩
  exact absurd (h e (List.mem_of_getElem? he) next hnext) (Nat.not_lt.mpr hle)

/-- The earliest due handle, then those that are due once it has fired. -/
theorem DueInOrder.cons {c : Clock} {first : Nat} {rest : List Nat}
    (hfreq : ∀ e ∈ c.entries, e.updateFrequency ≠ some 0) (hfirst : IsDue c first)
    (hleast : ∀ j, IsDue c j → deadlineOf c first ≤ deadlineOf c j)
    (h : DueInOrder rest (rescheduleAll [first] c)) : first ∉ rest ∧ DueInOrder (first :: rest) c := by
  have hrest : ∀ j, j ∈ rest ↔ IsDue c j ∧ j ≠ first :=
    fun j => (h.mem_iff j).trans (isDue_rescheduleAll_singleton hfreq first j)
  have hnot : first ∉ rest := fun hmem => ((hrest first).mp hmem).2 rfl
  have hdeadline : ∀ j ∈ rest, deadlineOf (rescheduleAll [first] c) j = deadlineOf c j := by
    intro j hj
    unfold deadlineOf
    rw [rescheduleAll_singleton_getElem?_of_ne ((hrest j).mp hj).2]
  refine ⟨hnot, .cons hnot h.nodup, fun j => ?_, .cons (fun j hj => hleast j ((hrest j).mp hj).1) ?_⟩
  · rw [List.mem_cons, hrest]
    by_cases hj : j = first
    · subst hj; exact iff_of_true (.inl rfl) hfirst
    · simp [hj]
  · exact h.ordered.imp_of_mem fun hj hk hle => hdeadline _ hj ▸ hdeadline _ hk ▸ hle

/-- The whole loop: with the due handles among `pending`, a bound of as many rounds lets each fire. -/
theorem fireDue_eq_firings (n : Nat) : ∀ (pending : Finset Nat) (s : State), pending.card ≤ n →
    (∀ i, IsDue s.clock i → i ∈ pending) → s.env.callbacks = [] →
    (∀ e ∈ s.clock.entries, e.updateFrequency ≠ some 0) →
    ∃ fired ties drawn, fireDue n s = .next (firings fired ties drawn s) ∧ DueInOrder fired s.clock := by
  have idle : ∀ (k : Nat) (s : State), NothingDue s.clock →
      ∃ fired ties drawn, fireDue k s = .next (firings fired ties drawn s) ∧ DueInOrder fired s.clock :=
    fun k s h => ⟨[], _, _, (fireDue_of_nothingDue h k).trans (congrArg _ (firings_nil s).symm), .nil h⟩
  induction n with
  | zero =>
    intro pending s hcard hpending _ _
    refine idle 0 s (nothingDue_of_no_isDue fun i hi => ?_)
    exact absurd (Finset.card_pos.mpr ⟨i, hpending i hi⟩) (Nat.not_lt.mpr hcard)
  | succ n ih =>
    intro pending s hcard hpending hcall hfreq
    cases hdue : dueHandles s.clock with
    | nil => exact idle (n + 1) s ((dueHandles_eq_nil _).mp hdue)
    | cons i others =>
      obtain ⟨first, hmem, ties, drawn, hround⟩ := fireDue_succ_of_due hcall hdue n
      obtain ⟨hfirst, hleast⟩ := isDue_earliest_of_mem_dueHandles hmem
      have hleft : (pending.erase first).card ≤ n := by
        rw [Finset.card_erase_of_mem (hpending first hfirst)]
        omega
      have hpendingLeft : ∀ j, IsDue (rescheduleAll [first] s.clock) j → j ∈ pending.erase first := by
        intro j hj
        obtain ⟨hdueBefore, hne⟩ := (isDue_rescheduleAll_singleton hfreq first j).mp hj
        exact Finset.mem_erase.mpr ⟨hne, hpending j hdueBefore⟩
      obtain ⟨rest, ties', drawn', hloop, horder⟩ := ih (pending.erase first) (firings [first] ties drawn s) hleft
        hpendingLeft hcall (rescheduleAll_updateFrequency hfreq)
      obtain ⟨hnot, horderAll⟩ := DueInOrder.cons hfreq hfirst hleast horder
      exact ⟨first :: rest, ties', drawn', by rw [hround, hloop, firings_cons hnot], horderAll⟩

/-- Settles O44: the bound of `clockTick` is enough for every handle to fire (`fireDue_eq_firings`). -/
theorem dueEntryFiresOnceAndIsRescheduled : Obligations.DueEntryFiresOnceAndIsRescheduled := by
  intro s n now due deadline span hcall hfreq
  obtain ⟨fired, ties, drawn, hloop, ⟨hnodup, hfired, hordered⟩⟩ :=
    fireDue_eq_firings (s.env.callbacks.length + s.clock.entries.length) (Finset.range s.clock.entries.length)
      { s with clock := { s.clock with systemTime := now } } (by simp)
      (fun _ hi => Finset.mem_range.mpr (isDue_lt_length (c := { s.clock with systemTime := now }) hi)) hcall hfreq
  have hspan : ∀ i, elapsedOf i { s.clock with systemTime := now } = span i := by
    intro i
    unfold elapsedOf span
    cases s.clock.entries[i]? <;> rfl
  refine ⟨fired, _, hloop, rfl, hnodup, hfired, hordered, ?_, rfl, List.length_mapIdx, fun i e he => ?_⟩
  · simp only [firings, hspan]
  · simp [firings, he, rescheduled]

end Sys2Proof.Machine

/-! Starts of a DMA channel that stop the machine, and `DmaRun` (62_dma R364 to R367, R370 to R375). -/

namespace Sys2Proof.Machine

open Sys2Proof.Safety

/-! The activation condition, and the start mode by mode. -/

theorem qualifies_iff (n : Fin 7) (s : State) : qualifies n s = true ↔ (s.chan n).chcr.getLsbD 24 = true ∧
    ((s.chan n).chcr.extractLsb' 9 2 ≠ 0 ∨ (s.chan n).chcr.getLsbD 28 = true) := by
  unfold qualifies
  rw [Bool.and_eq_true, Bool.or_eq_true, bne_iff_ne]
  rfl

/-- Settles O45: the condition reads the channel's CHCR alone (`qualifies_iff`). -/
theorem channelQualifiesByItsControlRegister : Obligations.ChannelQualifiesByItsControlRegister :=
  fun s n _ => ⟨qualifies_iff n s, rfl⟩

theorem hasPort_of_ne_none {n : Fin 7} {s : State} (h : s.params.dmaPorts[n] ≠ none) : hasPort n s = true :=
  have ⟨_, hclocks⟩ := Option.ne_none_iff_exists'.mp h
  hasPort_of_clocks hclocks

theorem hasPort_of_none {n : Fin 7} {s : State} (hn : n ≠ otc) (h : s.params.dmaPorts[n] = none) :
    hasPort n s = false := by
  unfold hasPort
  rw [h, beq_false_of_ne hn]
  rfl

section
variable {n : Fin 7} {s : State}

theorem dmaStart_of_noPort (hm : (s.chan n).chcr.extractLsb' 9 2 ≠ 3) (hp : hasPort n s = false) :
    dmaStart n s = .fault (.fatal .dmaNoPort) := by
  have hmode : chcrSyncMode (s.chan n).chcr ≠ 3 := hm
  unfold dmaStart
  simp only [if_neg hmode, hp]
  rfl

/-- A Request start, refused with an empty count (62 R365). -/
theorem dmaStart_request (hp : hasPort n s = true) (hm : (s.chan n).chcr.extractLsb' 9 2 = 1) :
    dmaStart n s = if bcrNumWords (s.chan n).bcr = 0 ∨ bcrNumBlocks (s.chan n).bcr = 0
      then .refused .dmaRequestZeroCount
      else dmaContinueBlocks true n (dmaLoad n (bcrNumWords (s.chan n).bcr) (bcrNumBlocks (s.chan n).bcr) s) := by
  have hmode : chcrSyncMode (s.chan n).chcr = 1 := hm
  unfold dmaStart
  simp only [hmode, hp]
  rfl

theorem dmaLoad_channels (size blocks : Nat) : (dmaLoad n size blocks s).dma.channels = triggered n s := by
  unfold dmaLoad; split <;> rfl

theorem dmaStart_list_of_fromDevice (hp : hasPort n s = true) (hm : (s.chan n).chcr.extractLsb' 9 2 = 2)
    (hd : (s.chan n).chcr.getLsbD 0 = false) : dmaStart n s = .fault (.fatal .dmaListDirection) := by
  have hmode : chcrSyncMode (s.chan n).chcr = 2 := hm
  have hdir : chcrToDevice ((dmaLoad n 0 0 s).chan n).chcr = false := by
    rw [chan_triggered n n (dmaLoad_channels 0 0), if_pos rfl]
    exact (triggered_bit _ (by decide)).trans hd
  have hstart : dmaStart n s = dmaContinueList n (dmaLoad n 0 0 s) := by
    unfold dmaStart
    simp only [hmode, hp]
    rfl
  rw [hstart]
  unfold dmaContinueList
  rw [hdir]
  rfl

end

theorem bcrNumWords_eq_zero (w : Word) : bcrNumWords w = 0 ↔ w.extractLsb' 0 16 = 0 := by
  rw [← BitVec.toNat_inj]; rfl

theorem bcrNumBlocks_eq_zero (w : Word) : bcrNumBlocks w = 0 ↔ w.extractLsb' 16 16 = 0 := by
  rw [← BitVec.toNat_inj]; rfl

/-- Settles O47: `dmaStart` check by check, in the order of R365 to R367. -/
theorem startsThatAreFatalOrRefused : Obligations.StartsThatAreFatalOrRefused := by
  refine fun s n => ⟨fun hm => if_pos hm, fun hm hn hp => dmaStart_of_noPort hm (hasPort_of_none hn hp),
    fun hp hm hd => dmaStart_list_of_fromDevice (hasPort_of_ne_none hp) hm hd, fun hp hm hzero => ?_⟩
  rw [← bcrNumWords_eq_zero, ← bcrNumBlocks_eq_zero] at hzero
  rw [dmaStart_request (hasPort_of_ne_none hp) hm, if_pos hzero]

/-! The scan of `DmaRun` (R370). -/

theorem dmaRun_of_none_qualifies {s : State} (ha : s.dma.active = none) (h : ∀ n, qualifies n s = false) :
    dmaRun s = .next s := by
  have hfind : dmaChannels.find? (fun n => qualifies n s) = none := List.find?_eq_none.mpr fun n _ => by simp [h n]
  unfold dmaRun
  rw [ha]
  simp only [hfind]

theorem dmaChannels_eq_finRange : dmaChannels = List.finRange 7 := by decide

/-- The scan finds the lowest channel that qualifies. -/
theorem find_lowest_qualifying {n : Fin 7} {s : State} (h : qualifies n s = true)
    (hlow : ∀ m, m < n → qualifies m s = false) : dmaChannels.find? (fun n => qualifies n s) = some n := by
  rw [dmaChannels_eq_finRange, List.find?_eq_some_iff_getElem]
  refine ⟨h, n.val, by simp, by simp, fun j hj => ?_⟩
  simp [hlow ⟨j, by omega⟩ hj]

theorem dmaRun_of_qualifies {n : Fin 7} {s : State} (ha : s.dma.active = none) (h : qualifies n s = true)
    (hlow : ∀ m, m < n → qualifies m s = false) : dmaRun s = dmaStart n s := by
  unfold dmaRun
  rw [ha]
  simp only [find_lowest_qualifying h hlow]

/-! The resumption of a suspended Request transfer (R371 to R374). -/

theorem dmaRun_of_active {n : Fin 7} {s : State} (ha : s.dma.active = some n) :
    dmaRun s = dmaBlocks true n s.dma.blocksLeft.toNat s := by
  unfold dmaRun
  rw [ha]
  rfl

/-- One sample of a port whose next answer the environment lists. -/
theorem portReady_eq {n : Fin 7} (hn : n ≠ otc) {s : State} {answer : Option Nat} {rest : List (Option Nat)}
    (h : s.env.waits = answer :: rest) :
    portReady n s = (answer == some 0, portMoves 1 rest [.portPoll n (answer == some 0)] s) := by
  unfold portReady drawWait
  rw [if_neg hn, h]
  exact congrArg _ (portPoll_eq n _ _)

/-- What follows a block, with `left` blocks left before it: the completion after the last, else the next poll. -/
def afterBlock (n : Fin 7) (left : BitVec 17) (s : State) : Result :=
  if left = 1 then .next (dmaComplete n s) else dmaRun s

theorem dmaBlocks_eq_afterBlock {n : Fin 7} {s : State} {left : BitVec 17} {k : Nat} (hk : left.toNat = k + 1)
    (ha : s.dma.active = some n) (hl : s.dma.blocksLeft = left - 1) : dmaBlocks true n k s = afterBlock n left s := by
  have hone : (1 : BitVec 17).toNat = 1 := rfl
  have hleft : s.dma.blocksLeft.toNat = k := by
    rw [hl, BitVec.toNat_sub, hone]
    have := left.isLt
    omega
  have hlast : left = 1 ↔ k = 0 := by rw [← BitVec.toNat_inj, hone]; omega
  unfold afterBlock
  rw [dmaRun_of_active ha, hleft]
  by_cases h0 : k = 0
  · rw [if_pos (hlast.mpr h0), h0]; rfl
  · rw [if_neg (mt hlast.mp h0)]

theorem andThen_congr {r : Result} {f g : State → Result} (h : ∀ u, r = .next u → f u = g u) :
    andThen r f = andThen r g := by
  cases r with
  | next u => exact h u rfl
  | fault e => rfl
  | refused e => rfl

/-- The words of a block to the device, after the poll before it. -/
theorem wordsSent_polled (n : Fin 7) (address : Nat → Word) (k : Nat) (rest : List (Option Nat)) (s : State) :
    wordsSent n address k (portMoves 1 rest [.portPoll n true] s) = { s with
      clock := (s.env.requests.take (k + 1)).flatten.foldl applyRequest s.clock
      env := { s.env with waits := rest, requests := s.env.requests.drop (k + 1) }
      dma := { s.dma with ramAddress := address k }
      outputs := (List.range k).reverse.map (fun j => Output.portWrite n (wordAt s.mem (address j).toNat)) ++
        .portPoll n true :: s.outputs } := by
  unfold wordsSent
  rw [portMoves_portMoves, Nat.add_comm]
  simp [portMoves]

/-- The words of a block from the device, after the poll before it. -/
theorem wordsStored_polled (n : Fin 7) (address : Nat → Word) (k : Nat) (rest : List (Option Nat)) (s : State) :
    wordsStored n address k (portMoves 1 rest [.portPoll n true] s) = { s with
      clock := (s.env.requests.take (k + 1)).flatten.foldl applyRequest s.clock
      env := { s.env with
        waits := rest, requests := s.env.requests.drop (k + 1), words := s.env.words.drop k }
      dma := { s.dma with ramAddress := address k }
      mem := wordsWritten s.mem address (fun j => s.env.words.getD j 0) k
      outputs := (s.env.words.take k).reverse.map (.portRead n) ++ .portPoll n true :: s.outputs } := by
  unfold wordsStored
  show ({ portMoves k rest _ (portMoves 1 rest [.portPoll n true] { s with
    env := { s.env with words := s.env.words.drop k } }) with dma := _, mem := _ } : State) = _
  rw [portMoves_portMoves, Nat.add_comm]
  simp [portMoves]

/-- One block: its words, then its tick. -/
theorem dmaBlock_eq_tick {n : Fin 7} {s v : State} (hwords : dmaWords n s.dma.blockSize.toNat s = .next v) :
    dmaBlock n s = clockTick (portClocks n s * s.dma.blockSize.toNat)
      { v with dma := { v.dma with blocksLeft := s.dma.blocksLeft - 1 } } := by
  obtain ⟨hmoves, -, hleft, hsize, -⟩ := dmaWords_moves _ hwords
  unfold dmaBlock
  rw [hwords]
  show clockTick (portClocks n v * v.dma.blockSize.toNat)
    { v with dma := { v.dma with blocksLeft := v.dma.blocksLeft - 1 } } = _
  rw [hsize, hleft, portClocks_congr n hmoves.params]

section
variable {n : Fin 7} {s : State} {rest : List (Option Nat)} (hn : n ≠ otc) (ha : s.dma.active = some n)
  (hleft : s.dma.blocksLeft ≠ 0)
include hn ha hleft

/-- A resumption polls the port, and goes on with a block or stays suspended. -/
theorem dmaRun_polls {answer : Option Nat} (hw : s.env.waits = answer :: rest) :
    ∃ k, s.dma.blocksLeft.toNat = k + 1 ∧ dmaRun s = if answer = some 0
      then andThen (dmaBlock n (portMoves 1 rest [.portPoll n true] s)) (dmaBlocks true n k)
      else .next (portMoves 1 rest [.portPoll n false] s) := by
  obtain ⟨k, hk⟩ := Nat.exists_eq_succ_of_ne_zero fun h0 => hleft (BitVec.eq_of_toNat_eq h0)
  refine ⟨k, hk, ?_⟩
  rw [dmaRun_of_active ha, hk]
  unfold dmaBlocks
  rw [portReady_eq hn hw]
  by_cases h : answer = some 0
  · rw [if_pos h, h]; rfl
  · rw [if_neg h, beq_false_of_ne h]; rfl

theorem dmaRun_of_not_ready {answer : Option Nat} (hw : s.env.waits = answer :: rest) (h : answer ≠ some 0) :
    dmaRun s = .next (portMoves 1 rest [.portPoll n false] s) := by
  obtain ⟨k, -, hrun⟩ := dmaRun_polls hn ha hleft hw
  rw [hrun, if_neg h]

/-- A block behind a ready port: its words, its tick, then the next poll or the completion. -/
theorem dmaRun_of_ready {v : State} (hw : s.env.waits = some 0 :: rest)
    (hwords : dmaWords n s.dma.blockSize.toNat (portMoves 1 rest [.portPoll n true] s) = .next v) :
    dmaRun s = andThen (clockTick (portClocks n s * s.dma.blockSize.toNat)
      { v with dma := { v.dma with blocksLeft := s.dma.blocksLeft - 1 } }) (afterBlock n s.dma.blocksLeft) := by
  obtain ⟨k, hk, hrun⟩ := dmaRun_polls hn ha hleft hw
  obtain ⟨-, hactive, -⟩ := dmaWords_moves _ hwords
  rw [hrun, if_pos rfl, dmaBlock_eq_tick hwords]
  refine andThen_congr fun u hu => ?_
  have hdma := (clockTick_next hu).1.dma
  exact dmaBlocks_eq_afterBlock hk (by rw [hdma]; exact hactive.trans ha) (by rw [hdma]; rfl)

end

/-! A Request start. -/

theorem dmaStart_request_eq_dmaRun {n : Fin 7} {s : State} (hp : hasPort n s = true)
    (hm : (s.chan n).chcr.extractLsb' 9 2 = 1) (hwords : (s.chan n).bcr.extractLsb' 0 16 ≠ 0)
    (hblocks : (s.chan n).bcr.extractLsb' 16 16 ≠ 0) :
    dmaStart n s = dmaRun (dmaLoad n (bcrNumWords (s.chan n).bcr) (bcrNumBlocks (s.chan n).bcr) s) := by
  rw [ne_eq, ← bcrNumWords_eq_zero] at hwords
  rw [ne_eq, ← bcrNumBlocks_eq_zero] at hblocks
  rw [dmaStart_request hp hm, if_neg (not_or.mpr ⟨hwords, hblocks⟩), dmaRun_of_active (dmaLoad_active n _ _ s).1]
  rfl

/-- A 16-bit count as the 17-bit registers of the engine hold it. -/
theorem ofNat_toNat_eq_append (w : BitVec 16) : BitVec.ofNat 17 w.toNat = 0#1 ++ w := by
  apply BitVec.eq_of_toNat_eq
  rw [BitVec.toNat_append, BitVec.toNat_ofNat]
  have := w.isLt
  simp
  omega

/-- Settles O50: the scan, the start as a resumption, and the block of a resumption as a run of `dmaWord` from the saved
pointer. -/
theorem dmaRunStartsOrResumesOneChannel : Obligations.DmaRunStartsOrResumesOneChannel := by
  intro s
  refine ⟨dmaRun_of_none_qualifies, fun n => dmaRun_of_qualifies, fun n hn hp hm hwords hblocks => ?_,
    fun n clocks answer rest hok ha hp hw => ?_⟩
  · refine ⟨_, dmaStart_request_eq_dmaRun (hasPort_of_ne_none hp) hm hwords hblocks, ?_,
      fun m => chan_triggered n m (dmaLoad_channels _ _)⟩
    rw [dmaLoad_port hn, ← ofNat_toNat_eq_append, ← ofNat_toNat_eq_append]
    rfl
  obtain ⟨-, haligned, -, hactive, hotc, -, hsize, -⟩ := hok
  have hn : n ≠ otc := fun h => hotc (ha.trans (congrArg some h))
  have hleft : s.dma.blocksLeft ≠ 0 := fun h => by rw [hactive.mpr h] at ha; cases ha
  intro chcr size address next block requests env
  have hwalk : PointerWalk chcr address := ramPointer_walk haligned rfl
  have hfirst : s.dma.ramAddress = address 0 := (ramPointer_zero haligned).symm
  refine ⟨dmaRun_of_not_ready hn ha hleft hw, fun h hd => ?_, fun words more h hd hmem henv hlen => ?_⟩
  · subst h
    have hsent := dmaWords_sent (s := portMoves 1 rest [.portPoll n true] s) hn hd hwalk hfirst size
    rw [dmaRun_of_ready hn ha hleft hw hsent, portClocks_of_clocks hn hp, wordsSent_polled]
    rfl
  · subst h
    have hcovers : size ≤ s.env.words.length := by rw [henv, List.length_append]; omega
    have htake : s.env.words.take size = words := by rw [henv, List.take_left' hlen]
    have hdrop : s.env.words.drop size = more := by rw [henv, List.drop_left' hlen]
    have hword : ∀ j, j < words.length → s.env.words.getD j 0 = words.getD j 0 := fun j hj => by
      rw [henv]; exact List.getD_append _ _ _ _ hj
    have hstored := dmaWords_stored (s := portMoves 1 rest [.portPoll n true] s) hn hd hwalk hfirst size hcovers
    have hmemory := wordsWritten_stored hmem address _ (ramPointer_apart chcr s.dma.ramAddress (by omega)) hword
    rw [dmaRun_of_ready hn ha hleft hw hstored, portClocks_of_clocks hn hp, wordsStored_polled, htake, hdrop]
    exact ⟨_, rfl, hlen ▸ hmemory, rfl⟩

end Sys2Proof.Machine

/-! Reset and construction (70_reset_and_hazards R400 to R402). -/

namespace Sys2Proof.Machine

open Sys2Proof.Safety

theorem reset_line_valid (l : BitVec 8) (j : Fin 4) : (State.reset.line l).valid[j] = false := by
  simp [State.line, State.reset, CacheLine.reset]

theorem reset_chan (n : Fin 7) : State.reset.chan n = .reset (if n = 6 then 0x00000002 else 0) := by
  revert n; decide

/-- Settles O53: the lines and the channels by `reset_line_valid` and `reset_chan`, the rest as `State.reset` writes it. -/
theorem resetLeavesTheStatedValues : Obligations.ResetLeavesTheStatedValues :=
  ⟨rfl, rfl, rfl, rfl, rfl, rfl, rfl, rfl, rfl, rfl, reset_line_valid, rfl, rfl, rfl,
    fun n => by rw [reset_chan]; exact ⟨rfl, rfl, rfl⟩, fun n => by rw [reset_chan]; rfl,
    rfl, rfl, rfl, rfl, rfl, rfl, rfl, rfl, rfl⟩

theorem constructed_cpuOk (p : Platform) (clock : Clock) : CpuOk (constructed p clock) :=
  ⟨Vector.getElem_set_self _, BitVec.zero_and, rfl, rfl, rfl⟩

/-- The reset channels suit the masks of every platform. -/
theorem channelOk_reset (p : Params) (n : Fin 7) : ChannelOk p n (.reset (if n = 6 then 0x00000002 else 0)) := by
  refine ⟨BitVec.zero_and, ?_⟩
  split
  · refine ⟨rfl, ?_⟩
    show (2 : Word) &&& ~~~(p.dmaChcrMaskOtc ||| 2) = 0
    rw [BitVec.not_or, BitVec.and_comm, BitVec.and_assoc]
    exact BitVec.and_zero
  · exact BitVec.zero_and

theorem constructed_dmaOk (p : Platform) (clock : Clock) : DmaOk (constructed p clock) :=
  have hchan (n : Fin 7) : ChannelOk p.params n (State.reset.chan n) := reset_chan n ▸ channelOk_reset p.params n
  dmaOk_of_core ⟨hchan, BitVec.zero_and, BitVec.zero_and, Nat.zero_le _⟩ ⟨fun _ => rfl, fun _ => rfl⟩ nofun
    (Nat.zero_le _) fun _ => rfl

/-- Settles O54: the default platform constructs the reset state, and the invariants read what no platform sets, or a
value that suits them. -/
theorem resetMeetsTheInvariants : Obligations.ResetMeetsTheInvariants := by
  have hdefault : construct {} = .next State.reset := rfl
  have hall : ∀ p t, construct p = .next t → MemoryOk t ∧ CpuOk t ∧ DmaOk t := by
    intro p t h
    obtain ⟨clock, rfl, -⟩ := construct_next h
    exact ⟨constructed_memoryOk p _, constructed_cpuOk p _, constructed_dmaOk p _⟩
  exact ⟨hdefault, hall _ _ hdefault, hall⟩

end Sys2Proof.Machine
